-- ==== Sys2Proof/Word.lean ====
section
/-! DEFINITION. The word types of the CORE (R14, R60) and the 8×8 block container (R32, R33). -/

namespace Sys2Proof

/-- A control register, a command word, an `ERRINFO` word: 32 bits, bit 31 the most significant (R14, R22). -/
abbrev Word32 := BitVec 32

/-- An element of an `INT16` space (R14, R60), two's complement. -/
abbrev I16 := BitVec 16

/-- An element of an `INT32` space (R14, R60), two's complement. -/
abbrev I32 := BitVec 32

/-- An element of a `REAL` space under `ARITH = binary64` (R11, R66): its 64 bits. -/
abbrev F64 := BitVec 64

/-- Eight like things, indexed 0..7: a row of a block, or the eight rows of one. -/
structure Oct (α : Type) where
  e0 : α
  e1 : α
  e2 : α
  e3 : α
  e4 : α
  e5 : α
  e6 : α
  e7 : α
deriving DecidableEq, Repr

/-- The entry of an octet at an index 0..7. -/
def Oct.get {α : Type} (o : Oct α) (i : Fin 8) : α :=
  match i.val with
  | 0 => o.e0
  | 1 => o.e1
  | 2 => o.e2
  | 3 => o.e3
  | 4 => o.e4
  | 5 => o.e5
  | 6 => o.e6
  | _ => o.e7

/-- The octet whose entry at `i` is `f i`. -/
def Oct.ofFn {α : Type} (f : Fin 8 → α) : Oct α :=
  ⟨f 0, f 1, f 2, f 3, f 4, f 5, f 6, f 7⟩

/-- An 8×8 block, row `i` then column `j` (R18, R32, R33): 64 elements, never fewer or more. -/
abbrev Block (α : Type) := Oct (Oct α)

/-- `M[i][j]` (R18). -/
def Block.at {α : Type} (b : Block α) (i j : Fin 8) : α := (Oct.get b i).get j

/-- The block with `M[i][j] = f i j`. -/
def Block.ofFn {α : Type} (f : Fin 8 → Fin 8 → α) : Block α :=
  Oct.ofFn fun i => Oct.ofFn fun j => f i j

end Sys2Proof
end

