-- ==== Sys2Proof/Syntax.lean ====
section
/-! DEFINITION. The 23 commands of the opcode map (R92) and the fields of a command word (R90). -/

namespace Sys2Proof

/-- The channel operand (R93): 0 = Y, 1 = Cb, 2 = Cr. The fourth code of the field is no channel. -/
inductive Channel where
  | y
  | cb
  | cr
deriving DecidableEq, Repr

/-- The three like things of a channel family, such as `PLN[0..2]` (R60, R93). -/
structure Chan3 (α : Type) where
  y : α
  cb : α
  cr : α
deriving DecidableEq, Repr

/-- The same thing for the three channels. -/
def Chan3.all {α : Type} (a : α) : Chan3 α := ⟨a, a, a⟩

/-- One constructor per row of the opcode table (R92); `ch` is the operand of a format-C command (R91). -/
inductive Instr where
  | nop
  | clrerr
  | srst
  | rgb2ycc
  | ycc2rgb
  | fdct8
  | idct8
  | quant
  | dequant
  | pack (ch : Channel)
  | unpack (ch : Channel)
  | ldblk (ch : Channel)
  | stblk (ch : Channel)
  | ldqblk (ch : Channel)
  | stqblk (ch : Channel)
  | center
  | uncenter
  | trst
  | tnext
  | fqplane (ch : Channel)
  | dqiplane (ch : Channel)
  | encode
  | decode
deriving DecidableEq, Repr

/-- The two formats of a command word (R91): `n` without operand, `c` with a channel operand. -/
inductive OpFormat where
  | n
  | c
deriving DecidableEq, Repr

/-- The fields of a command word (R90): `OPC` bits 7:0, `CH` bits 9:8, `RSV` bits 31:10. -/
structure CmdWord where
  opc : BitVec 8
  ch : BitVec 2
  rsv : BitVec 22
deriving DecidableEq, Repr

/-- The channel operand of a command, for a format-C command. -/
def Instr.channel : Instr → Option Channel
  | .nop => none
  | .clrerr => none
  | .srst => none
  | .rgb2ycc => none
  | .ycc2rgb => none
  | .fdct8 => none
  | .idct8 => none
  | .quant => none
  | .dequant => none
  | .pack ch => some ch
  | .unpack ch => some ch
  | .ldblk ch => some ch
  | .stblk ch => some ch
  | .ldqblk ch => some ch
  | .stqblk ch => some ch
  | .center => none
  | .uncenter => none
  | .trst => none
  | .tnext => none
  | .fqplane ch => some ch
  | .dqiplane ch => some ch
  | .encode => none
  | .decode => none

end Sys2Proof
end

