-- ==== Sys2Proof/Config.lean ====
section
/-! DEFINITION. The parameters of the step relation (R8, R9, R21) and the free values of the model. -/

namespace Sys2Proof

/-- The parameter `ARITH` (R9): the constants and operations of the carrier `R` in which every formula of the spec is
written. `lit n k` is the decimal literal `n / 10^k`; `prom i j` is the transform matrix entry `P[i][j]`, whose
contents depend on `ARITH` (R131, R132). -/
structure Arith (R : Type) where
  lit : Nat → Nat → R
  add : R → R → R
  sub : R → R → R
  mul : R → R → R
  div : R → R → R
  neg : R → R
  ofInt : Int → R
  lt : R → R → Bool
  finite : R → Bool
  toIntHAZ : R → Int
  toIntTRUNC : R → Int
  prom : Fin 8 → Fin 8 → R

/-- The parameters of the machine (R8, R21, U10). -/
structure Config where
  /-- `ARITH`: the arithmetic of the buffers (R9). -/
  arith : Arith F64
  /-- `MAXH`: the largest height the buffers hold (R61). -/
  maxH : Nat
  /-- `MAXW`: the largest width the buffers hold (R61). -/
  maxW : Nat
  /-- `QTABLE` (R151). -/
  qtable : Block I16
  /-- `BYTES_PER_SAMPLE`: the size of one uncompressed sample in the compression-ratio report (R182), OPEN. -/
  bytesPerSample : Nat
  /-- `REG_BASE`: the address of the register window in the host's address space (R41, R68), OPEN. -/
  regBase : Nat
  /-- `CORE_VERSION`: informative, read by no rule (R8). -/
  coreVersion : Nat

/-- Which operation delivered a NaN (R11); the free value below may depend on it. The four are independent: R11 relates the
NaN of none of them to that of another. -/
inductive NanSource where
  | add
  | sub
  | mul
  | div
deriving DecidableEq, Repr

/-- FREE VALUE (log entry 3): the sign and payload bits of a NaN result, which R11 does not state. -/
opaque Config.nanBits : NanSource → F64 → F64 → F64

/-- FREE VALUE (log entry 1): element `8*i+j` of `BLK` after a hardware reset, unspecified (R40, R270). -/
opaque Config.blkAtReset : Nat → F64

/-- FREE VALUE (log entry 1): element `8*i+j` of `QBLK` after a hardware reset, unspecified (R40, R270). -/
opaque Config.qblkAtReset : Nat → I16

/-- FREE VALUE (log entry 19): the OPEN parameter `BYTES_PER_SAMPLE` (R8, R182), to which no value may be given. -/
opaque Config.openBytesPerSample : Nat

/-- FREE VALUE (log entry 19): the OPEN parameter `REG_BASE` (R41, U10), to which no value may be given. -/
opaque Config.openRegBase : Nat

end Sys2Proof
end

