-- ==== Sys2Proof/Machine/Binary64.lean ====
section
/-! DEFINITION. `ARITH = binary64` (R11): IEEE 754 binary64, each operation computed exactly and rounded once to nearest,
ties to even. A finite number is `± magnitude * 2^-1074` with a natural magnitude, so every exact result is a rational
number of units of `2^-1074`. -/

namespace Sys2Proof.Machine

/-- Sign bit, bit 63. -/
def f64Sign (x : F64) : Bool := x.getLsbD 63

/-- Biased exponent, bits 62:52. -/
def f64Exp (x : F64) : Nat := x.toNat / 2 ^ 52 % 2048

/-- Fraction, bits 51:0. -/
def f64Frac (x : F64) : Nat := x.toNat % 2 ^ 52

/-- Neither an infinity nor a NaN. -/
def f64Finite (x : F64) : Bool := f64Exp x != 2047

/-- A NaN: exponent all ones, fraction not zero. -/
def f64IsNaN (x : F64) : Bool := f64Exp x == 2047 && f64Frac x != 0

/-- An infinity: exponent all ones, fraction zero. -/
def f64IsInf (x : F64) : Bool := f64Exp x == 2047 && f64Frac x == 0

/-- The magnitude of a finite number in units of `2^-1074`. -/
def f64Mag (x : F64) : Nat :=
  if f64Exp x = 0 then f64Frac x else (2 ^ 52 + f64Frac x) * 2 ^ (f64Exp x - 1)

/-- The value of a finite number in units of `2^-1074`. -/
def f64Units (x : F64) : Int := if f64Sign x then -(f64Mag x : Int) else (f64Mag x : Int)

/-- One, in units of `2^-1074`. -/
def unit64 : Nat := 2 ^ 1074

/-- The bits of infinity without sign; also the least bit pattern that is not finite. -/
def infBits : Nat := 2047 * 2 ^ 52

/-- The number with a sign and the bits below it. -/
def withSign (neg : Bool) (bits : Nat) : F64 := BitVec.ofNat 64 (if neg then 2 ^ 63 + bits else bits)

/-- The bits below the sign of `n / d` units of `2^-1074` rounded to nearest, ties to even; overflow gives infinity (R11).
`e` is the number of low bits of `n / d` that do not fit 53 bits. -/
def roundBits (n d : Nat) : Nat :=
  let e := Nat.log2 (n / d) + 1 - 53
  let step := d * 2 ^ e
  let m := n / step
  let r := n % step
  let up := if step < 2 * r ∨ (2 * r = step ∧ m % 2 = 1) then 1 else 0
  min (e * 2 ^ 52 + m + up) infBits

/-- `± n / d` units of `2^-1074`, rounded (R11). -/
def roundUnits (neg : Bool) (n d : Nat) : F64 := withSign neg (roundBits n d)

/-- A NaN result: quiet, its sign and payload a free value (R11; log entry 3). -/
def nanResult (src : NanSource) (x y : F64) : F64 := 0x7FF8000000000000#64 ||| Config.nanBits src x y

/-- Exact sign change (R114). -/
def f64Neg (x : F64) : F64 := x ^^^ 0x8000000000000000#64

/-- The sum rounded (R11), or `nan` where there is none. An exact zero sum of opposite signs is `+0`. -/
def f64Sum (nan x y : F64) : F64 :=
  if f64IsNaN x || f64IsNaN y then nan
  else if f64IsInf x then (if f64IsInf y && f64Sign x != f64Sign y then nan else x)
  else if f64IsInf y then y
  else
    let u := f64Units x + f64Units y
    roundUnits (if u = 0 then f64Sign x && f64Sign y else decide (u < 0)) u.natAbs 1

/-- Correctly rounded sum (R11). -/
def f64Add (x y : F64) : F64 := f64Sum (nanResult .add x y) x y

/-- Correctly rounded difference (R11): the value of `x + (-y)`. Its NaN bits are a free value of their own, not those of the
sum (log entry 3). -/
def f64Sub (x y : F64) : F64 := f64Sum (nanResult .sub x y) x (f64Neg y)

/-- Correctly rounded product (R11). -/
def f64Mul (x y : F64) : F64 :=
  let neg := f64Sign x != f64Sign y
  if f64IsNaN x || f64IsNaN y then nanResult .mul x y
  else if f64IsInf x || f64IsInf y then
    (if f64Mag x = 0 ∨ f64Mag y = 0 then nanResult .mul x y else withSign neg infBits)
  else roundUnits neg (f64Mag x * f64Mag y) unit64

/-- Correctly rounded quotient (R11). -/
def f64Div (x y : F64) : F64 :=
  let neg := f64Sign x != f64Sign y
  if f64IsNaN x || f64IsNaN y then nanResult .div x y
  else if f64IsInf x then (if f64IsInf y then nanResult .div x y else withSign neg infBits)
  else if f64IsInf y then withSign neg 0
  else if f64Mag y = 0 then (if f64Mag x = 0 then nanResult .div x y else withSign neg infBits)
  else roundUnits neg (f64Mag x * unit64) (f64Mag y)

/-- Order position of a number that is no NaN: both zeros are 0. -/
def f64Key (x : F64) : Int :=
  if f64Sign x then -((x.toNat % 2 ^ 63 : Nat) : Int) else ((x.toNat % 2 ^ 63 : Nat) : Int)

/-- Strict IEEE order (R11): false when an operand is a NaN. -/
def f64Lt (x y : F64) : Bool := !f64IsNaN x && !f64IsNaN y && decide (f64Key x < f64Key y)

/-- The binary64 number nearest to `n / 10^k` (R11). -/
def f64Lit (n k : Nat) : F64 := roundUnits false (n * unit64) (10 ^ k)

/-- An integer as binary64 (R11): exact below 2^53. -/
def f64OfInt (n : Int) : F64 := roundUnits (decide (n < 0)) (n.natAbs * unit64) 1

/-- An integer with the sign of a number. -/
def signedInt (x : F64) (n : Nat) : Int := if f64Sign x then -(n : Int) else (n : Int)

/-- `sgn(x) * floor(|x| + 1/2)` on the exact value (R16). Used on finite numbers only (R152). -/
def f64ToIntHAZ (x : F64) : Int := signedInt x ((2 * f64Mag x + unit64) / (2 * unit64))

/-- `sgn(x) * floor(|x|)` on the exact value (R16). Used on finite numbers only (R152). -/
def f64ToIntTRUNC (x : F64) : Int := signedInt x (f64Mag x / unit64)

/-! ## The ROM `PROM` (R132) -/

/-- The seven magnitudes `c1` to `c7` (R132); 0 for any other index, which the table does not hold. -/
def cosBits (m : Nat) : F64 :=
  match m with
  | 1 => 0x3FDF6297CFF75CB0#64
  | 2 => 0x3FDD906BCF328D46#64
  | 3 => 0x3FDA9B66290EA1A3#64
  | 4 => 0x3FD6A09E667F3BCD#64
  | 5 => 0x3FD1C73B39AE68C8#64
  | 6 => 0x3FC87DE2A6AEA963#64
  | 7 => 0x3FB8F8B83C69A60B#64
  | _ => 0#64

/-- The signs and magnitude indices of `P` (R131): the entry `-7` is `-c7`. -/
def cosIndex : Block Int :=
  { e0 := ⟨4, 4, 4, 4, 4, 4, 4, 4⟩
    e1 := ⟨1, 3, 5, 7, -7, -5, -3, -1⟩
    e2 := ⟨2, 6, -6, -2, -2, -6, 6, 2⟩
    e3 := ⟨3, -7, -1, -5, 5, 1, 7, -3⟩
    e4 := ⟨4, -4, -4, 4, 4, -4, -4, 4⟩
    e5 := ⟨5, -1, 7, 3, -3, -7, 1, -5⟩
    e6 := ⟨6, -2, 2, -6, -6, 2, -2, 6⟩
    e7 := ⟨7, -5, 3, -1, 1, -3, 5, -7⟩ }

/-- `P[i][j]` in binary64 (R132): the magnitude's bits, bit 63 set for a negative entry. -/
def f64Prom (i j : Fin 8) : F64 :=
  let c := cosIndex.at i j
  if c < 0 then f64Neg (cosBits c.natAbs) else cosBits c.natAbs

/-- `ARITH = binary64` (R9, R11). -/
def binary64 : Arith F64 :=
  { lit := f64Lit
    add := f64Add
    sub := f64Sub
    mul := f64Mul
    div := f64Div
    neg := f64Neg
    ofInt := f64OfInt
    lt := f64Lt
    finite := f64Finite
    toIntHAZ := f64ToIntHAZ
    toIntTRUNC := f64ToIntTRUNC
    prom := f64Prom }

end Sys2Proof.Machine
end

