-- ==== Sys2Proof/Machine/Hardware.lean ====
section
/-! DEFINITION. The parameters this hardware takes (R8): `ARITH = binary64`, `MAXH = MAXW = 4096`, the default `QTABLE`
(R151), `CORE_VERSION = 7`, and the OPEN parameters as arguments without a value. -/

namespace Sys2Proof.Machine

/-- The default quantization table (R151, from general knowledge as the rule says; log entry 7). -/
def defaultQ : Block I16 :=
  { e0 := ⟨16, 11, 10, 16, 24, 40, 51, 61⟩
    e1 := ⟨12, 12, 14, 19, 26, 58, 60, 55⟩
    e2 := ⟨14, 13, 16, 24, 40, 57, 69, 56⟩
    e3 := ⟨14, 17, 22, 29, 51, 87, 80, 62⟩
    e4 := ⟨18, 22, 37, 56, 68, 109, 103, 77⟩
    e5 := ⟨24, 35, 55, 64, 81, 104, 113, 92⟩
    e6 := ⟨49, 64, 78, 87, 103, 121, 120, 101⟩
    e7 := ⟨72, 92, 95, 98, 112, 100, 103, 99⟩ }

/-- The configuration of the machine that `step` runs (R8; log entry 6); the OPEN parameters stay free (log entry 19). -/
def hw : Config :=
  { arith := binary64
    maxH := 4096
    maxW := 4096
    qtable := defaultQ
    bytesPerSample := Config.openBytesPerSample
    regBase := Config.openRegBase
    coreVersion := 7 }

/-- The constraints on a configuration (R8, R61, R151): both limits multiples of 8, `MAXH*MAXW <= 2^31 - 1`, every table
entry in 1..32767 (the upper bound is that of the entry's type). -/
def legalConfig (cfg : Config) : Prop :=
  cfg.maxH % 8 = 0 ∧ cfg.maxW % 8 = 0 ∧ cfg.maxH * cfg.maxW ≤ 2 ^ 31 - 1 ∧
    ∀ i j : Fin 8, 1 ≤ (cfg.qtable.at i j).toInt

end Sys2Proof.Machine
end

