-- ==== Sys2Proof/WellFormed.lean ====
section
/-! DEFINITION. What makes a command word legal (R91, R92, R94): the three checks, on its fields. -/

namespace Sys2Proof

/-- The assigned operation codes and their formats (the table of R92). -/
def opFormat (opc : BitVec 8) : Option OpFormat :=
  match opc.toNat with
  | 0x00 => some .n
  | 0x01 => some .n
  | 0x02 => some .n
  | 0x10 => some .n
  | 0x11 => some .n
  | 0x20 => some .n
  | 0x21 => some .n
  | 0x30 => some .n
  | 0x31 => some .n
  | 0x40 => some .c
  | 0x41 => some .c
  | 0x50 => some .c
  | 0x51 => some .c
  | 0x52 => some .c
  | 0x53 => some .c
  | 0x54 => some .n
  | 0x55 => some .n
  | 0x56 => some .n
  | 0x57 => some .n
  | 0x60 => some .c
  | 0x61 => some .c
  | 0x70 => some .n
  | 0x71 => some .n
  | _ => none

/-- Check 1 of R92: the operation code is assigned. -/
def CmdWord.opcAssigned (c : CmdWord) : Bool := (opFormat c.opc).isSome

/-- Check 2 of R92: the reserved field is zero. -/
def CmdWord.rsvZero (c : CmdWord) : Bool := c.rsv == 0#22

/-- Check 3 of R92: `CH` is 0 in format N and 0, 1 or 2 in format C. -/
def CmdWord.chLegal (c : CmdWord) : Bool :=
  match opFormat c.opc with
  | some .n => c.ch == 0#2
  | some .c => c.ch != 3#2
  | none => false

/-- A legal command word (R92): all three checks pass. Every other word is illegal (R94). -/
def CmdWord.wellFormed (c : CmdWord) : Bool :=
  c.opcAssigned && c.rsvZero && c.chLegal

/-- The 2-bit code of a channel (R93). -/
def Channel.code : Channel → BitVec 2
  | .y => 0#2
  | .cb => 1#2
  | .cr => 2#2

/-- An instruction is well formed when its channel operand, if it has one, is a legal code (R91). `Channel` has
exactly the three legal codes, so every instruction term is well formed; the checks that can fail are those of
`CmdWord.wellFormed`, on the raw fields. -/
def Instr.wellFormed (i : Instr) : Bool :=
  match i.channel with
  | none => true
  | some ch => ch.code != 3#2

end Sys2Proof
end

