-- ==== Sys2Proof/Decode.lean ====
section
/-! DEFINITION. Decoding of a command word, total on all 2^32 values (R92), and the encoder (R90, R91, R92). -/

namespace Sys2Proof

/-- Why a command word is illegal: the sub-codes of `IllegalCommand` (R92, R241). -/
inductive Illegal where
  /-- Sub 1: the operation code is not assigned. -/
  | opcode
  /-- Sub 2: a bit of the reserved field is set. -/
  | reserved
  /-- Sub 3: `CH` is not 0 in format N, or is 3 in format C. -/
  | channel
deriving DecidableEq, Repr

/-- What a row of the opcode map stands for: a format-N command, or a format-C command awaiting its channel. -/
inductive OpRow where
  | n (i : Instr)
  | c (mk : Channel → Instr)

/-- The opcode map (R92). -/
def opRow (opc : Nat) : Option OpRow :=
  match opc with
  | 0x00 => some (.n .nop)
  | 0x01 => some (.n .clrerr)
  | 0x02 => some (.n .srst)
  | 0x10 => some (.n .rgb2ycc)
  | 0x11 => some (.n .ycc2rgb)
  | 0x20 => some (.n .fdct8)
  | 0x21 => some (.n .idct8)
  | 0x30 => some (.n .quant)
  | 0x31 => some (.n .dequant)
  | 0x40 => some (.c .pack)
  | 0x41 => some (.c .unpack)
  | 0x50 => some (.c .ldblk)
  | 0x51 => some (.c .stblk)
  | 0x52 => some (.c .ldqblk)
  | 0x53 => some (.c .stqblk)
  | 0x54 => some (.n .center)
  | 0x55 => some (.n .uncenter)
  | 0x56 => some (.n .trst)
  | 0x57 => some (.n .tnext)
  | 0x60 => some (.c .fqplane)
  | 0x61 => some (.c .dqiplane)
  | 0x70 => some (.n .encode)
  | 0x71 => some (.n .decode)
  | _ => none

/-- The channel of a `CH` code (R93); code 3 is reserved. -/
def channelOf (ch : BitVec 2) : Option Channel :=
  match ch.toNat with
  | 0 => some .y
  | 1 => some .cb
  | 2 => some .cr
  | _ => none

/-- The fields of a command word (R90). -/
def fieldsOf (w : Word32) : CmdWord :=
  { opc := w.extractLsb' 0 8, ch := w.extractLsb' 8 2, rsv := w.extractLsb' 10 22 }

/-- The word with given fields (R90). -/
def wordOf (c : CmdWord) : Word32 := c.rsv ++ c.ch ++ c.opc

/-- Decoding of the fields, the checks in the order of R92: operation code, reserved bits, channel. -/
def decodeFields (c : CmdWord) : Except Illegal Instr :=
  match opRow c.opc.toNat with
  | none => .error .opcode
  | some row =>
    if c.rsv ≠ 0#22 then .error .reserved
    else
      match row with
      | .n i => if c.ch ≠ 0#2 then .error .channel else .ok i
      | .c mk =>
        match channelOf c.ch with
        | none => .error .channel
        | some ch => .ok (mk ch)

/-- Decoding of a command word (R92). -/
def decode (w : Word32) : Except Illegal Instr := decodeFields (fieldsOf w)

/-- The operation code of a command (R92). -/
def opcOf : Instr → BitVec 8
  | .nop => 0x00#8
  | .clrerr => 0x01#8
  | .srst => 0x02#8
  | .rgb2ycc => 0x10#8
  | .ycc2rgb => 0x11#8
  | .fdct8 => 0x20#8
  | .idct8 => 0x21#8
  | .quant => 0x30#8
  | .dequant => 0x31#8
  | .pack _ => 0x40#8
  | .unpack _ => 0x41#8
  | .ldblk _ => 0x50#8
  | .stblk _ => 0x51#8
  | .ldqblk _ => 0x52#8
  | .stqblk _ => 0x53#8
  | .center => 0x54#8
  | .uncenter => 0x55#8
  | .trst => 0x56#8
  | .tnext => 0x57#8
  | .fqplane _ => 0x60#8
  | .dqiplane _ => 0x61#8
  | .encode => 0x70#8
  | .decode => 0x71#8

/-- The fields of a command's word (R91, R92): `CH` is 0 in format N. -/
def fieldsOfInstr (i : Instr) : CmdWord :=
  { opc := opcOf i, ch := (match i.channel with | none => 0#2 | some ch => ch.code), rsv := 0#22 }

/-- The command word of a command (R92): `OPC`, or `OPC | (ch << 8)`. -/
def encode (i : Instr) : Word32 := wordOf (fieldsOfInstr i)

/-- The instruction the decoder reads from the low `nbits` bits of `w`, every other bit of the word zero. -/
def decodeTableWord (nbits w : Nat) : Option Instr :=
  match decode (BitVec.ofNat 32 (w % 2 ^ nbits)) with
  | .ok i => some i
  | .error _ => none

end Sys2Proof
end

