-- ==== Sys2Proof/Machine/State.lean ====
section
/-! DEFINITION. The state of the CORE (R20), its reset value (R40, R270) and the reasons a step can stop. -/

namespace Sys2Proof.Machine

/-! ## Names of the buffer spaces (R60), by element type -/

/-- The spaces of `REAL` elements: ids 0, 1, 2..4, 17, 19 of R60. -/
inductive RealSpace where
  | pix
  | opix
  | pln (ch : Channel)
  | blk
  | prom
deriving DecidableEq, Repr

/-- The spaces of `INT16` elements: ids 5..7, 8..10, 18, 20 of R60. -/
inductive Int16Space where
  | qpl (ch : Channel)
  | val (ch : Channel)
  | qblk
  | qrom
deriving DecidableEq, Repr

/-- The spaces of `INT32` elements: ids 11..13, 14..16 of R60. -/
inductive Int32Space where
  | coli (ch : Channel)
  | rptr (ch : Channel)
deriving DecidableEq, Repr

/-- The 21 buffer spaces (R60). -/
inductive Space where
  | real (sp : RealSpace)
  | int16 (sp : Int16Space)
  | int32 (sp : Int32Space)
deriving DecidableEq, Repr

/-- One element of a buffer space, at its own type (R66). -/
inductive Elem where
  | real (v : F64)
  | int16 (v : I16)
  | int32 (v : I32)
deriving DecidableEq, Repr

/-! ## The host's moves (R80) and whose turn it is -/

/-- The moves of the host (R80), the buffer moves at each element type (R66). -/
inductive HostMove where
  | readReg (off : Nat)
  | writeReg (off : Nat) (w : Word32)
  | readReal (sp : RealSpace) (i : Nat)
  | writeReal (sp : RealSpace) (i : Nat) (v : F64)
  | readInt16 (sp : Int16Space) (i : Nat)
  | writeInt16 (sp : Int16Space) (i : Nat) (v : I16)
  | readInt32 (sp : Int32Space) (i : Nat)
  | writeInt32 (sp : Int32Space) (i : Nat) (v : I32)
deriving DecidableEq, Repr

/-- Whose move the next step is (log entry 8): a move of the host, the CORE's, or the hardware reset (R270). -/
inductive Turn where
  | host (m : HostMove)
  | core
  | reset
deriving DecidableEq, Repr

/-- What a read of the host has returned (R80). -/
inductive Reply where
  | reg (w : Word32)
  | elem (e : Elem)
deriving DecidableEq, Repr

/-! ## State -/

/-- A buffer of elements of `w` bits: (index, element) pairs, indices strictly rising; an index that is not listed holds
no value (R40, U1; log entries 4 and 5). -/
abbrev Buf (w : Nat) := List (Nat × BitVec w)

/-- The 17 buffer memories (R20 (e), R60). -/
structure Memory where
  pix : Buf 64
  opix : Buf 64
  pln : Chan3 (Buf 64)
  qpl : Chan3 (Buf 16)
  val : Chan3 (Buf 16)
  coli : Chan3 (Buf 32)
  rptr : Chan3 (Buf 32)
deriving DecidableEq, Repr

/-- The four flags of `STATUS` (R24). -/
structure Status where
  busy : Bool
  done : Bool
  err : Bool
  last : Bool
deriving DecidableEq, Repr

/-- The complete state of the CORE (R20), and the model's own two fields `agenda` and `replies` (log entry 8). -/
structure State where
  /-- `STATUS` (R24). -/
  status : Status
  /-- `ERRCODE` (R25). -/
  errcode : Word32
  /-- `ERRINFO` (R26). -/
  errinfo : Word32
  /-- `CTRL` (R27). -/
  ctrl : Word32
  /-- `HEIGHT` (R42). -/
  height : Word32
  /-- `WIDTH` (R42). -/
  width : Word32
  /-- `CHANNELS` (R42). -/
  channels : Word32
  /-- `THRESHOLD` (R30). -/
  threshold : Word32
  /-- `BANDCUTOFF` (R30). -/
  bandCutoff : Word32
  /-- `ROWS` (R29). -/
  rows : Word32
  /-- `COLS` (R29). -/
  cols : Word32
  /-- `TILE_R` (R28). -/
  tileR : Word32
  /-- `TILE_C` (R28). -/
  tileC : Word32
  /-- `VALLEN[ch]` (R31). -/
  vallen : Chan3 Word32
  /-- `COLLEN[ch]` (R31). -/
  collen : Chan3 Word32
  /-- `RPTRLEN[ch]` (R31). -/
  rptrlen : Chan3 Word32
  /-- `PEND`, the accepted command word (R36). -/
  pend : Word32
  /-- `BLK` (R32). -/
  blk : Block F64
  /-- `QBLK` (R33). -/
  qblk : Block I16
  /-- The buffer memories (R60). -/
  mem : Memory
  /-- The MODEL's own: the turns still to come, the next one first (log entry 8). -/
  agenda : List Turn
  /-- The MODEL's own: what the host's reads have returned, oldest first (log entry 8). -/
  replies : List Reply
deriving DecidableEq, Repr

/-! ## Why the model can stop -/

/-- The model's faults: none. No fault of the spec stops the machine: the CORE's own (R240, R243) are next states, and a
move outside the contract is a refusal, which the spec tells apart from a fault (U1, U2, U3, U7; log entry 11). -/
inductive Fault where
deriving DecidableEq, Repr

/-- The model's refusals. -/
inductive Refusal where
  /-- Raised by an arm of `exec` for an instruction without a meaning. Safe. No arm of this model raises it. -/
  | notModelled (mnemonic : String)
  /-- Raised by a host read or a command that reads a buffer element nothing has written since the hardware reset
  (R40, U1: "the model takes no step for it"; log entry 4). Safe: the hardware would read an unspecified value. -/
  | neverWritten (sp : Space) (i : Nat)
  /-- Raised by a host buffer move while `STATUS.BUSY = 1`: the move is not enabled (R82, U3; log entry 12). Safe: the
  hardware would stall the port or return an unspecified value. -/
  | portBusy (sp : Space) (i : Nat)
  /-- Raised by a host buffer move whose index is at or beyond the space's length: an element that does not exist
  (R67, U2; log entry 11). Safe: the hardware goes on with an unspecified value or ignores the write. -/
  | noSuchElement (sp : Space) (i : Nat)
  /-- Raised by a host register move at an offset that is not a multiple of 4: the host port has no such move (R22, U7;
  log entry 10). Safe: the model stops where the hardware may answer. -/
  | unalignedOffset (off : Nat)
deriving DecidableEq, Repr

/-! ## Reset -/

/-- No buffer element holds a value (R40, R270). -/
def Memory.empty : Memory :=
  { pix := [], opix := [], pln := Chan3.all [], qpl := Chan3.all [], val := Chan3.all [],
    coli := Chan3.all [], rptr := Chan3.all [] }

/-- The state after a hardware reset (R40, R270). `BLK` and `QBLK` are unspecified: free values (log entry 1); `PEND` is
irrelevant: 0 (log entry 2). -/
def State.reset : State :=
  { status := { busy := false, done := false, err := false, last := false }
    errcode := 0#32
    errinfo := 0#32
    ctrl := 0#32
    height := 0#32
    width := 0#32
    channels := 3#32
    threshold := 0#32
    bandCutoff := 5#32
    rows := 0#32
    cols := 0#32
    tileR := 0#32
    tileC := 0#32
    vallen := Chan3.all 0#32
    collen := Chan3.all 0#32
    rptrlen := Chan3.all 0#32
    pend := 0#32
    blk := Block.ofFn fun i j => Config.blkAtReset (8 * i.val + j.val)
    qblk := Block.ofFn fun i j => Config.qblkAtReset (8 * i.val + j.val)
    mem := Memory.empty
    agenda := []
    replies := [] }

end Sys2Proof.Machine
end

