-- ==== Sys2Proof/Machine/Operands.lean ====
section
/-! DEFINITION. The operand forms: channel selection (R93), block construction (R18), register views (R15, R22), index
functions (R62), tile grid (R190) and element access to the buffer spaces (R60, R66). -/

namespace Sys2Proof

/-- The member of a channel family that the operand names (R93). -/
def Chan3.get {α : Type} (c : Chan3 α) : Channel → α
  | .y => c.y
  | .cb => c.cb
  | .cr => c.cr

/-- A channel family with the named member replaced (R93). -/
def Chan3.set {α : Type} (c : Chan3 α) (ch : Channel) (a : α) : Chan3 α :=
  match ch with
  | .y => { c with y := a }
  | .cb => { c with cb := a }
  | .cr => { c with cr := a }

end Sys2Proof

namespace Sys2Proof.Machine

/-! ## Loops (R15: `for v in a..b`, ascending) -/

/-- Eight computations in ascending order; the first that fails ends the loop. -/
def octM {ε α : Type} (f : Fin 8 → Except ε α) : Except ε (Oct α) := do
  let a0 ← f 0
  let a1 ← f 1
  let a2 ← f 2
  let a3 ← f 3
  let a4 ← f 4
  let a5 ← f 5
  let a6 ← f 6
  let a7 ← f 7
  .ok ⟨a0, a1, a2, a3, a4, a5, a6, a7⟩

/-- `for i in 0..7: for j in 0..7` in row-major order; the first position that fails ends the loop. -/
def blockM {ε α : Type} (f : Fin 8 → Fin 8 → Except ε α) : Except ε (Block α) :=
  octM fun i => octM fun j => f i j

/-- One computation per list entry in order; the first that fails ends the loop. -/
def listM {ε α β : Type} (f : α → Except ε β) : List α → Except ε (List β)
  | [] => .ok []
  | a :: as => do
    let b ← f a
    let bs ← listM f as
    .ok (b :: bs)

/-- One check per list entry in order; the first that fails ends the loop. -/
def forM {ε α : Type} (f : α → Except ε Unit) : List α → Except ε Unit
  | [] => .ok ()
  | a :: as => do
    f a
    forM f as

/-- The positions of a `rows × cols` object in row-major order (R18). -/
def grid (rows cols : Nat) : List (Nat × Nat) :=
  (List.range rows).flatMap fun r => (List.range cols).map fun c => (r, c)

/-! ## Register views -/

/-- `ROWS` as a count, once a shape check has shown it positive. -/
def State.nRows (s : State) : Nat := s.rows.toInt.toNat

/-- `COLS` as a count, once a shape check has shown it positive. -/
def State.nCols (s : State) : Nat := s.cols.toInt.toNat

/-- `TR = ROWS/8` (R190). -/
def State.tileRows (s : State) : Nat := s.nRows / 8

/-- `TC = COLS/8` (R190). -/
def State.tileCols (s : State) : Nat := s.nCols / 8

/-- `TILE_R` as a count, once a tile check has shown it in range. -/
def State.nTileR (s : State) : Nat := s.tileR.toInt.toNat

/-- `TILE_C` as a count, once a tile check has shown it in range. -/
def State.nTileC (s : State) : Nat := s.tileC.toInt.toNat

/-- `CTRL.IE` (R27). -/
def State.ie (s : State) : Bool := s.ctrl.getLsbD 0

/-- `CTRL.RMODE` (R27). -/
def State.rmode (s : State) : Bool := s.ctrl.getLsbD 1

/-- `CTRL.CHROMA` (R27). -/
def State.chroma (s : State) : Bool := s.ctrl.getLsbD 2

/-! ## Index functions (R62) -/

/-- `pixIdx(r, c, ch)` with the stride `WIDTH` (R62). -/
def pixIdx (width r c k : Nat) : Nat := (r * width + c) * 3 + k

/-- `opixIdx(r, c, ch)` with the stride `COLS` (R62). -/
def opixIdx (cols r c k : Nat) : Nat := (r * cols + c) * 3 + k

/-- `plnIdx(r, c)` (R62). -/
def plnIdx (cols r c : Nat) : Nat := r * cols + c

/-- `tileIdx(i, j)` of tile `(tr, tc)` (R62, R190). -/
def tileIdx (cols tr tc : Nat) (i j : Fin 8) : Nat := (8 * tr + i.val) * cols + (8 * tc + j.val)

/-- `blkIdx(i, j)` (R62). -/
def blkIdx (i j : Fin 8) : Nat := 8 * i.val + j.val

/-! ## Buffers: one element at an index -/

/-- The element at an index, if one has been written (R40, U1). -/
def Buf.read {w : Nat} (b : Buf w) (i : Nat) : Option (BitVec w) :=
  match b with
  | [] => none
  | (k, v) :: rest => if k = i then some v else Buf.read rest i

/-- The buffer with the element at an index written; the list stays sorted. -/
def Buf.write {w : Nat} (b : Buf w) (i : Nat) (v : BitVec w) : Buf w :=
  match b with
  | [] => [(i, v)]
  | (k, u) :: rest =>
    if i < k then (i, v) :: (k, u) :: rest
    else if i = k then (i, v) :: rest
    else (k, u) :: Buf.write rest i v

/-- Writes in the order of the list. -/
def Buf.writeAll {w : Nat} (b : Buf w) (l : List (Nat × BitVec w)) : Buf w :=
  l.foldl (fun acc p => Buf.write acc p.1 p.2) b

/-- The canonical form: indices strictly rising. An unlisted index holds no value, so no entry can repeat what an
unlisted index reads as. -/
def Buf.wf {w : Nat} (b : Buf w) : Bool :=
  match b with
  | [] => true
  | (k, _) :: rest => rest.all (fun p => decide (k < p.1)) && Buf.wf rest

/-- Every buffer is in canonical form. -/
def Memory.wf (m : Memory) : Bool :=
  Buf.wf m.pix && Buf.wf m.opix &&
    (Buf.wf m.pln.y && Buf.wf m.pln.cb && Buf.wf m.pln.cr) &&
    (Buf.wf m.qpl.y && Buf.wf m.qpl.cb && Buf.wf m.qpl.cr) &&
    (Buf.wf m.val.y && Buf.wf m.val.cb && Buf.wf m.val.cr) &&
    (Buf.wf m.coli.y && Buf.wf m.coli.cb && Buf.wf m.coli.cr) &&
    (Buf.wf m.rptr.y && Buf.wf m.rptr.cb && Buf.wf m.rptr.cr)

/-! ## Spaces: ids, lengths, elements (R60) -/

/-- The id of a space (R60). -/
def Space.id : Space → Nat
  | .real .pix => 0
  | .real .opix => 1
  | .real (.pln .y) => 2
  | .real (.pln .cb) => 3
  | .real (.pln .cr) => 4
  | .int16 (.qpl .y) => 5
  | .int16 (.qpl .cb) => 6
  | .int16 (.qpl .cr) => 7
  | .int16 (.val .y) => 8
  | .int16 (.val .cb) => 9
  | .int16 (.val .cr) => 10
  | .int32 (.coli .y) => 11
  | .int32 (.coli .cb) => 12
  | .int32 (.coli .cr) => 13
  | .int32 (.rptr .y) => 14
  | .int32 (.rptr .cb) => 15
  | .int32 (.rptr .cr) => 16
  | .real .blk => 17
  | .int16 .qblk => 18
  | .real .prom => 19
  | .int16 .qrom => 20

/-- The length of a space in elements (R60). -/
def Space.length (cfg : Config) : Space → Nat
  | .real .pix => cfg.maxH * cfg.maxW * 3
  | .real .opix => cfg.maxH * cfg.maxW * 3
  | .real (.pln _) => cfg.maxH * cfg.maxW
  | .real .blk => 64
  | .real .prom => 64
  | .int16 (.qpl _) => cfg.maxH * cfg.maxW
  | .int16 (.val _) => cfg.maxH * cfg.maxW
  | .int16 .qblk => 64
  | .int16 .qrom => 64
  | .int32 (.coli _) => cfg.maxH * cfg.maxW
  | .int32 (.rptr _) => cfg.maxH + 1

/-- The row of a position in a 64-element space (R62, `blkIdx`). -/
def blkRow (i : Nat) : Fin 8 := ⟨i / 8 % 8, Nat.mod_lt _ (by decide)⟩

/-- The column of a position in a 64-element space (R62, `blkIdx`). -/
def blkCol (i : Nat) : Fin 8 := ⟨i % 8, Nat.mod_lt _ (by decide)⟩

/-- The element at index `i` of a 64-element space (R62). -/
def Block.elem {α : Type} (b : Block α) (i : Nat) : Option α :=
  if i < 64 then some (b.at (blkRow i) (blkCol i)) else none

/-- A block with the element at index `i` replaced (R62). -/
def Block.setElem {α : Type} (b : Block α) (i : Nat) (a : α) : Block α :=
  Block.ofFn fun r c => if blkIdx r c = i then a else b.at r c

/-- `MemRead` in a space of `REAL` elements (R15): `none` if nothing has been written there. -/
def State.readReal (cfg : Config) (s : State) (sp : RealSpace) (i : Nat) : Option F64 :=
  match sp with
  | .pix => Buf.read s.mem.pix i
  | .opix => Buf.read s.mem.opix i
  | .pln ch => Buf.read (s.mem.pln.get ch) i
  | .blk => Block.elem s.blk i
  | .prom => Block.elem (Block.ofFn cfg.arith.prom) i

/-- `MemRead` in a space of `INT16` elements (R15). -/
def State.readInt16 (cfg : Config) (s : State) (sp : Int16Space) (i : Nat) : Option I16 :=
  match sp with
  | .qpl ch => Buf.read (s.mem.qpl.get ch) i
  | .val ch => Buf.read (s.mem.val.get ch) i
  | .qblk => Block.elem s.qblk i
  | .qrom => Block.elem cfg.qtable i

/-- `MemRead` in a space of `INT32` elements (R15). -/
def State.readInt32 (s : State) (sp : Int32Space) (i : Nat) : Option I32 :=
  match sp with
  | .coli ch => Buf.read (s.mem.coli.get ch) i
  | .rptr ch => Buf.read (s.mem.rptr.get ch) i

/-- The element at index `i` of any space, at its own type (R15, R66). -/
def State.peek (cfg : Config) (s : State) (sp : Space) (i : Nat) : Option Elem :=
  match sp with
  | .real sp => (s.readReal cfg sp i).map .real
  | .int16 sp => (s.readInt16 cfg sp i).map .int16
  | .int32 sp => (s.readInt32 sp i).map .int32

/-- `MemWrite` in a space of `REAL` elements (R15); a write to `PROM` is ignored (R34). -/
def State.writeReal (s : State) (sp : RealSpace) (i : Nat) (v : F64) : State :=
  match sp with
  | .pix => { s with mem := { s.mem with pix := Buf.write s.mem.pix i v } }
  | .opix => { s with mem := { s.mem with opix := Buf.write s.mem.opix i v } }
  | .pln ch => { s with mem := { s.mem with pln := s.mem.pln.set ch (Buf.write (s.mem.pln.get ch) i v) } }
  | .blk => { s with blk := Block.setElem s.blk i v }
  | .prom => s

/-- `MemWrite` in a space of `INT16` elements (R15); a write to `QROM` is ignored (R35). -/
def State.writeInt16 (s : State) (sp : Int16Space) (i : Nat) (v : I16) : State :=
  match sp with
  | .qpl ch => { s with mem := { s.mem with qpl := s.mem.qpl.set ch (Buf.write (s.mem.qpl.get ch) i v) } }
  | .val ch => { s with mem := { s.mem with val := s.mem.val.set ch (Buf.write (s.mem.val.get ch) i v) } }
  | .qblk => { s with qblk := Block.setElem s.qblk i v }
  | .qrom => s

/-- `MemWrite` in a space of `INT32` elements (R15). -/
def State.writeInt32 (s : State) (sp : Int32Space) (i : Nat) (v : I32) : State :=
  match sp with
  | .coli ch => { s with mem := { s.mem with coli := s.mem.coli.set ch (Buf.write (s.mem.coli.get ch) i v) } }
  | .rptr ch => { s with mem := { s.mem with rptr := s.mem.rptr.set ch (Buf.write (s.mem.rptr.get ch) i v) } }

end Sys2Proof.Machine
end

