-- ==== Sys2Proof/Machine/Flags.lean ====
section
/-! DEFINITION. The flags of the CORE: the `STATUS` word and the `IRQ` output (R24, R37, R250). There are no arithmetic
condition codes (R24). -/

namespace Sys2Proof.Machine

/-- A flag as the bit of a register word. -/
def flagBit (b : Bool) (n : Nat) : Word32 := if b then 1#32 <<< n else 0#32

/-- The word a read of `STATUS` returns (R24): `BUSY` bit 0, `DONE` bit 1, `ERR` bit 2, `LAST` bit 3, the rest 0. -/
def Status.word (st : Status) : Word32 :=
  flagBit st.busy 0 ||| flagBit st.done 1 ||| flagBit st.err 2 ||| flagBit st.last 3

/-- `IRQ = CTRL.IE && (STATUS.DONE || STATUS.ERR)` (R37, R250). -/
def State.irq (s : State) : Bool := s.ie && (s.status.done || s.status.err)

/-- What a write keeps of `CTRL` (R27, R80): bits 2:0. -/
def ctrlMask : Word32 := 7#32

/-- `STATUS.LAST <- b` (R24). -/
def State.setLast (s : State) (b : Bool) : State := { s with status := { s.status with last := b } }

/-- Successful completion of a command (R24, R80): `DONE <- 1`, `BUSY <- 0`. -/
def State.complete (s : State) : State := { s with status := { s.status with busy := false, done := true } }

end Sys2Proof.Machine
end

