-- ==== Sys2Proof/Machine/Ops.lean ====
section
/-! DEFINITION. The shared operations: causes of a fault and their codes (R240, R241), taking a fault (R243) and the return
from one (R231, R247), how a command ends (R80, R210, R244), the shape, parameter and tile checks (R112, R122, R156, R191)
and reading of a written element (U1). -/

namespace Sys2Proof.Machine

/-! ## Causes of a fault (R241) -/

/-- The rows of the fault code table (R241). -/
inductive Cause where
  /-- 0x11: `CHANNELS != 3`. -/
  | channelCount
  /-- 0x21: a dimension is `<= 0`. -/
  | dimNonPositive
  /-- 0x31: `HEIGHT` or `WIDTH` in 1..7. -/
  | dimBelow8
  /-- 0x41: `ROWS` or `COLS` not a multiple of 8. -/
  | dimNotTrimmed
  /-- 0x51: a dimension exceeds `MAXH` or `MAXW`. -/
  | dimCapacity
  /-- 0x12: `THRESHOLD < 0`. -/
  | thresholdNegative
  /-- 0x22: `BANDCUTOFF` outside 1..8. -/
  | bandCutoffRange
  /-- 0x32: `TILE_R` or `TILE_C` outside the tile grid. -/
  | tileIndex
  /-- 0x13: `RPTRLEN[ch] != ROWS + 1`. -/
  | csrRowPointerLength
  /-- 0x23: `VALLEN[ch] != COLLEN[ch]`. -/
  | csrLengthsDiffer
  /-- 0x33: `RPTR[ch][0] != 0`. -/
  | csrFirstPointer
  /-- 0x43: `RPTR[ch][r+1] < RPTR[ch][r]`. -/
  | csrPointerFalls
  /-- 0x53: `VALLEN[ch]` out of bounds, or `RPTR[ch][ROWS] != VALLEN[ch]`. -/
  | csrLength
  /-- 0x63: `COLI[ch][k]` outside `0..COLS-1`. -/
  | csrColumnRange
  /-- 0x73: columns of a row not strictly increasing. -/
  | csrColumnOrder
  /-- 0x14: `OPC` not assigned. -/
  | illegalOpcode
  /-- 0x24: `RSV != 0`. -/
  | illegalReserved
  /-- 0x34: `CH != 0` in format N, or `CH = 3` in format C. -/
  | illegalChannel
  /-- 0x15: rounded quotient outside -32768..32767. -/
  | quotientRange
  /-- 0x25: quotient not finite. -/
  | quotientNotFinite
deriving DecidableEq, Repr

/-- The fault class of a cause (R240, R241): 1 ShapeError, 2 ParameterError, 3 DecodeShapeMismatch, 4 IllegalCommand,
5 RangeError. -/
def Cause.cls : Cause → Nat
  | .channelCount => 1
  | .dimNonPositive => 1
  | .dimBelow8 => 1
  | .dimNotTrimmed => 1
  | .dimCapacity => 1
  | .thresholdNegative => 2
  | .bandCutoffRange => 2
  | .tileIndex => 2
  | .csrRowPointerLength => 3
  | .csrLengthsDiffer => 3
  | .csrFirstPointer => 3
  | .csrPointerFalls => 3
  | .csrLength => 3
  | .csrColumnRange => 3
  | .csrColumnOrder => 3
  | .illegalOpcode => 4
  | .illegalReserved => 4
  | .illegalChannel => 4
  | .quotientRange => 5
  | .quotientNotFinite => 5

/-- The sub-code of a cause (R241). -/
def Cause.sub : Cause → Nat
  | .channelCount => 1
  | .dimNonPositive => 2
  | .dimBelow8 => 3
  | .dimNotTrimmed => 4
  | .dimCapacity => 5
  | .thresholdNegative => 1
  | .bandCutoffRange => 2
  | .tileIndex => 3
  | .csrRowPointerLength => 1
  | .csrLengthsDiffer => 2
  | .csrFirstPointer => 3
  | .csrPointerFalls => 4
  | .csrLength => 5
  | .csrColumnRange => 6
  | .csrColumnOrder => 7
  | .illegalOpcode => 1
  | .illegalReserved => 2
  | .illegalChannel => 3
  | .quotientRange => 1
  | .quotientNotFinite => 2

/-- `ERRCODE = class | (sub << 4)` (R25, R241). -/
def Cause.code (c : Cause) : Word32 := BitVec.ofNat 32 c.cls ||| (BitVec.ofNat 32 c.sub <<< 4)

/-- A raised fault: its cause and its information word (R15, R243). -/
structure Raised where
  cause : Cause
  info : Word32
deriving DecidableEq, Repr

/-- The information word of an axis (R112, R241): 0 for rows or height, 1 for columns or width. -/
def axisRows : Word32 := 0#32

/-- The information word of an axis (R112, R241): 0 for rows or height, 1 for columns or width. -/
def axisCols : Word32 := 1#32

/-! ## Taking a fault, and the return from one -/

/-- Fault entry (R243): `ERR <- 1`, `ERRCODE` and `ERRINFO` written, `BUSY <- 0`; nothing else. -/
def takeFault (f : Raised) (s : State) : State :=
  { s with
    status := { s.status with err := true, busy := false }
    errcode := f.cause.code
    errinfo := f.info }

/-- The return from a fault (R231, R247): `ERR`, `ERRCODE`, `ERRINFO` cleared; nothing else. -/
def clearFault (s : State) : State :=
  { s with status := { s.status with err := false }, errcode := 0#32, errinfo := 0#32 }

/-! ## How a command ends -/

/-- Why a primitive stops: it raises a fault (R243), or reads an element without a value (U1). -/
inductive Stop where
  | fault (f : Raised)
  | refuse (r : Refusal)
deriving DecidableEq, Repr

/-- A primitive command (R244 a): from the state it answers the state with all its writes, or a stop with none. -/
abbrev Prim := State → Except Stop State

/-- How a sequence of primitives ends (R210, R244): after all of them, in a fault that the writes so far precede, or in a
refusal. -/
inductive Progress where
  | ok (s : State)
  | raised (s : State) (f : Raised)
  | refused (r : Refusal)
deriving DecidableEq, Repr

/-- One primitive of a sequence (R210 c): a fault leaves the state before it. -/
def runPrim (p : Prim) (s : State) : Progress :=
  match p s with
  | .ok t => .ok t
  | .error (.fault f) => .raised s f
  | .error (.refuse r) => .refused r

/-- The next primitives of a sequence: they run only if nothing has stopped it (R210 c). -/
def Progress.andThen (p : Progress) (k : State → Progress) : Progress :=
  match p with
  | .ok s => k s
  | .raised s f => .raised s f
  | .refused r => .refused r

/-- The checks before a sequence (R210 c): a fault of one is raised before any write. -/
def upfront (c : State → Except Stop Unit) (k : State → Progress) (s : State) : Progress :=
  match c s with
  | .ok _ => k s
  | .error (.fault f) => .raised s f
  | .error (.refuse r) => .refused r

/-- The end of the `CoreStep` (R80): success sets `DONE`, a fault is taken, and both clear `BUSY`. -/
def finish (p : Progress) : Host.Outcome State Fault Refusal :=
  match p with
  | .ok s => .next s.complete
  | .raised s f => .next (takeFault f s)
  | .refused r => .refused r

/-! ## Checks -/

/-- `raise F(sub, info)` under a condition (R15). -/
def raiseIf (bad : Bool) (c : Cause) (info : Word32) : Except Stop Unit :=
  if bad then .error (.fault ⟨c, info⟩) else .ok ()

/-- `INSHAPE()` (R112), checks 1 to 7 in order. -/
def inshape (cfg : Config) (s : State) : Except Stop Unit := do
  raiseIf (decide (s.channels.toInt ≠ 3)) .channelCount s.channels
  raiseIf (decide (s.height.toInt ≤ 0)) .dimNonPositive axisRows
  raiseIf (decide (s.width.toInt ≤ 0)) .dimNonPositive axisCols
  raiseIf (decide (s.height.toInt < 8)) .dimBelow8 axisRows
  raiseIf (decide (s.width.toInt < 8)) .dimBelow8 axisCols
  raiseIf (decide ((cfg.maxH : Int) < s.height.toInt)) .dimCapacity axisRows
  raiseIf (decide ((cfg.maxW : Int) < s.width.toInt)) .dimCapacity axisCols

/-- `PSHAPE(m8)` (R122), checks 1 to 6 in order. -/
def pshape (cfg : Config) (m8 : Bool) (s : State) : Except Stop Unit := do
  raiseIf (decide (s.rows.toInt ≤ 0)) .dimNonPositive axisRows
  raiseIf (decide (s.cols.toInt ≤ 0)) .dimNonPositive axisCols
  raiseIf (m8 && decide (s.rows.toInt % 8 ≠ 0)) .dimNotTrimmed axisRows
  raiseIf (m8 && decide (s.cols.toInt % 8 ≠ 0)) .dimNotTrimmed axisCols
  raiseIf (decide ((cfg.maxH : Int) < s.rows.toInt)) .dimCapacity axisRows
  raiseIf (decide ((cfg.maxW : Int) < s.cols.toInt)) .dimCapacity axisCols

/-- `QPARAM()` (R156), the threshold first. -/
def qparam (s : State) : Except Stop Unit := do
  raiseIf (decide (s.threshold.toInt < 0)) .thresholdNegative s.threshold
  raiseIf (decide (s.bandCutoff.toInt < 1) || decide (8 < s.bandCutoff.toInt)) .bandCutoffRange s.bandCutoff

/-- `TILECHECK()` (R191), also the checks of TNEXT (R204): shape, then `TILE_R`, then `TILE_C`. -/
def tileCheck (cfg : Config) (s : State) : Except Stop Unit := do
  pshape cfg true s
  raiseIf (decide (s.tileR.toInt < 0) || decide (s.rows.toInt / 8 ≤ s.tileR.toInt)) .tileIndex axisRows
  raiseIf (decide (s.tileC.toInt < 0) || decide (s.cols.toInt / 8 ≤ s.tileC.toInt)) .tileIndex axisCols

/-- The causes of a decode fault (R92, R241). -/
def illegalCause : Illegal → Cause
  | .opcode => .illegalOpcode
  | .reserved => .illegalReserved
  | .channel => .illegalChannel

/-! ## Reading an element that a rule needs -/

/-- An element a rule reads: if nothing has written it the model takes no step (U1). -/
def need {α : Type} (sp : Space) (i : Nat) (o : Option α) : Except Stop α :=
  match o with
  | some v => .ok v
  | none => .error (.refuse (.neverWritten sp i))

/-- `PIX[i]`. -/
def State.pixAt (s : State) (i : Nat) : Except Stop F64 := need (.real .pix) i (Buf.read s.mem.pix i)

/-- `PLN[ch][i]`. -/
def State.plnAt (s : State) (ch : Channel) (i : Nat) : Except Stop F64 :=
  need (.real (.pln ch)) i (Buf.read (s.mem.pln.get ch) i)

/-- `QPL[ch][i]`. -/
def State.qplAt (s : State) (ch : Channel) (i : Nat) : Except Stop I16 :=
  need (.int16 (.qpl ch)) i (Buf.read (s.mem.qpl.get ch) i)

/-- `VAL[ch][k]`. -/
def State.valAt (s : State) (ch : Channel) (k : Nat) : Except Stop I16 :=
  need (.int16 (.val ch)) k (Buf.read (s.mem.val.get ch) k)

/-- `COLI[ch][k]`. -/
def State.coliAt (s : State) (ch : Channel) (k : Nat) : Except Stop I32 :=
  need (.int32 (.coli ch)) k (Buf.read (s.mem.coli.get ch) k)

/-- `RPTR[ch][r]`. -/
def State.rptrAt (s : State) (ch : Channel) (r : Nat) : Except Stop I32 :=
  need (.int32 (.rptr ch)) r (Buf.read (s.mem.rptr.get ch) r)

/-! ## Bulk writes -/

/-- Writes to `PLN[ch]`. -/
def State.putPln (s : State) (ch : Channel) (l : List (Nat × F64)) : State :=
  { s with mem := { s.mem with pln := s.mem.pln.set ch (Buf.writeAll (s.mem.pln.get ch) l) } }

/-- Writes to `QPL[ch]`. -/
def State.putQpl (s : State) (ch : Channel) (l : List (Nat × I16)) : State :=
  { s with mem := { s.mem with qpl := s.mem.qpl.set ch (Buf.writeAll (s.mem.qpl.get ch) l) } }

/-- Writes to `OPIX`. -/
def State.putOpix (s : State) (l : List (Nat × F64)) : State :=
  { s with mem := { s.mem with opix := Buf.writeAll s.mem.opix l } }

end Sys2Proof.Machine
end

