-- ==== Sys2Proof/Machine/Color.lean ====
section
/-! DEFINITION. ColorTransform: RGB2YCC (R111 to R114) and YCC2RGB (R120 to R122). -/

namespace Sys2Proof.Machine

/-- `fwd(R, G, B)`: `(Y, Cb, Cr)` in the operation order of R114. -/
def fwd {α : Type} (A : Arith α) (r g b : α) : α × α × α :=
  (A.add (A.add (A.mul (A.lit 299 3) r) (A.mul (A.lit 587 3) g)) (A.mul (A.lit 114 3) b),
   A.add (A.add (A.sub (A.mul (A.neg (A.lit 1687 4)) r) (A.mul (A.lit 3313 4) g)) (A.mul (A.lit 5 1) b)) (A.lit 128 0),
   A.add (A.sub (A.sub (A.mul (A.lit 5 1) r) (A.mul (A.lit 4187 4) g)) (A.mul (A.lit 813 4) b)) (A.lit 128 0))

/-- `inv(Y, Cb, Cr)`: `(R, G, B)`, not clamped, in the operation order of R121. -/
def inv {α : Type} (A : Arith α) (y cb cr : α) : α × α × α :=
  let dCb := A.sub cb (A.lit 128 0)
  let dCr := A.sub cr (A.lit 128 0)
  (A.add y (A.mul (A.lit 1402 3) dCr),
   A.sub (A.sub y (A.mul (A.lit 34414 5) dCb)) (A.mul (A.lit 71414 5) dCr),
   A.add y (A.mul (A.lit 1772 3) dCb))

/-- `clamp(x)` (R17). -/
def clamp {α : Type} (A : Arith α) (x : α) : α :=
  if A.lt x (A.lit 0 0) then A.lit 0 0 else if A.lt (A.lit 255 0) x then A.lit 255 0 else x

/-- `ROWS` after the crop (R113): `8 * (HEIGHT div 8)`. -/
def cropRows (s : State) : Nat := 8 * (s.height.toInt.toNat / 8)

/-- `COLS` after the crop (R113): `8 * (WIDTH div 8)`. -/
def cropCols (s : State) : Nat := 8 * (s.width.toInt.toNat / 8)

/-- The converted pixel at row `r`, column `c` of the input buffer (R111). -/
def yccAt (cfg : Config) (s : State) (r c : Nat) : Except Stop (F64 × F64 × F64) := do
  let red ← s.pixAt (pixIdx s.width.toInt.toNat r c 0)
  let green ← s.pixAt (pixIdx s.width.toInt.toNat r c 1)
  let blue ← s.pixAt (pixIdx s.width.toInt.toNat r c 2)
  .ok (fwd cfg.arith red green blue)

/-- The state with `ROWS` and `COLS` of the cropped shape (R113). -/
def cropShape (s : State) : State :=
  { s with rows := BitVec.ofNat 32 (cropRows s), cols := BitVec.ofNat 32 (cropCols s) }

/-- The state with converted pixels stored as planes of the cropped shape (R111). -/
def storeYcc (s : State) (px : List (Nat × F64 × F64 × F64)) : State :=
  (((cropShape s).putPln .y (px.map fun p => (p.1, p.2.1))).putPln
    .cb (px.map fun p => (p.1, p.2.2.1))).putPln
    .cr (px.map fun p => (p.1, p.2.2.2))

/-- RGB2YCC (R111). -/
def rgb2ycc (cfg : Config) : Prim := fun s => do
  inshape cfg s
  let px ← listM (fun p => do
    let v ← yccAt cfg s p.1 p.2
    .ok (plnIdx (cropCols s) p.1 p.2, v)) (grid (cropRows s) (cropCols s))
  .ok (storeYcc s px)

/-- The reconstructed and clamped pixel at row `r`, column `c` of the planes (R120). -/
def rgbAt (cfg : Config) (s : State) (r c : Nat) : Except Stop (F64 × F64 × F64) := do
  let y ← s.plnAt .y (plnIdx s.nCols r c)
  let cb ← s.plnAt .cb (plnIdx s.nCols r c)
  let cr ← s.plnAt .cr (plnIdx s.nCols r c)
  let p := inv cfg.arith y cb cr
  .ok (clamp cfg.arith p.1, clamp cfg.arith p.2.1, clamp cfg.arith p.2.2)

/-- The three writes of a pixel to `OPIX` (R120). -/
def opixWrites (cols r c : Nat) (v : F64 × F64 × F64) : List (Nat × F64) :=
  [(opixIdx cols r c 0, v.1), (opixIdx cols r c 1, v.2.1), (opixIdx cols r c 2, v.2.2)]

/-- YCC2RGB (R120). -/
def ycc2rgb (cfg : Config) : Prim := fun s => do
  pshape cfg false s
  let px ← listM (fun p => do
    let v ← rgbAt cfg s p.1 p.2
    .ok (opixWrites s.nCols p.1 p.2 v)) (grid s.nRows s.nCols)
  .ok (s.putOpix px.flatten)

/-- The meaning of RGB2YCC (R111). -/
def execRgb2ycc (s : State) : Host.Outcome State Fault Refusal := finish (runPrim (rgb2ycc hw) s)

/-- The meaning of YCC2RGB (R120). -/
def execYcc2rgb (s : State) : Host.Outcome State Fault Refusal := finish (runPrim (ycc2rgb hw) s)

end Sys2Proof.Machine
end

