-- ==== Sys2Proof/Machine/Dct.lean ====
section
/-! DEFINITION. BlockTransform: FDCT8 (R134) and IDCT8 (R137), in place on `BLK` from a snapshot. -/

namespace Sys2Proof.Machine

/-- A dot product of eight pairs (R135): the pairs multiplied separately, added in ascending order from the `k = 0`
product. -/
def dot {α : Type} (A : Arith α) (f g : Fin 8 → α) : α :=
  ([1, 2, 3, 4, 5, 6, 7] : List (Fin 8)).foldl (fun acc k => A.add acc (A.mul (f k) (g k))) (A.mul (f 0) (g 0))

/-- The forward transform `(P · B) · Pᵗ` (R134), the left product first (R135). -/
def fdct {α : Type} (A : Arith α) (b : Block α) : Block α :=
  let t := Block.ofFn fun i j => dot A (fun k => A.prom i k) (fun k => b.at k j)
  Block.ofFn fun i j => dot A (fun k => t.at i k) (fun k => A.prom j k)

/-- The inverse transform `(Pᵗ · C) · P` (R137), the left product first (R135). -/
def idct {α : Type} (A : Arith α) (c : Block α) : Block α :=
  let t := Block.ofFn fun i j => dot A (fun k => A.prom k i) (fun k => c.at k j)
  Block.ofFn fun i j => dot A (fun k => t.at i k) (fun k => A.prom k j)

/-- FDCT8 (R134). -/
def fdct8 (cfg : Config) : Prim := fun s => .ok { s with blk := fdct cfg.arith s.blk }

/-- IDCT8 (R137). -/
def idct8 (cfg : Config) : Prim := fun s => .ok { s with blk := idct cfg.arith s.blk }

/-- The meaning of FDCT8 (R134). -/
def execFdct8 (s : State) : Host.Outcome State Fault Refusal := finish (runPrim (fdct8 hw) s)

/-- The meaning of IDCT8 (R137). -/
def execIdct8 (s : State) : Host.Outcome State Fault Refusal := finish (runPrim (idct8 hw) s)

end Sys2Proof.Machine
end

