-- ==== Sys2Proof/Machine/Quant.lean ====
section
/-! DEFINITION. Quantizer: QUANT (R152 to R157) and DEQUANT (R160). -/

namespace Sys2Proof.Machine

/-- Step 3 (R154): an entry of magnitude strictly below the threshold becomes 0. -/
def suppress (t q : Int) : Int := if (q.natAbs : Int) < t then 0 else q

/-- Step 4 (R155): an entry of row or column index at or beyond the cutoff becomes 0. -/
def bandCut (k : Int) (i j : Fin 8) (q : Int) : Int :=
  if k ≤ (i.val : Int) ∨ k ≤ (j.val : Int) then 0 else q

/-- Steps 1 and 2 (R153, R157): the quotient rounded by the mode, with the two range faults at position `(i, j)`. -/
def roundQuotient {α : Type} (A : Arith α) (q : Int) (trunc : Bool) (i j : Fin 8) (d : α) : Except Stop Int := do
  let x := A.div d (A.ofInt q)
  let n := if trunc then A.toIntTRUNC x else A.toIntHAZ x
  raiseIf (!A.finite x) .quotientNotFinite (BitVec.ofNat 32 (blkIdx i j))
  raiseIf (decide (n < -32768) || decide (32767 < n)) .quotientRange (BitVec.ofNat 32 (blkIdx i j))
  .ok n

/-- One position of QUANT (R152). -/
def quantAt {α : Type} (A : Arith α) (q t k : Int) (trunc : Bool) (i j : Fin 8) (d : α) : Except Stop I16 := do
  let n ← roundQuotient A q trunc i j d
  .ok (BitVec.ofInt 16 (bandCut k i j (suppress t n)))

/-- The quantized block (R152), formed completely or not at all (R244 a). -/
def quantBlock {α : Type} (A : Arith α) (q : Block I16) (t k : Int) (trunc : Bool) (b : Block α) :
    Except Stop (Block I16) :=
  blockM fun i j => quantAt A (q.at i j).toInt t k trunc i j (b.at i j)

/-- The quantized block of a block under the registers of a state (R152). -/
def quantOf (cfg : Config) (s : State) (b : Block F64) : Except Stop (Block I16) :=
  quantBlock cfg.arith cfg.qtable s.threshold.toInt s.bandCutoff.toInt s.rmode b

/-- QUANT (R152). -/
def quant (cfg : Config) : Prim := fun s => do
  qparam s
  let n ← quantOf cfg s s.blk
  .ok { s with qblk := n }

/-- The dequantized block (R160): the integer products, each converted exactly. -/
def dequantBlock {α : Type} (A : Arith α) (q n : Block I16) : Block α :=
  Block.ofFn fun i j => A.ofInt ((n.at i j).toInt * (q.at i j).toInt)

/-- DEQUANT (R160). -/
def dequant (cfg : Config) : Prim := fun s => .ok { s with blk := dequantBlock cfg.arith cfg.qtable s.qblk }

/-- The meaning of QUANT (R152). -/
def execQuant (s : State) : Host.Outcome State Fault Refusal := finish (runPrim (quant hw) s)

/-- The meaning of DEQUANT (R160). -/
def execDequant (s : State) : Host.Outcome State Fault Refusal := finish (runPrim (dequant hw) s)

end Sys2Proof.Machine
end

