-- ==== Sys2Proof/Machine/Sparse.lean ====
section
/-! DEFINITION. SparseCodec: PACK (R172) and UNPACK (R175) with `CSRCHECK` (R176). -/

namespace Sys2Proof.Machine

/-! ## PACK -/

/-- The quantized plane of a channel, row by row (R172). -/
def planeRows (s : State) (ch : Channel) : Except Stop (List (List I16)) :=
  listM (fun r => listM (fun c => s.qplAt ch (plnIdx s.nCols r c)) (List.range s.nCols)) (List.range s.nRows)

/-- The `(value, column)` pairs of the non-zero entries of a row from column `c` on, ascending (R172). -/
def packRow (c : Nat) : List I16 → List (I16 × Nat)
  | [] => []
  | v :: vs => if v = 0#16 then packRow (c + 1) vs else (v, c) :: packRow (c + 1) vs

/-- The pairs of all rows in row-major order (R172). -/
def packRows (rows : List (List I16)) : List (I16 × Nat) := rows.flatMap (packRow 0)

/-- The cumulative counts per row (R172), beginning with the count `n` before the first row. -/
def rowPointers (n : Nat) : List (List I16) → List Nat
  | [] => [n]
  | row :: rows => n :: rowPointers (n + (packRow 0 row).length) rows

/-- A list as writes to the indices from `i` on. -/
def indexed {α : Type} (i : Nat) : List α → List (Nat × α)
  | [] => []
  | a :: as => (i, a) :: indexed (i + 1) as

/-- The state with the CSR of the given rows stored for a channel (R172). -/
def storeCsr (s : State) (ch : Channel) (rows : List (List I16)) : State :=
  let es := packRows rows
  let n : Word32 := BitVec.ofNat 32 es.length
  { s with
    mem := { s.mem with
      val := s.mem.val.set ch (Buf.writeAll (s.mem.val.get ch) (indexed 0 (es.map fun e => e.1)))
      coli := s.mem.coli.set ch
        (Buf.writeAll (s.mem.coli.get ch) (indexed 0 (es.map fun e => BitVec.ofNat 32 e.2)))
      rptr := s.mem.rptr.set ch
        (Buf.writeAll (s.mem.rptr.get ch) (indexed 0 ((rowPointers 0 rows).map fun k => BitVec.ofNat 32 k))) }
    vallen := s.vallen.set ch n
    collen := s.collen.set ch n
    rptrlen := s.rptrlen.set ch (s.rows + 1#32) }

/-- PACK (R172). -/
def pack (cfg : Config) (ch : Channel) : Prim := fun s => do
  pshape cfg false s
  let rows ← planeRows s ch
  .ok (storeCsr s ch rows)

/-! ## UNPACK -/

/-- Check 5 of `CSRCHECK` at row `r` (R176). -/
def pointerRises (s : State) (ch : Channel) (r : Nat) : Except Stop Unit := do
  let a ← s.rptrAt ch r
  let b ← s.rptrAt ch (r + 1)
  raiseIf (decide (b.toInt < a.toInt)) .csrPointerFalls (BitVec.ofNat 32 r)

/-- Check 7 of `CSRCHECK` at position `k` (R176). -/
def columnInRange (s : State) (ch : Channel) (k : Nat) : Except Stop Unit := do
  let c ← s.coliAt ch k
  raiseIf (decide (c.toInt < 0) || decide (s.cols.toInt ≤ c.toInt)) .csrColumnRange (BitVec.ofNat 32 k)

/-- Check 8 of `CSRCHECK` at position `k` (R176). -/
def columnRises (s : State) (ch : Channel) (k : Nat) : Except Stop Unit := do
  let c ← s.coliAt ch k
  let p ← s.coliAt ch (k - 1)
  raiseIf (decide (c.toInt ≤ p.toInt)) .csrColumnOrder (BitVec.ofNat 32 k)

/-- The positions `from .. to - 1` (R15: empty when `to <= from`). -/
def positions (lo hi : Nat) : List Nat := List.range' lo (hi - lo)

/-- Check 8 of `CSRCHECK` in row `r` (R176). -/
def rowRises (s : State) (ch : Channel) (r : Nat) : Except Stop Unit := do
  let a ← s.rptrAt ch r
  let b ← s.rptrAt ch (r + 1)
  forM (columnRises s ch) (positions (a.toInt.toNat + 1) b.toInt.toNat)

/-- `CSRCHECK(ch)` (R176), checks 1 to 8 in order. -/
def csrCheck (s : State) (ch : Channel) : Except Stop Unit := do
  raiseIf (decide ((s.rptrlen.get ch).toInt ≠ s.rows.toInt + 1)) .csrRowPointerLength (s.rptrlen.get ch)
  raiseIf (decide (s.vallen.get ch ≠ s.collen.get ch)) .csrLengthsDiffer (s.collen.get ch)
  raiseIf (decide ((s.vallen.get ch).toInt < 0) || decide (s.rows.toInt * s.cols.toInt < (s.vallen.get ch).toInt))
    .csrLength (s.vallen.get ch)
  let p0 ← s.rptrAt ch 0
  raiseIf (decide (p0.toInt ≠ 0)) .csrFirstPointer p0
  forM (pointerRises s ch) (List.range s.nRows)
  let pe ← s.rptrAt ch s.nRows
  raiseIf (decide (pe.toInt ≠ (s.vallen.get ch).toInt)) .csrLength pe
  forM (columnInRange s ch) (List.range (s.vallen.get ch).toInt.toNat)
  forM (rowRises s ch) (List.range s.nRows)

/-- The write of CSR entry `k` of row `r` to the dense plane (R175). -/
def scatterAt (s : State) (ch : Channel) (r k : Nat) : Except Stop (Nat × I16) := do
  let c ← s.coliAt ch k
  let v ← s.valAt ch k
  .ok (plnIdx s.nCols r c.toInt.toNat, v)

/-- The writes of row `r` (R175). -/
def scatterRow (s : State) (ch : Channel) (r : Nat) : Except Stop (List (Nat × I16)) := do
  let a ← s.rptrAt ch r
  let b ← s.rptrAt ch (r + 1)
  listM (scatterAt s ch r) (positions a.toInt.toNat b.toInt.toNat)

/-- The zero fill of the dense plane (R175). -/
def zeroFill (n : Nat) : List (Nat × I16) := (List.range n).map fun i => (i, 0#16)

/-- UNPACK (R175). -/
def unpack (cfg : Config) (ch : Channel) : Prim := fun s => do
  pshape cfg false s
  csrCheck s ch
  let rows ← listM (scatterRow s ch) (List.range s.nRows)
  .ok (s.putQpl ch (zeroFill (s.nRows * s.nCols) ++ rows.flatten))

/-- The meaning of PACK (R172). -/
def execPack (ch : Channel) (s : State) : Host.Outcome State Fault Refusal := finish (runPrim (pack hw ch) s)

/-- The meaning of UNPACK (R175). -/
def execUnpack (ch : Channel) (s : State) : Host.Outcome State Fault Refusal := finish (runPrim (unpack hw ch) s)

end Sys2Proof.Machine
end

