-- ==== Sys2Proof/Machine/Tile.lean ====
section
/-! DEFINITION. Tile movement (R192 to R195), level shift (R196, R197) and sequencing (R203, R204). -/

namespace Sys2Proof.Machine

/-- Tile `(tr, tc)` of plane `ch` (R190, R192). -/
def tileOf (s : State) (ch : Channel) (tr tc : Nat) : Except Stop (Block F64) :=
  blockM fun i j => s.plnAt ch (tileIdx s.nCols tr tc i j)

/-- Tile `(tr, tc)` of quantized plane `ch` (R190, R194). -/
def qtileOf (s : State) (ch : Channel) (tr tc : Nat) : Except Stop (Block I16) :=
  blockM fun i j => s.qplAt ch (tileIdx s.nCols tr tc i j)

/-- The 64 positions of a block in row-major order. -/
def blockPositions : List (Fin 8 × Fin 8) :=
  (List.finRange 8).flatMap fun i => (List.finRange 8).map fun j => (i, j)

/-- A block as writes to tile `(tr, tc)` of a plane-shaped space (R193, R195). -/
def tileWrites {α : Type} (cols tr tc : Nat) (b : Block α) : List (Nat × α) :=
  blockPositions.map fun p => (tileIdx cols tr tc p.1 p.2, b.at p.1 p.2)

/-- LDBLK (R192). -/
def ldblk (cfg : Config) (ch : Channel) : Prim := fun s => do
  tileCheck cfg s
  let b ← tileOf s ch s.nTileR s.nTileC
  .ok { s with blk := b }

/-- STBLK (R193). -/
def stblk (cfg : Config) (ch : Channel) : Prim := fun s => do
  tileCheck cfg s
  .ok (s.putPln ch (tileWrites s.nCols s.nTileR s.nTileC s.blk))

/-- LDQBLK (R194). -/
def ldqblk (cfg : Config) (ch : Channel) : Prim := fun s => do
  tileCheck cfg s
  let b ← qtileOf s ch s.nTileR s.nTileC
  .ok { s with qblk := b }

/-- STQBLK (R195). -/
def stqblk (cfg : Config) (ch : Channel) : Prim := fun s => do
  tileCheck cfg s
  .ok (s.putQpl ch (tileWrites s.nCols s.nTileR s.nTileC s.qblk))

/-- A block with 128 subtracted from every element (R196). -/
def centerBlock {α : Type} (A : Arith α) (b : Block α) : Block α :=
  Block.ofFn fun i j => A.sub (b.at i j) (A.lit 128 0)

/-- A block with 128 added to every element (R197). -/
def uncenterBlock {α : Type} (A : Arith α) (b : Block α) : Block α :=
  Block.ofFn fun i j => A.add (b.at i j) (A.lit 128 0)

/-- CENTER (R196). -/
def center (cfg : Config) : Prim := fun s => .ok { s with blk := centerBlock cfg.arith s.blk }

/-- UNCENTER (R197). -/
def uncenter (cfg : Config) : Prim := fun s => .ok { s with blk := uncenterBlock cfg.arith s.blk }

/-- TRST (R203). -/
def trst : Prim := fun s => .ok ({ s with tileR := 0#32, tileC := 0#32 }.setLast false)

/-- The row-major successor of the tile counter (R204); `LAST` is set exactly when it wraps. -/
def nextTile (s : State) : State :=
  if s.tileC.toInt + 1 < s.cols.toInt / 8 then { s with tileC := s.tileC + 1#32 }.setLast false
  else if s.tileR.toInt + 1 < s.rows.toInt / 8 then
    { s with tileC := 0#32, tileR := s.tileR + 1#32 }.setLast false
  else { s with tileC := 0#32, tileR := 0#32 }.setLast true

/-- TNEXT (R204). -/
def tnext (cfg : Config) : Prim := fun s => do
  tileCheck cfg s
  .ok (nextTile s)

/-- The meaning of LDBLK (R192). -/
def execLdblk (ch : Channel) (s : State) : Host.Outcome State Fault Refusal := finish (runPrim (ldblk hw ch) s)

/-- The meaning of STBLK (R193). -/
def execStblk (ch : Channel) (s : State) : Host.Outcome State Fault Refusal := finish (runPrim (stblk hw ch) s)

/-- The meaning of LDQBLK (R194). -/
def execLdqblk (ch : Channel) (s : State) : Host.Outcome State Fault Refusal := finish (runPrim (ldqblk hw ch) s)

/-- The meaning of STQBLK (R195). -/
def execStqblk (ch : Channel) (s : State) : Host.Outcome State Fault Refusal := finish (runPrim (stqblk hw ch) s)

/-- The meaning of CENTER (R196). -/
def execCenter (s : State) : Host.Outcome State Fault Refusal := finish (runPrim (center hw) s)

/-- The meaning of UNCENTER (R197). -/
def execUncenter (s : State) : Host.Outcome State Fault Refusal := finish (runPrim (uncenter hw) s)

/-- The meaning of TRST (R203). -/
def execTrst (s : State) : Host.Outcome State Fault Refusal := finish (runPrim trst s)

/-- The meaning of TNEXT (R204). -/
def execTnext (s : State) : Host.Outcome State Fault Refusal := finish (runPrim (tnext hw) s)

end Sys2Proof.Machine
end

