-- ==== Sys2Proof/Machine/Codec.lean ====
section
/-! DEFINITION. The orchestrator: FQPLANE (R211), DQIPLANE (R213), ENCODE (R215), DECODE (R218), each the sequence of
primitives that its expansion lists (R210). -/

namespace Sys2Proof.Machine

/-- Primitives one after another (R210). -/
def sequence : List Prim → State → Progress
  | [], s => .ok s
  | p :: ps, s => (runPrim p s).andThen (sequence ps)

/-- `repeat: body until STATUS.LAST = 1` (R210 d, R211, R213) with a bound on the rounds. The callers' bound is the number
of tiles, which is how often the body runs (R205, R285). -/
def untilLast (body : State → Progress) : Nat → State → Progress
  | 0, s => .ok s
  | n + 1, s => (body s).andThen fun t => if t.status.last then .ok t else untilLast body n t

/-- The number of tiles of a plane, `TR*TC` (R190, R205). -/
def State.tiles (s : State) : Nat := s.tileRows * s.tileCols

/-- `if ch = 0: …`, luminance only (R211, R213). -/
def lumaOnly (ch : Channel) (p : Prim) : List Prim :=
  match ch with
  | .y => [p]
  | .cb => []
  | .cr => []

/-- The loop body of FQPLANE (R211). -/
def fqBody (cfg : Config) (ch : Channel) : State → Progress :=
  sequence ([ldblk cfg ch] ++ lumaOnly ch (center cfg) ++ [fdct8 cfg, quant cfg, stqblk cfg ch, tnext cfg])

/-- The expansion of FQPLANE after its upfront checks (R211). -/
def fqTiles (cfg : Config) (ch : Channel) (s : State) : Progress :=
  (runPrim trst s).andThen fun t => untilLast (fqBody cfg ch) t.tiles t

/-- FQPLANE (R211): upfront shape then parameters. -/
def fqplane (cfg : Config) (ch : Channel) : State → Progress :=
  upfront (pshape cfg true) (upfront qparam (fqTiles cfg ch))

/-- The loop body of DQIPLANE (R213). -/
def dqiBody (cfg : Config) (ch : Channel) : State → Progress :=
  sequence ([ldqblk cfg ch, dequant cfg, idct8 cfg] ++ lumaOnly ch (uncenter cfg) ++ [stblk cfg ch, tnext cfg])

/-- The expansion of DQIPLANE after its upfront check (R213). -/
def dqiTiles (cfg : Config) (ch : Channel) (s : State) : Progress :=
  (runPrim trst s).andThen fun t => untilLast (dqiBody cfg ch) t.tiles t

/-- DQIPLANE (R213). -/
def dqiplane (cfg : Config) (ch : Channel) : State → Progress :=
  upfront (pshape cfg true) (dqiTiles cfg ch)

/-- Transform, quantize and pack one channel (R215 steps 3 to 5). -/
def encodeChannel (cfg : Config) (ch : Channel) (s : State) : Progress :=
  (fqTiles cfg ch s).andThen (runPrim (pack cfg ch))

/-- The channels that are sparse under `CTRL.CHROMA`, in order (R215, R218). -/
def sparseChannels (s : State) : List Channel := if s.chroma then [.y, .cb, .cr] else [.y]

/-- One thing after another for each channel of a list. -/
def eachChannel (f : Channel → State → Progress) : List Channel → State → Progress
  | [], s => .ok s
  | ch :: chs, s => (f ch s).andThen (eachChannel f chs)

/-- ENCODE (R215): upfront input shape then parameters. -/
def encodeAll (cfg : Config) : State → Progress :=
  upfront (inshape cfg) (upfront qparam fun s =>
    (runPrim (rgb2ycc cfg) s).andThen (eachChannel (encodeChannel cfg) (sparseChannels s)))

/-- DECODE (R218): every UNPACK before the first DQIPLANE. -/
def decodeAll (cfg : Config) : State → Progress :=
  upfront (pshape cfg true) fun s =>
    ((eachChannel (fun ch => runPrim (unpack cfg ch)) (sparseChannels s) s).andThen
      (eachChannel (dqiTiles cfg) (sparseChannels s))).andThen
      (runPrim (ycc2rgb cfg))

/-- The meaning of FQPLANE (R211). -/
def execFqplane (ch : Channel) (s : State) : Host.Outcome State Fault Refusal := finish (fqplane hw ch s)

/-- The meaning of DQIPLANE (R213). -/
def execDqiplane (ch : Channel) (s : State) : Host.Outcome State Fault Refusal := finish (dqiplane hw ch s)

/-- The meaning of ENCODE (R215). -/
def execEncode (s : State) : Host.Outcome State Fault Refusal := finish (encodeAll hw s)

/-- The meaning of DECODE (R218). -/
def execDecode (s : State) : Host.Outcome State Fault Refusal := finish (decodeAll hw s)

end Sys2Proof.Machine
end

