-- ==== Sys2Proof/Machine/System.lean ====
section
/-! DEFINITION. System commands: NOP (R230), CLRERR (R231), SRST (R232). -/

namespace Sys2Proof.Machine

/-- NOP (R230). -/
def nop : Prim := fun s => .ok s

/-- CLRERR (R231). -/
def clrerr : Prim := fun s => .ok (clearFault s)

/-- SRST (R232, R271): every control register at its reset value, `STATUS` 0; the block registers and the buffers are
kept. -/
def softReset (s : State) : State :=
  { State.reset with
    pend := s.pend
    blk := s.blk
    qblk := s.qblk
    mem := s.mem
    agenda := s.agenda
    replies := s.replies }

/-- The meaning of NOP (R230). -/
def execNop (s : State) : Host.Outcome State Fault Refusal := finish (runPrim nop s)

/-- The meaning of CLRERR (R231). -/
def execClrerr (s : State) : Host.Outcome State Fault Refusal := finish (runPrim clrerr s)

/-- The meaning of SRST (R232): the one command that does not set `DONE`. -/
def execSrst (s : State) : Host.Outcome State Fault Refusal := .next (softReset s)

end Sys2Proof.Machine
end

