-- ==== Sys2Proof/Machine/Dispatch.lean ====
section
/-! DEFINITION. One arm per command: its meaning (R92). -/

namespace Sys2Proof.Machine

def exec (i : Instr) (s : State) : Host.Outcome State Fault Refusal :=
  match i with
  | .nop => Sys2Proof.Machine.execNop s
  | .clrerr => Sys2Proof.Machine.execClrerr s
  | .srst => Sys2Proof.Machine.execSrst s
  | .rgb2ycc => Sys2Proof.Machine.execRgb2ycc s
  | .ycc2rgb => Sys2Proof.Machine.execYcc2rgb s
  | .fdct8 => Sys2Proof.Machine.execFdct8 s
  | .idct8 => Sys2Proof.Machine.execIdct8 s
  | .quant => Sys2Proof.Machine.execQuant s
  | .dequant => Sys2Proof.Machine.execDequant s
  | .pack ch => Sys2Proof.Machine.execPack ch s
  | .unpack ch => Sys2Proof.Machine.execUnpack ch s
  | .ldblk ch => Sys2Proof.Machine.execLdblk ch s
  | .stblk ch => Sys2Proof.Machine.execStblk ch s
  | .ldqblk ch => Sys2Proof.Machine.execLdqblk ch s
  | .stqblk ch => Sys2Proof.Machine.execStqblk ch s
  | .center => Sys2Proof.Machine.execCenter s
  | .uncenter => Sys2Proof.Machine.execUncenter s
  | .trst => Sys2Proof.Machine.execTrst s
  | .tnext => Sys2Proof.Machine.execTnext s
  | .fqplane ch => Sys2Proof.Machine.execFqplane ch s
  | .dqiplane ch => Sys2Proof.Machine.execDqiplane ch s
  | .encode => Sys2Proof.Machine.execEncode s
  | .decode => Sys2Proof.Machine.execDecode s

end Sys2Proof.Machine
end

