-- ==== Sys2Proof/Machine/HostPort.lean ====
section
/-! DEFINITION. The host port: register reads and writes (R22, R23, R41), buffer reads and writes (R60, R67, R80, R82), and
the hardware reset (R270). -/

namespace Sys2Proof.Machine

/-! ## The register window -/

/-- The word at a register offset (R22, R41). `CMD` and every offset that is not one of R41's read 0 (R22, R65). -/
def readReg (s : State) (off : Nat) : Word32 :=
  match off with
  | 0x04 => s.status.word
  | 0x08 => s.errcode
  | 0x0C => s.errinfo
  | 0x10 => s.ctrl
  | 0x14 => s.height
  | 0x18 => s.width
  | 0x1C => s.channels
  | 0x20 => s.threshold
  | 0x24 => s.bandCutoff
  | 0x28 => s.rows
  | 0x2C => s.cols
  | 0x30 => s.tileR
  | 0x34 => s.tileC
  | 0x40 => s.vallen.y
  | 0x44 => s.collen.y
  | 0x48 => s.rptrlen.y
  | 0x50 => s.vallen.cb
  | 0x54 => s.collen.cb
  | 0x58 => s.rptrlen.cb
  | 0x60 => s.vallen.cr
  | 0x64 => s.collen.cr
  | 0x68 => s.rptrlen.cr
  | _ => 0#32

/-- The two words that pass the `ERR` gate (R23, R92): CLRERR and SRST. -/
def passesErrGate (w : Word32) : Bool := w == 0x00000001#32 || w == 0x00000002#32

/-- A command is accepted (R23): latched, `BUSY <- 1`, `DONE <- 0`. -/
def acceptCmd (s : State) (w : Word32) : State :=
  { s with pend := w, status := { s.status with busy := true, done := false } }

/-- A write of `CMD` while the CORE is idle (R23): accepted unless a fault is unacknowledged and the word is neither CLRERR
nor SRST; otherwise no effect. -/
def writeCmd (s : State) (w : Word32) : State :=
  if !s.status.err || passesErrGate w then acceptCmd s w else s

/-- A register write while the CORE is idle (R22, R41, R80): stored unchanged in an `RW` register (`CTRL` keeps bits 2:0,
R27), ignored elsewhere. -/
def writeRegIdle (s : State) (off : Nat) (w : Word32) : State :=
  match off with
  | 0x00 => writeCmd s w
  | 0x10 => { s with ctrl := w &&& ctrlMask }
  | 0x14 => { s with height := w }
  | 0x18 => { s with width := w }
  | 0x1C => { s with channels := w }
  | 0x20 => { s with threshold := w }
  | 0x24 => { s with bandCutoff := w }
  | 0x28 => { s with rows := w }
  | 0x2C => { s with cols := w }
  | 0x30 => { s with tileR := w }
  | 0x34 => { s with tileC := w }
  | 0x40 => { s with vallen := { s.vallen with y := w } }
  | 0x44 => { s with collen := { s.collen with y := w } }
  | 0x48 => { s with rptrlen := { s.rptrlen with y := w } }
  | 0x50 => { s with vallen := { s.vallen with cb := w } }
  | 0x54 => { s with collen := { s.collen with cb := w } }
  | 0x58 => { s with rptrlen := { s.rptrlen with cb := w } }
  | 0x60 => { s with vallen := { s.vallen with cr := w } }
  | 0x64 => { s with collen := { s.collen with cr := w } }
  | 0x68 => { s with rptrlen := { s.rptrlen with cr := w } }
  | _ => s

/-- `HostWriteReg(off, w)` (R80): dropped while `BUSY = 1` (R82). -/
def writeReg (s : State) (off : Nat) (w : Word32) : State :=
  if s.status.busy then s else writeRegIdle s off w

/-- The condition of a register move: a whole 32-bit word at an offset that is a multiple of 4; the host port has no other
(R22, U7). -/
def regMove (off : Nat) (k : Host.Outcome State Fault Refusal) : Host.Outcome State Fault Refusal :=
  if off % 4 = 0 then k else .refused (.unalignedOffset off)

/-! ## The buffer port -/

/-- The host's read has returned a value. -/
def State.reply (s : State) (r : Reply) : State := { s with replies := s.replies ++ [r] }

/-- The conditions of a buffer move: the CORE is idle (R80, R82, U3) and the element exists (R67, U2). -/
def portMove (cfg : Config) (s : State) (sp : Space) (i : Nat) (k : Host.Outcome State Fault Refusal) :
    Host.Outcome State Fault Refusal :=
  if s.status.busy then .refused (.portBusy sp i)
  else if Space.length cfg sp ≤ i then .refused (.noSuchElement sp i)
  else k

/-- `HostReadMem(S, i)` (R80): it answers the element; one without a value is refused (U1). -/
def hostRead (cfg : Config) (s : State) (sp : Space) (i : Nat) : Host.Outcome State Fault Refusal :=
  portMove cfg s sp i
    (match s.peek cfg sp i with
      | some e => .next (s.reply (.elem e))
      | none => .refused (.neverWritten sp i))

/-- A move of the host (R80). -/
def hostMove (cfg : Config) (m : HostMove) (s : State) : Host.Outcome State Fault Refusal :=
  match m with
  | .readReg off => regMove off (.next (s.reply (.reg (readReg s off))))
  | .writeReg off w => regMove off (.next (writeReg s off w))
  | .readReal sp i => hostRead cfg s (.real sp) i
  | .writeReal sp i v => portMove cfg s (.real sp) i (.next (s.writeReal sp i v))
  | .readInt16 sp i => hostRead cfg s (.int16 sp) i
  | .writeInt16 sp i v => portMove cfg s (.int16 sp) i (.next (s.writeInt16 sp i v))
  | .readInt32 sp i => hostRead cfg s (.int32 sp) i
  | .writeInt32 sp i v => portMove cfg s (.int32 sp) i (.next (s.writeInt32 sp i v))

/-! ## Hardware reset -/

/-- The hardware reset (R270): every register at its reset value and no buffer element with a value, also during a command
(U5). What the host has still to do and has already read is not the CORE's and stays (log entry 13). -/
def hardReset (s : State) : State := { State.reset with agenda := s.agenda, replies := s.replies }

end Sys2Proof.Machine
end

