-- ==== Sys2Proof/Machine/Fetch.lean ====
section
/-! DEFINITION. The `CoreStep` (R80) and the turns of the agents. The CORE fetches no instruction (R84): the command it runs
is the one latched in `PEND` (R36). -/

namespace Sys2Proof.Machine

/-- `CoreStep` (R80), enabled when `BUSY = 1`: the command `PEND` encodes, or the decode fault of a word that encodes none
(R94), with the word as information. -/
def coreStep (s : State) : Host.Outcome State Fault Refusal :=
  match decode s.pend with
  | .ok i => exec i s
  | .error e => .next (takeFault ⟨illegalCause e, s.pend⟩ s)

/-- The CORE's turn (R80): its one move when `BUSY = 1`, else nothing. -/
def coreTurn (s : State) : Host.Outcome State Fault Refusal :=
  if s.status.busy then coreStep s else .next s

/-- One turn of an agent (R80, R270; log entry 8). -/
def takeTurn (t : Turn) (s : State) : Host.Outcome State Fault Refusal :=
  match t with
  | .host m => hostMove hw m s
  | .core => coreTurn s
  | .reset => .next (hardReset s)

/-- The state in which command word `w` is pending and the next turn is the CORE's. -/
def placeCommand (s : State) (w : Word32) : State := { acceptCmd s w with agenda := [] }

end Sys2Proof.Machine
end

