-- ==== Sys2Proof/Machine/Step.lean ====
section
/-! DEFINITION. One step of the system: the turn the agenda names, or the CORE's when it is empty (R80; log entries 8, 15). -/

namespace Sys2Proof.Machine

/-- One step: the next turn of the agenda; with an empty agenda the CORE's turn. -/
def step (s : State) : Host.Outcome State Fault Refusal :=
  match s.agenda with
  | [] => coreTurn s
  | t :: rest => takeTurn t { s with agenda := rest }

/-- `s` with the command word `w` accepted and the CORE's turn next (log entry 9). -/
def State.withFetchWord (s : State) (nbits w : Nat) : State := placeCommand s (BitVec.ofNat 32 (w % 2 ^ nbits))

end Sys2Proof.Machine
end

