-- ==== Sys2Proof/Machine/Ideal.lean ====
section
/-! DEFINITION. `ARITH = ideal` (R10): the real numbers, every operation exact. It is not executable (R10) and no step of the
machine uses it; statements about the formulas under `ideal` do (log entry 14). -/

namespace Sys2Proof.Machine

/-- `P[i][j]` under `ideal` (R131). -/
noncomputable def idealProm (i j : Fin 8) : ℝ :=
  if i.val = 0 then 1 / (2 * Real.sqrt 2)
  else 1 / 2 * Real.cos ((2 * (j.val : ℝ) + 1) * (i.val : ℝ) * Real.pi / 16)

/-- `sgn(x) * floor(|x| + 1/2)` (R16). -/
noncomputable def idealHAZ (x : ℝ) : Int := if x < 0 then -⌊|x| + 1 / 2⌋ else ⌊|x| + 1 / 2⌋

/-- `sgn(x) * floor(|x|)` (R16). -/
noncomputable def idealTRUNC (x : ℝ) : Int := if x < 0 then -⌊|x|⌋ else ⌊|x|⌋

/-- The strict order of the reals as a test (R9). -/
noncomputable def idealLt (x y : ℝ) : Bool := @decide (x < y) (Classical.propDecidable _)

/-- `ARITH = ideal` (R9, R10). Every real is finite. -/
noncomputable def ideal : Arith ℝ :=
  { lit := fun n k => (n : ℝ) / (10 : ℝ) ^ k
    add := fun x y => x + y
    sub := fun x y => x - y
    mul := fun x y => x * y
    div := fun x y => x / y
    neg := fun x => -x
    ofInt := fun n => (n : ℝ)
    lt := idealLt
    finite := fun _ => true
    toIntHAZ := idealHAZ
    toIntTRUNC := idealTRUNC
    prom := idealProm }

end Sys2Proof.Machine
end

