-- ==== Sys2Proof/Machine/Script.lean ====
section
/-! DEFINITION. The host-script notation (R97, R98): each line is the turns it stands for. -/

namespace Sys2Proof.Machine

/-- The register names of R41. -/
inductive Reg where
  | cmd
  | status
  | errcode
  | errinfo
  | ctrl
  | height
  | width
  | channels
  | threshold
  | bandCutoff
  | rows
  | cols
  | tileR
  | tileC
  | vallen (ch : Channel)
  | collen (ch : Channel)
  | rptrlen (ch : Channel)
deriving DecidableEq, Repr

/-- The byte offset of a register (R41; R31 for the length registers). -/
def Reg.offset : Reg → Nat
  | .cmd => 0x00
  | .status => 0x04
  | .errcode => 0x08
  | .errinfo => 0x0C
  | .ctrl => 0x10
  | .height => 0x14
  | .width => 0x18
  | .channels => 0x1C
  | .threshold => 0x20
  | .bandCutoff => 0x24
  | .rows => 0x28
  | .cols => 0x2C
  | .tileR => 0x30
  | .tileC => 0x34
  | .vallen ch => 0x40 + 0x10 * ch.code.toNat
  | .collen ch => 0x44 + 0x10 * ch.code.toNat
  | .rptrlen ch => 0x48 + 0x10 * ch.code.toNat

/-- The host address of a register: its byte offset from the base of the register window (R41). -/
def Reg.address (cfg : Config) (r : Reg) : Nat := cfg.regBase + r.offset

/-- A decimal number of a script (R97): `± n / 10^k`, converted by `lit`. -/
structure Decimal where
  neg : Bool
  n : Nat
  k : Nat
deriving DecidableEq, Repr

/-- The element a decimal number stands for in a `REAL` space (R97). -/
def Decimal.real (A : Arith F64) (d : Decimal) : F64 := if d.neg then A.neg (A.lit d.n d.k) else A.lit d.n d.k

/-- The lines of a host script: the moves of R97, then the pseudo-instructions of R98 (`EXPECT` is no move). -/
inductive ScriptLine where
  | wr (r : Reg) (v : Int)
  | rd (r : Reg)
  | wmReal (sp : RealSpace) (i : Nat) (v : Decimal)
  | wmInt16 (sp : Int16Space) (i : Nat) (v : Int)
  | wmInt32 (sp : Int32Space) (i : Nat) (v : Int)
  | rmReal (sp : RealSpace) (i : Nat)
  | rmInt16 (sp : Int16Space) (i : Nat)
  | rmInt32 (sp : Int32Space) (i : Nat)
  | cmd (i : Instr)
  | wait
  | run (i : Instr)
  | wmvReal (sp : RealSpace) (a b : Nat) (v : Decimal)
  | wmvInt16 (sp : Int16Space) (a b : Nat) (v : Int)
  | wmvInt32 (sp : Int32Space) (a b : Nat) (v : Int)
  | wmsReal (sp : RealSpace) (a : Nat) (vs : List Decimal)
  | wmsInt16 (sp : Int16Space) (a : Nat) (vs : List Int)
  | wmsInt32 (sp : Int32Space) (a : Nat) (vs : List Int)
deriving DecidableEq, Repr

/-- `CMD <mnemonic>` (R97): a write of the command word to offset 0. -/
def issue (i : Instr) : List Turn := [.host (.writeReg 0x00 (encode i))]

/-- `WAIT` (R98) on the schedule in which the CORE moves before the host's first poll; fairness (R80, R285) says only that
it moves. -/
def awaitIdle : List Turn := [.core, .host (.readReg 0x04)]

/-! ## The integers of a script -/

/-- The element of an integer space of `w` bits that a script's integer stands for (R97). The port carries exactly an element,
so an integer outside the element type's range has none (R66; log entry 25). -/
def intElem (w : Nat) (v : Int) : Option (BitVec w) :=
  if -(2 ^ (w - 1) : Int) ≤ v ∧ v < 2 ^ (w - 1) then some (BitVec.ofInt w v) else none

/-- The elements of a list of integers, if each has one. -/
def intElems (w : Nat) : List Int → Option (List (BitVec w))
  | [] => some []
  | v :: vs => (intElem w v).bind fun e => (intElems w vs).map (e :: ·)

/-- The register word of a script's integer (R97), written signed or as the unsigned number of the same bits; an integer
that no 32-bit word stands for has none (log entry 25). -/
def regWord (v : Int) : Option Word32 := if -(2 ^ 31) ≤ v ∧ v < 2 ^ 32 then some (BitVec.ofInt 32 v) else none

/-- The turns of a script line (R97, R98); none when a number of the line has no element or word. -/
def ScriptLine.turns (A : Arith F64) : ScriptLine → Option (List Turn)
  | .wr r v => (regWord v).map fun w => [.host (.writeReg r.offset w)]
  | .rd r => some [.host (.readReg r.offset)]
  | .wmReal sp i v => some [.host (.writeReal sp i (v.real A))]
  | .wmInt16 sp i v => (intElem 16 v).map fun e => [.host (.writeInt16 sp i e)]
  | .wmInt32 sp i v => (intElem 32 v).map fun e => [.host (.writeInt32 sp i e)]
  | .rmReal sp i => some [.host (.readReal sp i)]
  | .rmInt16 sp i => some [.host (.readInt16 sp i)]
  | .rmInt32 sp i => some [.host (.readInt32 sp i)]
  | .cmd i => some (issue i)
  | .wait => some awaitIdle
  | .run i => some (issue i ++ awaitIdle)
  | .wmvReal sp a b v => some ((List.range' a (b + 1 - a)).map fun i => .host (.writeReal sp i (v.real A)))
  | .wmvInt16 sp a b v => (intElem 16 v).map fun e => (List.range' a (b + 1 - a)).map fun i => .host (.writeInt16 sp i e)
  | .wmvInt32 sp a b v => (intElem 32 v).map fun e => (List.range' a (b + 1 - a)).map fun i => .host (.writeInt32 sp i e)
  | .wmsReal sp a vs => some ((indexed a vs).map fun p => .host (.writeReal sp p.1 (p.2.real A)))
  | .wmsInt16 sp a vs => (intElems 16 vs).map fun es => (indexed a es).map fun p => .host (.writeInt16 sp p.1 p.2)
  | .wmsInt32 sp a vs => (intElems 32 vs).map fun es => (indexed a es).map fun p => .host (.writeInt32 sp p.1 p.2)

/-- The agenda of a script (R97), if each of its lines has turns. -/
def scriptTurns (A : Arith F64) : List ScriptLine → Option (List Turn)
  | [] => some []
  | l :: ls => (l.turns A).bind fun t => (scriptTurns A ls).map (t ++ ·)

end Sys2Proof.Machine
end

