-- ==== Sys2Proof/Safety.lean ====
section
/-! DEFINITION. What the statements mean by a sound state and by the parts of a state an instruction leaves alone. -/

namespace Sys2Proof.Machine

/-! ## The status protocol (R23, R24, R25, R26, R247) -/

/-- The values `ERRCODE` can take (R241): 0 and the codes of the causes. -/
def validErrcode (w : Word32) : Prop := w = 0#32 ∨ ∃ c : Cause, w = c.code

/-- The status protocol: `BUSY` and `DONE` are never both set, `ERR` excludes `DONE` (R24), a command that is pending while
`ERR = 1` is CLRERR or SRST (R23, R247), `ERRCODE` and `ERRINFO` are 0 exactly as `ERR` says (R25, R26), and the reserved
bits of `CTRL` are 0 (R27). -/
def StatusSound (s : State) : Prop :=
  ¬(s.status.busy = true ∧ s.status.done = true) ∧
  ¬(s.status.err = true ∧ s.status.done = true) ∧
  (s.status.busy = true → s.status.err = true → passesErrGate s.pend = true) ∧
  validErrcode s.errcode ∧
  (s.status.err = true ↔ s.errcode ≠ 0#32) ∧
  (s.status.err = false → s.errinfo = 0#32) ∧
  s.ctrl &&& ctrlMask = s.ctrl

/-! ## Memory -/

/-- Every index a buffer lists is below the length of its space (R60, R67). -/
def Buf.below {w : Nat} (n : Nat) (b : Buf w) : Prop := ∀ p ∈ b, p.1 < n

/-- Every buffer lists only elements that exist (R60, R67). -/
def Memory.inRange (cfg : Config) (m : Memory) : Prop :=
  Buf.below (cfg.maxH * cfg.maxW * 3) m.pix ∧ Buf.below (cfg.maxH * cfg.maxW * 3) m.opix ∧
    (∀ ch : Channel, Buf.below (cfg.maxH * cfg.maxW) (m.pln.get ch)) ∧
    (∀ ch : Channel, Buf.below (cfg.maxH * cfg.maxW) (m.qpl.get ch)) ∧
    (∀ ch : Channel, Buf.below (cfg.maxH * cfg.maxW) (m.val.get ch)) ∧
    (∀ ch : Channel, Buf.below (cfg.maxH * cfg.maxW) (m.coli.get ch)) ∧
    ∀ ch : Channel, Buf.below (cfg.maxH + 1) (m.rptr.get ch)

/-- The memory is in canonical form and lists only elements that exist. -/
def MemorySound (s : State) : Prop := s.mem.wf = true ∧ s.mem.inRange hw

/-! ## Legal shapes and parameters (R42, R28, R29, R30) -/

/-- A legal declared input shape (R42, R112). -/
def LegalInput (cfg : Config) (s : State) : Prop :=
  s.channels = 3#32 ∧ 8 ≤ s.height.toInt ∧ s.height.toInt ≤ cfg.maxH ∧ 8 ≤ s.width.toInt ∧ s.width.toInt ≤ cfg.maxW

/-- A legal plane shape (R122 with `m8 = false`). -/
def LegalShape (cfg : Config) (s : State) : Prop :=
  0 < s.rows.toInt ∧ s.rows.toInt ≤ cfg.maxH ∧ 0 < s.cols.toInt ∧ s.cols.toInt ≤ cfg.maxW

/-- A legal plane shape made of whole tiles (R122 with `m8 = true`). -/
def LegalTiling (cfg : Config) (s : State) : Prop :=
  LegalShape cfg s ∧ s.rows.toInt % 8 = 0 ∧ s.cols.toInt % 8 = 0

/-- A tile counter inside the grid of a legal tiling (R28, R191). -/
def LegalTile (cfg : Config) (s : State) : Prop :=
  LegalTiling cfg s ∧ 0 ≤ s.tileR.toInt ∧ s.tileR.toInt < s.rows.toInt / 8 ∧ 0 ≤ s.tileC.toInt ∧
    s.tileC.toInt < s.cols.toInt / 8

/-- Legal quantizer parameters (R30, R156). -/
def LegalParams (s : State) : Prop :=
  0 ≤ s.threshold.toInt ∧ 1 ≤ s.bandCutoff.toInt ∧ s.bandCutoff.toInt ≤ 8

/-! ## What holds a value -/

/-- `PLN[ch]` holds a value at every index below `n`. -/
def PlaneWritten (s : State) (ch : Channel) (n : Nat) : Prop := ∀ i < n, (Buf.read (s.mem.pln.get ch) i).isSome

/-- `QPL[ch]` holds a value at every index below `n`. -/
def QPlaneWritten (s : State) (ch : Channel) (n : Nat) : Prop := ∀ i < n, (Buf.read (s.mem.qpl.get ch) i).isSome

/-- `PIX` holds a value at every sample of the cropped region (R113, R272). -/
def InputWritten (s : State) : Prop :=
  ∀ r < cropRows s, ∀ c < cropCols s, ∀ k < 3, (Buf.read s.mem.pix (pixIdx s.width.toInt.toNat r c k)).isSome

/-- The CSR of a channel passes `CSRCHECK` and its values have been written (R171, R176). -/
def CsrReady (s : State) (ch : Channel) : Prop :=
  csrCheck s ch = .ok () ∧ ∀ k < (s.vallen.get ch).toInt.toNat, (Buf.read (s.mem.val.get ch) k).isSome

/-! ## Status at the end of a command (R24, R210) -/

/-- `STATUS` after a command that completes and leaves `LAST` alone: `DONE` set, `BUSY` clear. -/
def doneStatus (s : State) : Status := { s.status with busy := false, done := true }

/-- `STATUS` after a plane-level or codec command that completes: `LAST` set as well (R211, R213, R215, R218). -/
def doneLastStatus (s : State) : Status := { s.status with busy := false, done := true, last := true }

/-- `STATUS` after a fault (R243): `ERR` set, `BUSY` clear. -/
def faultStatus (s : State) : Status := { s.status with err := true, busy := false }

/-- The state after a fault with a code and an information word that changes nothing else (R243, R244 a). -/
def faulted (s : State) (code info : Word32) : State :=
  { s with status := faultStatus s, errcode := code, errinfo := info }

/-! ## What the commands compute, written out from their rules -/

/-- A sum of eight terms in ascending order, beginning with the first (R135). -/
def sum8 {α : Type} (A : Arith α) (f : Fin 8 → α) : α :=
  A.add (A.add (A.add (A.add (A.add (A.add (A.add (f 0) (f 1)) (f 2)) (f 3)) (f 4)) (f 5)) (f 6)) (f 7)

/-- The quotient of step 1 of QUANT at a position (R153). -/
def quotient (d : F64) (i j : Fin 8) : F64 := f64Div d (f64OfInt (defaultQ.at i j).toInt)

/-- The rounded quotient of step 2 of QUANT (R153), by `CTRL.RMODE`. -/
def rounded (s : State) (d : F64) (i j : Fin 8) : Int :=
  if s.rmode then f64ToIntTRUNC (quotient d i j) else f64ToIntHAZ (quotient d i j)

/-- No position of a block raises `RangeError` in QUANT (R157). -/
def QuotientFits (s : State) (d : F64) (i j : Fin 8) : Prop :=
  f64Finite (quotient d i j) = true ∧ -32768 ≤ rounded s d i j ∧ rounded s d i j ≤ 32767

/-- No position of a block raises `RangeError` in QUANT (R157). -/
def BlockFits (s : State) (b : Block F64) : Prop := ∀ i j : Fin 8, QuotientFits s (b.at i j) i j

/-- The block QUANT computes when nothing faults (R152): rounded, then 0 below the threshold (R154), then 0 at or beyond
the band cutoff (R155). -/
def quantized (s : State) (b : Block F64) : Block I16 :=
  Block.ofFn fun i j =>
    let q := rounded s (b.at i j) i j
    let q3 := if (q.natAbs : Int) < s.threshold.toInt then 0 else q
    BitVec.ofInt 16 (if s.bandCutoff.toInt ≤ (i.val : Int) ∨ s.bandCutoff.toInt ≤ (j.val : Int) then 0 else q3)

/-- Tile `(tr, tc)` of a plane of stride `cols` (R190); an element without a value counts as `+0`. -/
def blockAt (b : Buf 64) (cols tr tc : Nat) : Block F64 :=
  Block.ofFn fun i j => (Buf.read b (tileIdx cols tr tc i j)).getD 0#64

/-- Tile `(tr, tc)` of a quantized plane of stride `cols` (R190); an element without a value counts as 0. -/
def qblockAt (b : Buf 16) (cols tr tc : Nat) : Block I16 :=
  Block.ofFn fun i j => (Buf.read b (tileIdx cols tr tc i j)).getD 0#16

/-- The coefficients of a tile in the forward direction (R211): luminance tiles are centred, chrominance tiles not. -/
def forwardTile (ch : Channel) (b : Block F64) : Block F64 :=
  match ch with
  | .y => fdct binary64 (centerBlock binary64 b)
  | .cb => fdct binary64 b
  | .cr => fdct binary64 b

/-- The samples of a quantized tile (R213): luminance tiles are uncentred, chrominance tiles not. -/
def inverseTile (ch : Channel) (q : Block I16) : Block F64 :=
  match ch with
  | .y => uncenterBlock binary64 (idct binary64 (dequantBlock binary64 defaultQ q))
  | .cb => idct binary64 (dequantBlock binary64 defaultQ q)
  | .cr => idct binary64 (dequantBlock binary64 defaultQ q)

/-- The planes of `t` are the converted input of `s` on the cropped shape (R111, R114). -/
def Converted (s t : State) : Prop :=
  ∀ r < cropRows s, ∀ c < cropCols s, ∀ red green blue : F64,
    Buf.read s.mem.pix (pixIdx s.width.toInt.toNat r c 0) = some red →
    Buf.read s.mem.pix (pixIdx s.width.toInt.toNat r c 1) = some green →
    Buf.read s.mem.pix (pixIdx s.width.toInt.toNat r c 2) = some blue →
    Buf.read t.mem.pln.y (plnIdx (cropCols s) r c) =
        some (f64Add (f64Add (f64Mul (f64Lit 299 3) red) (f64Mul (f64Lit 587 3) green)) (f64Mul (f64Lit 114 3) blue)) ∧
      Buf.read t.mem.pln.cb (plnIdx (cropCols s) r c) =
        some (f64Add (f64Add (f64Sub (f64Mul (f64Neg (f64Lit 1687 4)) red) (f64Mul (f64Lit 3313 4) green))
          (f64Mul (f64Lit 5 1) blue)) (f64Lit 128 0)) ∧
      Buf.read t.mem.pln.cr (plnIdx (cropCols s) r c) =
        some (f64Add (f64Sub (f64Sub (f64Mul (f64Lit 5 1) red) (f64Mul (f64Lit 4187 4) green))
          (f64Mul (f64Lit 813 4) blue)) (f64Lit 128 0))

/-- The output buffer of `t` is the clamped inverse conversion of its planes (R17, R120, R121). -/
def Displayed (t : State) : Prop :=
  ∀ r < t.nRows, ∀ c < t.nCols, ∀ y cb cr : F64,
    Buf.read t.mem.pln.y (plnIdx t.nCols r c) = some y →
    Buf.read t.mem.pln.cb (plnIdx t.nCols r c) = some cb →
    Buf.read t.mem.pln.cr (plnIdx t.nCols r c) = some cr →
    Buf.read t.mem.opix (opixIdx t.nCols r c 0) =
        some (clamp binary64 (f64Add y (f64Mul (f64Lit 1402 3) (f64Sub cr (f64Lit 128 0))))) ∧
      Buf.read t.mem.opix (opixIdx t.nCols r c 1) =
        some (clamp binary64 (f64Sub (f64Sub y (f64Mul (f64Lit 34414 5) (f64Sub cb (f64Lit 128 0))))
          (f64Mul (f64Lit 71414 5) (f64Sub cr (f64Lit 128 0))))) ∧
      Buf.read t.mem.opix (opixIdx t.nCols r c 2) =
        some (clamp binary64 (f64Add y (f64Mul (f64Lit 1772 3) (f64Sub cb (f64Lit 128 0)))))

/-- The number of non-zero entries of `QPL[ch]` at indices below `m` (R172, R180). -/
def nonzerosBelow (s : State) (ch : Channel) (m : Nat) : Nat :=
  ((List.range m).filter fun a => decide (Buf.read (s.mem.qpl.get ch) a ≠ some 0#16)).length

/-- The CSR of channel `ch` in `t` is that of its quantized plane (R172): the lengths, the cumulative counts, and each
non-zero entry with its column at the position its row-major rank gives. -/
def CsrOfPlane (t : State) (ch : Channel) : Prop :=
  t.vallen.get ch = BitVec.ofNat 32 (nonzerosBelow t ch (t.nRows * t.nCols)) ∧
  t.collen.get ch = BitVec.ofNat 32 (nonzerosBelow t ch (t.nRows * t.nCols)) ∧
  t.rptrlen.get ch = BitVec.ofNat 32 (t.nRows + 1) ∧
  (∀ r ≤ t.nRows,
    Buf.read (t.mem.rptr.get ch) r = some (BitVec.ofNat 32 (nonzerosBelow t ch (r * t.nCols)))) ∧
  ∀ r < t.nRows, ∀ c < t.nCols, ∀ v : I16, v ≠ 0#16 →
    Buf.read (t.mem.qpl.get ch) (plnIdx t.nCols r c) = some v →
    Buf.read (t.mem.val.get ch) (nonzerosBelow t ch (plnIdx t.nCols r c)) = some v ∧
      Buf.read (t.mem.coli.get ch) (nonzerosBelow t ch (plnIdx t.nCols r c)) = some (BitVec.ofNat 32 c)

/-- Position `k` of the CSR of `ch` belongs to row `r` (R171). -/
def InRow (s : State) (ch : Channel) (r k : Nat) : Prop :=
  ∃ a b : I32, Buf.read (s.mem.rptr.get ch) r = some a ∧ Buf.read (s.mem.rptr.get ch) (r + 1) = some b ∧
    a.toInt ≤ (k : Int) ∧ (k : Int) < b.toInt

/-- `QPL[ch]` of `t` is the dense form of the CSR of `ch` in `s` (R171, R175): each stored entry at its row and column,
and 0 at every position of the shape that is not named. -/
def DenseOfCsr (s t : State) (ch : Channel) : Prop :=
  (∀ r < s.nRows, ∀ k, InRow s ch r k → ∀ (c : I32) (v : I16),
    Buf.read (s.mem.coli.get ch) k = some c → Buf.read (s.mem.val.get ch) k = some v →
    Buf.read (t.mem.qpl.get ch) (plnIdx s.nCols r c.toInt.toNat) = some v) ∧
  ∀ r < s.nRows, ∀ c < s.nCols,
    (∀ k, InRow s ch r k → Buf.read (s.mem.coli.get ch) k ≠ some (BitVec.ofNat 32 c)) →
    Buf.read (t.mem.qpl.get ch) (plnIdx s.nCols r c) = some 0#16

/-- Every tile of `QPL[ch]` in `t` is the quantized coefficient block of the tile of `PLN[ch]` at the same place, under the
parameters of `t` (R211). -/
def Quantized (t : State) (ch : Channel) : Prop :=
  ∀ tr < t.tileRows, ∀ tc < t.tileCols, ∀ i j : Fin 8,
    Buf.read (t.mem.qpl.get ch) (tileIdx t.nCols tr tc i j) =
      some ((quantized t (forwardTile ch (blockAt (t.mem.pln.get ch) t.nCols tr tc))).at i j)

/-- Every tile of `PLN[ch]` in `t` is reconstructed from the tile of `QPL[ch]` at the same place (R213). -/
def Reconstructed (t : State) (ch : Channel) : Prop :=
  ∀ tr < t.tileRows, ∀ tc < t.tileCols, ∀ i j : Fin 8,
    Buf.read (t.mem.pln.get ch) (tileIdx t.nCols tr tc i j) =
      some ((inverseTile ch (qblockAt (t.mem.qpl.get ch) t.nCols tr tc)).at i j)

/-- The sample of the converted input of `s` for a channel (R114), for the conditions under which ENCODE completes. -/
def convertedSample (s : State) (ch : Channel) (r c : Nat) : F64 :=
  let at_ := fun k => (Buf.read s.mem.pix (pixIdx s.width.toInt.toNat r c k)).getD 0#64
  let p := fwd binary64 (at_ 0) (at_ 1) (at_ 2)
  match ch with
  | .y => p.1
  | .cb => p.2.1
  | .cr => p.2.2

/-- Tile `(tr, tc)` of the converted input of `s` (R111, R190). -/
def convertedBlock (s : State) (ch : Channel) (tr tc : Nat) : Block F64 :=
  Block.ofFn fun i j => convertedSample s ch (8 * tr + i.val) (8 * tc + j.val)

/-! ## What a command may write (R41, R63) and raise (R248) -/

/-- The buffer spaces a command may write (R63, R215, R218); the codec commands reach the channels that are sparse in `s`. -/
def writesOf (s : State) : Instr → List Space
  | .nop => []
  | .clrerr => []
  | .srst => []
  | .rgb2ycc => [.real (.pln .y), .real (.pln .cb), .real (.pln .cr)]
  | .ycc2rgb => [.real .opix]
  | .fdct8 => [.real .blk]
  | .idct8 => [.real .blk]
  | .quant => [.int16 .qblk]
  | .dequant => [.real .blk]
  | .pack ch => [.int16 (.val ch), .int32 (.coli ch), .int32 (.rptr ch)]
  | .unpack ch => [.int16 (.qpl ch)]
  | .ldblk _ => [.real .blk]
  | .stblk ch => [.real (.pln ch)]
  | .ldqblk _ => [.int16 .qblk]
  | .stqblk ch => [.int16 (.qpl ch)]
  | .center => [.real .blk]
  | .uncenter => [.real .blk]
  | .trst => []
  | .tnext => []
  | .fqplane ch => [.real .blk, .int16 .qblk, .int16 (.qpl ch)]
  | .dqiplane ch => [.real .blk, .int16 .qblk, .real (.pln ch)]
  | .encode => [.real .blk, .int16 .qblk, .real (.pln .y), .real (.pln .cb), .real (.pln .cr)] ++
      (sparseChannels s).flatMap fun ch =>
        [.int16 (.qpl ch), .int16 (.val ch), .int32 (.coli ch), .int32 (.rptr ch)]
  | .decode => [.real .blk, .int16 .qblk, .real .opix] ++
      (sparseChannels s).flatMap fun ch => [.int16 (.qpl ch), .real (.pln ch)]

/-- The registers a command writes when it completes, but for `STATUS` (R41, column "written by commands"). -/
def regsOf (s : State) : Instr → List Reg
  | .nop => []
  | .clrerr => [.errcode, .errinfo]
  | .srst => [.errcode, .errinfo, .ctrl, .height, .width, .channels, .threshold, .bandCutoff, .rows, .cols, .tileR,
      .tileC] ++ [Channel.y, .cb, .cr].flatMap fun ch => [.vallen ch, .collen ch, .rptrlen ch]
  | .rgb2ycc => [.rows, .cols]
  | .ycc2rgb => []
  | .fdct8 => []
  | .idct8 => []
  | .quant => []
  | .dequant => []
  | .pack ch => [.vallen ch, .collen ch, .rptrlen ch]
  | .unpack _ => []
  | .ldblk _ => []
  | .stblk _ => []
  | .ldqblk _ => []
  | .stqblk _ => []
  | .center => []
  | .uncenter => []
  | .trst => [.tileR, .tileC]
  | .tnext => [.tileR, .tileC]
  | .fqplane _ => [.tileR, .tileC]
  | .dqiplane _ => [.tileR, .tileC]
  | .encode => [.rows, .cols, .tileR, .tileC] ++
      (sparseChannels s).flatMap fun ch => [.vallen ch, .collen ch, .rptrlen ch]
  | .decode => [.tileR, .tileC]

/-- The causes a command can raise after its word has been decoded (R248). -/
def causesOf : Instr → List Cause
  | .nop => []
  | .clrerr => []
  | .srst => []
  | .rgb2ycc => [.channelCount, .dimNonPositive, .dimBelow8, .dimCapacity]
  | .ycc2rgb => [.dimNonPositive, .dimCapacity]
  | .fdct8 => []
  | .idct8 => []
  | .quant => [.thresholdNegative, .bandCutoffRange, .quotientRange, .quotientNotFinite]
  | .dequant => []
  | .pack _ => [.dimNonPositive, .dimCapacity]
  | .unpack _ => [.dimNonPositive, .dimCapacity, .csrRowPointerLength, .csrLengthsDiffer, .csrFirstPointer,
      .csrPointerFalls, .csrLength, .csrColumnRange, .csrColumnOrder]
  | .ldblk _ => [.dimNonPositive, .dimNotTrimmed, .dimCapacity, .tileIndex]
  | .stblk _ => [.dimNonPositive, .dimNotTrimmed, .dimCapacity, .tileIndex]
  | .ldqblk _ => [.dimNonPositive, .dimNotTrimmed, .dimCapacity, .tileIndex]
  | .stqblk _ => [.dimNonPositive, .dimNotTrimmed, .dimCapacity, .tileIndex]
  | .center => []
  | .uncenter => []
  | .trst => []
  | .tnext => [.dimNonPositive, .dimNotTrimmed, .dimCapacity, .tileIndex]
  | .fqplane _ => [.dimNonPositive, .dimNotTrimmed, .dimCapacity, .thresholdNegative, .bandCutoffRange,
      .quotientRange, .quotientNotFinite]
  | .dqiplane _ => [.dimNonPositive, .dimNotTrimmed, .dimCapacity]
  | .encode => [.channelCount, .dimNonPositive, .dimBelow8, .dimCapacity, .thresholdNegative, .bandCutoffRange,
      .quotientRange, .quotientNotFinite]
  | .decode => [.dimNonPositive, .dimNotTrimmed, .dimCapacity, .csrRowPointerLength, .csrLengthsDiffer,
      .csrFirstPointer, .csrPointerFalls, .csrLength, .csrColumnRange, .csrColumnOrder]

/-- The composite commands (R210, R244); every other command is a primitive. -/
def isComposite : Instr → Bool
  | .nop => false
  | .clrerr => false
  | .srst => false
  | .rgb2ycc => false
  | .ycc2rgb => false
  | .fdct8 => false
  | .idct8 => false
  | .quant => false
  | .dequant => false
  | .pack _ => false
  | .unpack _ => false
  | .ldblk _ => false
  | .stblk _ => false
  | .ldqblk _ => false
  | .stqblk _ => false
  | .center => false
  | .uncenter => false
  | .trst => false
  | .tnext => false
  | .fqplane _ => true
  | .dqiplane _ => true
  | .encode => true
  | .decode => true

/-! ## The host's moves on buffers and registers -/

/-- The registers a host write is stored in (R41, access `RW`). -/
def Reg.writable : Reg → Bool
  | .cmd => false
  | .status => false
  | .errcode => false
  | .errinfo => false
  | .ctrl => true
  | .height => true
  | .width => true
  | .channels => true
  | .threshold => true
  | .bandCutoff => true
  | .rows => true
  | .cols => true
  | .tileR => true
  | .tileC => true
  | .vallen _ => true
  | .collen _ => true
  | .rptrlen _ => true

/-- `HostReadMem` on any space (R80). -/
def readMove (sp : Space) (i : Nat) : HostMove :=
  match sp with
  | .real sp => .readReal sp i
  | .int16 sp => .readInt16 sp i
  | .int32 sp => .readInt32 sp i

/-- `HostWriteMem` on any space: the port carries exactly an element of the space's type (R66). -/
def writeMove (sp : Space) (i : Nat) (e : Elem) : Option HostMove :=
  match sp, e with
  | .real sp, .real v => some (.writeReal sp i v)
  | .int16 sp, .int16 v => some (.writeInt16 sp i v)
  | .int32 sp, .int32 v => some (.writeInt32 sp i v)
  | .real _, .int16 _ => none
  | .real _, .int32 _ => none
  | .int16 _, .real _ => none
  | .int16 _, .int32 _ => none
  | .int32 _, .real _ => none
  | .int32 _, .int16 _ => none

/-- `bits[hi:lo]` of a word (R14). -/
def bits (w : Word32) (hi lo : Nat) : Nat := w.toNat / 2 ^ lo % 2 ^ (hi - lo + 1)

/-! ## Composite commands as what they expand to (R210) -/

/-- A state in which the CORE is busy with an accepted command (R23). -/
def running (s : State) : State := { s with status := { s.status with busy := true, done := false } }

/-- Commands one after another, each as the host would issue it, up to the first fault or refusal. -/
def runAll : List Instr → State → Host.Outcome State Fault Refusal
  | [], s => .next s
  | i :: is, s =>
    match exec i (running s) with
    | .next t => if t.status.err then .next t else runAll is t
    | .fault f => .fault f
    | .refused r => .refused r

/-- One round of FQPLANE (R211). -/
def fqRound (ch : Channel) : List Instr :=
  match ch with
  | .y => [.ldblk .y, .center, .fdct8, .quant, .stqblk .y, .tnext]
  | .cb => [.ldblk .cb, .fdct8, .quant, .stqblk .cb, .tnext]
  | .cr => [.ldblk .cr, .fdct8, .quant, .stqblk .cr, .tnext]

/-- One round of DQIPLANE (R213). -/
def dqiRound (ch : Channel) : List Instr :=
  match ch with
  | .y => [.ldqblk .y, .dequant, .idct8, .uncenter, .stblk .y, .tnext]
  | .cb => [.ldqblk .cb, .dequant, .idct8, .stblk .cb, .tnext]
  | .cr => [.ldqblk .cr, .dequant, .idct8, .stblk .cr, .tnext]

/-- The expansion of FQPLANE for a plane of `n` tiles (R205, R211). -/
def fqExpansion (n : Nat) (ch : Channel) : List Instr := .trst :: (List.replicate n (fqRound ch)).flatten

/-- The expansion of DQIPLANE for a plane of `n` tiles (R205, R213). -/
def dqiExpansion (n : Nat) (ch : Channel) : List Instr := .trst :: (List.replicate n (dqiRound ch)).flatten

/-- The primitives of ENCODE in order (R215): the tiles are those of the cropped shape. -/
def encodeExpansion (s : State) : List Instr :=
  .rgb2ycc :: (sparseChannels s).flatMap fun ch =>
    fqExpansion (cropRows s / 8 * (cropCols s / 8)) ch ++ [.pack ch]

/-- The primitives of DECODE in order (R218). -/
def decodeExpansion (s : State) : List Instr :=
  (sparseChannels s).map .unpack ++ (sparseChannels s).flatMap (dqiExpansion s.tiles) ++ [.ycc2rgb]

/-- An outcome with its next state changed. -/
def mapNext (f : State → State) : Host.Outcome State Fault Refusal → Host.Outcome State Fault Refusal
  | .next s => .next (f s)
  | .fault x => .fault x
  | .refused x => .refused x

/-! ## Values of binary64 numbers (R11) -/

/-- The mathematical value of a finite binary64 number. -/
def f64Value (x : F64) : ℚ := (f64Units x : ℚ) / (2 : ℚ) ^ 1074

/-- `z` is the binary64 number nearest to the rational `q`, ties to the even significand (R11): below the overflow bound no
finite number is nearer, and one as near has an odd fraction if it is another value; from the bound on `z` is the infinity
of the sign of `q`. -/
def RoundsTo (q : ℚ) (z : F64) : Prop :=
  (|q| < 2 ^ 1024 - 2 ^ 970 →
    f64Finite z = true ∧ ∀ y : F64, f64Finite y = true →
      |f64Value z - q| ≤ |f64Value y - q| ∧
        (|f64Value z - q| = |f64Value y - q| → f64Value y ≠ f64Value z → f64Frac z % 2 = 0)) ∧
  (2 ^ 1024 - 2 ^ 970 ≤ |q| → f64IsInf z = true ∧ (f64Sign z = true ↔ q < 0))

end Sys2Proof.Machine
end

