-- ==== Sys2Proof/Certificates/Slice0/Obligations.lean ====
section
/-! DEFINITION. The statements for the provers, in the order of the spec's files. Each docstring names the rule it formalises;
where a clause is the model's own choice it names the log entry. -/

open Sys2Proof Sys2Proof.Machine

/-! ## Command words -/

/-- R90, R91, R92: a word decodes to a command exactly when it is that command's word. -/
def Obligations.DecodeIsExactlyEncode : Prop :=
  ∀ (w : Word32) (i : Instr), decode w = .ok i ↔ w = encode i

/-- R92: the checks on a command word in their order, on the fields as R14 cuts them. -/
def Obligations.DecodeFollowsTheCascade : Prop :=
  ∀ w : Word32,
    (opFormat (BitVec.ofNat 8 (bits w 7 0)) = none → decode w = .error .opcode) ∧
    ∀ fmt : OpFormat, opFormat (BitVec.ofNat 8 (bits w 7 0)) = some fmt →
      (bits w 31 10 ≠ 0 → decode w = .error .reserved) ∧
      (bits w 31 10 = 0 → fmt = .n → bits w 9 8 ≠ 0 → decode w = .error .channel) ∧
      (bits w 31 10 = 0 → fmt = .c → bits w 9 8 = 3 → decode w = .error .channel) ∧
      (bits w 31 10 = 0 → fmt = .n → bits w 9 8 = 0 →
        ∃ i, decode w = .ok i ∧ i.channel = none ∧ (opcOf i).toNat = bits w 7 0) ∧
      (bits w 31 10 = 0 → fmt = .c → bits w 9 8 ≠ 3 →
        ∃ i ch, decode w = .ok i ∧ i.channel = some ch ∧ ch.code.toNat = bits w 9 8 ∧ (opcOf i).toNat = bits w 7 0)

/-- R92: the word of every row of the opcode map, written out. -/
def Obligations.OpcodeMapWords : Prop :=
  decode 0x00000000#32 = .ok .nop ∧ decode 0x00000001#32 = .ok .clrerr ∧ decode 0x00000002#32 = .ok .srst ∧
  decode 0x00000010#32 = .ok .rgb2ycc ∧ decode 0x00000011#32 = .ok .ycc2rgb ∧
  decode 0x00000020#32 = .ok .fdct8 ∧ decode 0x00000021#32 = .ok .idct8 ∧
  decode 0x00000030#32 = .ok .quant ∧ decode 0x00000031#32 = .ok .dequant ∧
  decode 0x00000240#32 = .ok (.pack .cr) ∧ decode 0x00000141#32 = .ok (.unpack .cb) ∧
  decode 0x00000150#32 = .ok (.ldblk .cb) ∧ decode 0x00000051#32 = .ok (.stblk .y) ∧
  decode 0x00000252#32 = .ok (.ldqblk .cr) ∧ decode 0x00000253#32 = .ok (.stqblk .cr) ∧
  decode 0x00000054#32 = .ok .center ∧ decode 0x00000055#32 = .ok .uncenter ∧
  decode 0x00000056#32 = .ok .trst ∧ decode 0x00000057#32 = .ok .tnext ∧
  decode 0x00000060#32 = .ok (.fqplane .y) ∧ decode 0x00000161#32 = .ok (.dqiplane .cb) ∧
  decode 0x00000070#32 = .ok .encode ∧ decode 0x00000071#32 = .ok .decode

/-- R94, R243: a pending word that is no command raises IllegalCommand with the word as information; nothing else changes. That an
empty agenda gives the CORE the turn is the model's choice (log entry 8). -/
def Obligations.IllegalWordFaults : Prop :=
  ∀ (s : State) (e : Illegal), s.agenda = [] → s.status.busy = true → decode s.pend = .error e →
    step s = .next (faulted s (match e with | .opcode => 0x14#32 | .reserved => 0x24#32 | .channel => 0x34#32) s.pend)

/-! ## Steps, registers, buffers -/

/-- R80: on the CORE's turn the pending command runs when `BUSY = 1`, and nothing moves when `BUSY = 0`. Whose turn it is
comes from the model's agenda (log entries 8, 9, 15). -/
def Obligations.StepRunsThePendingCommand : Prop :=
  (∀ (s : State) (i : Instr), s.agenda = [] → s.status.busy = true → decode s.pend = .ok i → step s = exec i s) ∧
  (∀ (s : State) (rest : List Turn) (i : Instr), s.agenda = .core :: rest → s.status.busy = true →
    decode s.pend = .ok i → step s = exec i { s with agenda := rest }) ∧
  (∀ s : State, s.agenda = [] → s.status.busy = false → step s = .next s) ∧
  (∀ (s : State) (rest : List Turn), s.agenda = .core :: rest → s.status.busy = false →
    step s = .next { s with agenda := rest }) ∧
  ∀ (s : State) (i : Instr),
    step (s.withFetchWord 32 (encode i).toNat) =
      exec i { running s with pend := encode i, agenda := [] }

/-- R23: a `CMD` write is accepted when the CORE is idle and no fault is unacknowledged, or the word is CLRERR's or SRST's;
otherwise it has no effect. That the agenda holds the host's move is the model's choice (log entry 8). -/
def Obligations.CommandWriteGate : Prop :=
  ∀ (s : State) (rest : List Turn) (w : Word32), s.agenda = .host (.writeReg 0x00 w) :: rest →
    (s.status.busy = false → (s.status.err = false ∨ w = encode .clrerr ∨ w = encode .srst) →
      step s = .next { running s with pend := w, agenda := rest }) ∧
    (s.status.busy = true ∨ (s.status.err = true ∧ w ≠ encode .clrerr ∧ w ≠ encode .srst) →
      step s = .next { s with agenda := rest }) ∧
    readReg s 0x00 = 0#32

/-- R22, R27, R41: an idle write of an `RW` register is read back (`CTRL` keeps bits 2:0) and no other offset reads
differently; a write at any other word offset but `CMD` changes nothing. An offset that is not a multiple of 4 has no move
(U7; the model refuses it, log entry 10). The agenda is the model's (log entry 8). -/
def Obligations.RegisterWriteReadsBack : Prop :=
  ∀ (s : State) (rest : List Turn) (off : Nat) (w : Word32), s.agenda = .host (.writeReg off w) :: rest →
    s.status.busy = false →
    (∀ r : Reg, r.writable = true → off = r.offset →
      ∃ t, step s = .next t ∧ readReg t off = (if r = .ctrl then w &&& 7#32 else w) ∧
        (∀ off', off' ≠ off → readReg t off' = readReg s off') ∧
        t.status = s.status ∧ t.pend = s.pend ∧ t.blk = s.blk ∧ t.qblk = s.qblk ∧ t.mem = s.mem ∧
        t.agenda = rest ∧ t.replies = s.replies) ∧
    (off % 4 = 0 → off ≠ 0x00 → (∀ r : Reg, r.writable = true → off ≠ r.offset) →
      step s = .next { s with agenda := rest }) ∧
    (off % 4 ≠ 0 → step s = .refused (.unalignedOffset off))

/-- R24, R37, R250: the bits of the `STATUS` word and the `IRQ` output. -/
def Obligations.StatusWordAndInterrupt : Prop :=
  ∀ s : State,
    ((readReg s 0x04).getLsbD 0 = s.status.busy ∧ (readReg s 0x04).getLsbD 1 = s.status.done ∧
      (readReg s 0x04).getLsbD 2 = s.status.err ∧ (readReg s 0x04).getLsbD 3 = s.status.last ∧
      ∀ n, 4 ≤ n → (readReg s 0x04).getLsbD n = false) ∧
    (s.irq = true ↔ (readReg s 0x10).getLsbD 0 = true ∧
      ((readReg s 0x04).getLsbD 1 = true ∨ (readReg s 0x04).getLsbD 2 = true))

/-- R82: while the CORE is busy a register read returns the register (`STATUS` with `BUSY = 1`, `DONE = 0`), a register
write is dropped, and a buffer access has no move (the model refuses it, log entry 12); nor has, busy or not, a register
access at an offset that is not a multiple of 4 (U7, log entry 10). The agenda is the model's (log entry 8). -/
def Obligations.HostAccessWhileBusy : Prop :=
  ∀ (s : State) (rest : List Turn), StatusSound s → s.status.busy = true →
    (∀ off, s.agenda = .host (.readReg off) :: rest →
      (off % 4 = 0 → step s = .next { s with agenda := rest, replies := s.replies ++ [.reg (readReg s off)] }) ∧
      (off % 4 ≠ 0 → step s = .refused (.unalignedOffset off))) ∧
    ((readReg s 0x04).getLsbD 0 = true ∧ (readReg s 0x04).getLsbD 1 = false) ∧
    (∀ off w, s.agenda = .host (.writeReg off w) :: rest →
      (off % 4 = 0 → step s = .next { s with agenda := rest }) ∧
      (off % 4 ≠ 0 → step s = .refused (.unalignedOffset off))) ∧
    (∀ sp i, s.agenda = .host (readMove sp i) :: rest → step s = .refused (.portBusy sp i)) ∧
    ∀ sp i e m, writeMove sp i e = some m → s.agenda = .host m :: rest → step s = .refused (.portBusy sp i)

/-- R60, R66, R80: an idle buffer write changes exactly the element it names, and `PROM` and `QROM` ignore it
(R34, R35). An index beyond the space is refused (U2, R67, log entry 11). The agenda is the model's (log entry 8). -/
def Obligations.BufferWriteReadsBack : Prop :=
  ∀ (s : State) (rest : List Turn) (sp : Space) (i : Nat) (e : Elem) (m : HostMove), writeMove sp i e = some m →
    s.agenda = .host m :: rest → s.status.busy = false →
    (Space.length hw sp ≤ i → step s = .refused (.noSuchElement sp i)) ∧
    (i < Space.length hw sp → sp = .real .prom ∨ sp = .int16 .qrom → step s = .next { s with agenda := rest }) ∧
    (i < Space.length hw sp → sp ≠ .real .prom → sp ≠ .int16 .qrom →
      ∃ t, step s = .next t ∧ t.peek hw sp i = some e ∧
        (∀ sp' i', (sp' ≠ sp ∨ i' ≠ i) → t.peek hw sp' i' = s.peek hw sp' i') ∧
        t.agenda = rest ∧ { t with blk := s.blk, qblk := s.qblk, mem := s.mem, agenda := s.agenda } = s)

/-- R80, R66: an idle buffer read returns the element and changes nothing. An element nothing has written is refused (U1, log
entry 4), as is an index beyond the space (U2, R67, log entry 11). The agenda is the model's (log entry 8). -/
def Obligations.BufferReadReturnsTheElement : Prop :=
  ∀ (s : State) (rest : List Turn) (sp : Space) (i : Nat), s.agenda = .host (readMove sp i) :: rest →
    s.status.busy = false →
    (Space.length hw sp ≤ i → step s = .refused (.noSuchElement sp i)) ∧
    (i < Space.length hw sp → ∀ e, s.peek hw sp i = some e →
      step s = .next { s with agenda := rest, replies := s.replies ++ [.elem e] }) ∧
    (i < Space.length hw sp → s.peek hw sp i = none → step s = .refused (.neverWritten sp i))

/-! ## Reset and system commands -/

/-- R40, R41, R270: what the reset state and every hardware reset leave. No buffer element holds a value; `BLK` and `QBLK`
are unspecified, and the statement says nothing of them. -/
def Obligations.ResetLeavesTheResetValues : Prop :=
  ∀ t : State, (t = State.reset ∨ ∃ s rest, s.agenda = .reset :: rest ∧ step s = .next t) →
    (∀ off, readReg t off = if off = 0x1C then 3#32 else if off = 0x24 then 5#32 else 0#32) ∧ t.irq = false ∧
    (∀ sp, sp ≠ .real .blk → sp ≠ .int16 .qblk → sp ≠ .real .prom → sp ≠ .int16 .qrom →
      ∀ i, t.peek hw sp i = none) ∧
    ∀ i j : Fin 8, t.peek hw (.real .prom) (8 * i.val + j.val) = some (.real (f64Prom i j)) ∧
      t.peek hw (.int16 .qrom) (8 * i.val + j.val) = some (.int16 (defaultQ.at i j))

/-- R230, R231: NOP changes nothing but `STATUS`; CLRERR clears the fault record. Both set `DONE`. -/
def Obligations.NopAndClrerrComplete : Prop :=
  ∀ s : State,
    exec .nop s = .next { s with status := doneStatus s } ∧
    exec .clrerr s =
      .next { s with status := { doneStatus s with err := false }, errcode := 0#32, errinfo := 0#32 }

/-- R232, R271: SRST gives every control register its reset value, leaves `STATUS` 0 and keeps the block registers and the
buffers. -/
def Obligations.SrstCompletes : Prop :=
  ∀ s : State, ∃ t, exec .srst s = .next t ∧
    (∀ off, readReg t off = if off = 0x1C then 3#32 else if off = 0x24 then 5#32 else 0#32) ∧
    t.status = { busy := false, done := false, err := false, last := false } ∧ t.irq = false ∧
    t.blk = s.blk ∧ t.qblk = s.qblk ∧ t.mem = s.mem ∧ t.pend = s.pend ∧ t.agenda = s.agenda ∧ t.replies = s.replies

/-! ## Faults -/

/-- R241: the code of every cause. -/
def Obligations.FaultCodes : Prop :=
  Cause.code .channelCount = 0x11#32 ∧ Cause.code .dimNonPositive = 0x21#32 ∧ Cause.code .dimBelow8 = 0x31#32 ∧
  Cause.code .dimNotTrimmed = 0x41#32 ∧ Cause.code .dimCapacity = 0x51#32 ∧
  Cause.code .thresholdNegative = 0x12#32 ∧ Cause.code .bandCutoffRange = 0x22#32 ∧ Cause.code .tileIndex = 0x32#32 ∧
  Cause.code .csrRowPointerLength = 0x13#32 ∧ Cause.code .csrLengthsDiffer = 0x23#32 ∧
  Cause.code .csrFirstPointer = 0x33#32 ∧ Cause.code .csrPointerFalls = 0x43#32 ∧ Cause.code .csrLength = 0x53#32 ∧
  Cause.code .csrColumnRange = 0x63#32 ∧ Cause.code .csrColumnOrder = 0x73#32 ∧
  Cause.code .illegalOpcode = 0x14#32 ∧ Cause.code .illegalReserved = 0x24#32 ∧ Cause.code .illegalChannel = 0x34#32 ∧
  Cause.code .quotientRange = 0x15#32 ∧ Cause.code .quotientNotFinite = 0x25#32

/-- R244 (a): a primitive that faults changes nothing but `BUSY`, `ERR`, `ERRCODE` and `ERRINFO`. -/
def Obligations.PrimitivesFaultPrecisely : Prop :=
  ∀ (i : Instr) (s t : State), isComposite i = false → s.status.err = false → exec i s = .next t →
    t.status.err = true → t = faulted s t.errcode t.errinfo

/-- R248: the faults each command can raise. -/
def Obligations.FaultsOfEachCommand : Prop :=
  ∀ (i : Instr) (s t : State), s.status.err = false → exec i s = .next t → t.status.err = true →
    ∃ c ∈ causesOf i, t.errcode = c.code

/-- R245: no composite command, completed or faulted, modifies what it reads as input: ENCODE its pixels and parameters,
DECODE the Artifact, FQPLANE its plane, DQIPLANE its quantized plane. -/
def Obligations.CompositesKeepTheirInputs : Prop :=
  ∀ s t : State,
    (exec .encode s = .next t → t.mem.pix = s.mem.pix ∧ t.height = s.height ∧ t.width = s.width ∧
      t.channels = s.channels ∧ t.threshold = s.threshold ∧ t.bandCutoff = s.bandCutoff ∧ t.ctrl = s.ctrl) ∧
    (exec .decode s = .next t → t.rows = s.rows ∧ t.cols = s.cols ∧ t.ctrl = s.ctrl ∧ t.vallen = s.vallen ∧
      t.collen = s.collen ∧ t.rptrlen = s.rptrlen ∧ t.mem.val = s.mem.val ∧ t.mem.coli = s.mem.coli ∧
      t.mem.rptr = s.mem.rptr ∧ (s.chroma = false → t.mem.pln.cb = s.mem.pln.cb ∧ t.mem.pln.cr = s.mem.pln.cr)) ∧
    (∀ ch, exec (.fqplane ch) s = .next t → t.mem.pln = s.mem.pln) ∧
    ∀ ch, exec (.dqiplane ch) s = .next t → t.mem.qpl = s.mem.qpl

/-- R41, R63: the frame of every command, completed or faulted: a space it does not write reads as before at every index, and
a register it does not write reads as before; `ERRCODE` and `ERRINFO` change only with a fault, CLRERR or SRST. -/
def Obligations.FrameOfEveryCommand : Prop :=
  ∀ (i : Instr) (s t : State), exec i s = .next t →
    (∀ sp, sp ∉ writesOf s i → ∀ a, t.peek hw sp a = s.peek hw sp a) ∧
    (∀ r, r ∉ regsOf s i → r ≠ .status → (r = .errcode ∨ r = .errinfo → t.status.err = false) →
      readReg t r.offset = readReg s r.offset) ∧
    t.pend = s.pend ∧ t.agenda = s.agenda ∧ t.replies = s.replies

/-! ## Colour -/

/-- R111, R113, R114: RGB2YCC completes on a legal, written input: the planes hold the converted pixels of the cropped region
and nothing else changes but `ROWS`, `COLS` and `STATUS`. -/
def Obligations.Rgb2yccCompletes : Prop :=
  ∀ s : State, LegalInput hw s → InputWritten s →
    ∃ t, exec .rgb2ycc s = .next t ∧ t.status = doneStatus s ∧
      t.rows.toInt = 8 * (s.height.toInt / 8) ∧ t.cols.toInt = 8 * (s.width.toInt / 8) ∧ Converted s t ∧
      (∀ ch a, cropRows s * cropCols s ≤ a → Buf.read (t.mem.pln.get ch) a = Buf.read (s.mem.pln.get ch) a) ∧
      { t with status := s.status, rows := s.rows, cols := s.cols, mem := { t.mem with pln := s.mem.pln } } = s

/-- R112: the seven checks of the input shape, in order, in RGB2YCC and ENCODE. -/
def Obligations.InputShapeFaults : Prop :=
  ∀ (i : Instr) (s : State), i = .rgb2ycc ∨ i = .encode →
    (s.channels.toInt ≠ 3 → exec i s = .next (faulted s 0x11#32 s.channels)) ∧
    (s.channels.toInt = 3 → s.height.toInt ≤ 0 → exec i s = .next (faulted s 0x21#32 0#32)) ∧
    (s.channels.toInt = 3 → 0 < s.height.toInt → s.width.toInt ≤ 0 → exec i s = .next (faulted s 0x21#32 1#32)) ∧
    (s.channels.toInt = 3 → 0 < s.height.toInt → 0 < s.width.toInt → s.height.toInt < 8 →
      exec i s = .next (faulted s 0x31#32 0#32)) ∧
    (s.channels.toInt = 3 → 8 ≤ s.height.toInt → 0 < s.width.toInt → s.width.toInt < 8 →
      exec i s = .next (faulted s 0x31#32 1#32)) ∧
    (s.channels.toInt = 3 → 4096 < s.height.toInt → 8 ≤ s.width.toInt → exec i s = .next (faulted s 0x51#32 0#32)) ∧
    (s.channels.toInt = 3 → 8 ≤ s.height.toInt → s.height.toInt ≤ 4096 → 4096 < s.width.toInt →
      exec i s = .next (faulted s 0x51#32 1#32))

/-- R120, R121, R17: YCC2RGB completes on a legal shape with written planes: `OPIX` holds the clamped conversion of every
pixel of the shape, and nothing else changes. -/
def Obligations.Ycc2rgbCompletes : Prop :=
  ∀ s : State, LegalShape hw s → (∀ ch, PlaneWritten s ch (s.nRows * s.nCols)) →
    ∃ t, exec .ycc2rgb s = .next t ∧ t.status = doneStatus s ∧ Displayed t ∧
      (∀ a, s.nRows * s.nCols * 3 ≤ a → Buf.read t.mem.opix a = Buf.read s.mem.opix a) ∧
      { t with status := s.status, mem := { t.mem with opix := s.mem.opix } } = s

/-- R122: the six checks of the plane shape, in order, in every command that makes them. -/
def Obligations.PlaneShapeFaults : Prop :=
  ∀ (i : Instr) (m8 : Bool) (s : State),
    (m8 = false ∧ (i = .ycc2rgb ∨ ∃ ch, i = .pack ch ∨ i = .unpack ch) ∨
      m8 = true ∧ (i = .tnext ∨ i = .decode ∨ ∃ ch, i = .ldblk ch ∨ i = .stblk ch ∨ i = .ldqblk ch ∨ i = .stqblk ch ∨
        i = .fqplane ch ∨ i = .dqiplane ch)) →
    (s.rows.toInt ≤ 0 → exec i s = .next (faulted s 0x21#32 0#32)) ∧
    (0 < s.rows.toInt → s.cols.toInt ≤ 0 → exec i s = .next (faulted s 0x21#32 1#32)) ∧
    (0 < s.rows.toInt → 0 < s.cols.toInt → m8 = true → s.rows.toInt % 8 ≠ 0 →
      exec i s = .next (faulted s 0x41#32 0#32)) ∧
    (0 < s.rows.toInt → 0 < s.cols.toInt → m8 = true → s.rows.toInt % 8 = 0 → s.cols.toInt % 8 ≠ 0 →
      exec i s = .next (faulted s 0x41#32 1#32)) ∧
    (0 < s.cols.toInt → (m8 = true → s.rows.toInt % 8 = 0 ∧ s.cols.toInt % 8 = 0) → 4096 < s.rows.toInt →
      exec i s = .next (faulted s 0x51#32 0#32)) ∧
    (0 < s.rows.toInt → s.rows.toInt ≤ 4096 → (m8 = true → s.rows.toInt % 8 = 0 ∧ s.cols.toInt % 8 = 0) →
      4096 < s.cols.toInt → exec i s = .next (faulted s 0x51#32 1#32))

/-- R17, R121: the clamp of a number is in [0, 255] and keeps what is there; an infinity goes to its bound, a NaN stays. -/
def Obligations.ClampOfSamples : Prop :=
  ∀ x : F64,
    (f64Finite x = true →
      f64Finite (clamp binary64 x) = true ∧ f64Value (clamp binary64 x) = max 0 (min 255 (f64Value x)) ∧
        (0 ≤ f64Value x → f64Value x ≤ 255 → clamp binary64 x = x)) ∧
    (f64IsInf x = true → clamp binary64 x = if f64Sign x then 0#64 else 0x406FE00000000000#64) ∧
    (f64IsNaN x = true → clamp binary64 x = x)

/-- R115, R123: under `ideal` a grey pixel converts to `(v, 128, 128)`, and converting there and back leaves a residual
within the bounds of R123. -/
def Obligations.IdealColourIdentities : Prop :=
  (∀ v : ℝ, fwd ideal v v v = (v, 128, 128)) ∧
  ∀ r g b : ℝ, 0 ≤ r → r ≤ 255 → 0 ≤ g → g ≤ 255 → 0 ≤ b → b ≤ 255 →
    |(inv ideal (fwd ideal r g b).1 (fwd ideal r g b).2.1 (fwd ideal r g b).2.2).1 - r| ≤ 0.004437 ∧
    |(inv ideal (fwd ideal r g b).1 (fwd ideal r g b).2.1 (fwd ideal r g b).2.2).2.1 - g| ≤ 0.006120 ∧
    |(inv ideal (fwd ideal r g b).1 (fwd ideal r g b).2.1 (fwd ideal r g b).2.2).2.2 - b| ≤ 0.016218

/-! ## Block transform -/

/-- R134, R135, R137: FDCT8 and IDCT8 complete in every state: two products, the left one first, each sum of eight in
ascending order; only `BLK` and `STATUS` change. -/
def Obligations.TransformsComplete : Prop :=
  ∀ s : State,
    exec .fdct8 s = .next { s with
      status := doneStatus s
      blk := Block.ofFn fun i j => sum8 binary64 fun k =>
        f64Mul (sum8 binary64 fun l => f64Mul (f64Prom i l) (s.blk.at l k)) (f64Prom j k) } ∧
    exec .idct8 s = .next { s with
      status := doneStatus s
      blk := Block.ofFn fun i j => sum8 binary64 fun k =>
        f64Mul (sum8 binary64 fun l => f64Mul (f64Prom l i) (s.blk.at l k)) (f64Prom k j) }

/-- R133, R139: under `ideal` the matrix is orthogonal and each transform undoes the other. -/
def Obligations.IdealTransformsInvert : Prop :=
  (∀ i j : Fin 8, ∑ k : Fin 8, ideal.prom i k * ideal.prom j k = if i = j then 1 else 0) ∧
  (∀ i j : Fin 8, ∑ k : Fin 8, ideal.prom k i * ideal.prom k j = if i = j then 1 else 0) ∧
  ∀ b : Block ℝ, idct ideal (fdct ideal b) = b ∧ fdct ideal (idct ideal b) = b

/-- R110, R131, R132: the bit patterns of the literals and of the seven magnitudes of the matrix, and every matrix entry
within half a unit in the last place of the largest magnitudes from the ideal value of its sign. -/
def Obligations.LiteralAndMatrixBits : Prop :=
  (f64Lit 299 3 = 0x3FD322D0E5604189#64 ∧ f64Lit 587 3 = 0x3FE2C8B439581062#64 ∧
    f64Lit 114 3 = 0x3FBD2F1A9FBE76C9#64 ∧ f64Lit 1687 4 = 0x3FC597F62B6AE7D5#64 ∧
    f64Lit 3313 4 = 0x3FD53404EA4A8C15#64 ∧ f64Lit 5 1 = 0x3FE0000000000000#64 ∧
    f64Lit 4187 4 = 0x3FDACBFB15B573EB#64 ∧ f64Lit 813 4 = 0x3FB4D013A92A3055#64 ∧
    f64Lit 128 0 = 0x4060000000000000#64 ∧ f64Lit 1402 3 = 0x3FF66E978D4FDF3B#64 ∧
    f64Lit 34414 5 = 0x3FD60663C74FB54A#64 ∧ f64Lit 71414 5 = 0x3FE6DA3C21187E7C#64 ∧
    f64Lit 1772 3 = 0x3FFC5A1CAC083127#64 ∧ f64Lit 255 0 = 0x406FE00000000000#64) ∧
  (f64Prom 1 0 = 0x3FDF6297CFF75CB0#64 ∧ f64Prom 2 0 = 0x3FDD906BCF328D46#64 ∧
    f64Prom 3 0 = 0x3FDA9B66290EA1A3#64 ∧ f64Prom 0 0 = 0x3FD6A09E667F3BCD#64 ∧
    f64Prom 5 0 = 0x3FD1C73B39AE68C8#64 ∧ f64Prom 6 0 = 0x3FC87DE2A6AEA963#64 ∧
    f64Prom 7 0 = 0x3FB8F8B83C69A60B#64 ∧ f64Prom 1 7 = 0xBFDF6297CFF75CB0#64) ∧
  ∀ i j : Fin 8, |(f64Value (f64Prom i j) : ℝ) - idealProm i j| ≤ 1 / 2 ^ 55

/-! ## Quantizer -/

/-- R152, R153, R154, R155: QUANT completes when the parameters are legal and every rounded quotient fits; only `QBLK` and
`STATUS` change. -/
def Obligations.QuantCompletes : Prop :=
  ∀ s : State, LegalParams s → BlockFits s s.blk →
    exec .quant s = .next { s with status := doneStatus s, qblk := quantized s s.blk }

/-- R156: the two parameter checks, in order, in QUANT, FQPLANE and ENCODE; in the last two the shape has passed first
(R246). -/
def Obligations.QuantParameterFaults : Prop :=
  ∀ (i : Instr) (s : State),
    (i = .quant ∨ (∃ ch, i = .fqplane ch ∧ LegalTiling hw s) ∨ (i = .encode ∧ LegalInput hw s)) →
    (s.threshold.toInt < 0 → exec i s = .next (faulted s 0x12#32 s.threshold)) ∧
    (0 ≤ s.threshold.toInt → (s.bandCutoff.toInt < 1 ∨ 8 < s.bandCutoff.toInt) →
      exec i s = .next (faulted s 0x22#32 s.bandCutoff))

/-- R157: the first position in row-major order whose quotient does not fit is reported, a non-finite quotient before a range;
`QBLK` is unchanged. -/
def Obligations.QuantRangeFaults : Prop :=
  ∀ (s : State) (i j : Fin 8), LegalParams s →
    (∀ i' j' : Fin 8, 8 * i'.val + j'.val < 8 * i.val + j.val → QuotientFits s (s.blk.at i' j') i' j') →
    (f64Finite (quotient (s.blk.at i j) i j) = false →
      exec .quant s = .next (faulted s 0x25#32 (BitVec.ofNat 32 (8 * i.val + j.val)))) ∧
    (f64Finite (quotient (s.blk.at i j) i j) = true →
      (rounded s (s.blk.at i j) i j < -32768 ∨ 32767 < rounded s (s.blk.at i j) i j) →
      exec .quant s = .next (faulted s 0x15#32 (BitVec.ofNat 32 (8 * i.val + j.val))))

/-- R158 (b), R222: a larger threshold or a smaller cutoff leaves every zero of the quantized block a zero. -/
def Obligations.QuantZerosAreMonotone : Prop :=
  ∀ (s a b : State) (t₁ t₂ k₁ k₂ : Word32), t₁.toInt ≤ t₂.toInt → k₂.toInt ≤ k₁.toInt →
    exec .quant { s with threshold := t₁, bandCutoff := k₁ } = .next a → a.status.err = false →
    exec .quant { s with threshold := t₂, bandCutoff := k₂ } = .next b → b.status.err = false →
    ∀ i j : Fin 8, a.qblk.at i j = 0#16 → b.qblk.at i j = 0#16

/-- R16: the two rounding functions on the exact value of a finite number. -/
def Obligations.RoundingFunctions : Prop :=
  ∀ x : F64, f64Finite x = true →
    f64ToIntHAZ x = (if f64Value x < 0 then -⌊|f64Value x| + 1 / 2⌋ else ⌊|f64Value x| + 1 / 2⌋) ∧
    f64ToIntTRUNC x = (if f64Value x < 0 then -⌊|f64Value x|⌋ else ⌊|f64Value x|⌋)

/-- R160: DEQUANT completes in every state, each element the exact product; a zero gives `+0`; only `BLK` and `STATUS`
change. -/
def Obligations.DequantCompletes : Prop :=
  ∀ s : State, ∃ t, exec .dequant s = .next t ∧
    (∀ i j : Fin 8, f64Finite (t.blk.at i j) = true ∧
      f64Value (t.blk.at i j) = (((s.qblk.at i j).toInt * (defaultQ.at i j).toInt : Int) : ℚ) ∧
      (s.qblk.at i j = 0#16 → t.blk.at i j = 0#64)) ∧
    { t with status := s.status, blk := s.blk } = s ∧ t.status = doneStatus s

/-- R161: under `ideal` what dequantizing a rounded quotient loses: at most half a table entry, or less than one when
truncating. -/
def Obligations.IdealQuantizationError : Prop :=
  ∀ (q : Int) (d : ℝ), 1 ≤ q →
    |ideal.ofInt (ideal.toIntHAZ (ideal.div d (ideal.ofInt q)) * q) - d| ≤ (q : ℝ) / 2 ∧
    |ideal.ofInt (ideal.toIntTRUNC (ideal.div d (ideal.ofInt q)) * q) - d| < (q : ℝ)

/-- R11: `add`, `sub`, `mul`, `div` and the literals are correctly rounded, and an integer below 2^53 converts exactly. -/
def Obligations.Binary64IsCorrectlyRounded : Prop :=
  (∀ x y : F64, f64Finite x = true → f64Finite y = true →
    RoundsTo (f64Value x + f64Value y) (f64Add x y) ∧ RoundsTo (f64Value x - f64Value y) (f64Sub x y) ∧
      RoundsTo (f64Value x * f64Value y) (f64Mul x y) ∧
      (f64Value y ≠ 0 → RoundsTo (f64Value x / f64Value y) (f64Div x y))) ∧
  (∀ n k : Nat, RoundsTo ((n : ℚ) / 10 ^ k) (f64Lit n k)) ∧
  ∀ n : Int, n.natAbs < 2 ^ 53 → f64Finite (f64OfInt n) = true ∧ f64Value (f64OfInt n) = n

/-! ## Sparse codec -/

/-- R172, R173: PACK completes on a legal shape with a written plane: the CSR of the plane stands in the arrays and length
registers of the channel; entries beyond it, the other channels and everything else are unchanged. -/
def Obligations.PackCompletes : Prop :=
  ∀ (s : State) (ch : Channel), LegalShape hw s → QPlaneWritten s ch (s.nRows * s.nCols) →
    ∃ t, exec (.pack ch) s = .next t ∧ t.status = doneStatus s ∧ CsrOfPlane t ch ∧
      (∀ k, nonzerosBelow s ch (s.nRows * s.nCols) ≤ k →
        Buf.read (t.mem.val.get ch) k = Buf.read (s.mem.val.get ch) k ∧
        Buf.read (t.mem.coli.get ch) k = Buf.read (s.mem.coli.get ch) k) ∧
      (∀ r, s.nRows < r → Buf.read (t.mem.rptr.get ch) r = Buf.read (s.mem.rptr.get ch) r) ∧
      (∀ ch', ch' ≠ ch → t.mem.val.get ch' = s.mem.val.get ch' ∧ t.mem.coli.get ch' = s.mem.coli.get ch' ∧
        t.mem.rptr.get ch' = s.mem.rptr.get ch' ∧ t.vallen.get ch' = s.vallen.get ch' ∧
        t.collen.get ch' = s.collen.get ch' ∧ t.rptrlen.get ch' = s.rptrlen.get ch') ∧
      { t with status := s.status, vallen := s.vallen, collen := s.collen, rptrlen := s.rptrlen,
               mem := { t.mem with val := s.mem.val, coli := s.mem.coli, rptr := s.mem.rptr } } = s

/-- R175: UNPACK completes on a CSR that passes its check: the dense plane holds each stored value at its place and 0
elsewhere; elements beyond the shape, the other planes and everything else are unchanged. -/
def Obligations.UnpackCompletes : Prop :=
  ∀ (s : State) (ch : Channel), LegalShape hw s → CsrReady s ch →
    ∃ t, exec (.unpack ch) s = .next t ∧ t.status = doneStatus s ∧ DenseOfCsr s t ch ∧
      (∀ a, s.nRows * s.nCols ≤ a → Buf.read (t.mem.qpl.get ch) a = Buf.read (s.mem.qpl.get ch) a) ∧
      (∀ ch', ch' ≠ ch → t.mem.qpl.get ch' = s.mem.qpl.get ch') ∧
      { t with status := s.status, mem := { t.mem with qpl := s.mem.qpl } } = s

/-- R176: the eight checks of a CSR, in order, each reported at its first offending place, for a CSR whose arrays have been
written as far as its registers say. -/
def Obligations.CsrFaults : Prop :=
  ∀ (s : State) (ch : Channel) (p : Nat → I32) (c : Nat → I32), LegalShape hw s →
    (∀ r ≤ s.nRows, Buf.read (s.mem.rptr.get ch) r = some (p r)) →
    (∀ k : Nat, (k : Int) < (s.vallen.get ch).toInt → Buf.read (s.mem.coli.get ch) k = some (c k)) →
    ((s.rptrlen.get ch).toInt ≠ s.rows.toInt + 1 →
      exec (.unpack ch) s = .next (faulted s 0x13#32 (s.rptrlen.get ch))) ∧
    ((s.rptrlen.get ch).toInt = s.rows.toInt + 1 →
      (s.vallen.get ch ≠ s.collen.get ch →
        exec (.unpack ch) s = .next (faulted s 0x23#32 (s.collen.get ch))) ∧
      (s.vallen.get ch = s.collen.get ch →
        ((s.vallen.get ch).toInt < 0 ∨ s.rows.toInt * s.cols.toInt < (s.vallen.get ch).toInt →
          exec (.unpack ch) s = .next (faulted s 0x53#32 (s.vallen.get ch))) ∧
        (0 ≤ (s.vallen.get ch).toInt → (s.vallen.get ch).toInt ≤ s.rows.toInt * s.cols.toInt →
          ((p 0).toInt ≠ 0 → exec (.unpack ch) s = .next (faulted s 0x33#32 (p 0))) ∧
          ((p 0).toInt = 0 →
            (∀ r < s.nRows, (p (r + 1)).toInt < (p r).toInt → (∀ r' < r, (p r').toInt ≤ (p (r' + 1)).toInt) →
              exec (.unpack ch) s = .next (faulted s 0x43#32 (BitVec.ofNat 32 r))) ∧
            ((∀ r < s.nRows, (p r).toInt ≤ (p (r + 1)).toInt) →
              ((p s.nRows).toInt ≠ (s.vallen.get ch).toInt →
                exec (.unpack ch) s = .next (faulted s 0x53#32 (p s.nRows))) ∧
              ((p s.nRows).toInt = (s.vallen.get ch).toInt →
                (∀ k : Nat, (k : Int) < (s.vallen.get ch).toInt →
                  ((c k).toInt < 0 ∨ s.cols.toInt ≤ (c k).toInt) →
                  (∀ k' < k, 0 ≤ (c k').toInt ∧ (c k').toInt < s.cols.toInt) →
                  exec (.unpack ch) s = .next (faulted s 0x63#32 (BitVec.ofNat 32 k))) ∧
                ((∀ k : Nat, (k : Int) < (s.vallen.get ch).toInt →
                    0 ≤ (c k).toInt ∧ (c k).toInt < s.cols.toInt) →
                  ∀ r < s.nRows, ∀ k : Nat, (p r).toInt < k → (k : Int) < (p (r + 1)).toInt →
                    (c k).toInt ≤ (c (k - 1)).toInt →
                    (∀ r' k' : Nat, r' ≤ r → (p r').toInt < k' → (k' : Int) < (p (r' + 1)).toInt → k' < k →
                      (c (k' - 1)).toInt < (c k').toInt) →
                    exec (.unpack ch) s = .next (faulted s 0x73#32 (BitVec.ofNat 32 k)))))))))

/-- R177: PACK then UNPACK completes and restores the quantized plane, whatever the plane holds when UNPACK begins. -/
def Obligations.PackUnpackRoundTrip : Prop :=
  ∀ (s t : State) (ch : Channel) (q : Chan3 (Buf 16)), LegalShape hw s → QPlaneWritten s ch (s.nRows * s.nCols) →
    exec (.pack ch) s = .next t →
    ∃ u, exec (.unpack ch) { t with mem := { t.mem with qpl := q } } = .next u ∧ u.status = doneStatus t ∧
      ∀ a < s.nRows * s.nCols, Buf.read (u.mem.qpl.get ch) a = Buf.read (s.mem.qpl.get ch) a

/-- R177, the converse: for a CSR that passes its check and stores no zero, UNPACK then PACK reproduces the arrays and the
lengths, whatever the arrays and lengths hold when PACK begins. -/
def Obligations.UnpackPackRoundTrip : Prop :=
  ∀ (s t : State) (ch : Channel) (v : Chan3 (Buf 16)) (c p : Chan3 (Buf 32)) (l m n : Chan3 Word32),
    LegalShape hw s → CsrReady s ch →
    (∀ k : Nat, (k : Int) < (s.vallen.get ch).toInt → Buf.read (s.mem.val.get ch) k ≠ some 0#16) →
    exec (.unpack ch) s = .next t →
    ∃ u, exec (.pack ch) { t with vallen := l, collen := m, rptrlen := n,
                                  mem := { t.mem with val := v, coli := c, rptr := p } } = .next u ∧
      u.vallen.get ch = s.vallen.get ch ∧ u.collen.get ch = s.collen.get ch ∧ u.rptrlen.get ch = s.rptrlen.get ch ∧
      (∀ r ≤ s.nRows, Buf.read (u.mem.rptr.get ch) r = Buf.read (s.mem.rptr.get ch) r) ∧
      ∀ k : Nat, (k : Int) < (s.vallen.get ch).toInt →
        Buf.read (u.mem.val.get ch) k = Buf.read (s.mem.val.get ch) k ∧
        Buf.read (u.mem.coli.get ch) k = Buf.read (s.mem.coli.get ch) k

/-! ## Tiles -/

/-- R192, R194: the tile loads complete on a tile inside the grid whose elements have been written; only the block register
and `STATUS` change. -/
def Obligations.TileLoadsComplete : Prop :=
  ∀ (s : State) (ch : Channel), LegalTile hw s →
    ((∀ i j : Fin 8, (Buf.read (s.mem.pln.get ch) (tileIdx s.nCols s.nTileR s.nTileC i j)).isSome) →
      ∃ t, exec (.ldblk ch) s = .next t ∧ t.status = doneStatus s ∧
        (∀ i j : Fin 8, some (t.blk.at i j) =
          Buf.read (s.mem.pln.get ch) ((8 * s.nTileR + i.val) * s.nCols + (8 * s.nTileC + j.val))) ∧
        { t with status := s.status, blk := s.blk } = s) ∧
    ((∀ i j : Fin 8, (Buf.read (s.mem.qpl.get ch) (tileIdx s.nCols s.nTileR s.nTileC i j)).isSome) →
      ∃ t, exec (.ldqblk ch) s = .next t ∧ t.status = doneStatus s ∧
        (∀ i j : Fin 8, some (t.qblk.at i j) =
          Buf.read (s.mem.qpl.get ch) ((8 * s.nTileR + i.val) * s.nCols + (8 * s.nTileC + j.val))) ∧
        { t with status := s.status, qblk := s.qblk } = s)

/-- R193, R195: the tile stores complete on a tile inside the grid: exactly the 64 elements of the tile are written. -/
def Obligations.TileStoresComplete : Prop :=
  ∀ (s : State) (ch : Channel), LegalTile hw s →
    (∃ t, exec (.stblk ch) s = .next t ∧ t.status = doneStatus s ∧
      (∀ i j : Fin 8, Buf.read (t.mem.pln.get ch) ((8 * s.nTileR + i.val) * s.nCols + (8 * s.nTileC + j.val)) =
        some (s.blk.at i j)) ∧
      (∀ a, (∀ i j : Fin 8, a ≠ (8 * s.nTileR + i.val) * s.nCols + (8 * s.nTileC + j.val)) →
        Buf.read (t.mem.pln.get ch) a = Buf.read (s.mem.pln.get ch) a) ∧
      (∀ ch', ch' ≠ ch → t.mem.pln.get ch' = s.mem.pln.get ch') ∧
      { t with status := s.status, mem := { t.mem with pln := s.mem.pln } } = s) ∧
    (∃ t, exec (.stqblk ch) s = .next t ∧ t.status = doneStatus s ∧
      (∀ i j : Fin 8, Buf.read (t.mem.qpl.get ch) ((8 * s.nTileR + i.val) * s.nCols + (8 * s.nTileC + j.val)) =
        some (s.qblk.at i j)) ∧
      (∀ a, (∀ i j : Fin 8, a ≠ (8 * s.nTileR + i.val) * s.nCols + (8 * s.nTileC + j.val)) →
        Buf.read (t.mem.qpl.get ch) a = Buf.read (s.mem.qpl.get ch) a) ∧
      (∀ ch', ch' ≠ ch → t.mem.qpl.get ch' = s.mem.qpl.get ch') ∧
      { t with status := s.status, mem := { t.mem with qpl := s.mem.qpl } } = s)

/-- R191, R204: the two checks of the tile counter, in order, in the loads, the stores and TNEXT. -/
def Obligations.TileIndexFaults : Prop :=
  ∀ (i : Instr) (s : State), LegalTiling hw s →
    (i = .tnext ∨ ∃ ch, i = .ldblk ch ∨ i = .stblk ch ∨ i = .ldqblk ch ∨ i = .stqblk ch) →
    (s.tileR.toInt < 0 ∨ s.rows.toInt / 8 ≤ s.tileR.toInt → exec i s = .next (faulted s 0x32#32 0#32)) ∧
    (0 ≤ s.tileR.toInt → s.tileR.toInt < s.rows.toInt / 8 →
      (s.tileC.toInt < 0 ∨ s.cols.toInt / 8 ≤ s.tileC.toInt) → exec i s = .next (faulted s 0x32#32 1#32))

/-- R196, R197: CENTER subtracts and UNCENTER adds 128 in every element, in every state; only `BLK` and `STATUS` change. -/
def Obligations.LevelShiftsComplete : Prop :=
  ∀ s : State,
    (∃ t, exec .center s = .next t ∧ t.status = doneStatus s ∧ { t with status := s.status, blk := s.blk } = s ∧
      ∀ i j : Fin 8, t.blk.at i j = f64Sub (s.blk.at i j) 0x4060000000000000#64) ∧
    (∃ t, exec .uncenter s = .next t ∧ t.status = doneStatus s ∧ { t with status := s.status, blk := s.blk } = s ∧
      ∀ i j : Fin 8, t.blk.at i j = f64Add (s.blk.at i j) 0x4060000000000000#64)

/-- R203: TRST completes in every state. -/
def Obligations.TrstCompletes : Prop :=
  ∀ s : State,
    exec .trst s = .next { s with status := { doneStatus s with last := false }, tileR := 0#32, tileC := 0#32 }

/-- R204: TNEXT moves to the row-major successor and sets `LAST` exactly when it wraps. -/
def Obligations.TnextCompletes : Prop :=
  ∀ s : State, LegalTile hw s → ∃ t, exec .tnext s = .next t ∧
    { t with status := s.status, tileR := s.tileR, tileC := s.tileC } = s ∧
    (s.tileC.toInt + 1 < s.cols.toInt / 8 →
      t.tileR = s.tileR ∧ t.tileC.toInt = s.tileC.toInt + 1 ∧ t.status = { doneStatus s with last := false }) ∧
    (s.tileC.toInt + 1 = s.cols.toInt / 8 → s.tileR.toInt + 1 < s.rows.toInt / 8 →
      t.tileR.toInt = s.tileR.toInt + 1 ∧ t.tileC = 0#32 ∧ t.status = { doneStatus s with last := false }) ∧
    (s.tileC.toInt + 1 = s.cols.toInt / 8 → s.tileR.toInt + 1 = s.rows.toInt / 8 →
      t.tileR = 0#32 ∧ t.tileC = 0#32 ∧ t.status = { doneStatus s with last := true })

/-- R204, R205: from tile (0, 0) the n-th TNEXT reaches the n-th tile of the row-major order, and the last one wraps and sets
`LAST`. -/
def Obligations.TileLoopVisitsEveryTile : Prop :=
  ∀ (s : State) (n : Nat), LegalTiling hw s → s.status.err = false → s.tileR = 0#32 → s.tileC = 0#32 → 0 < n →
    n ≤ s.tileRows * s.tileCols →
    ∃ t, runAll (List.replicate n .tnext) s = .next t ∧
      (n < s.tileRows * s.tileCols →
        t.nTileR = n / s.tileCols ∧ t.nTileC = n % s.tileCols ∧ t.status.last = false) ∧
      (n = s.tileRows * s.tileCols → t.tileR = 0#32 ∧ t.tileC = 0#32 ∧ t.status.last = true) ∧
      { t with status := s.status, tileR := s.tileR, tileC := s.tileC } = s

/-! ## Orchestrator -/

/-- R210: once its upfront checks pass, a composite command does exactly what its primitives do when they are issued one
after another up to the first fault or refusal. -/
def Obligations.CompositesAreTheirExpansions : Prop :=
  ∀ s : State, s.status.err = false →
    (∀ ch, LegalTiling hw s → LegalParams s → exec (.fqplane ch) (running s) = runAll (fqExpansion s.tiles ch) s) ∧
    (∀ ch, LegalTiling hw s → exec (.dqiplane ch) (running s) = runAll (dqiExpansion s.tiles ch) s) ∧
    (LegalInput hw s → LegalParams s → exec .encode (running s) = runAll (encodeExpansion s) s) ∧
    (LegalTiling hw s → exec .decode (running s) = runAll (decodeExpansion s) s)

/-- R211: FQPLANE completes when shape and parameters are legal, the plane is written and every quotient fits: every tile of
`QPL[ch]` is the quantized coefficient block of its tile of `PLN[ch]`. -/
def Obligations.FqplaneCompletes : Prop :=
  ∀ (s : State) (ch : Channel), LegalTiling hw s → LegalParams s → PlaneWritten s ch (s.nRows * s.nCols) →
    (∀ tr < s.tileRows, ∀ tc < s.tileCols,
      BlockFits s (forwardTile ch (blockAt (s.mem.pln.get ch) s.nCols tr tc))) →
    ∃ t, exec (.fqplane ch) s = .next t ∧ t.status = doneLastStatus s ∧ t.tileR = 0#32 ∧ t.tileC = 0#32 ∧
      Quantized t ch ∧
      t.blk = forwardTile ch (blockAt (s.mem.pln.get ch) s.nCols (s.tileRows - 1) (s.tileCols - 1)) ∧
      t.qblk = quantized s t.blk ∧
      (∀ a, s.nRows * s.nCols ≤ a → Buf.read (t.mem.qpl.get ch) a = Buf.read (s.mem.qpl.get ch) a) ∧
      (∀ ch', ch' ≠ ch → t.mem.qpl.get ch' = s.mem.qpl.get ch') ∧
      { t with status := s.status, tileR := s.tileR, tileC := s.tileC, blk := s.blk, qblk := s.qblk,
               mem := { t.mem with qpl := s.mem.qpl } } = s

/-- R210 (c), R211: a RangeError inside FQPLANE leaves the results of the earlier tiles, the coefficients of the failing tile
in `BLK` and the counter on it. -/
def Obligations.FqplaneFaultKeepsEarlierTiles : Prop :=
  ∀ (s : State) (ch : Channel) (n : Nat), LegalTiling hw s → LegalParams s →
    PlaneWritten s ch (s.nRows * s.nCols) → n < s.tileRows * s.tileCols →
    (∀ m < n, BlockFits s (forwardTile ch (blockAt (s.mem.pln.get ch) s.nCols (m / s.tileCols) (m % s.tileCols)))) →
    ¬BlockFits s (forwardTile ch (blockAt (s.mem.pln.get ch) s.nCols (n / s.tileCols) (n % s.tileCols))) →
    ∃ t, exec (.fqplane ch) s = .next t ∧
      t.status = { faultStatus s with last := false } ∧ (t.errcode = 0x15#32 ∨ t.errcode = 0x25#32) ∧
      t.nTileR = n / s.tileCols ∧ t.nTileC = n % s.tileCols ∧
      t.blk = forwardTile ch (blockAt (s.mem.pln.get ch) s.nCols (n / s.tileCols) (n % s.tileCols)) ∧
      (n = 0 → t.qblk = s.qblk) ∧
      (∀ m, n = m + 1 → t.qblk = quantized s
        (forwardTile ch (blockAt (s.mem.pln.get ch) s.nCols (m / s.tileCols) (m % s.tileCols)))) ∧
      (∀ m < n, ∀ i j : Fin 8,
        Buf.read (t.mem.qpl.get ch) (tileIdx s.nCols (m / s.tileCols) (m % s.tileCols) i j) =
          some ((quantized s (forwardTile ch
            (blockAt (s.mem.pln.get ch) s.nCols (m / s.tileCols) (m % s.tileCols)))).at i j)) ∧
      ∀ a, (∀ m < n, ∀ i j : Fin 8, a ≠ tileIdx s.nCols (m / s.tileCols) (m % s.tileCols) i j) →
        Buf.read (t.mem.qpl.get ch) a = Buf.read (s.mem.qpl.get ch) a

/-- R213: DQIPLANE completes when the shape is legal and the quantized plane is written: every tile of `PLN[ch]` is rebuilt
from its tile of `QPL[ch]`. -/
def Obligations.DqiplaneCompletes : Prop :=
  ∀ (s : State) (ch : Channel), LegalTiling hw s → QPlaneWritten s ch (s.nRows * s.nCols) →
    ∃ t, exec (.dqiplane ch) s = .next t ∧ t.status = doneLastStatus s ∧ t.tileR = 0#32 ∧ t.tileC = 0#32 ∧
      Reconstructed t ch ∧
      t.qblk = qblockAt (s.mem.qpl.get ch) s.nCols (s.tileRows - 1) (s.tileCols - 1) ∧
      t.blk = inverseTile ch t.qblk ∧
      (∀ a, s.nRows * s.nCols ≤ a → Buf.read (t.mem.pln.get ch) a = Buf.read (s.mem.pln.get ch) a) ∧
      (∀ ch', ch' ≠ ch → t.mem.pln.get ch' = s.mem.pln.get ch') ∧
      { t with status := s.status, tileR := s.tileR, tileC := s.tileC, blk := s.blk, qblk := s.qblk,
               mem := { t.mem with pln := s.mem.pln } } = s

/-- R215: ENCODE completes on a legal, written input with legal parameters whose quotients fit: the planes are the converted
input, and each sparse channel is quantized and packed; the other channels' quantized planes and CSR are untouched. What BLK,
QBLK and the elements of the written buffers beyond the shape hold at the end is not said here. -/
def Obligations.EncodeCompletes : Prop :=
  ∀ s : State, LegalInput hw s → InputWritten s → LegalParams s →
    (∀ ch ∈ sparseChannels s, ∀ tr < cropRows s / 8, ∀ tc < cropCols s / 8,
      BlockFits s (forwardTile ch (convertedBlock s ch tr tc))) →
    ∃ t, exec .encode s = .next t ∧ t.status = doneLastStatus s ∧
      t.rows.toInt = 8 * (s.height.toInt / 8) ∧ t.cols.toInt = 8 * (s.width.toInt / 8) ∧
      t.tileR = 0#32 ∧ t.tileC = 0#32 ∧ Converted s t ∧
      (∀ ch ∈ sparseChannels s, Quantized t ch ∧ CsrOfPlane t ch) ∧
      (∀ ch, ch ∉ sparseChannels s → t.mem.qpl.get ch = s.mem.qpl.get ch ∧ t.mem.val.get ch = s.mem.val.get ch ∧
        t.mem.coli.get ch = s.mem.coli.get ch ∧ t.mem.rptr.get ch = s.mem.rptr.get ch ∧
        t.vallen.get ch = s.vallen.get ch ∧ t.collen.get ch = s.collen.get ch ∧
        t.rptrlen.get ch = s.rptrlen.get ch) ∧
      { t with status := s.status, rows := s.rows, cols := s.cols, tileR := s.tileR, tileC := s.tileC,
               vallen := s.vallen, collen := s.collen, rptrlen := s.rptrlen, blk := s.blk, qblk := s.qblk,
               mem := { t.mem with pln := s.mem.pln, qpl := s.mem.qpl, val := s.mem.val, coli := s.mem.coli,
                                   rptr := s.mem.rptr } } = s

/-- R218: DECODE completes when the shape is legal, each sparse channel's CSR passes its check and the dense chrominance is
written: the quantized planes are the dense forms, the planes their reconstructions, and `OPIX` the clamped conversion. What
BLK, QBLK and the elements of the written buffers beyond the shape hold at the end is not said here. -/
def Obligations.DecodeCompletes : Prop :=
  ∀ s : State, LegalTiling hw s → (∀ ch ∈ sparseChannels s, CsrReady s ch) →
    (∀ ch, ch ∉ sparseChannels s → PlaneWritten s ch (s.nRows * s.nCols)) →
    ∃ t, exec .decode s = .next t ∧ t.status = doneLastStatus s ∧ t.tileR = 0#32 ∧ t.tileC = 0#32 ∧
      (∀ ch ∈ sparseChannels s, DenseOfCsr s t ch ∧ Reconstructed t ch) ∧
      (∀ ch, ch ∉ sparseChannels s → t.mem.qpl.get ch = s.mem.qpl.get ch ∧ t.mem.pln.get ch = s.mem.pln.get ch) ∧
      Displayed t ∧
      { t with status := s.status, tileR := s.tileR, tileC := s.tileC, blk := s.blk, qblk := s.qblk,
               mem := { t.mem with opix := s.mem.opix, pln := s.mem.pln, qpl := s.mem.qpl } } = s

/-- R218: DECODE straight after an ENCODE that succeeded, with the same `CTRL`, succeeds. -/
def Obligations.DecodeAfterEncodeSucceeds : Prop :=
  ∀ s t : State, exec .encode s = .next t → t.status.err = false →
    ∃ u, exec .decode t = .next u ∧ u.status = doneLastStatus t ∧ u.rows = t.rows ∧ u.cols = t.cols ∧ Displayed u

/-- R224, R113: the samples of `PIX` outside the cropped region have no influence on ENCODE, and no sample of `PIX` has any on
DECODE. -/
def Obligations.CroppedSamplesHaveNoInfluence : Prop :=
  ∀ (s : State) (pix : Buf 64),
    ((∀ r < cropRows s, ∀ c < cropCols s, ∀ k < 3,
        Buf.read pix (pixIdx s.width.toInt.toNat r c k) = Buf.read s.mem.pix (pixIdx s.width.toInt.toNat r c k)) →
      exec .encode { s with mem := { s.mem with pix := pix } } =
        mapNext (fun t => { t with mem := { t.mem with pix := pix } }) (exec .encode s)) ∧
    exec .decode { s with mem := { s.mem with pix := pix } } =
      mapNext (fun t => { t with mem := { t.mem with pix := pix } }) (exec .decode s)

/-- R218: DECODE reads none of `HEIGHT`, `WIDTH`, `CHANNELS`, `THRESHOLD`, `BANDCUTOFF`, `CTRL.IE` and `CTRL.RMODE`. -/
def Obligations.DecodeIgnoresEncodeParameters : Prop :=
  ∀ (s : State) (h w n t k ctrl : Word32), ctrl.getLsbD 2 = s.ctrl.getLsbD 2 →
    exec .decode { s with height := h, width := w, channels := n, threshold := t, bandCutoff := k, ctrl := ctrl } =
      mapNext (fun u => { u with height := h, width := w, channels := n, threshold := t, bandCutoff := k, ctrl := ctrl })
        (exec .decode s)

/-! ## Invariants -/

/-- R24 to R27, R241, R247: every step keeps the status protocol. -/
def Obligations.EveryStepKeepsStatusSound : Prop :=
  ∀ s t : State, StatusSound s → step s = .next t → StatusSound t

/-- R60, R67: every step keeps the memory in canonical form and within the spaces: no command generates an index out of
range. -/
def Obligations.EveryStepKeepsMemorySound : Prop :=
  ∀ s t : State, MemorySound s → step s = .next t → MemorySound t

/-- The reset state has both invariants. -/
def Obligations.ResetIsSound : Prop :=
  StatusSound State.reset ∧ MemorySound State.reset
end

