-- ==== Sys2Proof/Laws/Block.lean ====
section
/-! SUPPORT. Blocks, channel families and the ascending loops. -/

namespace Sys2Proof

/-! ## Octets and blocks -/

@[simp] theorem Oct.get_ofFn {α : Type} (f : Fin 8 → α) (i : Fin 8) : (Oct.ofFn f).get i = f i := by
  fin_cases i <;> rfl

theorem Oct.ext_get {α : Type} {a b : Oct α} (h : ∀ i, a.get i = b.get i) : a = b := by
  cases a; cases b
  simp only [Oct.mk.injEq]
  exact ⟨h 0, h 1, h 2, h 3, h 4, h 5, h 6, h 7⟩

@[simp] theorem Oct.ofFn_get {α : Type} (o : Oct α) : Oct.ofFn o.get = o :=
  Oct.ext_get fun i => by simp

@[simp] theorem Block.at_ofFn {α : Type} (f : Fin 8 → Fin 8 → α) (i j : Fin 8) : (Block.ofFn f).at i j = f i j := by
  simp [Block.at, Block.ofFn]

/-- Two blocks with the same 64 elements are equal. -/
theorem Block.ext_at {α : Type} {a b : Block α} (h : ∀ i j, a.at i j = b.at i j) : a = b :=
  Oct.ext_get fun i => Oct.ext_get fun j => h i j

@[simp] theorem Block.ofFn_at {α : Type} (b : Block α) : (Block.ofFn fun i j => b.at i j) = b :=
  Block.ext_at fun i j => by simp

/-! ## Channel families -/

@[simp] theorem Chan3.get_all {α : Type} (a : α) (ch : Channel) : (Chan3.all a).get ch = a := by
  cases ch <;> rfl

@[simp] theorem Chan3.get_set_self {α : Type} (c : Chan3 α) (ch : Channel) (a : α) : (c.set ch a).get ch = a := by
  cases ch <;> rfl

theorem Chan3.get_set_ne {α : Type} (c : Chan3 α) {ch ch' : Channel} (a : α) (h : ch' ≠ ch) :
    (c.set ch a).get ch' = c.get ch' := by
  cases ch <;> cases ch' <;> first | rfl | exact absurd rfl h

@[simp] theorem Chan3.get_set {α : Type} (c : Chan3 α) (ch ch' : Channel) (a : α) :
    (c.set ch a).get ch' = if ch' = ch then a else c.get ch' := by
  split
  · next h => subst h; simp
  · next h => exact Chan3.get_set_ne c a h

theorem Chan3.ext_get {α : Type} {a b : Chan3 α} (h : ∀ ch, a.get ch = b.get ch) : a = b := by
  cases a; cases b
  simp only [Chan3.mk.injEq]
  exact ⟨h .y, h .cb, h .cr⟩

end Sys2Proof

namespace Sys2Proof.Machine

/-! ## Loops -/

/-- `octM` succeeds exactly when every entry does. -/
theorem octM_ok_iff {ε α : Type} {f : Fin 8 → Except ε α} {o : Oct α} :
    octM f = .ok o ↔ ∀ i, f i = .ok (o.get i) := by
  constructor
  · intro h
    unfold octM at h
    rcases h0 : f 0 with _ | a0 <;> rw [h0] at h <;> [cases h; skip]
    rcases h1 : f 1 with _ | a1 <;> rw [h1] at h <;> [cases h; skip]
    rcases h2 : f 2 with _ | a2 <;> rw [h2] at h <;> [cases h; skip]
    rcases h3 : f 3 with _ | a3 <;> rw [h3] at h <;> [cases h; skip]
    rcases h4 : f 4 with _ | a4 <;> rw [h4] at h <;> [cases h; skip]
    rcases h5 : f 5 with _ | a5 <;> rw [h5] at h <;> [cases h; skip]
    rcases h6 : f 6 with _ | a6 <;> rw [h6] at h <;> [cases h; skip]
    rcases h7 : f 7 with _ | a7 <;> rw [h7] at h <;> [cases h; skip]
    cases h
    intro i
    fin_cases i <;> assumption
  · intro h
    unfold octM
    rw [h 0, h 1, h 2, h 3, h 4, h 5, h 6, h 7]
    rfl

/-- `blockM` succeeds exactly when every position does. -/
theorem blockM_ok_iff {ε α : Type} {f : Fin 8 → Fin 8 → Except ε α} {b : Block α} :
    blockM f = .ok b ↔ ∀ i j, f i j = .ok (b.at i j) := by
  simp [blockM, octM_ok_iff, Block.at]

/-- If `octM` fails, some entry fails with that error and every entry before it succeeds. -/
theorem octM_error {ε α : Type} {f : Fin 8 → Except ε α} {e : ε} (h : octM f = .error e) :
    ∃ i, f i = .error e ∧ ∀ i' < i, ∃ a, f i' = .ok a := by
  unfold octM at h
  have fin : ∀ n : Fin 8, f n = .error e → (∀ k : Nat, ∀ hk : k < n.val, ∃ a, f ⟨k, by omega⟩ = .ok a) →
      ∃ i, f i = .error e ∧ ∀ i' < i, ∃ a, f i' = .ok a := fun n hf hn => ⟨n, hf, fun i' hi => hn i'.val hi⟩
  rcases h0 : f 0 with e0 | a0 <;> rw [h0] at h
  · cases h; exact fin 0 h0 (by intro k hk; exact absurd hk (by simp))
  rcases h1 : f 1 with e0 | a1 <;> rw [h1] at h
  · cases h; exact fin 1 h1 (by intro k hk; match k, hk with | 0, _ => exact ⟨_, h0⟩)
  rcases h2 : f 2 with e0 | a2 <;> rw [h2] at h
  · cases h; exact fin 2 h2 (by intro k hk; match k, hk with | 0, _ => exact ⟨_, h0⟩ | 1, _ => exact ⟨_, h1⟩)
  rcases h3 : f 3 with e0 | a3 <;> rw [h3] at h
  · cases h
    exact fin 3 h3 (by
      intro k hk
      match k, hk with | 0, _ => exact ⟨_, h0⟩ | 1, _ => exact ⟨_, h1⟩ | 2, _ => exact ⟨_, h2⟩)
  rcases h4 : f 4 with e0 | a4 <;> rw [h4] at h
  · cases h
    exact fin 4 h4 (by
      intro k hk
      match k, hk with
      | 0, _ => exact ⟨_, h0⟩ | 1, _ => exact ⟨_, h1⟩ | 2, _ => exact ⟨_, h2⟩ | 3, _ => exact ⟨_, h3⟩)
  rcases h5 : f 5 with e0 | a5 <;> rw [h5] at h
  · cases h
    exact fin 5 h5 (by
      intro k hk
      match k, hk with
      | 0, _ => exact ⟨_, h0⟩ | 1, _ => exact ⟨_, h1⟩ | 2, _ => exact ⟨_, h2⟩ | 3, _ => exact ⟨_, h3⟩
      | 4, _ => exact ⟨_, h4⟩)
  rcases h6 : f 6 with e0 | a6 <;> rw [h6] at h
  · cases h
    exact fin 6 h6 (by
      intro k hk
      match k, hk with
      | 0, _ => exact ⟨_, h0⟩ | 1, _ => exact ⟨_, h1⟩ | 2, _ => exact ⟨_, h2⟩ | 3, _ => exact ⟨_, h3⟩
      | 4, _ => exact ⟨_, h4⟩ | 5, _ => exact ⟨_, h5⟩)
  rcases h7 : f 7 with e0 | a7 <;> rw [h7] at h
  · cases h
    exact fin 7 h7 (by
      intro k hk
      match k, hk with
      | 0, _ => exact ⟨_, h0⟩ | 1, _ => exact ⟨_, h1⟩ | 2, _ => exact ⟨_, h2⟩ | 3, _ => exact ⟨_, h3⟩
      | 4, _ => exact ⟨_, h4⟩ | 5, _ => exact ⟨_, h5⟩ | 6, _ => exact ⟨_, h6⟩)
  cases h

/-- `octM` fails exactly with the error of the first entry that fails. -/
theorem octM_error_iff {ε α : Type} {f : Fin 8 → Except ε α} {e : ε} :
    octM f = .error e ↔ ∃ i, f i = .error e ∧ ∀ i' < i, ∃ a, f i' = .ok a := by
  refine ⟨octM_error, fun ⟨i, hi, hlt⟩ => ?_⟩
  rcases ho : octM f with e' | o
  · obtain ⟨j, hj, hjlt⟩ := octM_error ho
    rcases Nat.lt_trichotomy i.val j.val with h | h | h
    · obtain ⟨a, ha⟩ := hjlt i h
      rw [ha] at hi; cases hi
    · obtain rfl : i = j := Fin.ext h
      rw [hi] at hj; cases hj; rfl
    · obtain ⟨a, ha⟩ := hlt j h
      rw [ha] at hj; cases hj
  · rw [octM_ok_iff.1 ho i] at hi
    cases hi

/-- `blockM` fails exactly with the error of the first position in row-major order that fails. -/
theorem blockM_error_iff {ε α : Type} {f : Fin 8 → Fin 8 → Except ε α} {e : ε} :
    blockM f = .error e ↔ ∃ i j, f i j = .error e ∧ (∀ j' < j, ∃ a, f i j' = .ok a) ∧
      ∀ i' < i, ∀ j', ∃ a, f i' j' = .ok a := by
  unfold blockM
  rw [octM_error_iff]
  constructor
  · rintro ⟨i, hi, hlt⟩
    obtain ⟨j, hj, hjlt⟩ := octM_error_iff.1 hi
    refine ⟨i, j, hj, hjlt, fun i' hi' j' => ?_⟩
    obtain ⟨o, ho⟩ := hlt i' hi'
    exact ⟨_, octM_ok_iff.1 ho j'⟩
  · rintro ⟨i, j, hj, hjlt, hlt⟩
    refine ⟨i, octM_error_iff.2 ⟨j, hj, hjlt⟩, fun i' hi' => ?_⟩
    choose g hg using hlt i' hi'
    exact ⟨Oct.ofFn g, octM_ok_iff.2 fun j' => by simp [hg j']⟩

@[simp] theorem listM_nil {ε α β : Type} (f : α → Except ε β) : listM f [] = .ok [] := rfl

theorem listM_cons_ok_iff {ε α β : Type} {f : α → Except ε β} {a : α} {as : List α} {l : List β} :
    listM f (a :: as) = .ok l ↔ ∃ b bs, f a = .ok b ∧ listM f as = .ok bs ∧ l = b :: bs := by
  constructor
  · intro h
    unfold listM at h
    rcases ha : f a with _ | b <;> rw [ha] at h <;> [cases h; skip]
    rcases hs : listM f as with _ | bs <;> rw [hs] at h <;> [cases h; skip]
    cases h
    exact ⟨b, bs, rfl, rfl, rfl⟩
  · rintro ⟨b, bs, ha, hs, rfl⟩
    unfold listM
    rw [ha, hs]
    rfl

/-- `listM` succeeds exactly when every entry does, with the results in order. -/
theorem listM_ok_iff {ε α β : Type} {f : α → Except ε β} {as : List α} {l : List β} :
    listM f as = .ok l ↔ List.Forall₂ (fun a b => f a = .ok b) as l := by
  induction as generalizing l with
  | nil =>
    rw [listM_nil]
    exact ⟨fun h => by cases h; exact .nil, fun h => by cases h; rfl⟩
  | cons a as ih =>
    rw [listM_cons_ok_iff]
    constructor
    · rintro ⟨b, bs, ha, hs, rfl⟩
      exact .cons ha (ih.1 hs)
    · intro h
      cases h with
      | cons ha hs => exact ⟨_, _, ha, ih.2 hs, rfl⟩

/-- When every entry has a value the loop answers them all. -/
theorem listM_map {ε α β : Type} {f : α → Except ε β} {g : α → β} {as : List α} (h : ∀ a ∈ as, f a = .ok (g a)) :
    listM f as = .ok (as.map g) := by
  induction as with
  | nil => rfl
  | cons a as ih =>
    rw [List.map_cons, listM_cons_ok_iff]
    exact ⟨_, _, h a (by simp), ih fun x hx => h x (by simp [hx]), rfl⟩

theorem forM_cons_ok_iff {ε α : Type} {f : α → Except ε Unit} {a : α} {as : List α} :
    forM f (a :: as) = .ok () ↔ f a = .ok () ∧ forM f as = .ok () := by
  constructor
  · intro h
    unfold forM at h
    rcases ha : f a with _ | u <;> rw [ha] at h <;> [cases h; skip]
    exact ⟨rfl, h⟩
  · rintro ⟨ha, hs⟩
    unfold forM
    rw [ha]
    exact hs

/-- `forM` succeeds exactly when every check does. -/
theorem forM_ok_iff {ε α : Type} {f : α → Except ε Unit} {as : List α} :
    forM f as = .ok () ↔ ∀ a ∈ as, f a = .ok () := by
  induction as with
  | nil => exact ⟨fun _ a ha => absurd ha List.not_mem_nil, fun _ => rfl⟩
  | cons a as ih => rw [forM_cons_ok_iff, ih]; simp

/-- The positions of a grid. -/
@[simp] theorem mem_grid {rows cols : Nat} {p : Nat × Nat} : p ∈ grid rows cols ↔ p.1 < rows ∧ p.2 < cols := by
  obtain ⟨r, c⟩ := p
  simp [grid]

end Sys2Proof.Machine
end

