-- ==== Sys2Proof/Laws/Memory.lean ====
section
/-! SUPPORT. Buffers: what a read gives after a write, and that every write keeps the canonical form. -/

namespace Sys2Proof.Machine

variable {w : Nat}

/-! ## Reads after writes -/

theorem Buf.read_write_self (b : Buf w) (i : Nat) (v : BitVec w) : Buf.read (Buf.write b i v) i = some v := by
  induction b with
  | nil => simp [Buf.write, Buf.read]
  | cons p rest ih =>
    obtain ⟨k, u⟩ := p
    simp only [Buf.write]
    split
    · simp [Buf.read]
    · split
      · simp [Buf.read]
      · next h1 h2 =>
        have : k ≠ i := fun h => h2 h.symm
        simp [Buf.read, this, ih]

theorem Buf.read_write_ne (b : Buf w) {i j : Nat} (v : BitVec w) (h : j ≠ i) :
    Buf.read (Buf.write b i v) j = Buf.read b j := by
  induction b with
  | nil => simp [Buf.write, Buf.read, h.symm]
  | cons p rest ih =>
    obtain ⟨k, u⟩ := p
    simp only [Buf.write]
    split
    · simp [Buf.read, h.symm]
    · split
      · next h1 h2 =>
        subst h2
        simp [Buf.read, h.symm]
      · simp only [Buf.read, ih]

/-- A read after a write: the written element at the written index, every other as before. -/
theorem Buf.read_write (b : Buf w) (i j : Nat) (v : BitVec w) :
    Buf.read (Buf.write b i v) j = if j = i then some v else Buf.read b j := by
  split
  · next h => subst h; exact Buf.read_write_self b _ v
  · next h => exact Buf.read_write_ne b v h

@[simp] theorem Buf.writeAll_nil (b : Buf w) : Buf.writeAll b [] = b := rfl

@[simp] theorem Buf.writeAll_cons (b : Buf w) (p : Nat × BitVec w) (l : List (Nat × BitVec w)) :
    Buf.writeAll b (p :: l) = Buf.writeAll (Buf.write b p.1 p.2) l := rfl

theorem Buf.writeAll_append (b : Buf w) (l l' : List (Nat × BitVec w)) :
    Buf.writeAll b (l ++ l') = Buf.writeAll (Buf.writeAll b l) l' := by
  simp [Buf.writeAll, List.foldl_append]

/-- An index that no write of the list names reads as before. -/
theorem Buf.read_writeAll_of_notMem (b : Buf w) {l : List (Nat × BitVec w)} {i : Nat} (h : ∀ p ∈ l, p.1 ≠ i) :
    Buf.read (Buf.writeAll b l) i = Buf.read b i := by
  induction l generalizing b with
  | nil => rfl
  | cons p l ih =>
    rw [Buf.writeAll_cons, ih _ fun q hq => h q (by simp [hq]),
      Buf.read_write_ne _ _ (h p (by simp)).symm]

/-- An index that the list writes only with the value `v` reads `v`. -/
theorem Buf.read_writeAll_of_mem (b : Buf w) {l : List (Nat × BitVec w)} {i : Nat} {v : BitVec w}
    (hmem : (i, v) ∈ l) (huniq : ∀ u, (i, u) ∈ l → u = v) : Buf.read (Buf.writeAll b l) i = some v := by
  induction l using List.reverseRecOn generalizing b with
  | nil => cases hmem
  | append_singleton l p ih =>
    rw [Buf.writeAll_append, Buf.writeAll_cons, Buf.writeAll_nil, Buf.read_write]
    split
    · next h =>
      have : p = (i, p.2) := by rw [h]
      rw [huniq p.2 (by rw [← this]; simp)]
    · next h =>
      have hl : (i, v) ∈ l := by
        rcases List.mem_append.1 hmem with hl | hl
        · exact hl
        · simp only [List.mem_singleton] at hl
          exact absurd (congrArg Prod.fst hl) h
      exact ih b hl fun u hu => huniq u (by simp [hu])

/-! ## Canonical form -/

theorem Buf.wf_cons {p : Nat × BitVec w} {rest : Buf w} :
    Buf.wf (p :: rest) = true ↔ (∀ q ∈ rest, p.1 < q.1) ∧ Buf.wf rest = true := by
  obtain ⟨k, v⟩ := p
  simp [Buf.wf]

theorem Buf.mem_write {b : Buf w} {i : Nat} {v : BitVec w} {p : Nat × BitVec w} (h : p ∈ Buf.write b i v) :
    p = (i, v) ∨ p ∈ b := by
  induction b with
  | nil => simp [Buf.write] at h; exact .inl h
  | cons q rest ih =>
    obtain ⟨k, u⟩ := q
    simp only [Buf.write] at h
    split at h
    · rcases List.mem_cons.1 h with h | h
      · exact .inl h
      · exact .inr h
    · split at h
      · rcases List.mem_cons.1 h with h | h
        · exact .inl h
        · exact .inr (List.mem_cons_of_mem _ h)
      · rcases List.mem_cons.1 h with h | h
        · exact .inr (by rw [h]; simp)
        · rcases ih h with h | h
          · exact .inl h
          · exact .inr (List.mem_cons_of_mem _ h)

/-- A write keeps the canonical form. -/
theorem Buf.wf_write {b : Buf w} (h : Buf.wf b = true) (i : Nat) (v : BitVec w) : Buf.wf (Buf.write b i v) = true := by
  induction b with
  | nil => rfl
  | cons p rest ih =>
    obtain ⟨k, u⟩ := p
    obtain ⟨hlt, hrest⟩ := Buf.wf_cons.1 h
    simp only [Buf.write]
    split
    · next hik =>
      refine Buf.wf_cons.2 ⟨fun q hq => ?_, h⟩
      rcases List.mem_cons.1 hq with hq | hq
      · rw [hq]; exact hik
      · exact Nat.lt_trans hik (hlt q hq)
    · split
      · next _ hik => subst hik; exact Buf.wf_cons.2 ⟨hlt, hrest⟩
      · next h1 h2 =>
        refine Buf.wf_cons.2 ⟨fun q hq => ?_, ih hrest⟩
        rcases Buf.mem_write hq with hq | hq
        · rw [hq]; show k < i; omega
        · exact hlt q hq

/-- A list of writes keeps the canonical form. -/
theorem Buf.wf_writeAll {b : Buf w} (h : Buf.wf b = true) (l : List (Nat × BitVec w)) :
    Buf.wf (Buf.writeAll b l) = true := by
  induction l generalizing b with
  | nil => exact h
  | cons p l ih => exact ih (Buf.wf_write h _ _)

theorem Buf.mem_writeAll {b : Buf w} {l : List (Nat × BitVec w)} {p : Nat × BitVec w} (h : p ∈ Buf.writeAll b l) :
    p ∈ l ∨ p ∈ b := by
  induction l generalizing b with
  | nil => exact .inr h
  | cons q l ih =>
    rcases ih h with h | h
    · exact .inl (List.mem_cons_of_mem _ h)
    · rcases Buf.mem_write h with h | h
      · exact .inl (by rw [h]; simp)
      · exact .inr h

/-- In canonical form the listed entry of an index is what a read gives. -/
theorem Buf.read_eq_some_iff {b : Buf w} (h : Buf.wf b = true) {i : Nat} {v : BitVec w} :
    Buf.read b i = some v ↔ (i, v) ∈ b := by
  induction b with
  | nil => simp [Buf.read]
  | cons p rest ih =>
    obtain ⟨k, u⟩ := p
    obtain ⟨hlt, hrest⟩ := Buf.wf_cons.1 h
    simp only [Buf.read]
    split
    · next hk =>
      subst hk
      constructor
      · intro he; cases he; simp
      · intro hm
        rcases List.mem_cons.1 hm with hm | hm
        · cases hm; rfl
        · exact absurd (hlt _ hm) (Nat.lt_irrefl _)
    · next hk =>
      rw [ih hrest]
      constructor
      · exact fun hm => List.mem_cons_of_mem _ hm
      · intro hm
        rcases List.mem_cons.1 hm with hm | hm
        · exact absurd (congrArg Prod.fst hm).symm hk
        · exact hm

/-- Two buffers in canonical form that read the same are the same list. -/
theorem Buf.ext_read {a b : Buf w} (ha : Buf.wf a = true) (hb : Buf.wf b = true)
    (h : ∀ i, Buf.read a i = Buf.read b i) : a = b := by
  induction a generalizing b with
  | nil =>
    cases b with
    | nil => rfl
    | cons q b => have := h q.1; simp [Buf.read] at this
  | cons p a ih =>
    cases b with
    | nil => have := h p.1; simp [Buf.read] at this
    | cons q b =>
      obtain ⟨k, u⟩ := p
      obtain ⟨l, v⟩ := q
      obtain ⟨hlta, hwa⟩ := Buf.wf_cons.1 ha
      obtain ⟨hltb, hwb⟩ := Buf.wf_cons.1 hb
      have hk : (k, u) ∈ ((l, v) :: b : Buf w) := by
        rw [← Buf.read_eq_some_iff hb, ← h, Buf.read_eq_some_iff ha]; simp
      have hl : (l, v) ∈ ((k, u) :: a : Buf w) := by
        rw [← Buf.read_eq_some_iff ha, h, Buf.read_eq_some_iff hb]; simp
      have hkl : k = l := by
        rcases List.mem_cons.1 hk with e | e
        · exact congrArg Prod.fst e
        · rcases List.mem_cons.1 hl with e' | e'
          · exact (congrArg Prod.fst e').symm
          · have := hltb _ e; have := hlta _ e'; omega
      subst hkl
      have huv : u = v := by
        have := h k
        simpa [Buf.read] using this
      subst huv
      congr 1
      refine ih hwa hwb fun i => ?_
      by_cases hik : k = i
      · subst hik
        have na : Buf.read a k = none := by
          rcases hr : Buf.read a k with _ | x
          · rfl
          · exact absurd (hlta _ ((Buf.read_eq_some_iff hwa).1 hr)) (Nat.lt_irrefl _)
        have nb : Buf.read b k = none := by
          rcases hr : Buf.read b k with _ | x
          · rfl
          · exact absurd (hltb _ ((Buf.read_eq_some_iff hwb).1 hr)) (Nat.lt_irrefl _)
        rw [na, nb]
      · have := h i
        simpa [Buf.read, hik] using this

/-! ## Elements of the 64-element spaces -/

@[simp] theorem Block.setElem_at {α : Type} (b : Block α) (i : Nat) (a : α) (r c : Fin 8) :
    (Block.setElem b i a).at r c = if blkIdx r c = i then a else b.at r c := by
  simp [Block.setElem]

theorem blkIdx_row_col {i : Nat} (h : i < 64) : blkIdx (blkRow i) (blkCol i) = i := by
  simp only [blkIdx, blkRow, blkCol]
  omega

theorem blkIdx_inj {r c r' c' : Fin 8} (h : blkIdx r c = blkIdx r' c') : r = r' ∧ c = c' := by
  simp only [blkIdx] at h
  omega

/-- A read of a 64-element space after a write to it. -/
theorem Block.elem_setElem {α : Type} (b : Block α) (i j : Nat) (a : α) :
    Block.elem (Block.setElem b i a) j = if j = i ∧ j < 64 then some a else Block.elem b j := by
  unfold Block.elem
  by_cases hj : j < 64
  · simp only [hj, if_true, and_true, Block.setElem_at, blkIdx_row_col hj]
    split <;> rfl
  · simp [hj]

/-! ## The whole memory -/

/-- `Memory.wf` says the canonical form of every buffer. -/
theorem Memory.wf_iff {m : Memory} :
    m.wf = true ↔ Buf.wf m.pix = true ∧ Buf.wf m.opix = true ∧ (∀ ch, Buf.wf (m.pln.get ch) = true) ∧
      (∀ ch, Buf.wf (m.qpl.get ch) = true) ∧ (∀ ch, Buf.wf (m.val.get ch) = true) ∧
      (∀ ch, Buf.wf (m.coli.get ch) = true) ∧ ∀ ch, Buf.wf (m.rptr.get ch) = true := by
  have key : ∀ {w : Nat} (c : Chan3 (Buf w)), (∀ ch, Buf.wf (c.get ch) = true) ↔
      (Buf.wf c.y = true ∧ Buf.wf c.cb = true ∧ Buf.wf c.cr = true) := fun c =>
    ⟨fun h => ⟨h .y, h .cb, h .cr⟩, fun h ch => by cases ch <;> simp [Chan3.get, h]⟩
  simp only [key, Memory.wf, Bool.and_eq_true]
  tauto

/-- Writing one member of a channel family keeps its canonical form. -/
theorem Chan3.wf_set {w : Nat} {c : Chan3 (Buf w)} (h : ∀ ch, Buf.wf (c.get ch) = true) (ch : Channel) {b : Buf w}
    (hb : Buf.wf b = true) : ∀ ch', Buf.wf ((c.set ch b).get ch') = true := by
  intro ch'
  rw [Chan3.get_set]
  split
  · exact hb
  · exact h ch'

end Sys2Proof.Machine
end

