-- ==== Sys2Proof/Laws/Canonical.lean ====
section
/-! SUPPORT. Every operation on the memory keeps its canonical form, and the reset memory has it. -/

namespace Sys2Proof.Machine

variable {s : State}

/-- The memory of the reset state is in canonical form. -/
theorem reset_wf : State.reset.mem.wf = true := rfl

/-- A host or command write of a `REAL` element keeps the canonical form. -/
theorem writeReal_wf (h : s.mem.wf = true) (sp : RealSpace) (i : Nat) (v : F64) : (s.writeReal sp i v).mem.wf = true := by
  have hh := Memory.wf_iff.1 h
  obtain ⟨h1, h2, h3, h4, h5, h6, h7⟩ := hh
  cases sp with
  | pix => exact Memory.wf_iff.2 ⟨Buf.wf_write h1 i v, h2, h3, h4, h5, h6, h7⟩
  | opix => exact Memory.wf_iff.2 ⟨h1, Buf.wf_write h2 i v, h3, h4, h5, h6, h7⟩
  | pln ch => exact Memory.wf_iff.2 ⟨h1, h2, Chan3.wf_set h3 ch (Buf.wf_write (h3 ch) i v), h4, h5, h6, h7⟩
  | blk => exact h
  | prom => exact h

/-- A write of an `INT16` element keeps the canonical form. -/
theorem writeInt16_wf (h : s.mem.wf = true) (sp : Int16Space) (i : Nat) (v : I16) :
    (s.writeInt16 sp i v).mem.wf = true := by
  obtain ⟨h1, h2, h3, h4, h5, h6, h7⟩ := Memory.wf_iff.1 h
  cases sp with
  | qpl ch => exact Memory.wf_iff.2 ⟨h1, h2, h3, Chan3.wf_set h4 ch (Buf.wf_write (h4 ch) i v), h5, h6, h7⟩
  | val ch => exact Memory.wf_iff.2 ⟨h1, h2, h3, h4, Chan3.wf_set h5 ch (Buf.wf_write (h5 ch) i v), h6, h7⟩
  | qblk => exact h
  | qrom => exact h

/-- A write of an `INT32` element keeps the canonical form. -/
theorem writeInt32_wf (h : s.mem.wf = true) (sp : Int32Space) (i : Nat) (v : I32) :
    (s.writeInt32 sp i v).mem.wf = true := by
  obtain ⟨h1, h2, h3, h4, h5, h6, h7⟩ := Memory.wf_iff.1 h
  cases sp with
  | coli ch => exact Memory.wf_iff.2 ⟨h1, h2, h3, h4, h5, Chan3.wf_set h6 ch (Buf.wf_write (h6 ch) i v), h7⟩
  | rptr ch => exact Memory.wf_iff.2 ⟨h1, h2, h3, h4, h5, h6, Chan3.wf_set h7 ch (Buf.wf_write (h7 ch) i v)⟩

/-- Bulk writes to a plane keep the canonical form. -/
theorem putPln_wf (h : s.mem.wf = true) (ch : Channel) (l : List (Nat × F64)) : (s.putPln ch l).mem.wf = true := by
  obtain ⟨h1, h2, h3, h4, h5, h6, h7⟩ := Memory.wf_iff.1 h
  exact Memory.wf_iff.2 ⟨h1, h2, Chan3.wf_set h3 ch (Buf.wf_writeAll (h3 ch) l), h4, h5, h6, h7⟩

/-- Bulk writes to a quantized plane keep the canonical form. -/
theorem putQpl_wf (h : s.mem.wf = true) (ch : Channel) (l : List (Nat × I16)) : (s.putQpl ch l).mem.wf = true := by
  obtain ⟨h1, h2, h3, h4, h5, h6, h7⟩ := Memory.wf_iff.1 h
  exact Memory.wf_iff.2 ⟨h1, h2, h3, Chan3.wf_set h4 ch (Buf.wf_writeAll (h4 ch) l), h5, h6, h7⟩

/-- Bulk writes to the output buffer keep the canonical form. -/
theorem putOpix_wf (h : s.mem.wf = true) (l : List (Nat × F64)) : (s.putOpix l).mem.wf = true := by
  obtain ⟨h1, h2, h3, h4, h5, h6, h7⟩ := Memory.wf_iff.1 h
  exact Memory.wf_iff.2 ⟨h1, Buf.wf_writeAll h2 l, h3, h4, h5, h6, h7⟩

/-- Storing converted pixels keeps the canonical form. -/
theorem storeYcc_wf (h : s.mem.wf = true) (px : List (Nat × F64 × F64 × F64)) : (storeYcc s px).mem.wf = true :=
  putPln_wf (putPln_wf (putPln_wf (s := cropShape s) h .y _) .cb _) .cr _

/-- Storing a CSR keeps the canonical form. -/
theorem storeCsr_wf (h : s.mem.wf = true) (ch : Channel) (rows : List (List I16)) :
    (storeCsr s ch rows).mem.wf = true := by
  obtain ⟨h1, h2, h3, h4, h5, h6, h7⟩ := Memory.wf_iff.1 h
  exact Memory.wf_iff.2 ⟨h1, h2, h3, h4, Chan3.wf_set h5 ch (Buf.wf_writeAll (h5 ch) _),
    Chan3.wf_set h6 ch (Buf.wf_writeAll (h6 ch) _), Chan3.wf_set h7 ch (Buf.wf_writeAll (h7 ch) _)⟩

/-- A software reset keeps the memory, and a hardware reset leaves the reset memory. -/
theorem resets_wf (h : s.mem.wf = true) : (softReset s).mem.wf = true ∧ (hardReset s).mem.wf = true := ⟨h, rfl⟩

end Sys2Proof.Machine
end

