-- ==== Sys2Proof/Laws/State.lean ====
section
/-! SUPPORT. One lemma per field per update of the state: what each named update leaves and what it writes. -/

namespace Sys2Proof.Machine

/-! ## `State.setLast` -/

@[simp] theorem State.setLast_status (s : State) (b : Bool) : (s.setLast b).status = { s.status with last := b } := rfl
@[simp] theorem State.setLast_errcode (s : State) (b : Bool) : (s.setLast b).errcode = s.errcode := rfl
@[simp] theorem State.setLast_errinfo (s : State) (b : Bool) : (s.setLast b).errinfo = s.errinfo := rfl
@[simp] theorem State.setLast_ctrl (s : State) (b : Bool) : (s.setLast b).ctrl = s.ctrl := rfl
@[simp] theorem State.setLast_height (s : State) (b : Bool) : (s.setLast b).height = s.height := rfl
@[simp] theorem State.setLast_width (s : State) (b : Bool) : (s.setLast b).width = s.width := rfl
@[simp] theorem State.setLast_channels (s : State) (b : Bool) : (s.setLast b).channels = s.channels := rfl
@[simp] theorem State.setLast_threshold (s : State) (b : Bool) : (s.setLast b).threshold = s.threshold := rfl
@[simp] theorem State.setLast_bandCutoff (s : State) (b : Bool) : (s.setLast b).bandCutoff = s.bandCutoff := rfl
@[simp] theorem State.setLast_rows (s : State) (b : Bool) : (s.setLast b).rows = s.rows := rfl
@[simp] theorem State.setLast_cols (s : State) (b : Bool) : (s.setLast b).cols = s.cols := rfl
@[simp] theorem State.setLast_tileR (s : State) (b : Bool) : (s.setLast b).tileR = s.tileR := rfl
@[simp] theorem State.setLast_tileC (s : State) (b : Bool) : (s.setLast b).tileC = s.tileC := rfl
@[simp] theorem State.setLast_vallen (s : State) (b : Bool) : (s.setLast b).vallen = s.vallen := rfl
@[simp] theorem State.setLast_collen (s : State) (b : Bool) : (s.setLast b).collen = s.collen := rfl
@[simp] theorem State.setLast_rptrlen (s : State) (b : Bool) : (s.setLast b).rptrlen = s.rptrlen := rfl
@[simp] theorem State.setLast_pend (s : State) (b : Bool) : (s.setLast b).pend = s.pend := rfl
@[simp] theorem State.setLast_blk (s : State) (b : Bool) : (s.setLast b).blk = s.blk := rfl
@[simp] theorem State.setLast_qblk (s : State) (b : Bool) : (s.setLast b).qblk = s.qblk := rfl
@[simp] theorem State.setLast_mem (s : State) (b : Bool) : (s.setLast b).mem = s.mem := rfl
@[simp] theorem State.setLast_agenda (s : State) (b : Bool) : (s.setLast b).agenda = s.agenda := rfl
@[simp] theorem State.setLast_replies (s : State) (b : Bool) : (s.setLast b).replies = s.replies := rfl

/-! ## `State.complete` -/

@[simp] theorem State.complete_status (s : State) : (s.complete).status = { s.status with busy := false, done := true } := rfl
@[simp] theorem State.complete_errcode (s : State) : (s.complete).errcode = s.errcode := rfl
@[simp] theorem State.complete_errinfo (s : State) : (s.complete).errinfo = s.errinfo := rfl
@[simp] theorem State.complete_ctrl (s : State) : (s.complete).ctrl = s.ctrl := rfl
@[simp] theorem State.complete_height (s : State) : (s.complete).height = s.height := rfl
@[simp] theorem State.complete_width (s : State) : (s.complete).width = s.width := rfl
@[simp] theorem State.complete_channels (s : State) : (s.complete).channels = s.channels := rfl
@[simp] theorem State.complete_threshold (s : State) : (s.complete).threshold = s.threshold := rfl
@[simp] theorem State.complete_bandCutoff (s : State) : (s.complete).bandCutoff = s.bandCutoff := rfl
@[simp] theorem State.complete_rows (s : State) : (s.complete).rows = s.rows := rfl
@[simp] theorem State.complete_cols (s : State) : (s.complete).cols = s.cols := rfl
@[simp] theorem State.complete_tileR (s : State) : (s.complete).tileR = s.tileR := rfl
@[simp] theorem State.complete_tileC (s : State) : (s.complete).tileC = s.tileC := rfl
@[simp] theorem State.complete_vallen (s : State) : (s.complete).vallen = s.vallen := rfl
@[simp] theorem State.complete_collen (s : State) : (s.complete).collen = s.collen := rfl
@[simp] theorem State.complete_rptrlen (s : State) : (s.complete).rptrlen = s.rptrlen := rfl
@[simp] theorem State.complete_pend (s : State) : (s.complete).pend = s.pend := rfl
@[simp] theorem State.complete_blk (s : State) : (s.complete).blk = s.blk := rfl
@[simp] theorem State.complete_qblk (s : State) : (s.complete).qblk = s.qblk := rfl
@[simp] theorem State.complete_mem (s : State) : (s.complete).mem = s.mem := rfl
@[simp] theorem State.complete_agenda (s : State) : (s.complete).agenda = s.agenda := rfl
@[simp] theorem State.complete_replies (s : State) : (s.complete).replies = s.replies := rfl

/-! ## `takeFault` -/

@[simp] theorem takeFault_status (s : State) (f : Raised) : (takeFault f s).status = { s.status with err := true, busy := false } := rfl
@[simp] theorem takeFault_errcode (s : State) (f : Raised) : (takeFault f s).errcode = f.cause.code := rfl
@[simp] theorem takeFault_errinfo (s : State) (f : Raised) : (takeFault f s).errinfo = f.info := rfl
@[simp] theorem takeFault_ctrl (s : State) (f : Raised) : (takeFault f s).ctrl = s.ctrl := rfl
@[simp] theorem takeFault_height (s : State) (f : Raised) : (takeFault f s).height = s.height := rfl
@[simp] theorem takeFault_width (s : State) (f : Raised) : (takeFault f s).width = s.width := rfl
@[simp] theorem takeFault_channels (s : State) (f : Raised) : (takeFault f s).channels = s.channels := rfl
@[simp] theorem takeFault_threshold (s : State) (f : Raised) : (takeFault f s).threshold = s.threshold := rfl
@[simp] theorem takeFault_bandCutoff (s : State) (f : Raised) : (takeFault f s).bandCutoff = s.bandCutoff := rfl
@[simp] theorem takeFault_rows (s : State) (f : Raised) : (takeFault f s).rows = s.rows := rfl
@[simp] theorem takeFault_cols (s : State) (f : Raised) : (takeFault f s).cols = s.cols := rfl
@[simp] theorem takeFault_tileR (s : State) (f : Raised) : (takeFault f s).tileR = s.tileR := rfl
@[simp] theorem takeFault_tileC (s : State) (f : Raised) : (takeFault f s).tileC = s.tileC := rfl
@[simp] theorem takeFault_vallen (s : State) (f : Raised) : (takeFault f s).vallen = s.vallen := rfl
@[simp] theorem takeFault_collen (s : State) (f : Raised) : (takeFault f s).collen = s.collen := rfl
@[simp] theorem takeFault_rptrlen (s : State) (f : Raised) : (takeFault f s).rptrlen = s.rptrlen := rfl
@[simp] theorem takeFault_pend (s : State) (f : Raised) : (takeFault f s).pend = s.pend := rfl
@[simp] theorem takeFault_blk (s : State) (f : Raised) : (takeFault f s).blk = s.blk := rfl
@[simp] theorem takeFault_qblk (s : State) (f : Raised) : (takeFault f s).qblk = s.qblk := rfl
@[simp] theorem takeFault_mem (s : State) (f : Raised) : (takeFault f s).mem = s.mem := rfl
@[simp] theorem takeFault_agenda (s : State) (f : Raised) : (takeFault f s).agenda = s.agenda := rfl
@[simp] theorem takeFault_replies (s : State) (f : Raised) : (takeFault f s).replies = s.replies := rfl

/-! ## `clearFault` -/

@[simp] theorem clearFault_status (s : State) : (clearFault s).status = { s.status with err := false } := rfl
@[simp] theorem clearFault_errcode (s : State) : (clearFault s).errcode = 0#32 := rfl
@[simp] theorem clearFault_errinfo (s : State) : (clearFault s).errinfo = 0#32 := rfl
@[simp] theorem clearFault_ctrl (s : State) : (clearFault s).ctrl = s.ctrl := rfl
@[simp] theorem clearFault_height (s : State) : (clearFault s).height = s.height := rfl
@[simp] theorem clearFault_width (s : State) : (clearFault s).width = s.width := rfl
@[simp] theorem clearFault_channels (s : State) : (clearFault s).channels = s.channels := rfl
@[simp] theorem clearFault_threshold (s : State) : (clearFault s).threshold = s.threshold := rfl
@[simp] theorem clearFault_bandCutoff (s : State) : (clearFault s).bandCutoff = s.bandCutoff := rfl
@[simp] theorem clearFault_rows (s : State) : (clearFault s).rows = s.rows := rfl
@[simp] theorem clearFault_cols (s : State) : (clearFault s).cols = s.cols := rfl
@[simp] theorem clearFault_tileR (s : State) : (clearFault s).tileR = s.tileR := rfl
@[simp] theorem clearFault_tileC (s : State) : (clearFault s).tileC = s.tileC := rfl
@[simp] theorem clearFault_vallen (s : State) : (clearFault s).vallen = s.vallen := rfl
@[simp] theorem clearFault_collen (s : State) : (clearFault s).collen = s.collen := rfl
@[simp] theorem clearFault_rptrlen (s : State) : (clearFault s).rptrlen = s.rptrlen := rfl
@[simp] theorem clearFault_pend (s : State) : (clearFault s).pend = s.pend := rfl
@[simp] theorem clearFault_blk (s : State) : (clearFault s).blk = s.blk := rfl
@[simp] theorem clearFault_qblk (s : State) : (clearFault s).qblk = s.qblk := rfl
@[simp] theorem clearFault_mem (s : State) : (clearFault s).mem = s.mem := rfl
@[simp] theorem clearFault_agenda (s : State) : (clearFault s).agenda = s.agenda := rfl
@[simp] theorem clearFault_replies (s : State) : (clearFault s).replies = s.replies := rfl

/-! ## `State.putPln` -/

@[simp] theorem State.putPln_status (s : State) (ch : Channel) (l : List (Nat × F64)) : (s.putPln ch l).status = s.status := rfl
@[simp] theorem State.putPln_errcode (s : State) (ch : Channel) (l : List (Nat × F64)) : (s.putPln ch l).errcode = s.errcode := rfl
@[simp] theorem State.putPln_errinfo (s : State) (ch : Channel) (l : List (Nat × F64)) : (s.putPln ch l).errinfo = s.errinfo := rfl
@[simp] theorem State.putPln_ctrl (s : State) (ch : Channel) (l : List (Nat × F64)) : (s.putPln ch l).ctrl = s.ctrl := rfl
@[simp] theorem State.putPln_height (s : State) (ch : Channel) (l : List (Nat × F64)) : (s.putPln ch l).height = s.height := rfl
@[simp] theorem State.putPln_width (s : State) (ch : Channel) (l : List (Nat × F64)) : (s.putPln ch l).width = s.width := rfl
@[simp] theorem State.putPln_channels (s : State) (ch : Channel) (l : List (Nat × F64)) : (s.putPln ch l).channels = s.channels := rfl
@[simp] theorem State.putPln_threshold (s : State) (ch : Channel) (l : List (Nat × F64)) : (s.putPln ch l).threshold = s.threshold := rfl
@[simp] theorem State.putPln_bandCutoff (s : State) (ch : Channel) (l : List (Nat × F64)) : (s.putPln ch l).bandCutoff = s.bandCutoff := rfl
@[simp] theorem State.putPln_rows (s : State) (ch : Channel) (l : List (Nat × F64)) : (s.putPln ch l).rows = s.rows := rfl
@[simp] theorem State.putPln_cols (s : State) (ch : Channel) (l : List (Nat × F64)) : (s.putPln ch l).cols = s.cols := rfl
@[simp] theorem State.putPln_tileR (s : State) (ch : Channel) (l : List (Nat × F64)) : (s.putPln ch l).tileR = s.tileR := rfl
@[simp] theorem State.putPln_tileC (s : State) (ch : Channel) (l : List (Nat × F64)) : (s.putPln ch l).tileC = s.tileC := rfl
@[simp] theorem State.putPln_vallen (s : State) (ch : Channel) (l : List (Nat × F64)) : (s.putPln ch l).vallen = s.vallen := rfl
@[simp] theorem State.putPln_collen (s : State) (ch : Channel) (l : List (Nat × F64)) : (s.putPln ch l).collen = s.collen := rfl
@[simp] theorem State.putPln_rptrlen (s : State) (ch : Channel) (l : List (Nat × F64)) : (s.putPln ch l).rptrlen = s.rptrlen := rfl
@[simp] theorem State.putPln_pend (s : State) (ch : Channel) (l : List (Nat × F64)) : (s.putPln ch l).pend = s.pend := rfl
@[simp] theorem State.putPln_blk (s : State) (ch : Channel) (l : List (Nat × F64)) : (s.putPln ch l).blk = s.blk := rfl
@[simp] theorem State.putPln_qblk (s : State) (ch : Channel) (l : List (Nat × F64)) : (s.putPln ch l).qblk = s.qblk := rfl
@[simp] theorem State.putPln_mem (s : State) (ch : Channel) (l : List (Nat × F64)) : (s.putPln ch l).mem = { s.mem with pln := s.mem.pln.set ch (Buf.writeAll (s.mem.pln.get ch) l) } := rfl
@[simp] theorem State.putPln_agenda (s : State) (ch : Channel) (l : List (Nat × F64)) : (s.putPln ch l).agenda = s.agenda := rfl
@[simp] theorem State.putPln_replies (s : State) (ch : Channel) (l : List (Nat × F64)) : (s.putPln ch l).replies = s.replies := rfl

/-! ## `State.putQpl` -/

@[simp] theorem State.putQpl_status (s : State) (ch : Channel) (l : List (Nat × I16)) : (s.putQpl ch l).status = s.status := rfl
@[simp] theorem State.putQpl_errcode (s : State) (ch : Channel) (l : List (Nat × I16)) : (s.putQpl ch l).errcode = s.errcode := rfl
@[simp] theorem State.putQpl_errinfo (s : State) (ch : Channel) (l : List (Nat × I16)) : (s.putQpl ch l).errinfo = s.errinfo := rfl
@[simp] theorem State.putQpl_ctrl (s : State) (ch : Channel) (l : List (Nat × I16)) : (s.putQpl ch l).ctrl = s.ctrl := rfl
@[simp] theorem State.putQpl_height (s : State) (ch : Channel) (l : List (Nat × I16)) : (s.putQpl ch l).height = s.height := rfl
@[simp] theorem State.putQpl_width (s : State) (ch : Channel) (l : List (Nat × I16)) : (s.putQpl ch l).width = s.width := rfl
@[simp] theorem State.putQpl_channels (s : State) (ch : Channel) (l : List (Nat × I16)) : (s.putQpl ch l).channels = s.channels := rfl
@[simp] theorem State.putQpl_threshold (s : State) (ch : Channel) (l : List (Nat × I16)) : (s.putQpl ch l).threshold = s.threshold := rfl
@[simp] theorem State.putQpl_bandCutoff (s : State) (ch : Channel) (l : List (Nat × I16)) : (s.putQpl ch l).bandCutoff = s.bandCutoff := rfl
@[simp] theorem State.putQpl_rows (s : State) (ch : Channel) (l : List (Nat × I16)) : (s.putQpl ch l).rows = s.rows := rfl
@[simp] theorem State.putQpl_cols (s : State) (ch : Channel) (l : List (Nat × I16)) : (s.putQpl ch l).cols = s.cols := rfl
@[simp] theorem State.putQpl_tileR (s : State) (ch : Channel) (l : List (Nat × I16)) : (s.putQpl ch l).tileR = s.tileR := rfl
@[simp] theorem State.putQpl_tileC (s : State) (ch : Channel) (l : List (Nat × I16)) : (s.putQpl ch l).tileC = s.tileC := rfl
@[simp] theorem State.putQpl_vallen (s : State) (ch : Channel) (l : List (Nat × I16)) : (s.putQpl ch l).vallen = s.vallen := rfl
@[simp] theorem State.putQpl_collen (s : State) (ch : Channel) (l : List (Nat × I16)) : (s.putQpl ch l).collen = s.collen := rfl
@[simp] theorem State.putQpl_rptrlen (s : State) (ch : Channel) (l : List (Nat × I16)) : (s.putQpl ch l).rptrlen = s.rptrlen := rfl
@[simp] theorem State.putQpl_pend (s : State) (ch : Channel) (l : List (Nat × I16)) : (s.putQpl ch l).pend = s.pend := rfl
@[simp] theorem State.putQpl_blk (s : State) (ch : Channel) (l : List (Nat × I16)) : (s.putQpl ch l).blk = s.blk := rfl
@[simp] theorem State.putQpl_qblk (s : State) (ch : Channel) (l : List (Nat × I16)) : (s.putQpl ch l).qblk = s.qblk := rfl
@[simp] theorem State.putQpl_mem (s : State) (ch : Channel) (l : List (Nat × I16)) : (s.putQpl ch l).mem = { s.mem with qpl := s.mem.qpl.set ch (Buf.writeAll (s.mem.qpl.get ch) l) } := rfl
@[simp] theorem State.putQpl_agenda (s : State) (ch : Channel) (l : List (Nat × I16)) : (s.putQpl ch l).agenda = s.agenda := rfl
@[simp] theorem State.putQpl_replies (s : State) (ch : Channel) (l : List (Nat × I16)) : (s.putQpl ch l).replies = s.replies := rfl

/-! ## `State.putOpix` -/

@[simp] theorem State.putOpix_status (s : State) (l : List (Nat × F64)) : (s.putOpix l).status = s.status := rfl
@[simp] theorem State.putOpix_errcode (s : State) (l : List (Nat × F64)) : (s.putOpix l).errcode = s.errcode := rfl
@[simp] theorem State.putOpix_errinfo (s : State) (l : List (Nat × F64)) : (s.putOpix l).errinfo = s.errinfo := rfl
@[simp] theorem State.putOpix_ctrl (s : State) (l : List (Nat × F64)) : (s.putOpix l).ctrl = s.ctrl := rfl
@[simp] theorem State.putOpix_height (s : State) (l : List (Nat × F64)) : (s.putOpix l).height = s.height := rfl
@[simp] theorem State.putOpix_width (s : State) (l : List (Nat × F64)) : (s.putOpix l).width = s.width := rfl
@[simp] theorem State.putOpix_channels (s : State) (l : List (Nat × F64)) : (s.putOpix l).channels = s.channels := rfl
@[simp] theorem State.putOpix_threshold (s : State) (l : List (Nat × F64)) : (s.putOpix l).threshold = s.threshold := rfl
@[simp] theorem State.putOpix_bandCutoff (s : State) (l : List (Nat × F64)) : (s.putOpix l).bandCutoff = s.bandCutoff := rfl
@[simp] theorem State.putOpix_rows (s : State) (l : List (Nat × F64)) : (s.putOpix l).rows = s.rows := rfl
@[simp] theorem State.putOpix_cols (s : State) (l : List (Nat × F64)) : (s.putOpix l).cols = s.cols := rfl
@[simp] theorem State.putOpix_tileR (s : State) (l : List (Nat × F64)) : (s.putOpix l).tileR = s.tileR := rfl
@[simp] theorem State.putOpix_tileC (s : State) (l : List (Nat × F64)) : (s.putOpix l).tileC = s.tileC := rfl
@[simp] theorem State.putOpix_vallen (s : State) (l : List (Nat × F64)) : (s.putOpix l).vallen = s.vallen := rfl
@[simp] theorem State.putOpix_collen (s : State) (l : List (Nat × F64)) : (s.putOpix l).collen = s.collen := rfl
@[simp] theorem State.putOpix_rptrlen (s : State) (l : List (Nat × F64)) : (s.putOpix l).rptrlen = s.rptrlen := rfl
@[simp] theorem State.putOpix_pend (s : State) (l : List (Nat × F64)) : (s.putOpix l).pend = s.pend := rfl
@[simp] theorem State.putOpix_blk (s : State) (l : List (Nat × F64)) : (s.putOpix l).blk = s.blk := rfl
@[simp] theorem State.putOpix_qblk (s : State) (l : List (Nat × F64)) : (s.putOpix l).qblk = s.qblk := rfl
@[simp] theorem State.putOpix_mem (s : State) (l : List (Nat × F64)) : (s.putOpix l).mem = { s.mem with opix := Buf.writeAll s.mem.opix l } := rfl
@[simp] theorem State.putOpix_agenda (s : State) (l : List (Nat × F64)) : (s.putOpix l).agenda = s.agenda := rfl
@[simp] theorem State.putOpix_replies (s : State) (l : List (Nat × F64)) : (s.putOpix l).replies = s.replies := rfl

/-! ## `cropShape` -/

@[simp] theorem cropShape_status (s : State) : (cropShape s).status = s.status := rfl
@[simp] theorem cropShape_errcode (s : State) : (cropShape s).errcode = s.errcode := rfl
@[simp] theorem cropShape_errinfo (s : State) : (cropShape s).errinfo = s.errinfo := rfl
@[simp] theorem cropShape_ctrl (s : State) : (cropShape s).ctrl = s.ctrl := rfl
@[simp] theorem cropShape_height (s : State) : (cropShape s).height = s.height := rfl
@[simp] theorem cropShape_width (s : State) : (cropShape s).width = s.width := rfl
@[simp] theorem cropShape_channels (s : State) : (cropShape s).channels = s.channels := rfl
@[simp] theorem cropShape_threshold (s : State) : (cropShape s).threshold = s.threshold := rfl
@[simp] theorem cropShape_bandCutoff (s : State) : (cropShape s).bandCutoff = s.bandCutoff := rfl
@[simp] theorem cropShape_rows (s : State) : (cropShape s).rows = BitVec.ofNat 32 (cropRows s) := rfl
@[simp] theorem cropShape_cols (s : State) : (cropShape s).cols = BitVec.ofNat 32 (cropCols s) := rfl
@[simp] theorem cropShape_tileR (s : State) : (cropShape s).tileR = s.tileR := rfl
@[simp] theorem cropShape_tileC (s : State) : (cropShape s).tileC = s.tileC := rfl
@[simp] theorem cropShape_vallen (s : State) : (cropShape s).vallen = s.vallen := rfl
@[simp] theorem cropShape_collen (s : State) : (cropShape s).collen = s.collen := rfl
@[simp] theorem cropShape_rptrlen (s : State) : (cropShape s).rptrlen = s.rptrlen := rfl
@[simp] theorem cropShape_pend (s : State) : (cropShape s).pend = s.pend := rfl
@[simp] theorem cropShape_blk (s : State) : (cropShape s).blk = s.blk := rfl
@[simp] theorem cropShape_qblk (s : State) : (cropShape s).qblk = s.qblk := rfl
@[simp] theorem cropShape_mem (s : State) : (cropShape s).mem = s.mem := rfl
@[simp] theorem cropShape_agenda (s : State) : (cropShape s).agenda = s.agenda := rfl
@[simp] theorem cropShape_replies (s : State) : (cropShape s).replies = s.replies := rfl

/-! ## `acceptCmd` -/

@[simp] theorem acceptCmd_status (s : State) (w : Word32) : (acceptCmd s w).status = { s.status with busy := true, done := false } := rfl
@[simp] theorem acceptCmd_errcode (s : State) (w : Word32) : (acceptCmd s w).errcode = s.errcode := rfl
@[simp] theorem acceptCmd_errinfo (s : State) (w : Word32) : (acceptCmd s w).errinfo = s.errinfo := rfl
@[simp] theorem acceptCmd_ctrl (s : State) (w : Word32) : (acceptCmd s w).ctrl = s.ctrl := rfl
@[simp] theorem acceptCmd_height (s : State) (w : Word32) : (acceptCmd s w).height = s.height := rfl
@[simp] theorem acceptCmd_width (s : State) (w : Word32) : (acceptCmd s w).width = s.width := rfl
@[simp] theorem acceptCmd_channels (s : State) (w : Word32) : (acceptCmd s w).channels = s.channels := rfl
@[simp] theorem acceptCmd_threshold (s : State) (w : Word32) : (acceptCmd s w).threshold = s.threshold := rfl
@[simp] theorem acceptCmd_bandCutoff (s : State) (w : Word32) : (acceptCmd s w).bandCutoff = s.bandCutoff := rfl
@[simp] theorem acceptCmd_rows (s : State) (w : Word32) : (acceptCmd s w).rows = s.rows := rfl
@[simp] theorem acceptCmd_cols (s : State) (w : Word32) : (acceptCmd s w).cols = s.cols := rfl
@[simp] theorem acceptCmd_tileR (s : State) (w : Word32) : (acceptCmd s w).tileR = s.tileR := rfl
@[simp] theorem acceptCmd_tileC (s : State) (w : Word32) : (acceptCmd s w).tileC = s.tileC := rfl
@[simp] theorem acceptCmd_vallen (s : State) (w : Word32) : (acceptCmd s w).vallen = s.vallen := rfl
@[simp] theorem acceptCmd_collen (s : State) (w : Word32) : (acceptCmd s w).collen = s.collen := rfl
@[simp] theorem acceptCmd_rptrlen (s : State) (w : Word32) : (acceptCmd s w).rptrlen = s.rptrlen := rfl
@[simp] theorem acceptCmd_pend (s : State) (w : Word32) : (acceptCmd s w).pend = w := rfl
@[simp] theorem acceptCmd_blk (s : State) (w : Word32) : (acceptCmd s w).blk = s.blk := rfl
@[simp] theorem acceptCmd_qblk (s : State) (w : Word32) : (acceptCmd s w).qblk = s.qblk := rfl
@[simp] theorem acceptCmd_mem (s : State) (w : Word32) : (acceptCmd s w).mem = s.mem := rfl
@[simp] theorem acceptCmd_agenda (s : State) (w : Word32) : (acceptCmd s w).agenda = s.agenda := rfl
@[simp] theorem acceptCmd_replies (s : State) (w : Word32) : (acceptCmd s w).replies = s.replies := rfl

/-! ## `State.reply` -/

@[simp] theorem State.reply_status (s : State) (r : Reply) : (s.reply r).status = s.status := rfl
@[simp] theorem State.reply_errcode (s : State) (r : Reply) : (s.reply r).errcode = s.errcode := rfl
@[simp] theorem State.reply_errinfo (s : State) (r : Reply) : (s.reply r).errinfo = s.errinfo := rfl
@[simp] theorem State.reply_ctrl (s : State) (r : Reply) : (s.reply r).ctrl = s.ctrl := rfl
@[simp] theorem State.reply_height (s : State) (r : Reply) : (s.reply r).height = s.height := rfl
@[simp] theorem State.reply_width (s : State) (r : Reply) : (s.reply r).width = s.width := rfl
@[simp] theorem State.reply_channels (s : State) (r : Reply) : (s.reply r).channels = s.channels := rfl
@[simp] theorem State.reply_threshold (s : State) (r : Reply) : (s.reply r).threshold = s.threshold := rfl
@[simp] theorem State.reply_bandCutoff (s : State) (r : Reply) : (s.reply r).bandCutoff = s.bandCutoff := rfl
@[simp] theorem State.reply_rows (s : State) (r : Reply) : (s.reply r).rows = s.rows := rfl
@[simp] theorem State.reply_cols (s : State) (r : Reply) : (s.reply r).cols = s.cols := rfl
@[simp] theorem State.reply_tileR (s : State) (r : Reply) : (s.reply r).tileR = s.tileR := rfl
@[simp] theorem State.reply_tileC (s : State) (r : Reply) : (s.reply r).tileC = s.tileC := rfl
@[simp] theorem State.reply_vallen (s : State) (r : Reply) : (s.reply r).vallen = s.vallen := rfl
@[simp] theorem State.reply_collen (s : State) (r : Reply) : (s.reply r).collen = s.collen := rfl
@[simp] theorem State.reply_rptrlen (s : State) (r : Reply) : (s.reply r).rptrlen = s.rptrlen := rfl
@[simp] theorem State.reply_pend (s : State) (r : Reply) : (s.reply r).pend = s.pend := rfl
@[simp] theorem State.reply_blk (s : State) (r : Reply) : (s.reply r).blk = s.blk := rfl
@[simp] theorem State.reply_qblk (s : State) (r : Reply) : (s.reply r).qblk = s.qblk := rfl
@[simp] theorem State.reply_mem (s : State) (r : Reply) : (s.reply r).mem = s.mem := rfl
@[simp] theorem State.reply_agenda (s : State) (r : Reply) : (s.reply r).agenda = s.agenda := rfl
@[simp] theorem State.reply_replies (s : State) (r : Reply) : (s.reply r).replies = s.replies ++ [r] := rfl

/-! ## `softReset` -/

@[simp] theorem softReset_status (s : State) : (softReset s).status = State.reset.status := rfl
@[simp] theorem softReset_errcode (s : State) : (softReset s).errcode = State.reset.errcode := rfl
@[simp] theorem softReset_errinfo (s : State) : (softReset s).errinfo = State.reset.errinfo := rfl
@[simp] theorem softReset_ctrl (s : State) : (softReset s).ctrl = State.reset.ctrl := rfl
@[simp] theorem softReset_height (s : State) : (softReset s).height = State.reset.height := rfl
@[simp] theorem softReset_width (s : State) : (softReset s).width = State.reset.width := rfl
@[simp] theorem softReset_channels (s : State) : (softReset s).channels = State.reset.channels := rfl
@[simp] theorem softReset_threshold (s : State) : (softReset s).threshold = State.reset.threshold := rfl
@[simp] theorem softReset_bandCutoff (s : State) : (softReset s).bandCutoff = State.reset.bandCutoff := rfl
@[simp] theorem softReset_rows (s : State) : (softReset s).rows = State.reset.rows := rfl
@[simp] theorem softReset_cols (s : State) : (softReset s).cols = State.reset.cols := rfl
@[simp] theorem softReset_tileR (s : State) : (softReset s).tileR = State.reset.tileR := rfl
@[simp] theorem softReset_tileC (s : State) : (softReset s).tileC = State.reset.tileC := rfl
@[simp] theorem softReset_vallen (s : State) : (softReset s).vallen = State.reset.vallen := rfl
@[simp] theorem softReset_collen (s : State) : (softReset s).collen = State.reset.collen := rfl
@[simp] theorem softReset_rptrlen (s : State) : (softReset s).rptrlen = State.reset.rptrlen := rfl
@[simp] theorem softReset_pend (s : State) : (softReset s).pend = s.pend := rfl
@[simp] theorem softReset_blk (s : State) : (softReset s).blk = s.blk := rfl
@[simp] theorem softReset_qblk (s : State) : (softReset s).qblk = s.qblk := rfl
@[simp] theorem softReset_mem (s : State) : (softReset s).mem = s.mem := rfl
@[simp] theorem softReset_agenda (s : State) : (softReset s).agenda = s.agenda := rfl
@[simp] theorem softReset_replies (s : State) : (softReset s).replies = s.replies := rfl

/-! ## `hardReset` -/

@[simp] theorem hardReset_status (s : State) : (hardReset s).status = State.reset.status := rfl
@[simp] theorem hardReset_errcode (s : State) : (hardReset s).errcode = State.reset.errcode := rfl
@[simp] theorem hardReset_errinfo (s : State) : (hardReset s).errinfo = State.reset.errinfo := rfl
@[simp] theorem hardReset_ctrl (s : State) : (hardReset s).ctrl = State.reset.ctrl := rfl
@[simp] theorem hardReset_height (s : State) : (hardReset s).height = State.reset.height := rfl
@[simp] theorem hardReset_width (s : State) : (hardReset s).width = State.reset.width := rfl
@[simp] theorem hardReset_channels (s : State) : (hardReset s).channels = State.reset.channels := rfl
@[simp] theorem hardReset_threshold (s : State) : (hardReset s).threshold = State.reset.threshold := rfl
@[simp] theorem hardReset_bandCutoff (s : State) : (hardReset s).bandCutoff = State.reset.bandCutoff := rfl
@[simp] theorem hardReset_rows (s : State) : (hardReset s).rows = State.reset.rows := rfl
@[simp] theorem hardReset_cols (s : State) : (hardReset s).cols = State.reset.cols := rfl
@[simp] theorem hardReset_tileR (s : State) : (hardReset s).tileR = State.reset.tileR := rfl
@[simp] theorem hardReset_tileC (s : State) : (hardReset s).tileC = State.reset.tileC := rfl
@[simp] theorem hardReset_vallen (s : State) : (hardReset s).vallen = State.reset.vallen := rfl
@[simp] theorem hardReset_collen (s : State) : (hardReset s).collen = State.reset.collen := rfl
@[simp] theorem hardReset_rptrlen (s : State) : (hardReset s).rptrlen = State.reset.rptrlen := rfl
@[simp] theorem hardReset_pend (s : State) : (hardReset s).pend = State.reset.pend := rfl
@[simp] theorem hardReset_blk (s : State) : (hardReset s).blk = State.reset.blk := rfl
@[simp] theorem hardReset_qblk (s : State) : (hardReset s).qblk = State.reset.qblk := rfl
@[simp] theorem hardReset_mem (s : State) : (hardReset s).mem = State.reset.mem := rfl
@[simp] theorem hardReset_agenda (s : State) : (hardReset s).agenda = s.agenda := rfl
@[simp] theorem hardReset_replies (s : State) : (hardReset s).replies = s.replies := rfl

end Sys2Proof.Machine
end

