-- ==== Sys2Proof/Laws/Ops.lean ====
section
/-! SUPPORT. What each shared operation can do: the checks, the reads, and how a sequence of primitives ends. -/

namespace Sys2Proof.Machine

/-! ## Sequencing of computations that can stop -/

theorem bind_ok_iff {ε α β : Type} {x : Except ε α} {f : α → Except ε β} {b : β} :
    x.bind f = .ok b ↔ ∃ a, x = .ok a ∧ f a = .ok b := by
  cases x <;> simp [Except.bind]

theorem bind_error_iff {ε α β : Type} {x : Except ε α} {f : α → Except ε β} {e : ε} :
    x.bind f = .error e ↔ x = .error e ∨ ∃ a, x = .ok a ∧ f a = .error e := by
  cases x <;> simp [Except.bind]

/-- A check before the rest of a computation passes. -/
theorem check_ok_iff {ε β : Type} {x : Except ε Unit} {f : Unit → Except ε β} {b : β} :
    x.bind f = .ok b ↔ x = .ok () ∧ f () = .ok b := by
  cases x <;> simp [Except.bind]

/-- A check before the rest of a computation stops it, or the rest stops. -/
theorem check_error_iff {ε β : Type} {x : Except ε Unit} {f : Unit → Except ε β} {e : ε} :
    x.bind f = .error e ↔ x = .error e ∨ (x = .ok () ∧ f () = .error e) := by
  cases x <;> simp [Except.bind]

/-! ## `raiseIf` and `need` -/

@[simp] theorem raiseIf_ok_iff {b : Bool} {c : Cause} {w : Word32} : raiseIf b c w = .ok () ↔ b = false := by
  cases b <;> simp [raiseIf]

@[simp] theorem raiseIf_error_iff {b : Bool} {c : Cause} {w : Word32} {e : Stop} :
    raiseIf b c w = .error e ↔ b = true ∧ e = .fault ⟨c, w⟩ := by
  cases b <;> simp [raiseIf, eq_comm]

@[simp] theorem raiseIf_false {c : Cause} {w : Word32} : raiseIf false c w = .ok () := rfl

@[simp] theorem raiseIf_true {c : Cause} {w : Word32} : raiseIf true c w = .error (.fault ⟨c, w⟩) := rfl

@[simp] theorem need_ok_iff {α : Type} {sp : Space} {i : Nat} {o : Option α} {v : α} :
    need sp i o = .ok v ↔ o = some v := by
  cases o <;> simp [need]

@[simp] theorem need_error_iff {α : Type} {sp : Space} {i : Nat} {o : Option α} {e : Stop} :
    need sp i o = .error e ↔ o = none ∧ e = .refuse (.neverWritten sp i) := by
  cases o <;> simp [need, eq_comm]

@[simp] theorem pixAt_ok_iff {s : State} {i : Nat} {v : F64} : s.pixAt i = .ok v ↔ Buf.read s.mem.pix i = some v :=
  need_ok_iff

@[simp] theorem plnAt_ok_iff {s : State} {ch : Channel} {i : Nat} {v : F64} :
    s.plnAt ch i = .ok v ↔ Buf.read (s.mem.pln.get ch) i = some v := need_ok_iff

@[simp] theorem qplAt_ok_iff {s : State} {ch : Channel} {i : Nat} {v : I16} :
    s.qplAt ch i = .ok v ↔ Buf.read (s.mem.qpl.get ch) i = some v := need_ok_iff

@[simp] theorem valAt_ok_iff {s : State} {ch : Channel} {i : Nat} {v : I16} :
    s.valAt ch i = .ok v ↔ Buf.read (s.mem.val.get ch) i = some v := need_ok_iff

@[simp] theorem coliAt_ok_iff {s : State} {ch : Channel} {i : Nat} {v : I32} :
    s.coliAt ch i = .ok v ↔ Buf.read (s.mem.coli.get ch) i = some v := need_ok_iff

@[simp] theorem rptrAt_ok_iff {s : State} {ch : Channel} {i : Nat} {v : I32} :
    s.rptrAt ch i = .ok v ↔ Buf.read (s.mem.rptr.get ch) i = some v := need_ok_iff

/-! ## The checks -/

theorem channels_eq_three {w : Word32} : w.toInt = 3 ↔ w = 3#32 := by
  rw [← BitVec.toInt_inj]; rfl

/-- `INSHAPE` passes exactly on a legal input shape (R112, R42). -/
theorem inshape_ok_iff {cfg : Config} {s : State} : inshape cfg s = .ok () ↔ LegalInput cfg s := by
  unfold inshape LegalInput
  simp only [bind, check_ok_iff, raiseIf_ok_iff, decide_eq_false_iff_not, not_not,
    not_le, not_lt, channels_eq_three]
  constructor
  · rintro ⟨h1, h2, h3, h4, h5, h6, h7⟩; exact ⟨h1, h4, h6, h5, h7⟩
  · rintro ⟨h1, h4, h6, h5, h7⟩; exact ⟨h1, by omega, by omega, h4, h5, h6, h7⟩

/-- `PSHAPE` passes exactly on a legal shape, in whole tiles if `m8` (R122). -/
theorem pshape_ok_iff {cfg : Config} {m8 : Bool} {s : State} :
    pshape cfg m8 s = .ok () ↔
      LegalShape cfg s ∧ (m8 = true → s.rows.toInt % 8 = 0 ∧ s.cols.toInt % 8 = 0) := by
  unfold pshape LegalShape
  simp only [bind, check_ok_iff, raiseIf_ok_iff, decide_eq_false_iff_not, not_le, not_lt,
    Bool.and_eq_false_iff, ne_eq, not_not]
  cases m8 <;> simp <;> tauto

@[simp] theorem pshape_false_ok_iff {cfg : Config} {s : State} : pshape cfg false s = .ok () ↔ LegalShape cfg s := by
  simp [pshape_ok_iff]

@[simp] theorem pshape_true_ok_iff {cfg : Config} {s : State} : pshape cfg true s = .ok () ↔ LegalTiling cfg s := by
  simp [pshape_ok_iff, LegalTiling]

/-- `QPARAM` passes exactly on legal parameters (R156). -/
@[simp] theorem qparam_ok_iff {s : State} : qparam s = .ok () ↔ LegalParams s := by
  unfold qparam LegalParams
  simp only [bind, check_ok_iff, raiseIf_ok_iff, decide_eq_false_iff_not, not_lt,
    Bool.or_eq_false_iff]

/-- `TILECHECK` passes exactly on a tile of a legal tiling (R191). -/
@[simp] theorem tileCheck_ok_iff {cfg : Config} {s : State} : tileCheck cfg s = .ok () ↔ LegalTile cfg s := by
  unfold tileCheck LegalTile
  simp only [bind, check_ok_iff, raiseIf_ok_iff, decide_eq_false_iff_not, not_lt, not_le,
    Bool.or_eq_false_iff, pshape_true_ok_iff]
  tauto

/-- What `INSHAPE` raises (R112): ShapeError 1, 2, 3 or 5, never a refusal. -/
theorem inshape_error {cfg : Config} {s : State} {e : Stop} (h : inshape cfg s = .error e) :
    ∃ f : Raised, e = .fault f ∧
      f.cause ∈ [Cause.channelCount, .dimNonPositive, .dimBelow8, .dimCapacity] := by
  unfold inshape at h
  simp only [bind, check_error_iff, raiseIf_error_iff, raiseIf_ok_iff] at h
  rcases h with ⟨-, rfl⟩ | ⟨-, ⟨-, rfl⟩ | ⟨-, ⟨-, rfl⟩ | ⟨-, ⟨-, rfl⟩ | ⟨-, ⟨-, rfl⟩ | ⟨-, ⟨-, rfl⟩ | ⟨-, -, rfl⟩⟩⟩⟩⟩⟩ <;>
    exact ⟨_, rfl, by simp⟩

/-- What `PSHAPE` raises (R122): ShapeError 2, 4 (with `m8` only) or 5, never a refusal. -/
theorem pshape_error {cfg : Config} {m8 : Bool} {s : State} {e : Stop} (h : pshape cfg m8 s = .error e) :
    ∃ f : Raised, e = .fault f ∧
      (f.cause ∈ [Cause.dimNonPositive, .dimCapacity] ∨ m8 = true ∧ f.cause = .dimNotTrimmed) := by
  unfold pshape at h
  simp only [bind, check_error_iff, raiseIf_error_iff, raiseIf_ok_iff,
    Bool.and_eq_true] at h
  rcases h with ⟨-, rfl⟩ | ⟨-, ⟨-, rfl⟩ | ⟨-, ⟨⟨hm, -⟩, rfl⟩ | ⟨-, ⟨⟨hm, -⟩, rfl⟩ | ⟨-, ⟨-, rfl⟩ | ⟨-, -, rfl⟩⟩⟩⟩⟩
  · exact ⟨_, rfl, .inl (by simp)⟩
  · exact ⟨_, rfl, .inl (by simp)⟩
  · exact ⟨_, rfl, .inr ⟨hm, rfl⟩⟩
  · exact ⟨_, rfl, .inr ⟨hm, rfl⟩⟩
  · exact ⟨_, rfl, .inl (by simp)⟩
  · exact ⟨_, rfl, .inl (by simp)⟩

/-- What `QPARAM` raises (R156): ParameterError 1 or 2, never a refusal. -/
theorem qparam_error {s : State} {e : Stop} (h : qparam s = .error e) :
    ∃ f : Raised, e = .fault f ∧ f.cause ∈ [Cause.thresholdNegative, .bandCutoffRange] := by
  unfold qparam at h
  simp only [bind, check_error_iff, raiseIf_error_iff, raiseIf_ok_iff] at h
  rcases h with ⟨-, rfl⟩ | ⟨-, -, rfl⟩ <;> exact ⟨_, rfl, by simp⟩

/-- What `TILECHECK` raises (R191): what `PSHAPE(true)` raises, or ParameterError 3. -/
theorem tileCheck_error {cfg : Config} {s : State} {e : Stop} (h : tileCheck cfg s = .error e) :
    ∃ f : Raised, e = .fault f ∧
      f.cause ∈ [Cause.dimNonPositive, .dimNotTrimmed, .dimCapacity, .tileIndex] := by
  unfold tileCheck at h
  simp only [bind, check_error_iff, raiseIf_error_iff, raiseIf_ok_iff] at h
  rcases h with h | ⟨-, ⟨-, rfl⟩ | ⟨-, -, rfl⟩⟩
  · obtain ⟨f, rfl, hf⟩ := pshape_error h
    refine ⟨f, rfl, ?_⟩
    simp only [List.mem_cons, List.not_mem_nil, or_false] at hf ⊢
    tauto
  · exact ⟨_, rfl, by simp⟩
  · exact ⟨_, rfl, by simp⟩

/-! ## How a sequence of primitives ends -/

@[simp] theorem runPrim_ok_iff {p : Prim} {s t : State} : runPrim p s = .ok t ↔ p s = .ok t := by
  unfold runPrim
  split <;> simp [*]

@[simp] theorem runPrim_raised_iff {p : Prim} {s t : State} {f : Raised} :
    runPrim p s = .raised t f ↔ p s = .error (.fault f) ∧ t = s := by
  unfold runPrim
  split <;> simp [*, eq_comm, and_comm]

@[simp] theorem runPrim_refused_iff {p : Prim} {s : State} {r : Refusal} :
    runPrim p s = .refused r ↔ p s = .error (.refuse r) := by
  unfold runPrim
  split <;> simp [*]

@[simp] theorem Progress.ok_andThen (s : State) (k : State → Progress) : (Progress.ok s).andThen k = k s := rfl

theorem Progress.andThen_ok_iff {p : Progress} {k : State → Progress} {t : State} :
    p.andThen k = .ok t ↔ ∃ u, p = .ok u ∧ k u = .ok t := by
  cases p <;> simp [Progress.andThen]

theorem Progress.andThen_raised_iff {p : Progress} {k : State → Progress} {t : State} {f : Raised} :
    p.andThen k = .raised t f ↔ p = .raised t f ∨ ∃ u, p = .ok u ∧ k u = .raised t f := by
  cases p <;> simp [Progress.andThen]

theorem upfront_ok_iff {c : State → Except Stop Unit} {k : State → Progress} {s t : State} :
    upfront c k s = .ok t ↔ c s = .ok () ∧ k s = .ok t := by
  unfold upfront
  split <;> simp [*]

theorem upfront_raised_iff {c : State → Except Stop Unit} {k : State → Progress} {s t : State} {f : Raised} :
    upfront c k s = .raised t f ↔
      (c s = .error (.fault f) ∧ t = s) ∨ (c s = .ok () ∧ k s = .raised t f) := by
  unfold upfront
  split <;> simp [*, eq_comm, and_comm]

@[simp] theorem sequence_nil (s : State) : sequence [] s = .ok s := rfl

@[simp] theorem sequence_cons (p : Prim) (ps : List Prim) (s : State) :
    sequence (p :: ps) s = (runPrim p s).andThen (sequence ps) := rfl

/-- What a `CoreStep` can do (R80): complete, or take a fault on top of the writes that precede it. -/
theorem finish_next_iff {p : Progress} {t : State} :
    finish p = .next t ↔ (∃ u, p = .ok u ∧ t = u.complete) ∨ ∃ u f, p = .raised u f ∧ t = takeFault f u := by
  cases p <;> simp [finish, eq_comm]

theorem finish_ok {p : Progress} {u : State} (h : p = .ok u) : finish p = .next u.complete := by rw [h]; rfl

/-- The end of a primitive (R244 a): all its writes and completion, or a fault on the state before it. -/
theorem finish_runPrim_next_iff {p : Prim} {s t : State} :
    finish (runPrim p s) = .next t ↔
      (∃ u, p s = .ok u ∧ t = u.complete) ∨ ∃ f, p s = .error (.fault f) ∧ t = takeFault f s := by
  rw [finish_next_iff]
  constructor
  · rintro (⟨u, hu, rfl⟩ | ⟨u, f, hu, rfl⟩)
    · exact .inl ⟨u, runPrim_ok_iff.1 hu, rfl⟩
    · obtain ⟨hf, rfl⟩ := runPrim_raised_iff.1 hu
      exact .inr ⟨f, hf, rfl⟩
  · rintro (⟨u, hu, rfl⟩ | ⟨f, hf, rfl⟩)
    · exact .inl ⟨u, runPrim_ok_iff.2 hu, rfl⟩
    · exact .inr ⟨s, f, runPrim_raised_iff.2 ⟨hf, rfl⟩, rfl⟩

/-- One round of a tile loop and what follows (R211, R213). -/
theorem untilLast_succ (body : State → Progress) (n : Nat) (s : State) :
    untilLast body (n + 1) s =
      (body s).andThen fun t => if t.status.last then .ok t else untilLast body n t := rfl

end Sys2Proof.Machine
end

