-- ==== Sys2Proof/Laws/Commands.lean ====
section
/-! SUPPORT. What each primitive command can do: when it succeeds and the state it answers, and what it can raise. -/

namespace Sys2Proof.Machine

/-- Two results are the same exactly when their values are, written with the new value first. -/
theorem ok_eq_ok_iff {ε α : Type} {a b : α} : (Except.ok a : Except ε α) = .ok b ↔ b = a := by
  rw [Except.ok.injEq, eq_comm]

variable {cfg : Config} {s t : State} {ch : Channel} {e : Stop}

/-! ## Colour -/

/-- A pixel of the input converts exactly when its three samples have been written. -/
theorem yccAt_ok_iff {r c : Nat} {v : F64 × F64 × F64} :
    yccAt cfg s r c = .ok v ↔ ∃ red green blue,
      Buf.read s.mem.pix (pixIdx s.width.toInt.toNat r c 0) = some red ∧
      Buf.read s.mem.pix (pixIdx s.width.toInt.toNat r c 1) = some green ∧
      Buf.read s.mem.pix (pixIdx s.width.toInt.toNat r c 2) = some blue ∧ v = fwd cfg.arith red green blue := by
  unfold yccAt
  simp only [bind, bind_ok_iff, pixAt_ok_iff, Except.ok.injEq]
  constructor
  · rintro ⟨a, ha, b, hb, c, hc, rfl⟩; exact ⟨a, b, c, ha, hb, hc, rfl⟩
  · rintro ⟨a, b, c, ha, hb, hc, rfl⟩; exact ⟨a, ha, b, hb, c, hc, rfl⟩

/-- A pixel of the planes converts back exactly when its three elements have been written. -/
theorem rgbAt_ok_iff {r c : Nat} {v : F64 × F64 × F64} :
    rgbAt cfg s r c = .ok v ↔ ∃ y cb cr,
      Buf.read s.mem.pln.y (plnIdx s.nCols r c) = some y ∧
      Buf.read s.mem.pln.cb (plnIdx s.nCols r c) = some cb ∧
      Buf.read s.mem.pln.cr (plnIdx s.nCols r c) = some cr ∧
      v = (clamp cfg.arith (inv cfg.arith y cb cr).1, clamp cfg.arith (inv cfg.arith y cb cr).2.1,
        clamp cfg.arith (inv cfg.arith y cb cr).2.2) := by
  unfold rgbAt
  simp only [bind, bind_ok_iff, plnAt_ok_iff, Except.ok.injEq, Chan3.get]
  constructor
  · rintro ⟨a, ha, b, hb, c, hc, rfl⟩; exact ⟨a, b, c, ha, hb, hc, rfl⟩
  · rintro ⟨a, b, c, ha, hb, hc, rfl⟩; exact ⟨a, ha, b, hb, c, hc, rfl⟩

/-- What RGB2YCC stores for the pixel at a grid position. -/
def yccEntry (cfg : Config) (s : State) (p : Nat × Nat) : Except Stop (Nat × F64 × F64 × F64) := do
  let v ← yccAt cfg s p.1 p.2
  .ok (plnIdx (cropCols s) p.1 p.2, v)

/-- What YCC2RGB stores for the pixel at a grid position. -/
def rgbEntry (cfg : Config) (s : State) (p : Nat × Nat) : Except Stop (List (Nat × F64)) := do
  let v ← rgbAt cfg s p.1 p.2
  .ok (opixWrites s.nCols p.1 p.2 v)

theorem yccEntry_ok_iff {p : Nat × Nat} {x : Nat × F64 × F64 × F64} :
    yccEntry cfg s p = .ok x ↔ ∃ v, yccAt cfg s p.1 p.2 = .ok v ∧ x = (plnIdx (cropCols s) p.1 p.2, v) := by
  unfold yccEntry
  simp only [bind, bind_ok_iff, ok_eq_ok_iff]

theorem rgbEntry_ok_iff {p : Nat × Nat} {x : List (Nat × F64)} :
    rgbEntry cfg s p = .ok x ↔ ∃ v, rgbAt cfg s p.1 p.2 = .ok v ∧ x = opixWrites s.nCols p.1 p.2 v := by
  unfold rgbEntry
  simp only [bind, bind_ok_iff, ok_eq_ok_iff]

theorem rgb2ycc_ok_iff :
    rgb2ycc cfg s = .ok t ↔ LegalInput cfg s ∧ ∃ px,
      listM (yccEntry cfg s) (grid (cropRows s) (cropCols s)) = .ok px ∧ t = storeYcc s px := by
  unfold rgb2ycc
  simp only [bind, check_ok_iff, inshape_ok_iff]
  refine and_congr_right fun _ => ?_
  rw [bind_ok_iff]
  simp only [ok_eq_ok_iff]
  rfl

theorem ycc2rgb_ok_iff :
    ycc2rgb cfg s = .ok t ↔ LegalShape cfg s ∧ ∃ px,
      listM (rgbEntry cfg s) (grid s.nRows s.nCols) = .ok px ∧ t = s.putOpix px.flatten := by
  unfold ycc2rgb
  simp only [bind, check_ok_iff, pshape_false_ok_iff]
  refine and_congr_right fun _ => ?_
  rw [bind_ok_iff]
  simp only [ok_eq_ok_iff]
  rfl

/-! ## Block transform, quantizer -/

@[simp] theorem fdct8_ok_iff : fdct8 cfg s = .ok t ↔ t = { s with blk := fdct cfg.arith s.blk } := by
  simp [fdct8, eq_comm]

@[simp] theorem idct8_ok_iff : idct8 cfg s = .ok t ↔ t = { s with blk := idct cfg.arith s.blk } := by
  simp [idct8, eq_comm]

theorem quant_ok_iff :
    quant cfg s = .ok t ↔ LegalParams s ∧ ∃ q, quantOf cfg s s.blk = .ok q ∧ t = { s with qblk := q } := by
  unfold quant
  simp only [bind, check_ok_iff, qparam_ok_iff]
  simp only [bind_ok_iff, ok_eq_ok_iff]

@[simp] theorem dequant_ok_iff :
    dequant cfg s = .ok t ↔ t = { s with blk := dequantBlock cfg.arith cfg.qtable s.qblk } := by
  simp [dequant, eq_comm]

/-! ## Sparse codec -/

theorem planeRows_ok_iff {rows : List (List I16)} :
    planeRows s ch = .ok rows ↔
      List.Forall₂ (fun r row => List.Forall₂ (fun c v => Buf.read (s.mem.qpl.get ch) (plnIdx s.nCols r c) = some v)
        (List.range s.nCols) row) (List.range s.nRows) rows := by
  unfold planeRows
  simp only [listM_ok_iff, qplAt_ok_iff]

theorem pack_ok_iff :
    pack cfg ch s = .ok t ↔ LegalShape cfg s ∧ ∃ rows, planeRows s ch = .ok rows ∧ t = storeCsr s ch rows := by
  unfold pack
  simp only [bind, check_ok_iff, pshape_false_ok_iff]
  simp only [bind_ok_iff, ok_eq_ok_iff]

theorem scatterAt_ok_iff {r k : Nat} {p : Nat × I16} :
    scatterAt s ch r k = .ok p ↔ ∃ c v, Buf.read (s.mem.coli.get ch) k = some c ∧
      Buf.read (s.mem.val.get ch) k = some v ∧ p = (plnIdx s.nCols r c.toInt.toNat, v) := by
  unfold scatterAt
  simp only [bind, bind_ok_iff, coliAt_ok_iff, valAt_ok_iff, Except.ok.injEq]
  constructor
  · rintro ⟨a, ha, b, hb, rfl⟩; exact ⟨a, b, ha, hb, rfl⟩
  · rintro ⟨a, b, ha, hb, rfl⟩; exact ⟨a, ha, b, hb, rfl⟩

theorem scatterRow_ok_iff {r : Nat} {l : List (Nat × I16)} :
    scatterRow s ch r = .ok l ↔ ∃ a b, Buf.read (s.mem.rptr.get ch) r = some a ∧
      Buf.read (s.mem.rptr.get ch) (r + 1) = some b ∧
      listM (scatterAt s ch r) (positions a.toInt.toNat b.toInt.toNat) = .ok l := by
  unfold scatterRow
  simp only [bind, bind_ok_iff, rptrAt_ok_iff]
  constructor
  · rintro ⟨a, ha, b, hb, h⟩; exact ⟨a, b, ha, hb, h⟩
  · rintro ⟨a, b, ha, hb, h⟩; exact ⟨a, ha, b, hb, h⟩

theorem unpack_ok_iff :
    unpack cfg ch s = .ok t ↔ LegalShape cfg s ∧ csrCheck s ch = .ok () ∧ ∃ rows,
      listM (scatterRow s ch) (List.range s.nRows) = .ok rows ∧
      t = s.putQpl ch (zeroFill (s.nRows * s.nCols) ++ rows.flatten) := by
  unfold unpack
  simp only [bind, check_ok_iff, pshape_false_ok_iff]
  refine and_congr_right fun _ => and_congr_right fun _ => ?_
  rw [bind_ok_iff]
  simp only [ok_eq_ok_iff]

/-- Check 5 at a row passes. -/
theorem pointerRises_ok_iff {r : Nat} :
    pointerRises s ch r = .ok () ↔ ∃ a b, Buf.read (s.mem.rptr.get ch) r = some a ∧
      Buf.read (s.mem.rptr.get ch) (r + 1) = some b ∧ a.toInt ≤ b.toInt := by
  unfold pointerRises
  simp only [bind, bind_ok_iff, rptrAt_ok_iff, raiseIf_ok_iff, decide_eq_false_iff_not, not_lt]
  constructor
  · rintro ⟨a, ha, b, hb, h⟩; exact ⟨a, b, ha, hb, h⟩
  · rintro ⟨a, b, ha, hb, h⟩; exact ⟨a, ha, b, hb, h⟩

/-- Check 7 at a position passes. -/
theorem columnInRange_ok_iff {k : Nat} :
    columnInRange s ch k = .ok () ↔ ∃ c, Buf.read (s.mem.coli.get ch) k = some c ∧
      0 ≤ c.toInt ∧ c.toInt < s.cols.toInt := by
  unfold columnInRange
  simp only [bind, bind_ok_iff, coliAt_ok_iff, raiseIf_ok_iff, Bool.or_eq_false_iff, decide_eq_false_iff_not,
    not_lt, not_le]

/-- Check 8 at a position passes. -/
theorem columnRises_ok_iff {k : Nat} :
    columnRises s ch k = .ok () ↔ ∃ c p, Buf.read (s.mem.coli.get ch) k = some c ∧
      Buf.read (s.mem.coli.get ch) (k - 1) = some p ∧ p.toInt < c.toInt := by
  unfold columnRises
  simp only [bind, bind_ok_iff, coliAt_ok_iff, raiseIf_ok_iff, decide_eq_false_iff_not, not_le]
  constructor
  · rintro ⟨a, ha, b, hb, h⟩; exact ⟨a, b, ha, hb, h⟩
  · rintro ⟨a, b, ha, hb, h⟩; exact ⟨a, ha, b, hb, h⟩

/-- Check 8 in a row passes. -/
theorem rowRises_ok_iff {r : Nat} :
    rowRises s ch r = .ok () ↔ ∃ a b, Buf.read (s.mem.rptr.get ch) r = some a ∧
      Buf.read (s.mem.rptr.get ch) (r + 1) = some b ∧
      ∀ k ∈ positions (a.toInt.toNat + 1) b.toInt.toNat, columnRises s ch k = .ok () := by
  unfold rowRises
  simp only [bind, bind_ok_iff, rptrAt_ok_iff, forM_ok_iff]
  constructor
  · rintro ⟨a, ha, b, hb, h⟩; exact ⟨a, b, ha, hb, h⟩
  · rintro ⟨a, b, ha, hb, h⟩; exact ⟨a, ha, b, hb, h⟩

/-- `CSRCHECK` passes exactly when its eight checks do (R176). -/
theorem csrCheck_ok_iff :
    csrCheck s ch = .ok () ↔
      (s.rptrlen.get ch).toInt = s.rows.toInt + 1 ∧ s.vallen.get ch = s.collen.get ch ∧
      0 ≤ (s.vallen.get ch).toInt ∧ (s.vallen.get ch).toInt ≤ s.rows.toInt * s.cols.toInt ∧
      (∃ p, Buf.read (s.mem.rptr.get ch) 0 = some p ∧ p.toInt = 0) ∧
      (∀ r < s.nRows, pointerRises s ch r = .ok ()) ∧
      (∃ p, Buf.read (s.mem.rptr.get ch) s.nRows = some p ∧ p.toInt = (s.vallen.get ch).toInt) ∧
      (∀ k < (s.vallen.get ch).toInt.toNat, columnInRange s ch k = .ok ()) ∧
      ∀ r < s.nRows, rowRises s ch r = .ok () := by
  unfold csrCheck
  simp only [bind, check_ok_iff, raiseIf_ok_iff, decide_eq_false_iff_not, not_not, Bool.or_eq_false_iff, not_lt]
  rw [bind_ok_iff]
  simp only [check_ok_iff, rptrAt_ok_iff, raiseIf_ok_iff, decide_eq_false_iff_not, not_not, forM_ok_iff,
    List.mem_range]
  constructor
  · rintro ⟨h1, h2, ⟨h3, h4⟩, p, hp, hp0, h5, h⟩
    rw [bind_ok_iff] at h
    obtain ⟨q, hq, h⟩ := h
    simp only [check_ok_iff, rptrAt_ok_iff, raiseIf_ok_iff, decide_eq_false_iff_not, not_not, forM_ok_iff,
      List.mem_range] at hq h
    exact ⟨h1, h2, h3, h4, ⟨p, hp, hp0⟩, h5, ⟨q, hq, h.1⟩, h.2⟩
  · rintro ⟨h1, h2, h3, h4, ⟨p, hp, hp0⟩, h5, ⟨q, hq, hq0⟩, h7, h8⟩
    refine ⟨h1, h2, ⟨h3, h4⟩, p, hp, hp0, h5, ?_⟩
    rw [bind_ok_iff]
    refine ⟨q, rptrAt_ok_iff.2 hq, ?_⟩
    simp only [check_ok_iff, raiseIf_ok_iff, decide_eq_false_iff_not, not_not, forM_ok_iff, List.mem_range]
    exact ⟨hq0, h7, h8⟩

/-! ## Tiles -/

theorem tileOf_ok_iff {tr tc : Nat} {b : Block F64} :
    tileOf s ch tr tc = .ok b ↔
      ∀ i j, Buf.read (s.mem.pln.get ch) (tileIdx s.nCols tr tc i j) = some (b.at i j) := by
  simp only [tileOf, blockM_ok_iff, plnAt_ok_iff]

theorem qtileOf_ok_iff {tr tc : Nat} {b : Block I16} :
    qtileOf s ch tr tc = .ok b ↔
      ∀ i j, Buf.read (s.mem.qpl.get ch) (tileIdx s.nCols tr tc i j) = some (b.at i j) := by
  simp only [qtileOf, blockM_ok_iff, qplAt_ok_iff]

theorem ldblk_ok_iff :
    ldblk cfg ch s = .ok t ↔ LegalTile cfg s ∧ ∃ b, tileOf s ch s.nTileR s.nTileC = .ok b ∧ t = { s with blk := b } := by
  unfold ldblk
  simp only [bind, check_ok_iff, tileCheck_ok_iff]
  simp only [bind_ok_iff, ok_eq_ok_iff]

theorem stblk_ok_iff :
    stblk cfg ch s = .ok t ↔
      LegalTile cfg s ∧ t = s.putPln ch (tileWrites s.nCols s.nTileR s.nTileC s.blk) := by
  unfold stblk
  simp only [bind, check_ok_iff, tileCheck_ok_iff, ok_eq_ok_iff]

theorem ldqblk_ok_iff :
    ldqblk cfg ch s = .ok t ↔
      LegalTile cfg s ∧ ∃ b, qtileOf s ch s.nTileR s.nTileC = .ok b ∧ t = { s with qblk := b } := by
  unfold ldqblk
  simp only [bind, check_ok_iff, tileCheck_ok_iff]
  simp only [bind_ok_iff, ok_eq_ok_iff]

theorem stqblk_ok_iff :
    stqblk cfg ch s = .ok t ↔
      LegalTile cfg s ∧ t = s.putQpl ch (tileWrites s.nCols s.nTileR s.nTileC s.qblk) := by
  unfold stqblk
  simp only [bind, check_ok_iff, tileCheck_ok_iff, ok_eq_ok_iff]

@[simp] theorem center_ok_iff : center cfg s = .ok t ↔ t = { s with blk := centerBlock cfg.arith s.blk } := by
  simp [center, eq_comm]

@[simp] theorem uncenter_ok_iff : uncenter cfg s = .ok t ↔ t = { s with blk := uncenterBlock cfg.arith s.blk } := by
  simp [uncenter, eq_comm]

@[simp] theorem trst_ok_iff : trst s = .ok t ↔ t = { s with tileR := 0#32, tileC := 0#32 }.setLast false := by
  simp [trst, eq_comm]

theorem tnext_ok_iff : tnext cfg s = .ok t ↔ LegalTile cfg s ∧ t = nextTile s := by
  unfold tnext
  simp only [bind, check_ok_iff, tileCheck_ok_iff, ok_eq_ok_iff]

/-! ## System -/

@[simp] theorem nop_ok_iff : nop s = .ok t ↔ t = s := by simp [nop, eq_comm]

@[simp] theorem clrerr_ok_iff : clrerr s = .ok t ↔ t = clearFault s := by simp [clrerr, eq_comm]

/-! ## The 64 positions of a tile -/

@[simp] theorem mem_blockPositions (p : Fin 8 × Fin 8) : p ∈ blockPositions := by
  simp [blockPositions]

theorem mem_tileWrites {α : Type} {cols tr tc : Nat} {b : Block α} {p : Nat × α} :
    p ∈ tileWrites cols tr tc b ↔ ∃ i j, p = (tileIdx cols tr tc i j, b.at i j) := by
  simp [tileWrites, eq_comm]

/-- Inside a plane of enough columns two positions of tiles share an index only if they are the same. -/
theorem tileIdx_inj {cols tr tc tr' tc' : Nat} {i j i' j' : Fin 8} (h : 8 * tc + 8 ≤ cols) (h' : 8 * tc' + 8 ≤ cols)
    (he : tileIdx cols tr tc i j = tileIdx cols tr' tc' i' j') : tr = tr' ∧ tc = tc' ∧ i = i' ∧ j = j' := by
  unfold tileIdx at he
  have hj := j.isLt
  have hj' := j'.isLt
  have hr : 8 * tr + i.val = 8 * tr' + i'.val := by
    have h1 : ((8 * tr + i.val) * cols + (8 * tc + j.val)) / cols = 8 * tr + i.val := by
      rw [Nat.mul_comm, Nat.mul_add_div (by omega), Nat.div_eq_of_lt (by omega), Nat.add_zero]
    have h2 : ((8 * tr' + i'.val) * cols + (8 * tc' + j'.val)) / cols = 8 * tr' + i'.val := by
      rw [Nat.mul_comm, Nat.mul_add_div (by omega), Nat.div_eq_of_lt (by omega), Nat.add_zero]
    rw [← h1, ← h2, he]
  rw [hr] at he
  have hc : 8 * tc + j.val = 8 * tc' + j'.val := by omega
  refine ⟨by omega, by omega, ?_, ?_⟩ <;> apply Fin.ext <;> omega

/-- A read of a plane after a tile has been written to it. -/
theorem read_writeAll_tileWrites {w cols tr tc : Nat} (m : Buf w) (b : Block (BitVec w)) (h : 8 * tc + 8 ≤ cols)
    (i j : Fin 8) : Buf.read (Buf.writeAll m (tileWrites cols tr tc b)) (tileIdx cols tr tc i j) = some (b.at i j) := by
  refine Buf.read_writeAll_of_mem _ (mem_tileWrites.2 ⟨i, j, rfl⟩) fun u hu => ?_
  obtain ⟨i', j', he⟩ := mem_tileWrites.1 hu
  obtain ⟨-, -, rfl, rfl⟩ := tileIdx_inj h h (congrArg Prod.fst he)
  exact congrArg Prod.snd he

/-- An index outside the tile reads as before. -/
theorem read_writeAll_tileWrites_ne {w cols tr tc : Nat} (m : Buf w) (b : Block (BitVec w)) {a : Nat}
    (h : ∀ i j, a ≠ tileIdx cols tr tc i j) : Buf.read (Buf.writeAll m (tileWrites cols tr tc b)) a = Buf.read m a := by
  refine Buf.read_writeAll_of_notMem _ fun p hp => ?_
  obtain ⟨i, j, rfl⟩ := mem_tileWrites.1 hp
  exact fun he => h i j he.symm

end Sys2Proof.Machine
end

