-- ==== Sys2Proof/Laws/Progress.lean ====
section
/-! SUPPORT. Reasoning about sequences of primitives: what a computation may raise, and how a composite ends, each loop's
induction done once. -/

namespace Sys2Proof.Machine

/-! ## Which causes a computation may raise -/

/-- Every fault the computation raises has a cause of the list. -/
def Only {α : Type} (C : List Cause) (x : Except Stop α) : Prop := ∀ f, x = .error (.fault f) → f.cause ∈ C

variable {α β : Type} {C : List Cause} {cfg : Config} {s : State} {ch : Channel}

@[simp] theorem only_ok (a : α) : Only C (.ok a : Except Stop α) := fun _ h => by cases h

theorem only_bind {x : Except Stop α} {k : α → Except Stop β} (hx : Only C x) (hk : ∀ a, Only C (k a)) :
    Only C (x.bind k) := by
  intro f h
  rcases bind_error_iff.1 h with h | ⟨a, -, h⟩
  · exact hx f h
  · exact hk a f h

theorem Only.mono {D : List Cause} {x : Except Stop α} (h : Only C x) (hs : ∀ c ∈ C, c ∈ D) : Only D x :=
  fun f hf => hs _ (h f hf)

theorem only_raiseIf {b : Bool} {c : Cause} {w : Word32} (h : c ∈ C) : Only C (raiseIf b c w) := by
  intro f hf
  obtain ⟨-, he⟩ := raiseIf_error_iff.1 hf
  cases he
  exact h

theorem only_need {sp : Space} {i : Nat} {o : Option α} : Only C (need sp i o) := by
  intro f hf
  obtain ⟨-, he⟩ := need_error_iff.1 hf
  cases he

theorem only_octM {f : Fin 8 → Except Stop α} (h : ∀ i, Only C (f i)) : Only C (octM f) := by
  intro r hr
  obtain ⟨i, hi, -⟩ := octM_error hr
  exact h i r hi

theorem only_blockM {f : Fin 8 → Fin 8 → Except Stop α} (h : ∀ i j, Only C (f i j)) : Only C (blockM f) :=
  only_octM fun i => only_octM fun j => h i j

theorem only_listM {f : α → Except Stop β} (h : ∀ a, Only C (f a)) : ∀ l, Only C (listM f l)
  | [] => only_ok _
  | a :: as => by
    unfold listM
    exact only_bind (h a) fun _ => only_bind (only_listM h as) fun _ => only_ok _

theorem only_forM {f : α → Except Stop Unit} (h : ∀ a, Only C (f a)) : ∀ l, Only C (forM f l)
  | [] => only_ok _
  | a :: as => by
    unfold forM
    exact only_bind (h a) fun _ => only_forM h as

theorem only_inshape : Only [Cause.channelCount, .dimNonPositive, .dimBelow8, .dimCapacity] (inshape cfg s) := by
  intro f h
  obtain ⟨g, hg, hc⟩ := inshape_error h
  cases hg
  exact hc

theorem only_pshape_false : Only [Cause.dimNonPositive, .dimCapacity] (pshape cfg false s) := by
  intro f h
  obtain ⟨g, hg, hc⟩ := pshape_error h
  cases hg
  simpa using hc

theorem only_pshape_true : Only [Cause.dimNonPositive, .dimNotTrimmed, .dimCapacity] (pshape cfg true s) := by
  intro f h
  obtain ⟨g, hg, hc⟩ := pshape_error h
  cases hg
  simp only [List.mem_cons, List.not_mem_nil, or_false] at hc ⊢
  tauto

theorem only_qparam : Only [Cause.thresholdNegative, .bandCutoffRange] (qparam s) := by
  intro f h
  obtain ⟨g, hg, hc⟩ := qparam_error h
  cases hg
  exact hc

theorem only_tileCheck :
    Only [Cause.dimNonPositive, .dimNotTrimmed, .dimCapacity, .tileIndex] (tileCheck cfg s) := by
  intro f h
  obtain ⟨g, hg, hc⟩ := tileCheck_error h
  cases hg
  exact hc

/-! ## What the primitives may raise (R248) -/

theorem only_rgb2ycc : Only [Cause.channelCount, .dimNonPositive, .dimBelow8, .dimCapacity] (rgb2ycc cfg s) := by
  refine only_bind only_inshape fun _ => only_bind (only_listM (fun p => only_bind ?_ fun _ => only_ok _) _)
    fun _ => only_ok _
  exact only_bind only_need fun _ => only_bind only_need fun _ => only_bind only_need fun _ => only_ok _

theorem only_ycc2rgb : Only [Cause.dimNonPositive, .dimCapacity] (ycc2rgb cfg s) := by
  refine only_bind only_pshape_false fun _ => only_bind (only_listM (fun p => only_bind ?_ fun _ => only_ok _) _)
    fun _ => only_ok _
  exact only_bind only_need fun _ => only_bind only_need fun _ => only_bind only_need fun _ => only_ok _

theorem only_quantOf {b : Block F64} : Only [Cause.quotientRange, .quotientNotFinite] (quantOf cfg s b) := by
  unfold quantOf quantBlock
  refine only_blockM fun i j => ?_
  unfold quantAt roundQuotient
  exact only_bind (only_bind (only_raiseIf (by simp)) fun _ => only_bind (only_raiseIf (by simp)) fun _ =>
    only_ok _) fun _ => only_ok _

theorem only_quant :
    Only [Cause.thresholdNegative, .bandCutoffRange, .quotientRange, .quotientNotFinite] (quant cfg s) :=
  only_bind (only_qparam.mono (by simp)) fun _ => only_bind (only_quantOf.mono (by simp)) fun _ => only_ok _

theorem only_pack : Only [Cause.dimNonPositive, .dimCapacity] (pack cfg ch s) :=
  only_bind only_pshape_false fun _ =>
    only_bind (only_listM (fun _ => only_listM (fun _ => only_need) _) _) fun _ => only_ok _

theorem only_csrCheck : Only [Cause.csrRowPointerLength, .csrLengthsDiffer, .csrFirstPointer, .csrPointerFalls,
    .csrLength, .csrColumnRange, .csrColumnOrder] (csrCheck s ch) := by
  refine only_bind (only_raiseIf (by simp)) fun _ => only_bind (only_raiseIf (by simp)) fun _ =>
    only_bind (only_raiseIf (by simp)) fun _ => only_bind only_need fun _ => only_bind (only_raiseIf (by simp)) fun _ =>
    only_bind (only_forM (fun _ => only_bind only_need fun _ => only_bind only_need fun _ =>
      only_raiseIf (by simp)) _) fun _ =>
    only_bind only_need fun _ => only_bind (only_raiseIf (by simp)) fun _ =>
    only_bind (only_forM (fun _ => only_bind only_need fun _ => only_raiseIf (by simp)) _) fun _ =>
    only_forM (fun _ => only_bind only_need fun _ => only_bind only_need fun _ =>
      only_forM (fun _ => only_bind only_need fun _ => only_bind only_need fun _ => only_raiseIf (by simp)) _) _

theorem only_unpack : Only [Cause.dimNonPositive, .dimCapacity, .csrRowPointerLength, .csrLengthsDiffer,
    .csrFirstPointer, .csrPointerFalls, .csrLength, .csrColumnRange, .csrColumnOrder] (unpack cfg ch s) :=
  only_bind (only_pshape_false.mono (by simp)) fun _ => only_bind (only_csrCheck.mono (by simp)) fun _ =>
    only_bind (only_listM (fun _ => only_bind only_need fun _ => only_bind only_need fun _ =>
      only_listM (fun _ => only_bind only_need fun _ => only_bind only_need fun _ => only_ok _) _) _) fun _ => only_ok _

theorem only_ldblk : Only [Cause.dimNonPositive, .dimNotTrimmed, .dimCapacity, .tileIndex] (ldblk cfg ch s) :=
  only_bind only_tileCheck fun _ => only_bind (only_blockM fun _ _ => only_need) fun _ => only_ok _

theorem only_stblk : Only [Cause.dimNonPositive, .dimNotTrimmed, .dimCapacity, .tileIndex] (stblk cfg ch s) :=
  only_bind only_tileCheck fun _ => only_ok _

theorem only_ldqblk : Only [Cause.dimNonPositive, .dimNotTrimmed, .dimCapacity, .tileIndex] (ldqblk cfg ch s) :=
  only_bind only_tileCheck fun _ => only_bind (only_blockM fun _ _ => only_need) fun _ => only_ok _

theorem only_stqblk : Only [Cause.dimNonPositive, .dimNotTrimmed, .dimCapacity, .tileIndex] (stqblk cfg ch s) :=
  only_bind only_tileCheck fun _ => only_ok _

theorem only_tnext : Only [Cause.dimNonPositive, .dimNotTrimmed, .dimCapacity, .tileIndex] (tnext cfg s) :=
  only_bind only_tileCheck fun _ => only_ok _

/-! ## How a composite ends -/

/-- If the sequence runs through, its state is in `R`; if it stops in a fault, state and fault are in `F`; it is refused
only if `G`. -/
def Progress.Ends (R : State → Prop) (F : State → Raised → Prop) (G : Prop) : Progress → Prop
  | .ok s => R s
  | .raised s f => F s f
  | .refused _ => G

variable {R Q : State → Prop} {F : State → Raised → Prop} {G : Prop}

theorem Progress.ends_of_imp {R' : State → Prop} {F' : State → Raised → Prop} {p : Progress} (h : p.Ends R F G)
    (hR : ∀ s, R s → R' s) (hF : ∀ s f, F s f → F' s f) : p.Ends R' F' G := by
  cases p
  · exact hR _ h
  · exact hF _ _ h
  · exact h

theorem runPrim_ends {p : Prim} {s : State} (hok : ∀ t, p s = .ok t → R t)
    (hf : ∀ f, p s = .error (.fault f) → F s f) (hr : ∀ r, p s = .error (.refuse r) → G) :
    (runPrim p s).Ends R F G := by
  unfold runPrim
  split
  · exact hok _ ‹_›
  · exact hf _ ‹_›
  · exact hr _ ‹_›

theorem andThen_ends {p : Progress} {k : State → Progress} (hp : p.Ends Q F G) (hk : ∀ s, Q s → (k s).Ends R F G) :
    (p.andThen k).Ends R F G := by
  cases p
  · exact hk _ hp
  · exact hp
  · exact hp

theorem upfront_ends {c : State → Except Stop Unit} {k : State → Progress} {s : State}
    (hok : c s = .ok () → (k s).Ends R F G) (hf : ∀ f, c s = .error (.fault f) → F s f)
    (hr : ∀ r, c s = .error (.refuse r) → G) : (upfront c k s).Ends R F G := by
  unfold upfront
  split
  · exact hok ‹_›
  · exact hf _ ‹_›
  · exact hr _ ‹_›

/-- The tile loop: `I n` holds before a round when `n` rounds are left. -/
theorem untilLast_ends {body : State → Progress} {I : Nat → State → Prop} (h0 : ∀ s, I 0 s → R s)
    (hb : ∀ n s, I (n + 1) s → (body s).Ends (fun t => if t.status.last then R t else I n t) F G) :
    ∀ n s, I n s → (untilLast body n s).Ends R F G
  | 0, s, h => h0 s h
  | n + 1, s, h => by
    rw [untilLast_succ]
    refine andThen_ends (hb n s h) fun t ht => ?_
    split at ht
    · next hl => rw [if_pos hl]; exact ht
    · next hl => rw [if_neg hl]; exact untilLast_ends h0 hb n t ht

/-- The loop over channels: `I l` holds when the channels of `l` are left. -/
theorem eachChannel_ends {f : Channel → State → Progress} {I : List Channel → State → Prop} (h0 : ∀ s, I [] s → R s)
    (hb : ∀ ch l s, I (ch :: l) s → (f ch s).Ends (I l) F G) : ∀ l s, I l s → (eachChannel f l s).Ends R F G
  | [], s, h => h0 s h
  | ch :: l, s, h => andThen_ends (hb ch l s h) fun t ht => eachChannel_ends h0 hb l t ht

/-- Primitives one after another: `I l` holds when the primitives of `l` are left. -/
theorem sequence_ends {I : List Prim → State → Prop} (h0 : ∀ s, I [] s → R s)
    (hok : ∀ p l s t, I (p :: l) s → p s = .ok t → I l t)
    (hf : ∀ p l s f, I (p :: l) s → p s = .error (.fault f) → F s f)
    (hr : ∀ p l s r, I (p :: l) s → p s = .error (.refuse r) → G) : ∀ l s, I l s → (sequence l s).Ends R F G
  | [], s, h => h0 s h
  | p :: l, s, h => by
    rw [sequence_cons]
    exact andThen_ends (runPrim_ends (fun t => hok p l s t h) (fun f => hf p l s f h) fun r => hr p l s r h)
      fun t ht => sequence_ends h0 hok hf hr l t ht

/-- A sequence that can neither stop in a fault nor be refused runs through. -/
theorem Progress.ends_ok {p : Progress} (h : p.Ends R (fun _ _ => False) False) : ∃ t, p = .ok t ∧ R t := by
  cases p
  · exact ⟨_, rfl, h⟩
  · exact h.elim
  · exact h.elim

theorem Progress.ends_next {p : Progress} {t : State} (h : p.Ends R F G) (ht : finish p = .next t) :
    (∃ u, R u ∧ t = u.complete) ∨ ∃ u f, F u f ∧ t = takeFault f u := by
  rcases finish_next_iff.1 ht with ⟨u, rfl, rfl⟩ | ⟨u, f, rfl, rfl⟩
  · exact .inl ⟨u, h, rfl⟩
  · exact .inr ⟨u, f, h, rfl⟩

/-! ## Invariants of a command -/

/-- The primitive keeps a property of the state. -/
def Keeps (I : State → Prop) (p : Prim) : Prop := ∀ s t, I s → p s = .ok t → I t

variable {I : State → Prop}

theorem keeps_sequence {l : List Prim} (h : ∀ p ∈ l, Keeps I p) (hs : I s) :
    (sequence l s).Ends I (fun t _ => I t) True :=
  sequence_ends (I := fun l' t => I t ∧ ∀ p ∈ l', Keeps I p) (fun _ h => h.1)
    (fun p _ s t hI hp => ⟨hI.2 p (by simp) s t hI.1 hp, fun q hq => hI.2 q (by simp [hq])⟩)
    (fun _ _ _ _ hI _ => hI.1) (fun _ _ _ _ _ _ => trivial) l s ⟨hs, h⟩

theorem keeps_untilLast {body : State → Progress} (h : ∀ s, I s → (body s).Ends I (fun t _ => I t) True) {n : Nat}
    (hs : I s) : (untilLast body n s).Ends I (fun t _ => I t) True :=
  untilLast_ends (I := fun _ => I) (fun _ h => h)
    (fun _ s hI => Progress.ends_of_imp (h s hI) (fun t ht => by split <;> exact ht) fun _ _ h => h) n s hs

theorem keeps_eachChannel {f : Channel → State → Progress} {l : List Channel}
    (h : ∀ ch ∈ l, ∀ s, I s → (f ch s).Ends I (fun t _ => I t) True) (hs : I s) :
    (eachChannel f l s).Ends I (fun t _ => I t) True :=
  eachChannel_ends (I := fun l' t => I t ∧ ∀ ch ∈ l', ∀ s, I s → (f ch s).Ends I (fun t _ => I t) True)
    (fun _ h => h.1)
    (fun ch _ s hI => Progress.ends_of_imp (hI.2 ch (by simp) s hI.1)
      (fun t ht => ⟨ht, fun c hc => hI.2 c (by simp [hc])⟩) fun _ _ h => h) l s ⟨hs, h⟩

/-- The primitives FQPLANE consists of (R211). -/
def fqPrims (cfg : Config) (ch : Channel) : List Prim :=
  [trst, ldblk cfg ch, center cfg, fdct8 cfg, quant cfg, stqblk cfg ch, tnext cfg]

/-- The primitives DQIPLANE consists of (R213). -/
def dqiPrims (cfg : Config) (ch : Channel) : List Prim :=
  [trst, ldqblk cfg ch, dequant cfg, idct8 cfg, uncenter cfg, stblk cfg ch, tnext cfg]

theorem keeps_fqTiles (h : ∀ p ∈ fqPrims cfg ch, Keeps I p) (hs : I s) :
    (fqTiles cfg ch s).Ends I (fun t _ => I t) True := by
  refine andThen_ends (Q := I) (runPrim_ends (fun t ht => h _ (by simp [fqPrims]) s t hs ht) (fun _ _ => hs)
    fun _ _ => trivial) fun t ht => keeps_untilLast (fun u hu => keeps_sequence (fun p hp => h p ?_) hu) ht
  cases ch <;> simp [fqPrims, lumaOnly] at hp ⊢ <;> tauto

theorem keeps_dqiTiles (h : ∀ p ∈ dqiPrims cfg ch, Keeps I p) (hs : I s) :
    (dqiTiles cfg ch s).Ends I (fun t _ => I t) True := by
  refine andThen_ends (Q := I) (runPrim_ends (fun t ht => h _ (by simp [dqiPrims]) s t hs ht) (fun _ _ => hs)
    fun _ _ => trivial) fun t ht => keeps_untilLast (fun u hu => keeps_sequence (fun p hp => h p ?_) hu) ht
  cases ch <;> simp [dqiPrims, lumaOnly] at hp ⊢ <;> tauto

theorem keeps_fqplane (h : ∀ p ∈ fqPrims cfg ch, Keeps I p) (hs : I s) :
    (fqplane cfg ch s).Ends I (fun t _ => I t) True :=
  upfront_ends (fun _ => upfront_ends (fun _ => keeps_fqTiles h hs) (fun _ _ => hs) fun _ _ => trivial)
    (fun _ _ => hs) fun _ _ => trivial

theorem keeps_dqiplane (h : ∀ p ∈ dqiPrims cfg ch, Keeps I p) (hs : I s) :
    (dqiplane cfg ch s).Ends I (fun t _ => I t) True :=
  upfront_ends (fun _ => keeps_dqiTiles h hs) (fun _ _ => hs) fun _ _ => trivial

theorem keeps_encodeAll (hc : Keeps I (rgb2ycc cfg))
    (h : ∀ ch ∈ sparseChannels s, (∀ p ∈ fqPrims cfg ch, Keeps I p) ∧ Keeps I (pack cfg ch)) (hs : I s) :
    (encodeAll cfg s).Ends I (fun t _ => I t) True := by
  refine upfront_ends (fun _ => upfront_ends (fun _ => ?_) (fun _ _ => hs) fun _ _ => trivial)
    (fun _ _ => hs) fun _ _ => trivial
  refine andThen_ends (Q := I) (runPrim_ends (fun t ht => hc s t hs ht) (fun _ _ => hs) fun _ _ => trivial)
    fun t ht => keeps_eachChannel (fun ch hch u hu => ?_) ht
  exact andThen_ends (keeps_fqTiles (h ch hch).1 hu) fun v hv =>
    runPrim_ends (fun w hw => (h ch hch).2 v w hv hw) (fun _ _ => hv) fun _ _ => trivial

theorem keeps_decodeAll (hc : Keeps I (ycc2rgb cfg))
    (h : ∀ ch ∈ sparseChannels s, (∀ p ∈ dqiPrims cfg ch, Keeps I p) ∧ Keeps I (unpack cfg ch)) (hs : I s) :
    (decodeAll cfg s).Ends I (fun t _ => I t) True := by
  refine upfront_ends (fun _ => ?_) (fun _ _ => hs) fun _ _ => trivial
  refine andThen_ends (Q := I) (andThen_ends (Q := I) ?_ fun t ht => ?_) fun t ht => ?_
  · exact keeps_eachChannel (fun ch hch u hu => runPrim_ends (fun w hw => (h ch hch).2 u w hu hw) (fun _ _ => hu)
      fun _ _ => trivial) hs
  · exact keeps_eachChannel (fun ch hch u hu => keeps_dqiTiles (h ch hch).1 hu) ht
  · exact runPrim_ends (fun w hw => hc t w ht hw) (fun _ _ => ht) fun _ _ => trivial

end Sys2Proof.Machine
end

