-- ==== Sys2Proof/Laws/Frame.lean ====
section
/-! SUPPORT. What each primitive leaves unchanged: buffer elements, control registers, and the rest of the state. -/

namespace Sys2Proof.Machine

/-! ## Elements -/

/-- Every element of a space that is not listed reads as before. -/
def ElementsKept (W : List Space) (s t : State) : Prop := ∀ sp, sp ∉ W → ∀ a, t.peek hw sp a = s.peek hw sp a

theorem ElementsKept.refl (W : List Space) (s : State) : ElementsKept W s s := fun _ _ _ => rfl

theorem ElementsKept.trans {W : List Space} {s t u : State} (h : ElementsKept W s t) (h' : ElementsKept W t u) :
    ElementsKept W s u := fun sp hsp a => (h' sp hsp a).trans (h sp hsp a)

theorem ElementsKept.mono {W V : List Space} {s t : State} (h : ElementsKept W s t) (hs : ∀ sp ∈ W, sp ∈ V) :
    ElementsKept V s t := fun sp hsp a => h sp (fun hm => hsp (hs sp hm)) a

/-- Elements depend on the buffers and the block registers only. -/
theorem peek_congr {s t : State} (hm : t.mem = s.mem) (hb : t.blk = s.blk) (hq : t.qblk = s.qblk) (sp : Space) (a : Nat) :
    t.peek hw sp a = s.peek hw sp a := by
  rcases sp with sp | sp | sp <;> cases sp <;>
    simp only [State.peek, State.readReal, State.readInt16, State.readInt32, hm, hb, hq]

theorem elementsKept_of_eq {W : List Space} {s t : State} (hm : t.mem = s.mem) (hb : t.blk = s.blk)
    (hq : t.qblk = s.qblk) : ElementsKept W s t := fun sp _ a => peek_congr hm hb hq sp a

theorem elementsKept_blk (s : State) (b : Block F64) : ElementsKept [.real .blk] s { s with blk := b } := by
  intro sp hsp a
  rcases sp with sp | sp | sp <;> cases sp <;> first | rfl | simp at hsp

theorem elementsKept_qblk (s : State) (b : Block I16) : ElementsKept [.int16 .qblk] s { s with qblk := b } := by
  intro sp hsp a
  rcases sp with sp | sp | sp <;> cases sp <;> first | rfl | simp at hsp

theorem elementsKept_putPln (s : State) (ch : Channel) (l : List (Nat × F64)) :
    ElementsKept [.real (.pln ch)] s (s.putPln ch l) := by
  intro sp hsp a
  rcases sp with sp | sp | sp <;> cases sp <;> try rfl
  rename_i ch'
  have : ch' ≠ ch := by rintro rfl; simp at hsp
  simp [State.peek, State.readReal, State.putPln, this]

theorem elementsKept_putQpl (s : State) (ch : Channel) (l : List (Nat × I16)) :
    ElementsKept [.int16 (.qpl ch)] s (s.putQpl ch l) := by
  intro sp hsp a
  rcases sp with sp | sp | sp <;> cases sp <;> try rfl
  rename_i ch'
  have : ch' ≠ ch := by rintro rfl; simp at hsp
  simp [State.peek, State.readInt16, State.putQpl, this]

theorem elementsKept_putOpix (s : State) (l : List (Nat × F64)) : ElementsKept [.real .opix] s (s.putOpix l) := by
  intro sp hsp a
  rcases sp with sp | sp | sp <;> cases sp <;> first | rfl | simp at hsp

theorem elementsKept_storeCsr (s : State) (ch : Channel) (rows : List (List I16)) :
    ElementsKept [.int16 (.val ch), .int32 (.coli ch), .int32 (.rptr ch)] s (storeCsr s ch rows) := by
  intro sp hsp a
  rcases sp with sp | sp | sp <;> cases sp <;> try rfl
  all_goals
    rename_i ch'
    have : ch' ≠ ch := by rintro rfl; simp at hsp
    simp [State.peek, State.readInt16, State.readInt32, storeCsr, this]

/-! ## Registers -/

/-- Every control register that is not listed reads as before; so do the pending word, the agenda and the replies. -/
def RegistersKept (R : List Reg) (s t : State) : Prop :=
  (∀ r, r ∉ R → r ≠ .status → readReg t r.offset = readReg s r.offset) ∧
    t.pend = s.pend ∧ t.agenda = s.agenda ∧ t.replies = s.replies

theorem RegistersKept.refl (R : List Reg) (s : State) : RegistersKept R s s := ⟨fun _ _ _ => rfl, rfl, rfl, rfl⟩

theorem RegistersKept.trans {R : List Reg} {s t u : State} (h : RegistersKept R s t) (h' : RegistersKept R t u) :
    RegistersKept R s u :=
  ⟨fun r hr hs => (h'.1 r hr hs).trans (h.1 r hr hs), h'.2.1.trans h.2.1, h'.2.2.1.trans h.2.2.1,
    h'.2.2.2.trans h.2.2.2⟩

theorem RegistersKept.mono {R Q : List Reg} {s t : State} (h : RegistersKept R s t) (hs : ∀ r ∈ R, r ∈ Q) :
    RegistersKept Q s t := ⟨fun r hr => h.1 r fun hm => hr (hs r hm), h.2⟩

theorem registersKept_blk (s : State) (b : Block F64) : RegistersKept [] s { s with blk := b } :=
  ⟨fun r _ _ => by rcases r with _ | _ | _ | _ | _ | _ | _ | _ | _ | _ | _ | _ | _ | _ | ch | ch | ch <;> rfl, rfl, rfl, rfl⟩

theorem registersKept_qblk (s : State) (b : Block I16) : RegistersKept [] s { s with qblk := b } :=
  ⟨fun r _ _ => by rcases r with _ | _ | _ | _ | _ | _ | _ | _ | _ | _ | _ | _ | _ | _ | ch | ch | ch <;> rfl, rfl, rfl, rfl⟩

theorem registersKept_mem (s : State) (m : Memory) : RegistersKept [] s { s with mem := m } :=
  ⟨fun r _ _ => by rcases r with _ | _ | _ | _ | _ | _ | _ | _ | _ | _ | _ | _ | _ | _ | ch | ch | ch <;> rfl, rfl, rfl, rfl⟩

theorem registersKept_status (s : State) (st : Status) : RegistersKept [] s { s with status := st } :=
  ⟨fun r _ hs => by rcases r with _ | _ | _ | _ | _ | _ | _ | _ | _ | _ | _ | _ | _ | _ | ch | ch | ch <;>
    first | rfl | exact absurd rfl hs | (cases ch <;> rfl), rfl, rfl, rfl⟩

theorem registersKept_tile (s : State) (r c : Word32) (st : Status) :
    RegistersKept [.tileR, .tileC] s { s with tileR := r, tileC := c, status := st } :=
  ⟨fun r hr hs => by rcases r with _ | _ | _ | _ | _ | _ | _ | _ | _ | _ | _ | _ | _ | _ | ch | ch | ch <;>
    first | rfl | exact absurd rfl hs | (cases ch <;> rfl) | simp at hr, rfl, rfl, rfl⟩

theorem registersKept_shape (s : State) (r c : Word32) (m : Memory) :
    RegistersKept [.rows, .cols] s { s with rows := r, cols := c, mem := m } :=
  ⟨fun r hr hs => by rcases r with _ | _ | _ | _ | _ | _ | _ | _ | _ | _ | _ | _ | _ | _ | ch | ch | ch <;>
    first | rfl | (cases ch <;> rfl) | simp at hr, rfl, rfl, rfl⟩

theorem registersKept_storeCsr (s : State) (ch : Channel) (rows : List (List I16)) :
    RegistersKept [.vallen ch, .collen ch, .rptrlen ch] s (storeCsr s ch rows) :=
  ⟨fun r hr hs => by
    rcases r with _ | _ | _ | _ | _ | _ | _ | _ | _ | _ | _ | _ | _ | _ | c | c | c <;>
      first
        | rfl
        | (cases c <;> cases ch <;> first | rfl | simp at hr), rfl, rfl, rfl⟩

/-- What `finish` adds to a completed command. -/
theorem registersKept_complete (s : State) : RegistersKept [] s s.complete := registersKept_status s _

theorem elementsKept_complete (W : List Space) (s : State) : ElementsKept W s s.complete :=
  elementsKept_of_eq rfl rfl rfl

theorem registersKept_takeFault (f : Raised) (s : State) :
    RegistersKept [.errcode, .errinfo] s (takeFault f s) :=
  ⟨fun r hr hs => by rcases r with _ | _ | _ | _ | _ | _ | _ | _ | _ | _ | _ | _ | _ | _ | ch | ch | ch <;>
    first | rfl | exact absurd rfl hs | (cases ch <;> rfl) | simp at hr, rfl, rfl, rfl⟩

theorem elementsKept_takeFault (W : List Space) (f : Raised) (s : State) : ElementsKept W s (takeFault f s) :=
  elementsKept_of_eq rfl rfl rfl

theorem registersKept_clearFault (s : State) : RegistersKept [.errcode, .errinfo] s (clearFault s) :=
  ⟨fun r hr hs => by rcases r with _ | _ | _ | _ | _ | _ | _ | _ | _ | _ | _ | _ | _ | _ | ch | ch | ch <;>
    first | rfl | exact absurd rfl hs | (cases ch <;> rfl) | simp at hr, rfl, rfl, rfl⟩

/-! ## The primitives -/

variable {cfg : Config} {s t : State} {ch : Channel}

/-- A primitive that completes writes only the listed spaces and registers, and of `STATUS` only `LAST`. -/
def Frame (W : List Space) (R : List Reg) (p : Prim) : Prop :=
  ∀ s t, p s = .ok t → ElementsKept W s t ∧ RegistersKept R s t ∧
    { t.status with last := s.status.last } = s.status ∧ t.errcode = s.errcode ∧ t.errinfo = s.errinfo

theorem frame_rgb2ycc : Frame [.real (.pln .y), .real (.pln .cb), .real (.pln .cr)] [.rows, .cols] (rgb2ycc cfg) := by
  intro s t h
  obtain ⟨-, px, -, rfl⟩ := rgb2ycc_ok_iff.1 h
  refine ⟨?_, registersKept_shape s _ _ _, rfl, rfl, rfl⟩
  refine ElementsKept.trans (t := cropShape s) (elementsKept_of_eq rfl rfl rfl) ?_
  exact ((elementsKept_putPln _ _ _).mono (by simp)).trans
    (((elementsKept_putPln _ _ _).mono (by simp)).trans ((elementsKept_putPln _ _ _).mono (by simp)))

theorem frame_ycc2rgb : Frame [.real .opix] [] (ycc2rgb cfg) := by
  intro s t h
  obtain ⟨-, px, -, rfl⟩ := ycc2rgb_ok_iff.1 h
  exact ⟨elementsKept_putOpix s _, registersKept_mem s _, rfl, rfl, rfl⟩

theorem frame_fdct8 : Frame [.real .blk] [] (fdct8 cfg) := by
  intro s t h
  obtain rfl := fdct8_ok_iff.1 h
  exact ⟨elementsKept_blk s _, registersKept_blk s _, rfl, rfl, rfl⟩

theorem frame_idct8 : Frame [.real .blk] [] (idct8 cfg) := by
  intro s t h
  obtain rfl := idct8_ok_iff.1 h
  exact ⟨elementsKept_blk s _, registersKept_blk s _, rfl, rfl, rfl⟩

theorem frame_quant : Frame [.int16 .qblk] [] (quant cfg) := by
  intro s t h
  obtain ⟨-, q, -, rfl⟩ := quant_ok_iff.1 h
  exact ⟨elementsKept_qblk s _, registersKept_qblk s _, rfl, rfl, rfl⟩

theorem frame_dequant : Frame [.real .blk] [] (dequant cfg) := by
  intro s t h
  obtain rfl := dequant_ok_iff.1 h
  exact ⟨elementsKept_blk s _, registersKept_blk s _, rfl, rfl, rfl⟩

theorem frame_pack :
    Frame [.int16 (.val ch), .int32 (.coli ch), .int32 (.rptr ch)] [.vallen ch, .collen ch, .rptrlen ch]
      (pack cfg ch) := by
  intro s t h
  obtain ⟨-, rows, -, rfl⟩ := pack_ok_iff.1 h
  exact ⟨elementsKept_storeCsr s ch _, registersKept_storeCsr s ch _, rfl, rfl, rfl⟩

theorem frame_unpack : Frame [.int16 (.qpl ch)] [] (unpack cfg ch) := by
  intro s t h
  obtain ⟨-, -, rows, -, rfl⟩ := unpack_ok_iff.1 h
  exact ⟨elementsKept_putQpl s ch _, registersKept_mem s _, rfl, rfl, rfl⟩

theorem frame_ldblk : Frame [.real .blk] [] (ldblk cfg ch) := by
  intro s t h
  obtain ⟨-, b, -, rfl⟩ := ldblk_ok_iff.1 h
  exact ⟨elementsKept_blk s _, registersKept_blk s _, rfl, rfl, rfl⟩

theorem frame_stblk : Frame [.real (.pln ch)] [] (stblk cfg ch) := by
  intro s t h
  obtain ⟨-, rfl⟩ := stblk_ok_iff.1 h
  exact ⟨elementsKept_putPln s ch _, registersKept_mem s _, rfl, rfl, rfl⟩

theorem frame_ldqblk : Frame [.int16 .qblk] [] (ldqblk cfg ch) := by
  intro s t h
  obtain ⟨-, b, -, rfl⟩ := ldqblk_ok_iff.1 h
  exact ⟨elementsKept_qblk s _, registersKept_qblk s _, rfl, rfl, rfl⟩

theorem frame_stqblk : Frame [.int16 (.qpl ch)] [] (stqblk cfg ch) := by
  intro s t h
  obtain ⟨-, rfl⟩ := stqblk_ok_iff.1 h
  exact ⟨elementsKept_putQpl s ch _, registersKept_mem s _, rfl, rfl, rfl⟩

theorem frame_center : Frame [.real .blk] [] (center cfg) := by
  intro s t h
  obtain rfl := center_ok_iff.1 h
  exact ⟨elementsKept_blk s _, registersKept_blk s _, rfl, rfl, rfl⟩

theorem frame_uncenter : Frame [.real .blk] [] (uncenter cfg) := by
  intro s t h
  obtain rfl := uncenter_ok_iff.1 h
  exact ⟨elementsKept_blk s _, registersKept_blk s _, rfl, rfl, rfl⟩

theorem frame_trst : Frame [] [.tileR, .tileC] trst := by
  intro s t h
  obtain rfl := trst_ok_iff.1 h
  exact ⟨elementsKept_of_eq rfl rfl rfl, registersKept_tile s _ _ _, rfl, rfl, rfl⟩

/-- The three ways TNEXT moves the counter (R204), as one update. -/
theorem nextTile_eq (s : State) : ∃ r c b, nextTile s = { s with tileR := r, tileC := c, status := { s.status with last := b } } := by
  unfold nextTile
  split
  · exact ⟨s.tileR, _, _, rfl⟩
  · split <;> exact ⟨_, _, _, rfl⟩

theorem frame_tnext : Frame [] [.tileR, .tileC] (tnext cfg) := by
  intro s t h
  obtain ⟨-, rfl⟩ := tnext_ok_iff.1 h
  obtain ⟨r, c, b, he⟩ := nextTile_eq s
  rw [he]
  exact ⟨elementsKept_of_eq rfl rfl rfl, registersKept_tile s r c _, rfl, rfl, rfl⟩

theorem frame_nop : Frame [] [] nop := by
  intro s t h
  obtain rfl := nop_ok_iff.1 h
  exact ⟨.refl _ _, .refl _ _, rfl, rfl, rfl⟩

theorem Frame.mono {W V : List Space} {R Q : List Reg} {p : Prim} (h : Frame W R p) (hW : ∀ sp ∈ W, sp ∈ V)
    (hR : ∀ r ∈ R, r ∈ Q) : Frame V Q p := fun s t ht =>
  ⟨(h s t ht).1.mono hW, (h s t ht).2.1.mono hR, (h s t ht).2.2⟩

/-- The frame of a sequence of primitives, as an invariant. -/
def Since (W : List Space) (R : List Reg) (s t : State) : Prop :=
  ElementsKept W s t ∧ RegistersKept R s t ∧
    { t.status with last := s.status.last } = s.status ∧ t.errcode = s.errcode ∧ t.errinfo = s.errinfo

theorem Since.refl (W : List Space) (R : List Reg) (s : State) : Since W R s s :=
  ⟨.refl _ _, .refl _ _, rfl, rfl, rfl⟩

theorem Frame.keeps {W : List Space} {R : List Reg} {p : Prim} (h : Frame W R p) (s : State) : Keeps (Since W R s) p := by
  rintro t u ⟨h1, h2, h3, h4, h5⟩ hu
  obtain ⟨g1, g2, g3, g4, g5⟩ := h t u hu
  refine ⟨h1.trans g1, h2.trans g2, ?_, g4.trans h4, g5.trans h5⟩
  rw [← h3, ← g3]

/-! ## The composites: what stands between the upfront checks and the end (R210) -/

theorem frame_fqPrims {W R} {cfg ch} (hW : ∀ sp ∈ [Space.real .blk, .int16 .qblk, .int16 (.qpl ch)], sp ∈ W) (hR : ∀ r ∈ [Reg.tileR, .tileC], r ∈ R) :
   ∀ p ∈ fqPrims cfg ch, Frame W R p := by
  intro p hp
  simp only [List.mem_cons, List.not_mem_nil, or_false, forall_eq_or_imp, forall_eq] at hW hR
  simp only [fqPrims, List.mem_cons, List.not_mem_nil, or_false] at hp
  rcases hp with rfl | rfl | rfl | rfl | rfl | rfl | rfl
  · exact frame_trst.mono (by simp) (by simp; tauto)
  · exact frame_ldblk.mono (by simp; tauto) (by simp)
  · exact frame_center.mono (by simp; tauto) (by simp)
  · exact frame_fdct8.mono (by simp; tauto) (by simp)
  · exact frame_quant.mono (by simp; tauto) (by simp)
  · exact frame_stqblk.mono (by simp; tauto) (by simp)
  · exact frame_tnext.mono (by simp) (by simp; tauto)

theorem frame_dqiPrims {W R} {cfg ch} (hW : ∀ sp ∈ [Space.real .blk, .int16 .qblk, .real (.pln ch)], sp ∈ W) (hR : ∀ r ∈ [Reg.tileR, .tileC], r ∈ R) :
   ∀ p ∈ dqiPrims cfg ch, Frame W R p := by
  intro p hp
  simp only [List.mem_cons, List.not_mem_nil, or_false, forall_eq_or_imp, forall_eq] at hW hR
  simp only [dqiPrims, List.mem_cons, List.not_mem_nil, or_false] at hp
  rcases hp with rfl | rfl | rfl | rfl | rfl | rfl | rfl
  · exact frame_trst.mono (by simp) (by simp; tauto)
  · exact frame_ldqblk.mono (by simp; tauto) (by simp)
  · exact frame_dequant.mono (by simp; tauto) (by simp)
  · exact frame_idct8.mono (by simp; tauto) (by simp)
  · exact frame_uncenter.mono (by simp; tauto) (by simp)
  · exact frame_stblk.mono (by simp; tauto) (by simp)
  · exact frame_tnext.mono (by simp) (by simp; tauto)

theorem encodeAll_since (cfg : Config) (s : State) : (encodeAll cfg s).Ends (Since (writesOf s .encode) (regsOf s .encode) s) (fun t _ => Since (writesOf s .encode) (regsOf s .encode) s t) True := by
  refine keeps_encodeAll ?_ ?_ (.refl _ _ _)
  · exact (frame_rgb2ycc.mono (by simp [writesOf]) (by simp [regsOf])).keeps s
  · intro ch hch
    refine ⟨fun p hp => (frame_fqPrims ?_ ?_ p hp).keeps s, (frame_pack.mono ?_ ?_).keeps s⟩
    · simp [writesOf]; exact hch
    · simp [regsOf]
    · simp [writesOf]; exact hch
    · simp [regsOf]; exact hch

theorem decodeAll_since (cfg : Config) (s : State) : (decodeAll cfg s).Ends (Since (writesOf s .decode) (regsOf s .decode) s) (fun t _ => Since (writesOf s .decode) (regsOf s .decode) s t) True := by
  refine keeps_decodeAll ?_ ?_ (.refl _ _ _)
  · exact (frame_ycc2rgb.mono (by simp [writesOf]) (by simp [regsOf])).keeps s
  · intro ch hch
    refine ⟨fun p hp => (frame_dqiPrims ?_ ?_ p hp).keeps s, (frame_unpack.mono ?_ ?_).keeps s⟩
    · simp [writesOf]; exact hch
    · simp [regsOf]
    · simp [writesOf]; exact hch
    · simp [regsOf]

theorem fqplane_since (cfg : Config) (ch) (s : State) : (fqplane cfg ch s).Ends (Since (writesOf s (.fqplane ch)) (regsOf s (.fqplane ch)) s) (fun t _ => Since (writesOf s (.fqplane ch)) (regsOf s (.fqplane ch)) s t) True := by
  refine keeps_fqplane (fun p hp => (frame_fqPrims ?_ ?_ p hp).keeps s) (.refl _ _ _) <;> simp [writesOf, regsOf]

theorem dqiplane_since (cfg : Config) (ch) (s : State) : (dqiplane cfg ch s).Ends (Since (writesOf s (.dqiplane ch)) (regsOf s (.dqiplane ch)) s) (fun t _ => Since (writesOf s (.dqiplane ch)) (regsOf s (.dqiplane ch)) s t) True := by
  refine keeps_dqiplane (fun p hp => (frame_dqiPrims ?_ ?_ p hp).keeps s) (.refl _ _ _) <;> simp [writesOf, regsOf]

end Sys2Proof.Machine
end

