-- ==== Sys2Proof/Laws/Loop.lean ====
section
/-! SUPPORT. The tile loop: where the counter stands after each round, and that the loop ends after the last tile (R204, R205). -/

namespace Sys2Proof.Machine

/-! ## Shapes as counts -/

theorem toInt_eq_of_pos {w : Word32} (h : 0 ≤ w.toInt) : ((w.toInt.toNat : Nat) : Int) = w.toInt := Int.toNat_of_nonneg h

/-- A legal tiling as counts: both shapes are whole numbers of tiles, at least one. -/
theorem LegalTiling.counts {cfg : Config} {s : State} (h : LegalTiling cfg s) :
    0 < s.tileRows ∧ 0 < s.tileCols ∧ s.nRows = 8 * s.tileRows ∧ s.nCols = 8 * s.tileCols ∧
      s.rows.toInt = 8 * (s.tileRows : Int) ∧ s.cols.toInt = 8 * (s.tileCols : Int) := by
  obtain ⟨⟨h1, -, h3, -⟩, h5, h6⟩ := h
  unfold State.tileRows State.tileCols State.nRows State.nCols
  omega

/-- The tile counter stands at the `k`-th tile of the row-major order. -/
def AtTile (s : State) (k : Nat) : Prop :=
  k < s.tiles ∧ s.tileR.toInt = ((k / s.tileCols : Nat) : Int) ∧ s.tileC.toInt = ((k % s.tileCols : Nat) : Int)

/-- The tile counter after the round of the tile before the `k`-th: at the `k`-th, or wrapped with `LAST` set. -/
def AfterRound (s : State) (k : Nat) : Prop :=
  if k < s.tiles then AtTile s k ∧ s.status.last = false
  else s.tileR = 0#32 ∧ s.tileC = 0#32 ∧ s.status.last = true

theorem div_lt_of_lt_tiles {k tr tc : Nat} (h : k < tr * tc) : k / tc < tr ∧ k % tc < tc := by
  have htc : 0 < tc := Nat.pos_of_ne_zero (by rintro rfl; simp at h)
  exact ⟨Nat.div_lt_of_lt_mul (by rwa [Nat.mul_comm] at h), Nat.mod_lt _ htc⟩

/-- A counter at a tile of a legal tiling passes the tile check. -/
theorem AtTile.legal {cfg : Config} {s : State} {k : Nat} (h : AtTile s k) (hs : LegalTiling cfg s) : LegalTile cfg s := by
  obtain ⟨hk, hr, hc⟩ := h
  obtain ⟨-, -, -, -, h5, h6⟩ := hs.counts
  obtain ⟨h7, h8⟩ := div_lt_of_lt_tiles hk
  generalize k / s.tileCols = a at hr h7
  generalize k % s.tileCols = b at hc h8
  refine ⟨hs, ?_, ?_, ?_, ?_⟩ <;> omega

theorem AtTile.nTile {s : State} {k : Nat} (h : AtTile s k) : s.nTileR = k / s.tileCols ∧ s.nTileC = k % s.tileCols := by
  obtain ⟨-, hr, hc⟩ := h
  unfold State.nTileR State.nTileC
  rw [hr, hc]
  exact ⟨Int.toNat_natCast _, Int.toNat_natCast _⟩

theorem toInt_add_one {w : Word32} {n : Nat} (h : w.toInt = (n : Int)) (hn : n < 2 ^ 30) :
    (w + 1#32).toInt = ((n + 1 : Nat) : Int) := by
  rw [BitVec.toInt_add, h]
  have : (1#32 : BitVec 32).toInt = 1 := rfl
  rw [this, Int.bmod_eq_of_le (by omega) (by omega)]
  push_cast; ring

theorem mod_add_one_lt {k c : Nat} (h : k % c + 1 < c) : (k + 1) / c = k / c ∧ (k + 1) % c = k % c + 1 := by
  have hc : 0 < c := by omega
  have e : k + 1 = c * (k / c) + (k % c + 1) := by have := Nat.div_add_mod k c; omega
  constructor
  · rw [e, Nat.mul_add_div hc, Nat.div_eq_of_lt h, Nat.add_zero]
  · rw [e, Nat.mul_add_mod, Nat.mod_eq_of_lt h]

theorem mod_add_one_eq {k c : Nat} (hc : 0 < c) (h : k % c + 1 = c) : (k + 1) / c = k / c + 1 ∧ (k + 1) % c = 0 := by
  have e : k + 1 = c * (k / c + 1) := by have := Nat.div_add_mod k c; rw [Nat.mul_add]; omega
  constructor
  · rw [e, Nat.mul_div_cancel_left _ hc]
  · rw [e, Nat.mul_mod_right]

/-- TNEXT from the `k`-th tile (R204, R205). -/
theorem AtTile.next {cfg : Config} {s : State} {k : Nat} (h : AtTile s k) (hs : LegalTiling cfg s)
    (hcap : cfg.maxH ≤ 2 ^ 30 ∧ cfg.maxW ≤ 2 ^ 30) :
    AfterRound (nextTile s) (k + 1) := by
  obtain ⟨hk, hr, hc⟩ := h
  obtain ⟨htr, htc, -, -, h5, h6⟩ := hs.counts
  obtain ⟨h7, h8⟩ := div_lt_of_lt_tiles hk
  have hrb : s.rows.toInt ≤ cfg.maxH := hs.1.2.1
  have hcb : s.cols.toInt ≤ cfg.maxW := hs.1.2.2.2
  have hdm := Nat.div_add_mod k s.tileCols
  unfold nextTile
  split
  · next h1 =>
    have h1' : k % s.tileCols + 1 < s.tileCols := by omega
    obtain ⟨e1, e2⟩ := mod_add_one_lt h1'
    have hlt : k + 1 < s.tiles := by
      have : s.tileCols * (k / s.tileCols) + s.tileCols ≤ s.tiles := by
        rw [State.tiles, Nat.mul_comm s.tileRows, ← Nat.mul_succ]
        exact Nat.mul_le_mul_left _ h7
      omega
    refine (if_pos (show k + 1 < _ from hlt)).mpr ⟨⟨hlt, ?_, ?_⟩, rfl⟩
    · show s.tileR.toInt = _
      rw [hr]; exact congrArg _ e1.symm
    · show (s.tileC + 1#32).toInt = _
      rw [toInt_add_one hc (by omega)]; exact congrArg _ e2.symm
  · next h1 =>
    have h1' : k % s.tileCols + 1 = s.tileCols := by omega
    obtain ⟨e1, e2⟩ := mod_add_one_eq htc h1'
    split
    · next h2 =>
      have hlt : k + 1 < s.tiles := by
        have : s.tileCols * (k / s.tileCols + 1) < s.tiles := by
          rw [State.tiles, Nat.mul_comm s.tileRows]
          exact Nat.mul_lt_mul_of_pos_left (by omega) htc
        rw [Nat.mul_add] at this
        omega
      refine (if_pos (show k + 1 < _ from hlt)).mpr ⟨⟨hlt, ?_, ?_⟩, rfl⟩
      · show (s.tileR + 1#32).toInt = _
        rw [toInt_add_one hr (by omega)]; exact congrArg _ e1.symm
      · exact congrArg (fun n : Nat => (n : Int)) e2.symm
    · next h2 =>
      have hge : ¬ k + 1 < s.tiles := by
        have : s.tileCols * (k / s.tileCols + 1) = s.tiles := by
          rw [State.tiles, Nat.mul_comm s.tileRows]
          congr 1
          omega
        rw [Nat.mul_add] at this
        omega
      exact (if_neg (show ¬ k + 1 < _ from hge)).mpr ⟨rfl, rfl, rfl⟩

/-- The counter after TRST (R203). -/
theorem trst_atTile {cfg : Config} {s : State} (hs : LegalTiling cfg s) :
    AtTile (({ s with tileR := 0#32, tileC := 0#32 } : State).setLast false) 0 := by
  obtain ⟨htr, htc, -⟩ := hs.counts
  refine ⟨Nat.mul_pos htr htc, ?_, ?_⟩
  · show (0#32 : Word32).toInt = _; simp
  · show (0#32 : Word32).toInt = _; simp

/-- The tile loop over a legal tiling: `J k` holds when the tiles before the `k`-th are done. -/
theorem untilLast_tiles {body : State → Progress} {J : Nat → State → Prop} {F : State → Raised → Prop} {G : Prop}
    {tiles : Nat} (hJ : ∀ k s, J k s → s.tiles = tiles)
    (hb : ∀ k s, J k s → AtTile s k → (body s).Ends (fun t => J (k + 1) t ∧ AfterRound t (k + 1)) F G) {s : State}
    (h0 : J 0 s) (hat : AtTile s 0) :
    (untilLast body tiles s).Ends (fun t => J tiles t ∧ t.tileR = 0#32 ∧ t.tileC = 0#32 ∧ t.status.last = true) F G := by
  refine untilLast_ends (I := fun n s => ∃ k, n + k = tiles ∧ J k s ∧ AtTile s k) ?_ ?_ tiles s ⟨0, by omega, h0, hat⟩
  · rintro t ⟨k, hk, hJk, hat⟩
    have := hat.1
    rw [hJ _ _ hJk] at this
    omega
  · rintro n t ⟨k, hk, hJk, hat⟩
    refine Progress.ends_of_imp (hb k t hJk hat) (fun u ⟨hJu, hu⟩ => ?_) fun _ _ h => h
    unfold AfterRound at hu
    rw [hJ _ _ hJu] at hu
    split at hu
    · next hlt =>
      rw [if_neg (by rw [hu.2]; simp)]
      exact ⟨k + 1, by omega, hJu, hu.1⟩
    · next hlt =>
      rw [if_pos hu.2.2]
      have : k + 1 = tiles := by omega
      rw [← this]
      exact ⟨hJu, hu⟩

end Sys2Proof.Machine
end

