-- ==== Sys2Proof/Laws/Codec.lean ====
section
/-! SUPPORT. One round of each tile loop as one update of the state, and the quantizer of a block (R152, R211, R213). -/

namespace Sys2Proof.Machine

variable {s t : State} {ch : Channel}

/-! ## The quantizer of a block -/

theorem roundQuotient_ok_iff {i j : Fin 8} {d : F64} {n : Int} :
    roundQuotient hw.arith (hw.qtable.at i j).toInt s.rmode i j d = .ok n ↔
      QuotientFits s d i j ∧ n = rounded s d i j := by
  have hq : hw.arith.div d (hw.arith.ofInt (hw.qtable.at i j).toInt) = quotient d i j := rfl
  have hn : (if s.rmode = true then hw.arith.toIntTRUNC (quotient d i j) else hw.arith.toIntHAZ (quotient d i j)) =
      rounded s d i j := rfl
  unfold roundQuotient QuotientFits
  simp only [hq, hn, bind, check_ok_iff, raiseIf_ok_iff, Bool.or_eq_false_iff, decide_eq_false_iff_not, not_lt,
    ok_eq_ok_iff, Bool.not_eq_false']
  constructor
  · rintro ⟨h1, ⟨h2, h3⟩, rfl⟩; exact ⟨⟨h1, h2, h3⟩, rfl⟩
  · rintro ⟨⟨h1, h2, h3⟩, rfl⟩; exact ⟨h1, ⟨h2, h3⟩, rfl⟩

/-- What the quantizer raises at a position (R152, R157): not finite before out of range. -/
theorem roundQuotient_fault_iff {i j : Fin 8} {d : F64} {e : Stop} :
    roundQuotient hw.arith (hw.qtable.at i j).toInt s.rmode i j d = .error e ↔
      (f64Finite (quotient d i j) = false ∧ e = .fault ⟨.quotientNotFinite, BitVec.ofNat 32 (blkIdx i j)⟩) ∨
      (f64Finite (quotient d i j) = true ∧ (rounded s d i j < -32768 ∨ 32767 < rounded s d i j) ∧
        e = .fault ⟨.quotientRange, BitVec.ofNat 32 (blkIdx i j)⟩) := by
  have hq : hw.arith.div d (hw.arith.ofInt (hw.qtable.at i j).toInt) = quotient d i j := rfl
  have hn : (if s.rmode = true then hw.arith.toIntTRUNC (quotient d i j) else hw.arith.toIntHAZ (quotient d i j)) =
      rounded s d i j := rfl
  have hf : hw.arith.finite = f64Finite := rfl
  unfold roundQuotient
  simp only [hq, hn, hf, bind, check_error_iff, raiseIf_error_iff, raiseIf_ok_iff, Bool.or_eq_true, decide_eq_true_eq,
    Bool.not_eq_true', Bool.not_eq_false', reduceCtorEq, and_false, or_false]

/-- The quantizer of a block succeeds exactly when every quotient fits, with the block of R152. -/
theorem quantOf_ok_iff {b : Block F64} {q : Block I16} :
    quantOf hw s b = .ok q ↔ BlockFits s b ∧ q = quantized s b := by
  unfold quantOf quantBlock
  rw [blockM_ok_iff]
  have key : ∀ i j, quantAt hw.arith (hw.qtable.at i j).toInt s.threshold.toInt s.bandCutoff.toInt s.rmode i j (b.at i j) =
      .ok (q.at i j) ↔ QuotientFits s (b.at i j) i j ∧ q.at i j = (quantized s b).at i j := by
    intro i j
    unfold quantAt
    simp only [bind, bind_ok_iff, roundQuotient_ok_iff, ok_eq_ok_iff]
    have e : ∀ n, BitVec.ofInt 16 (bandCut s.bandCutoff.toInt i j (suppress s.threshold.toInt n)) =
        BitVec.ofInt 16 (if s.bandCutoff.toInt ≤ (i.val : Int) ∨ s.bandCutoff.toInt ≤ (j.val : Int) then 0
          else if (n.natAbs : Int) < s.threshold.toInt then 0 else n) := fun n => rfl
    have g : (quantized s b).at i j = BitVec.ofInt 16 (bandCut s.bandCutoff.toInt i j
        (suppress s.threshold.toInt (rounded s (b.at i j) i j))) := by
      rw [e]; simp [quantized]
    rw [g]
    constructor
    · rintro ⟨n, ⟨h1, rfl⟩, h2⟩; exact ⟨h1, h2⟩
    · rintro ⟨h1, h2⟩; exact ⟨_, ⟨h1, rfl⟩, h2⟩
  simp only [key]
  constructor
  · intro h
    exact ⟨fun i j => (h i j).1, Block.ext_at fun i j => (h i j).2⟩
  · rintro ⟨h1, rfl⟩ i j
    exact ⟨h1 i j, rfl⟩

/-- The quantizer of a block raises a range fault exactly when some quotient does not fit. -/
theorem quantOf_error {b : Block F64} (h : ¬BlockFits s b) :
    ∃ f : Raised, quantOf hw s b = .error (.fault f) ∧ f.cause ∈ [Cause.quotientRange, .quotientNotFinite] := by
  rcases hq : quantOf hw s b with e | q
  · rcases e with f | r
    · exact ⟨f, rfl, only_quantOf f hq⟩
    · exfalso
      unfold quantOf quantBlock at hq
      obtain ⟨i, j, hij, -⟩ := blockM_error_iff.1 hq
      unfold quantAt at hij
      simp only [bind, bind_error_iff, roundQuotient_fault_iff, reduceCtorEq, and_false, or_false, exists_false] at hij
  · exact absurd (quantOf_ok_iff.1 hq).1 h

/-! ## Reading a tile -/

/-- A tile of a written plane loads as the block of its elements. -/
theorem tileOf_written {tr tc : Nat}
    (h : ∀ i j : Fin 8, (Buf.read (s.mem.pln.get ch) (tileIdx s.nCols tr tc i j)).isSome) :
    tileOf s ch tr tc = .ok (blockAt (s.mem.pln.get ch) s.nCols tr tc) := by
  rw [tileOf_ok_iff]
  intro i j
  obtain ⟨v, hv⟩ := Option.isSome_iff_exists.1 (h i j)
  simp [blockAt, hv]

theorem qtileOf_written {tr tc : Nat}
    (h : ∀ i j : Fin 8, (Buf.read (s.mem.qpl.get ch) (tileIdx s.nCols tr tc i j)).isSome) :
    qtileOf s ch tr tc = .ok (qblockAt (s.mem.qpl.get ch) s.nCols tr tc) := by
  rw [qtileOf_ok_iff]
  intro i j
  obtain ⟨v, hv⟩ := Option.isSome_iff_exists.1 (h i j)
  simp [qblockAt, hv]

/-- Every index of a tile inside the grid is below the size of the plane (R191). -/
theorem tileIdx_lt {rows cols tr tc : Nat} (hr : 8 * tr + 8 ≤ rows) (hc : 8 * tc + 8 ≤ cols) (i j : Fin 8) :
    tileIdx cols tr tc i j < rows * cols := by
  unfold tileIdx
  have h1 : (8 * tr + i.val) * cols + cols ≤ rows * cols := by
    rw [← Nat.succ_mul]
    exact Nat.mul_le_mul_right _ (by have := i.isLt; omega)
  have := j.isLt
  omega

theorem LegalTile.fits {cfg : Config} (h : LegalTile cfg s) :
    8 * s.nTileR + 8 ≤ s.nRows ∧ 8 * s.nTileC + 8 ≤ s.nCols := by
  obtain ⟨⟨⟨h1, -, h3, -⟩, h5, h6⟩, h7, h8, h9, h10⟩ := h
  unfold State.nTileR State.nTileC State.nRows State.nCols
  omega

/-! ## One round -/

/-- The state after the work of one round of FQPLANE and before its TNEXT. -/
def fqWork (s : State) (ch : Channel) (c : Block F64) (q : Block I16) : State :=
  ({ s with blk := c, qblk := q } : State).putQpl ch (tileWrites s.nCols s.nTileR s.nTileC q)

/-- The coefficient block of the current tile. -/
def coefficients (s : State) (ch : Channel) : Block F64 :=
  forwardTile ch (blockAt (s.mem.pln.get ch) s.nCols s.nTileR s.nTileC)

/-- One round of FQPLANE on a tile whose quotients fit (R211). -/
theorem fqBody_ok (ht : LegalTile hw s) (hp : LegalParams s)
    (hw' : ∀ i j : Fin 8, (Buf.read (s.mem.pln.get ch) (tileIdx s.nCols s.nTileR s.nTileC i j)).isSome)
    (hf : BlockFits s (coefficients s ch)) :
    fqBody hw ch s = .ok (nextTile (fqWork s ch (coefficients s ch) (quantized s (coefficients s ch)))) := by
  have h1 : ldblk hw ch s = .ok { s with blk := blockAt (s.mem.pln.get ch) s.nCols s.nTileR s.nTileC } :=
    ldblk_ok_iff.2 ⟨ht, _, tileOf_written hw', rfl⟩
  have h2 : ∀ b : Block F64, BlockFits s b → quant hw { s with blk := b } =
      .ok { s with blk := b, qblk := quantized s b } := fun b hb =>
    quant_ok_iff.2 ⟨hp, _, quantOf_ok_iff.2 ⟨hb, rfl⟩, rfl⟩
  have h3 : ∀ b q, stqblk hw ch { s with blk := b, qblk := q } = .ok (fqWork s ch b q) := fun b q =>
    stqblk_ok_iff.2 ⟨ht, rfl⟩
  have h4 : ∀ b q, tnext hw (fqWork s ch b q) = .ok (nextTile (fqWork s ch b q)) := fun b q =>
    tnext_ok_iff.2 ⟨ht, rfl⟩
  unfold fqBody
  cases ch <;>
    simp only [lumaOnly, List.cons_append, List.nil_append, sequence_cons, runPrim, h1,
      Progress.ok_andThen, center, fdct8, coefficients, forwardTile] <;>
    [rw [show fdct hw.arith (centerBlock hw.arith (blockAt (s.mem.pln.get .y) s.nCols s.nTileR s.nTileC)) =
        coefficients s .y from rfl];
     rw [show fdct hw.arith (blockAt (s.mem.pln.get .cb) s.nCols s.nTileR s.nTileC) = coefficients s .cb from rfl];
     rw [show fdct hw.arith (blockAt (s.mem.pln.get .cr) s.nCols s.nTileR s.nTileC) = coefficients s .cr from rfl]] <;>
    simp only [h2 _ hf, sequence_cons, sequence_nil, runPrim, h3, h4, Progress.ok_andThen] <;> rfl

/-- One round of FQPLANE on a tile with a quotient that does not fit (R157, R210 c). -/
theorem fqBody_raised (ht : LegalTile hw s) (hp : LegalParams s)
    (hw' : ∀ i j : Fin 8, (Buf.read (s.mem.pln.get ch) (tileIdx s.nCols s.nTileR s.nTileC i j)).isSome)
    (hf : ¬BlockFits s (coefficients s ch)) :
    ∃ f : Raised, fqBody hw ch s = .raised { s with blk := coefficients s ch } f ∧
      f.cause ∈ [Cause.quotientRange, .quotientNotFinite] := by
  have h1 : ldblk hw ch s = .ok { s with blk := blockAt (s.mem.pln.get ch) s.nCols s.nTileR s.nTileC } :=
    ldblk_ok_iff.2 ⟨ht, _, tileOf_written hw', rfl⟩
  obtain ⟨f, hq, hc⟩ := quantOf_error hf
  have h2 : quant hw { s with blk := coefficients s ch } = .error (.fault f) := by
    unfold quant
    rw [show qparam { s with blk := coefficients s ch } = .ok () from qparam_ok_iff.2 hp]
    show Except.bind _ _ = _
    exact bind_error_iff.2 (.inr ⟨(), rfl, bind_error_iff.2 (.inl hq)⟩)
  refine ⟨f, ?_, hc⟩
  unfold fqBody
  cases ch <;>
    simp only [lumaOnly, List.cons_append, List.nil_append, sequence_cons, runPrim, h1,
      Progress.ok_andThen, center, fdct8] <;>
    [rw [show fdct hw.arith (centerBlock hw.arith (blockAt (s.mem.pln.get .y) s.nCols s.nTileR s.nTileC)) =
        coefficients s .y from rfl];
     rw [show fdct hw.arith (blockAt (s.mem.pln.get .cb) s.nCols s.nTileR s.nTileC) = coefficients s .cb from rfl];
     rw [show fdct hw.arith (blockAt (s.mem.pln.get .cr) s.nCols s.nTileR s.nTileC) = coefficients s .cr from rfl]] <;>
    rw [h2] <;> rfl

/-- The state after the work of one round of DQIPLANE and before its TNEXT. -/
def dqiWork (s : State) (ch : Channel) (q : Block I16) : State :=
  ({ s with blk := inverseTile ch q, qblk := q } : State).putPln ch
    (tileWrites s.nCols s.nTileR s.nTileC (inverseTile ch q))

/-- One round of DQIPLANE (R213). -/
theorem dqiBody_ok (ht : LegalTile hw s)
    (hw' : ∀ i j : Fin 8, (Buf.read (s.mem.qpl.get ch) (tileIdx s.nCols s.nTileR s.nTileC i j)).isSome) :
    dqiBody hw ch s =
      .ok (nextTile (dqiWork s ch (qblockAt (s.mem.qpl.get ch) s.nCols s.nTileR s.nTileC))) := by
  have h1 : ldqblk hw ch s = .ok { s with qblk := qblockAt (s.mem.qpl.get ch) s.nCols s.nTileR s.nTileC } :=
    ldqblk_ok_iff.2 ⟨ht, _, qtileOf_written hw', rfl⟩
  have h3 : ∀ q b, stblk hw ch { s with blk := b, qblk := q } =
      .ok (({ s with blk := b, qblk := q } : State).putPln ch (tileWrites s.nCols s.nTileR s.nTileC b)) := fun q b =>
    stblk_ok_iff.2 ⟨ht, rfl⟩
  have h4 : ∀ (q : Block I16) (b : Block F64) l, tnext hw (({ s with blk := b, qblk := q } : State).putPln ch l) =
      .ok (nextTile (({ s with blk := b, qblk := q } : State).putPln ch l)) := fun q b l =>
    tnext_ok_iff.2 ⟨ht, rfl⟩
  unfold dqiBody
  cases ch <;>
    simp only [lumaOnly, List.cons_append, List.nil_append, sequence_cons, sequence_nil, runPrim, h1,
      Progress.ok_andThen, dequant, idct8, uncenter, h3, h4] <;> rfl

end Sys2Proof.Machine
end

