-- ==== Sys2Proof/Laws/HostPort.lean ====
section
/-! SUPPORT. What a move of the host can do (R22, R80, R82): one lemma per shared operation, and one for all moves. -/

namespace Sys2Proof.Machine

variable {s t : State} {off i : Nat} {w : Word32} {sp : Space} {cfg : Config} {k : Host.Outcome State Fault Refusal}

/-! ## Register moves -/

theorem regMove_next_iff : regMove off k = .next t ↔ off % 4 = 0 ∧ k = .next t := by
  unfold regMove; split <;> simp [*]

theorem regMove_aligned (h : off % 4 = 0) : regMove off k = k := if_pos h

theorem regMove_unaligned (h : off % 4 ≠ 0) : regMove off k = .refused (.unalignedOffset off) := if_neg h

/-- Every register stands at a word offset (R41, R65). -/
theorem Reg.offset_aligned (r : Reg) : r.offset % 4 = 0 := by
  cases r <;> first | rfl | (rename_i ch; cases ch <;> rfl)

@[simp] theorem regMove_offset (r : Reg) : regMove r.offset k = k := regMove_aligned r.offset_aligned

theorem writeReg_busy (h : s.status.busy = true) : writeReg s off w = s := if_pos h

theorem writeReg_idle (h : s.status.busy = false) : writeReg s off w = writeRegIdle s off w := if_neg (by simp [h])

/-! ## Buffer moves -/

theorem portMove_next_iff :
    portMove cfg s sp i k = .next t ↔ s.status.busy = false ∧ i < Space.length cfg sp ∧ k = .next t := by
  unfold portMove
  split
  · simp [*]
  · split
    · next h => simp [Nat.not_lt.2 h]
    · next hb hl => simp [Bool.eq_false_iff.2 hb, Nat.not_le.1 hl]

theorem portMove_busy (h : s.status.busy = true) : portMove cfg s sp i k = .refused (.portBusy sp i) := if_pos h

theorem portMove_beyond (h : s.status.busy = false) (hi : Space.length cfg sp ≤ i) :
    portMove cfg s sp i k = .refused (.noSuchElement sp i) := by
  unfold portMove; rw [h, if_neg Bool.false_ne_true, if_pos hi]

theorem hostRead_next_iff :
    hostRead cfg s sp i = .next t ↔
      s.status.busy = false ∧ i < Space.length cfg sp ∧ ∃ e, s.peek cfg sp i = some e ∧ t = s.reply (.elem e) := by
  unfold hostRead
  rw [portMove_next_iff]
  refine and_congr_right fun _ => and_congr_right fun _ => ?_
  cases s.peek cfg sp i with
  | none => exact ⟨fun h => (nomatch h), fun ⟨_, h, _⟩ => (nomatch h)⟩
  | some e => exact ⟨fun h => ⟨e, rfl, by cases h; rfl⟩, fun ⟨_, h1, h2⟩ => by cases h1; rw [h2]⟩

/-! ## All moves -/

/-- What a move of the host can do (R80): it reads a register, writes one, reads an element, or writes one. -/
theorem hostMove_next {m : HostMove} (h : hostMove cfg m s = .next t) :
    (∃ off, m = .readReg off ∧ off % 4 = 0 ∧ t = s.reply (.reg (readReg s off))) ∨
    (∃ off w, m = .writeReg off w ∧ off % 4 = 0 ∧ t = writeReg s off w) ∨
    (s.status.busy = false ∧
      ((∃ sp i e, m = readMove sp i ∧ i < Space.length cfg sp ∧ s.peek cfg sp i = some e ∧ t = s.reply (.elem e)) ∨
      (∃ sp i v, m = .writeReal sp i v ∧ i < Space.length cfg (.real sp) ∧ t = s.writeReal sp i v) ∨
      (∃ sp i v, m = .writeInt16 sp i v ∧ i < Space.length cfg (.int16 sp) ∧ t = s.writeInt16 sp i v) ∨
      ∃ sp i v, m = .writeInt32 sp i v ∧ i < Space.length cfg (.int32 sp) ∧ t = s.writeInt32 sp i v)) := by
  cases m with
  | readReg off =>
    obtain ⟨h1, h2⟩ := regMove_next_iff.1 h
    exact .inl ⟨off, rfl, h1, by cases h2; rfl⟩
  | writeReg off w =>
    obtain ⟨h1, h2⟩ := regMove_next_iff.1 h
    exact .inr (.inl ⟨off, w, rfl, h1, by cases h2; rfl⟩)
  | readReal sp i =>
    obtain ⟨h1, h2, e, h3, h4⟩ := hostRead_next_iff.1 h
    exact .inr (.inr ⟨h1, .inl ⟨.real sp, i, e, rfl, h2, h3, h4⟩⟩)
  | readInt16 sp i =>
    obtain ⟨h1, h2, e, h3, h4⟩ := hostRead_next_iff.1 h
    exact .inr (.inr ⟨h1, .inl ⟨.int16 sp, i, e, rfl, h2, h3, h4⟩⟩)
  | readInt32 sp i =>
    obtain ⟨h1, h2, e, h3, h4⟩ := hostRead_next_iff.1 h
    exact .inr (.inr ⟨h1, .inl ⟨.int32 sp, i, e, rfl, h2, h3, h4⟩⟩)
  | writeReal sp i v =>
    obtain ⟨h1, h2, h3⟩ := portMove_next_iff.1 h
    exact .inr (.inr ⟨h1, .inr (.inl ⟨sp, i, v, rfl, h2, by cases h3; rfl⟩)⟩)
  | writeInt16 sp i v =>
    obtain ⟨h1, h2, h3⟩ := portMove_next_iff.1 h
    exact .inr (.inr ⟨h1, .inr (.inr (.inl ⟨sp, i, v, rfl, h2, by cases h3; rfl⟩))⟩)
  | writeInt32 sp i v =>
    obtain ⟨h1, h2, h3⟩ := portMove_next_iff.1 h
    exact .inr (.inr ⟨h1, .inr (.inr (.inr ⟨sp, i, v, rfl, h2, by cases h3; rfl⟩))⟩)

end Sys2Proof.Machine
end

