-- ==== Sys2Proof/Laws/PerInstr.lean ====
section
/-! SUPPORT. The coding of every command: its word decodes to it, has the format of its operand, and is well formed
(R90 to R92). -/

namespace Sys2Proof.Laws.Coding

/-- The word of a command decodes to the command, its fields pass the three checks of R92, and its format is C exactly when
it has a channel operand (R91). -/
def Statement (i : Instr) : Prop :=
  decode (encode i) = .ok i ∧ (fieldsOf (encode i)).wellFormed = true ∧ i.wellFormed = true ∧
    opFormat (opcOf i) = some (if i.channel.isSome then .c else .n) ∧
    decodeTableWord 32 (encode i).toNat = some i

theorem nop : Statement .nop := by unfold Statement; decide
theorem clrerr : Statement .clrerr := by unfold Statement; decide
theorem srst : Statement .srst := by unfold Statement; decide
theorem rgb2ycc : Statement .rgb2ycc := by unfold Statement; decide
theorem ycc2rgb : Statement .ycc2rgb := by unfold Statement; decide
theorem fdct8 : Statement .fdct8 := by unfold Statement; decide
theorem idct8 : Statement .idct8 := by unfold Statement; decide
theorem quant : Statement .quant := by unfold Statement; decide
theorem dequant : Statement .dequant := by unfold Statement; decide
theorem pack (ch : Channel) : Statement (.pack ch) := by unfold Statement; cases ch <;> decide
theorem unpack (ch : Channel) : Statement (.unpack ch) := by unfold Statement; cases ch <;> decide
theorem ldblk (ch : Channel) : Statement (.ldblk ch) := by unfold Statement; cases ch <;> decide
theorem stblk (ch : Channel) : Statement (.stblk ch) := by unfold Statement; cases ch <;> decide
theorem ldqblk (ch : Channel) : Statement (.ldqblk ch) := by unfold Statement; cases ch <;> decide
theorem stqblk (ch : Channel) : Statement (.stqblk ch) := by unfold Statement; cases ch <;> decide
theorem center : Statement .center := by unfold Statement; decide
theorem uncenter : Statement .uncenter := by unfold Statement; decide
theorem trst : Statement .trst := by unfold Statement; decide
theorem tnext : Statement .tnext := by unfold Statement; decide
theorem fqplane (ch : Channel) : Statement (.fqplane ch) := by unfold Statement; cases ch <;> decide
theorem dqiplane (ch : Channel) : Statement (.dqiplane ch) := by unfold Statement; cases ch <;> decide
theorem encode : Statement .encode := by unfold Statement; decide
theorem decode : Statement .decode := by unfold Statement; decide

end Sys2Proof.Laws.Coding
end

