-- ==== Sys2Proof/Laws/Script.lean ====
section
/-! SUPPORT. Which elements and words the integers of a script stand for (R66, R97). -/

namespace Sys2Proof.Machine

/-- An integer stands for an element exactly when the element has its value (R66). -/
theorem intElem_eq_some_iff {w : Nat} (hw : 0 < w) {v : Int} {e : BitVec w} : intElem w v = some e ↔ e.toInt = v := by
  obtain ⟨n, rfl⟩ : ∃ n, w = n + 1 := ⟨w - 1, by omega⟩
  have hp : (2 : Int) ^ (n + 1) = 2 * 2 ^ n := by ring
  unfold intElem
  rw [Nat.add_sub_cancel]
  split
  · next h =>
    have hv : (BitVec.ofInt (n + 1) v).toInt = v := by
      rw [BitVec.toInt_ofInt]
      exact Int.bmod_eq_of_le (by push_cast; omega) (by push_cast; omega)
    constructor
    · intro he; cases he; exact hv
    · intro he; exact congrArg some (BitVec.eq_of_toInt_eq (hv.trans he.symm))
  · next h =>
    refine ⟨fun he => (nomatch he), fun he => absurd ?_ h⟩
    have h1 := BitVec.le_toInt e
    have h2 := BitVec.toInt_lt (x := e)
    simp only [Nat.add_sub_cancel] at h1 h2
    omega

/-- A word of a script is one whose signed or unsigned value is the integer. -/
theorem regWord_eq_some_iff {v : Int} {w : Word32} : regWord v = some w ↔ w.toInt = v ∨ (w.toNat : Int) = v := by
  have hn := w.isLt
  have ht := BitVec.toInt_eq_toNat_cond w
  unfold regWord
  split
  · next h =>
    have hv : ((BitVec.ofInt 32 v).toNat : Int) = v % 2 ^ 32 := by
      rw [BitVec.toNat_ofInt]; exact Int.toNat_of_nonneg (Int.emod_nonneg _ (by norm_num))
    constructor
    · intro he
      cases he
      split at ht <;> omega
    · intro he
      refine congrArg some (BitVec.eq_of_toNat_eq ?_)
      split at ht <;> omega
  · next h =>
    refine ⟨fun he => (nomatch he), fun he => absurd ?_ h⟩
    split at ht <;> omega

end Sys2Proof.Machine
end

