-- ==== Sys2Proof/Machine/Metrics.lean ====
section
/-! DEFINITION. The size accounting that the host does from the registers (R180, R181, R182). No command reads or writes any
of it; the direction of the compression ratio is not given (R182), so its two footprints stand here and their ratio does not. -/

namespace Sys2Proof.Machine

/-- `nnz(ch) = VALLEN[ch]` after PACK (R180). -/
def nnz (s : State) (ch : Channel) : Int := (s.vallen.get ch).toInt

/-- Sparsity: `1 - nnz/total` with `total = ROWS*COLS` (R180). -/
def sparsity (s : State) (ch : Channel) : ℚ := 1 - (nnz s ch : ℚ) / (s.rows.toInt * s.cols.toInt)

/-- The encoded footprint of a channel in bytes, with values of 2 and indices of 4 bytes (R181). -/
def encodedFootprint (s : State) (ch : Channel) : Int := 2 * nnz s ch + 4 * nnz s ch + 4 * (s.rows.toInt + 1)

/-- The uncompressed footprint `rows*cols*channels*bytesPerSample` in bytes (R182), with the OPEN `BYTES_PER_SAMPLE`. -/
def uncompressedFootprint (cfg : Config) (rows cols channels : Nat) : Nat := rows * cols * channels * cfg.bytesPerSample

end Sys2Proof.Machine
end

