-- ==== Sys2Proof/Tests/Slice0.lean ====
section
/-! SUPPORT. Tests: words of the encoding table, ill-formed words, one-step vectors of the spec (each named by its id in
spec/95_test_vectors.md), and a witness for the hypotheses of every obligation that has any. -/

namespace Sys2Proof.Tests

open Sys2Proof.Machine

-- The checks below are long in the kernel: one at a time keeps the number of threads small.
set_option Elab.async false

/-! ## Helpers -/

/-- The outcome is a next state with a property. -/
def ends (o : Host.Outcome State Fault Refusal) (p : State → Bool) : Bool :=
  match o with
  | .next t => p t
  | .fault _ => false
  | .refused _ => false

theorem of_ends {o : Host.Outcome State Fault Refusal} {p : State → Bool} (h : ends o p = true) :
    ∃ t, o = .next t ∧ p t = true := by
  cases o with
  | next t => exact ⟨t, rfl, h⟩
  | fault _ => cases h
  | refused _ => cases h

/-- The outcome is a fault of the CORE with a code and an information word. -/
def faultsWith (o : Host.Outcome State Fault Refusal) (code info : Word32) : Bool :=
  ends o fun t => t.errcode == code && t.errinfo == info && t.status.word == 4#32

/-- The reset state on a shape. -/
def shaped (rows cols : Word32) : State := { State.reset with rows := rows, cols := cols }

/-- The reset state with `BLK` all one value. -/
def filled (v : F64) : State := { State.reset with blk := Block.ofFn fun _ _ => v }

/-- The reset state, cutoff 8, with `BLK` +0 but for one element. -/
def single (i j : Fin 8) (v : F64) : State :=
  { State.reset with bandCutoff := 8#32, blk := Block.ofFn fun r c => if r = i ∧ c = j then v else 0#64 }

/-- A list of elements at the indices from `a` on. -/
def from_ {w : Nat} (a : Nat) (l : List (BitVec w)) : Buf w := indexed a l

/-- The state of V40: `ROWS = 2`, `COLS = 3`, `QPL[0] = 0 5 0 -2 0 7`. -/
def v40 : State :=
  { shaped 2#32 3#32 with
    mem := { Memory.empty with qpl := { Memory.empty.qpl with y := from_ 0 [0#16, 5#16, 0#16, -2#16, 0#16, 7#16] } } }

/-- A state with the CSR of V40's PACK in channel 0, changed in its lengths, columns and row pointers. -/
def csr (vl cl rl : Word32) (cols ptrs : List I32) : State :=
  { shaped 2#32 3#32 with
    vallen := { State.reset.vallen with y := vl }
    collen := { State.reset.collen with y := cl }
    rptrlen := { State.reset.rptrlen with y := rl }
    mem := { Memory.empty with
      val := { Memory.empty.val with y := from_ 0 [5#16, -2#16, 7#16] }
      coli := { Memory.empty.coli with y := from_ 0 cols }
      rptr := { Memory.empty.rptr with y := from_ 0 ptrs } } }

/-- The CSR of V40. -/
def csr40 : State := csr 3#32 3#32 3#32 [1#32, 0#32, 2#32] [0#32, 1#32, 3#32]

/-- A busy state with a pending word. -/
def pending (w : Word32) : State :=
  { State.reset with status := { State.reset.status with busy := true }, pend := w }

/-- The reset state with the host's move next. -/
def hostNext (m : HostMove) : State := { State.reset with agenda := [.host m] }

/-! ## Words and decoding (R90 to R94) -/

/-- WellFormed refuses each fault of R92's cascade by its own check. -/
theorem smoke_opc : CmdWord.opcAssigned ⟨0x03#8, 0#2, 0#22⟩ = false ∧
    CmdWord.wellFormed ⟨0x03#8, 0#2, 0#22⟩ = false := by decide

theorem smoke_rsv : CmdWord.rsvZero ⟨0x70#8, 0#2, 1#22⟩ = false ∧
    CmdWord.wellFormed ⟨0x70#8, 0#2, 1#22⟩ = false := by decide

theorem smoke_ch_n : CmdWord.chLegal ⟨0x10#8, 1#2, 0#22⟩ = false ∧
    CmdWord.wellFormed ⟨0x10#8, 1#2, 0#22⟩ = false := by decide

theorem smoke_ch_c : CmdWord.chLegal ⟨0x40#8, 3#2, 0#22⟩ = false ∧
    CmdWord.wellFormed ⟨0x40#8, 3#2, 0#22⟩ = false := by decide

theorem smoke_legal : CmdWord.wellFormed ⟨0x40#8, 2#2, 0#22⟩ = true := by decide

/-- The words of the opcode table written out bit by bit: RSV, CH, OPC (R90, R92). -/
theorem test_words_system :
    decode 0b0000000000000000000000_00_00000000#32 = .ok .nop ∧
    decode 0b0000000000000000000000_00_00000001#32 = .ok .clrerr ∧
    decode 0b0000000000000000000000_00_00000010#32 = .ok .srst := by decide

theorem test_words_block :
    decode 0b0000000000000000000000_00_00010000#32 = .ok .rgb2ycc ∧
    decode 0b0000000000000000000000_00_00010001#32 = .ok .ycc2rgb ∧
    decode 0b0000000000000000000000_00_00100000#32 = .ok .fdct8 ∧
    decode 0b0000000000000000000000_00_00100001#32 = .ok .idct8 ∧
    decode 0b0000000000000000000000_00_00110000#32 = .ok .quant ∧
    decode 0b0000000000000000000000_00_00110001#32 = .ok .dequant := by decide

theorem test_words_sparse :
    decode 0b0000000000000000000000_10_01000000#32 = .ok (.pack .cr) ∧
    decode 0b0000000000000000000000_01_01000001#32 = .ok (.unpack .cb) := by decide

theorem test_words_tile :
    decode 0b0000000000000000000000_01_01010000#32 = .ok (.ldblk .cb) ∧
    decode 0b0000000000000000000000_00_01010001#32 = .ok (.stblk .y) ∧
    decode 0b0000000000000000000000_10_01010010#32 = .ok (.ldqblk .cr) ∧
    decode 0b0000000000000000000000_10_01010011#32 = .ok (.stqblk .cr) ∧
    decode 0b0000000000000000000000_00_01010100#32 = .ok .center ∧
    decode 0b0000000000000000000000_00_01010101#32 = .ok .uncenter ∧
    decode 0b0000000000000000000000_00_01010110#32 = .ok .trst ∧
    decode 0b0000000000000000000000_00_01010111#32 = .ok .tnext := by decide

theorem test_words_codec :
    decode 0b0000000000000000000000_10_01100000#32 = .ok (.fqplane .cr) ∧
    decode 0b0000000000000000000000_01_01100001#32 = .ok (.dqiplane .cb) ∧
    decode 0b0000000000000000000000_00_01110000#32 = .ok .encode ∧
    decode 0b0000000000000000000000_00_01110001#32 = .ok .decode := by decide

/-- V72: illegal words, `ERRCODE` and `ERRINFO`. -/
theorem test_illegal_words :
    faultsWith (step (pending 0x00000003#32)) 0x14#32 0x00000003#32 = true ∧
    faultsWith (step (pending 0x00000470#32)) 0x24#32 0x00000470#32 = true ∧
    faultsWith (step (pending 0x80000000#32)) 0x24#32 0x80000000#32 = true ∧
    faultsWith (step (pending 0x00000110#32)) 0x34#32 0x00000110#32 = true ∧
    faultsWith (step (pending 0x00000340#32)) 0x34#32 0x00000340#32 = true ∧
    faultsWith (step (pending 0x00000403#32)) 0x14#32 0x00000403#32 = true := by decide

/-- A command word placed by `withFetchWord` is what the next step runs (example of R230). -/
theorem test_withFetchWord :
    ends (step (State.reset.withFetchWord 32 0)) (fun t => t.status.word == 2#32) = true ∧
    ends (step (State.reset.withFetchWord 32 2)) (fun t => t.status.word == 0#32) = true := by decide

/-! ## The host port -/

/-- V70: register reads after reset and writes of `CTRL`, `STATUS`, `THRESHOLD`. -/
theorem test_registers :
    ends (step (hostNext (.readReg 0x24))) (fun t => t.replies == [.reg 5#32]) = true ∧
    ends (step (hostNext (.writeReg 0x10 0xFFFFFFFF#32))) (fun t => readReg t 0x10 == 7#32) = true ∧
    ends (step (hostNext (.writeReg 0x04 0xF#32))) (fun t => readReg t 0x04 == 0#32) = true ∧
    ends (step (hostNext (.writeReg 0x20 (-5#32)))) (fun t => readReg t 0x20 == 0xFFFFFFFB#32) = true := by decide

/-- U7: the host port has no register move at an offset that is not a multiple of 4. -/
theorem test_unaligned_register_moves :
    step (hostNext (.readReg 0x25)) = .refused (.unalignedOffset 0x25) ∧
    step (hostNext (.writeReg 0x12 0#32)) = .refused (.unalignedOffset 0x12) := ⟨rfl, rfl⟩

/-- The footprints of R181: the CSR of the example of R172, and an all-zero 16×16 plane (V41), of sparsity 1. -/
theorem test_footprints :
    encodedFootprint { State.reset with rows := 2#32, cols := 3#32, vallen := Chan3.all 3#32 } .y = 30 ∧
    encodedFootprint { State.reset with rows := 16#32, cols := 16#32 } .y = 68 ∧
    sparsity { State.reset with rows := 16#32, cols := 16#32 } .y = 1 := by
  refine ⟨by decide, by decide, ?_⟩
  have h : nnz { State.reset with rows := 16#32, cols := 16#32 } .y = 0 := by decide
  simp [sparsity, h]

/-- The parameters this hardware takes meet the constraints of R8 and R151. -/
theorem test_hw_is_legal : legalConfig hw := by unfold legalConfig; decide

/-- R67, U2: the host port has no element beyond a space. -/
theorem test_no_such_element :
    step (hostNext (.readReal .blk 64)) = .refused (.noSuchElement (.real .blk) 64) ∧
    step (hostNext (.writeInt32 (.rptr .y) 4097 0#32)) = .refused (.noSuchElement (.int32 (.rptr .y)) 4097) := ⟨rfl, rfl⟩

/-- R66: an integer outside the element type's range is no line of a script; V70 writes `CTRL` with 0xFFFFFFFF. -/
theorem test_script_integers :
    (ScriptLine.wmInt16 (.qpl .y) 0 32768).turns binary64 = none ∧
    (ScriptLine.wmsInt16 (.val .cb) 3 [-32768, 7]).turns binary64 =
      some [.host (.writeInt16 (.val .cb) 3 0x8000#16), .host (.writeInt16 (.val .cb) 4 7#16)] ∧
    (ScriptLine.wr .ctrl 0xFFFFFFFF).turns binary64 = some [.host (.writeReg 0x10 0xFFFFFFFF#32)] ∧
    scriptTurns binary64 [.wr .threshold (-5), .wr .threshold 0x100000000] = none := by decide

/-- V71: `CMD NOP` from reset shows `BUSY`; V73: while `ERR = 1` it is dropped and CLRERR is accepted. -/
theorem test_cmd_gate :
    ends (step (hostNext (.writeReg 0 0#32))) (fun t => readReg t 0x04 == 1#32) = true ∧
    ends (step { hostNext (.writeReg 0 0#32) with status := ⟨false, false, true, false⟩ })
      (fun t => readReg t 0x04 == 4#32) = true ∧
    ends (step { hostNext (.writeReg 0 1#32) with status := ⟨false, false, true, false⟩ })
      (fun t => readReg t 0x04 == 5#32 && t.pend == 1#32) = true := by decide

/-! ## Commands -/

/-- V71: NOP ends with `STATUS = 2`. -/
theorem test_nop : ends (exec .nop (pending 0#32)) (fun t => t.status.word == 2#32) = true := by decide

/-- Example of R231. -/
theorem test_clrerr :
    ends (exec .clrerr { pending 1#32 with status := ⟨true, false, true, false⟩, errcode := 0x31#32, errinfo := 1#32 })
      (fun t => t.status.word == 2#32 && t.errcode == 0#32 && t.errinfo == 0#32) = true := by decide

/-- Example of R232, with buffers kept (P4). -/
theorem test_srst :
    ends (exec .srst { v40 with bandCutoff := 9#32, status := ⟨true, false, true, true⟩ })
      (fun t => t.bandCutoff == 5#32 && t.status.word == 0#32 && t.rows == 0#32 && t.mem == v40.mem) = true := by decide

/-- An 8×9 image of black pixels but for pixel (1, 0), which is (0, 0, 128). -/
def image89 : State :=
  { State.reset with
    height := 8#32
    width := 9#32
    mem := { Memory.empty with
      pix := from_ 0 ((List.range 216).map fun i => if i = 29 then 0x4060000000000000#64 else 0#64) } }

/-- V1 and V10 at the stride 9 of `PIX` and the stride 8 of the planes (R111, R113). -/
theorem test_rgb2ycc :
    ends (exec .rgb2ycc image89) (fun t =>
      t.rows == 8#32 && t.cols == 8#32 && Buf.read t.mem.pln.y 8 == some 0x402D2F1A9FBE76C9#64 &&
      Buf.read t.mem.pln.cb 8 == some 0x4068000000000000#64 && Buf.read t.mem.pln.y 9 == some 0#64 &&
      Buf.read t.mem.pln.cr 63 == some 0x4060000000000000#64 && Buf.read t.mem.pln.y 64 == none) = true := by
  decide +kernel

/-- V51: a zero height. -/
theorem test_rgb2ycc_shape : faultsWith (exec .rgb2ycc State.reset) 0x21#32 0#32 = true := by decide

/-- V14 and V15 beside each other on a 1×2 shape: the clamps of R17. -/
theorem test_ycc2rgb :
    ends (exec .ycc2rgb { shaped 1#32 2#32 with
        mem := { Memory.empty with pln := Chan3.all (from_ 0 [0x406FE00000000000#64, 0#64]) } })
      (fun t => Buf.read t.mem.opix 0 == some 0x406FE00000000000#64 &&
        Buf.read t.mem.opix 2 == some 0x406FE00000000000#64 && Buf.read t.mem.opix 3 == some 0#64 &&
        Buf.read t.mem.opix 5 == some 0#64 && Buf.read t.mem.opix 6 == none) = true := by decide +kernel

/-- V57: more columns than the capacity. -/
theorem test_ycc2rgb_shape : faultsWith (exec .ycc2rgb (shaped 8#32 5000#32)) 0x51#32 1#32 = true := by decide

/-- V20: the DC coefficient of the constant block 100. -/
theorem test_fdct8 :
    ends (exec .fdct8 (filled 0x4059000000000000#64)) (fun t => t.blk.at 0 0 == 0x4089000000000001#64) = true := by
  decide +kernel

/-- V20: a residue away from the diagonal, which a transposed matrix would put elsewhere. -/
theorem test_fdct8_residue :
    ends (exec .fdct8 (filled 0x4059000000000000#64)) (fun t => t.blk.at 0 6 == 0xBD00000000000000#64) = true := by
  decide +kernel

/-- R137 on `BLK[0][0] = 800`, rest 0: the two products of 800 with `c4`, each rounded once, give the number after 100
(log entry 23: section 2.3 of the vectors prints 100.0). -/
theorem test_idct8 :
    ends (exec .idct8 (single 0 0 0x4089000000000000#64)) (fun t => t.blk.at 3 5 == 0x4059000000000001#64) = true := by
  decide +kernel

/-- P1: after UNCENTER the sample is exactly 228.0. -/
theorem test_idct8_uncenter :
    ends (exec .uncenter (filled 0x4059000000000001#64)) (fun t => t.blk.at 3 5 == 0x406C800000000000#64) = true := by
  decide +kernel

/-- V32: the tie 1.5 goes away from zero, and truncates to 1 under `RMODE = 1`. -/
theorem test_quant :
    ends (exec .quant (single 0 0 0x4038000000000000#64)) (fun t => t.qblk.at 0 0 == 2#16 && t.qblk.at 0 1 == 0#16) = true ∧
    ends (exec .quant { single 0 0 0x4038000000000000#64 with ctrl := 2#32 }) (fun t => t.qblk.at 0 0 == 1#16) = true := by
  decide +kernel

/-- V35: 3300000 at (7, 7) does not fit, and the range is tested before the band step. -/
theorem test_quant_range :
    faultsWith (exec .quant { single 7 7 0x41492D5000000000#64 with bandCutoff := 5#32 }) 0x15#32 63#32 = true := by
  decide +kernel

/-- V39: exact products. -/
theorem test_dequant :
    ends (exec .dequant { State.reset with qblk := Block.ofFn fun i j =>
        if i = 0 ∧ j = 1 then -13#16 else if i = 6 ∧ j = 5 then 2#16 else if i = 0 ∧ j = 0 then -32768#16 else 0#16 })
      (fun t => t.blk.at 0 1 == 0xC061E00000000000#64 && t.blk.at 6 5 == 0x406E400000000000#64 &&
        t.blk.at 0 0 == 0xC120000000000000#64 && t.blk.at 7 7 == 0#64) = true := by decide +kernel

/-- V40: PACK. -/
theorem test_pack :
    ends (exec (.pack .y) v40) (fun t =>
      t.mem.val.y == from_ 0 [5#16, -2#16, 7#16] && t.mem.coli.y == from_ 0 [1#32, 0#32, 2#32] &&
      t.mem.rptr.y == from_ 0 [0#32, 1#32, 3#32] && t.vallen.y == 3#32 && t.collen.y == 3#32 && t.rptrlen.y == 3#32 &&
      t.vallen.cr == 0#32) = true := by decide +kernel

/-- V40: UNPACK over a scribbled plane (P5). -/
theorem test_unpack :
    ends (exec (.unpack .y) { csr40 with mem := { csr40.mem with
        qpl := { csr40.mem.qpl with y := from_ 0 (List.replicate 7 99#16) } } })
      (fun t => t.mem.qpl.y == from_ 0 [0#16, 5#16, 0#16, -2#16, 0#16, 7#16, 99#16]) = true := by decide +kernel

/-- V45a, b, d, f to i, k: the checks of a CSR in order. -/
theorem test_unpack_csr :
    faultsWith (exec (.unpack .y) (csr 3#32 3#32 2#32 [1#32, 0#32, 2#32] [0#32, 1#32, 3#32])) 0x13#32 2#32 = true ∧
    faultsWith (exec (.unpack .y) (csr 3#32 2#32 3#32 [1#32, 0#32, 2#32] [0#32, 1#32, 3#32])) 0x23#32 2#32 = true ∧
    faultsWith (exec (.unpack .y) (csr 7#32 7#32 3#32 [1#32, 0#32, 2#32] [0#32, 1#32, 3#32])) 0x53#32 7#32 = true ∧
    faultsWith (exec (.unpack .y) (csr 3#32 3#32 3#32 [1#32, 0#32, 2#32] [1#32, 1#32, 3#32])) 0x33#32 1#32 = true ∧
    faultsWith (exec (.unpack .y) (csr 3#32 3#32 3#32 [1#32, 0#32, 2#32] [0#32, 2#32, 1#32])) 0x43#32 1#32 = true ∧
    faultsWith (exec (.unpack .y) (csr 3#32 3#32 3#32 [1#32, 0#32, 2#32] [0#32, 1#32, 2#32])) 0x53#32 2#32 = true ∧
    faultsWith (exec (.unpack .y) (csr 3#32 3#32 3#32 [1#32, 0#32, 3#32] [0#32, 1#32, 3#32])) 0x63#32 2#32 = true ∧
    faultsWith (exec (.unpack .y) (csr 3#32 3#32 3#32 [1#32, 2#32, 0#32] [0#32, 1#32, 3#32])) 0x73#32 2#32 = true := by
  decide +kernel

/-- The shape and tile of V63, with every element of `PLN[0]` and `QPL[2]` its own index. -/
def v63 : State :=
  { shaped 16#32 24#32 with
    tileR := 1#32
    tileC := 2#32
    blk := Block.ofFn fun i j => BitVec.ofNat 64 (8 * i.val + j.val)
    qblk := Block.ofFn fun i j => BitVec.ofNat 16 (8 * i.val + j.val)
    mem := { Memory.empty with
      pln := { Memory.empty.pln with y := (List.range 384).map fun i => (i, BitVec.ofNat 64 i) }
      qpl := { Memory.empty.qpl with cr := (List.range 384).map fun i => (i, BitVec.ofNat 16 i) } } }

/-- V63: addressing of LDBLK. -/
theorem test_ldblk :
    ends (exec (.ldblk .y) v63) (fun t => t.blk.at 3 4 == 284#64 && t.blk.at 0 0 == 208#64 && t.blk.at 7 7 == 383#64) =
      true := by decide +kernel

theorem test_ldqblk :
    ends (exec (.ldqblk .cr) v63) (fun t => t.qblk.at 3 4 == 284#16 && t.qblk.at 0 0 == 208#16 && t.qblk.at 7 7 == 383#16) =
      true := by decide +kernel

theorem test_stblk :
    ends (exec (.stblk .y) v63) (fun t => Buf.read t.mem.pln.y 284 == some 28#64 &&
      Buf.read t.mem.pln.y 207 == some 207#64 && Buf.read t.mem.pln.y 216 == some 216#64) = true := by decide +kernel

/-- V63: STQBLK CR writes 208..215, 232..239, ..., 376..383 and nothing else. -/
theorem test_stqblk :
    ends (exec (.stqblk .cr) v63) (fun t => Buf.read t.mem.qpl.cr 208 == some 0#16 &&
      Buf.read t.mem.qpl.cr 215 == some 7#16 && Buf.read t.mem.qpl.cr 232 == some 8#16 &&
      Buf.read t.mem.qpl.cr 383 == some 63#16 && Buf.read t.mem.qpl.cr 231 == some 231#16 &&
      t.mem.qpl.y == []) = true := by decide +kernel

/-- V64: the tile counter is checked after the shape, the row first. -/
theorem test_tile_faults :
    faultsWith (exec (.stblk .cb) { v63 with tileC := 3#32 }) 0x32#32 1#32 = true ∧
    faultsWith (exec (.ldqblk .y) { v63 with tileR := 5#32, tileC := 9#32 }) 0x32#32 0#32 = true ∧
    faultsWith (exec .tnext { v63 with rows := 12#32 }) 0x41#32 0#32 = true := by decide

/-- V65: CENTER. -/
theorem test_center :
    ends (exec .center (filled 0x406C800000000000#64)) (fun t => t.blk.at 7 0 == 0x4059000000000000#64) = true ∧
    ends (exec .center (filled 0x405FFFFFFFFFFFFF#64)) (fun t => t.blk.at 0 7 == 0xBD10000000000000#64) = true := by
  decide +kernel

/-- V65: UNCENTER. -/
theorem test_uncenter :
    ends (exec .uncenter (filled 0x4059000000000000#64)) (fun t => t.blk.at 7 0 == 0x406C800000000000#64) = true ∧
    ends (exec .uncenter (filled 0xBD10000000000000#64)) (fun t => t.blk.at 0 7 == 0x405FFFFFFFFFFFFF#64) = true := by
  decide +kernel

/-- V64: TRST succeeds where the shape is illegal. -/
theorem test_trst :
    ends (exec .trst { v63 with rows := 12#32, status := ⟨true, false, false, true⟩ })
      (fun t => t.tileR == 0#32 && t.tileC == 0#32 && t.status.word == 2#32) = true := by decide

/-- V61: the successors of (0, 2) and (1, 2) in a 2 × 3 grid. -/
theorem test_tnext :
    ends (exec .tnext { v63 with tileR := 0#32, status := ⟨true, false, false, true⟩ })
      (fun t => t.tileR == 1#32 && t.tileC == 0#32 && t.status.word == 2#32) = true ∧
    ends (exec .tnext v63) (fun t => t.tileR == 0#32 && t.tileC == 0#32 && t.status.word == 0xA#32) = true := by decide

/-- V75: FQPLANE reports the shape before the parameters. -/
theorem test_fqplane :
    faultsWith (exec (.fqplane .y) { shaped 12#32 8#32 with bandCutoff := 9#32 }) 0x41#32 0#32 = true := by decide

theorem test_dqiplane : faultsWith (exec (.dqiplane .y) (shaped 8#32 0#32)) 0x21#32 1#32 = true := by decide

/-- V75: ENCODE, shape before parameter, threshold before cutoff. -/
theorem test_encode :
    faultsWith (exec .encode { State.reset with height := 7#32, width := 16#32, threshold := -1#32 }) 0x31#32 0#32 = true ∧
    faultsWith (exec .encode { State.reset with
      height := 8#32, width := 8#32, threshold := -1#32, bandCutoff := 0#32 }) 0x12#32 0xFFFFFFFF#32 = true := by decide

/-- P4: DECODE after SRST, and with a column index out of bounds. -/
theorem test_decode :
    faultsWith (exec .decode State.reset) 0x21#32 0#32 = true ∧
    faultsWith (exec .decode { shaped 8#32 8#32 with
      vallen := { State.reset.vallen with y := 1#32 }
      collen := { State.reset.collen with y := 1#32 }
      rptrlen := { State.reset.rptrlen with y := 9#32 }
      mem := { Memory.empty with
        val := { Memory.empty.val with y := from_ 0 [50#16] }
        coli := { Memory.empty.coli with y := from_ 0 [8#32] }
        rptr := { Memory.empty.rptr with y := from_ 0 (0#32 :: List.replicate 8 1#32) } } }) 0x63#32 0#32 = true := by
  decide +kernel

end Sys2Proof.Tests
end

