-- ==== Sys2Proof/Tests/Witness.lean ====
section
/-! SUPPORT. For every obligation with hypotheses: concrete states and operands that meet them, each clause at a boundary of its
range. -/

namespace Sys2Proof.Tests

open Sys2Proof.Machine

-- The checks below are long in the kernel: one at a time keeps the number of threads small.
set_option Elab.async false

/-! ## Command words, steps, host port -/

theorem witness_DecodeFollowsTheCascade :
    opFormat (BitVec.ofNat 8 (bits 0x00000403#32 7 0)) = none ∧
    (opFormat (BitVec.ofNat 8 (bits 0x80000110#32 7 0)) = some .n ∧ bits 0x80000110#32 31 10 ≠ 0) ∧
    (opFormat (BitVec.ofNat 8 (bits 0x00000110#32 7 0)) = some .n ∧ bits 0x00000110#32 31 10 = 0 ∧
      bits 0x00000110#32 9 8 ≠ 0) ∧
    (opFormat (BitVec.ofNat 8 (bits 0x00000340#32 7 0)) = some .c ∧ bits 0x00000340#32 31 10 = 0 ∧
      bits 0x00000340#32 9 8 = 3) ∧
    (opFormat (BitVec.ofNat 8 (bits 0x00000071#32 7 0)) = some .n ∧ bits 0x00000071#32 31 10 = 0 ∧
      bits 0x00000071#32 9 8 = 0) ∧
    (opFormat (BitVec.ofNat 8 (bits 0x00000240#32 7 0)) = some .c ∧ bits 0x00000240#32 31 10 = 0 ∧
      bits 0x00000240#32 9 8 = 2) := by decide

theorem witness_IllegalWordFaults :
    (pending 0xFF#32).agenda = [] ∧ (pending 0xFF#32).status.busy = true ∧
    decode (pending 0xFF#32).pend = .error .opcode ∧ decode (pending 0x470#32).pend = .error .reserved ∧
    decode (pending 0x340#32).pend = .error .channel := by decide

theorem witness_StepRunsThePendingCommand :
    ((pending 0x71#32).agenda = [] ∧ (pending 0x71#32).status.busy = true ∧ decode (pending 0x71#32).pend = .ok .decode) ∧
    ({ pending 0x240#32 with agenda := [.core] }.agenda = .core :: [] ∧ decode 0x240#32 = .ok (.pack .cr)) ∧
    (State.reset.agenda = [] ∧ State.reset.status.busy = false) ∧
    { State.reset with agenda := [.core, .reset] }.agenda = .core :: [.reset] := by decide

theorem witness_CommandWriteGate :
    ((hostNext (.writeReg 0x00 0x70#32)).agenda = .host (.writeReg 0x00 0x70#32) :: [] ∧
      (hostNext (.writeReg 0x00 0x70#32)).status.busy = false ∧ (hostNext (.writeReg 0x00 0x70#32)).status.err = false) ∧
    (encode .clrerr = 1#32 ∧ encode .srst = 2#32) ∧
    ({ hostNext (.writeReg 0x00 0x70#32) with status := ⟨false, false, true, false⟩ }.status.err = true ∧
      0x70#32 ≠ encode .clrerr ∧ 0x70#32 ≠ encode .srst) ∧
    { hostNext (.writeReg 0x00 1#32) with status := ⟨true, false, true, false⟩ }.status.busy = true := by decide

theorem witness_RegisterWriteReadsBack :
    ((hostNext (.writeReg 0x10 0xFFFFFFFF#32)).agenda = .host (.writeReg 0x10 0xFFFFFFFF#32) :: [] ∧
      (hostNext (.writeReg 0x10 0xFFFFFFFF#32)).status.busy = false ∧ Reg.writable .ctrl = true ∧ 0x10 = Reg.offset .ctrl) ∧
    (Reg.writable (.rptrlen .cr) = true ∧ 0x68 = Reg.offset (.rptrlen .cr)) ∧
    ((0x04 : Nat) ≠ 0x00 ∧ (0x6C : Nat) ≠ 0x00 ∧ 0x6C % 4 = 0 ∧ 0x69 % 4 ≠ 0) ∧
    (∀ r : Reg, r.writable = true → (0x6C : Nat) ≠ r.offset) ∧ ∀ r : Reg, r.writable = true → (0x0C : Nat) ≠ r.offset := by
  refine ⟨by decide, by decide, by decide, ?_, ?_⟩ <;> intro r <;> cases r <;>
    first
      | (rename_i ch; cases ch <;> decide)
      | decide

theorem witness_HostAccessWhileBusy :
    StatusSound (pending 0x70#32) ∧ (pending 0x70#32).status.busy = true ∧
    { pending 0x70#32 with agenda := [.host (.readReg 0x20)] }.agenda = .host (.readReg 0x20) :: [] ∧
    { pending 0x70#32 with agenda := [.host (.writeReg 0x20 9#32)] }.agenda = .host (.writeReg 0x20 9#32) :: [] ∧
    { pending 0x70#32 with agenda := [.host (readMove (.real .blk) 63)] }.agenda = .host (readMove (.real .blk) 63) :: [] ∧
    (0x20 % 4 = 0 ∧ 0x21 % 4 ≠ 0) ∧
    writeMove (.int32 (.rptr .cr)) 4096 (.int32 1#32) = some (.writeInt32 (.rptr .cr) 4096 1#32) := by
  refine ⟨⟨by decide, by decide, by decide, .inl rfl, by decide, fun _ => rfl, by decide⟩, by decide, rfl, rfl, rfl,
    by decide, rfl⟩

theorem witness_BufferWriteReadsBack :
    writeMove (.int32 (.rptr .cr)) 4096 (.int32 1#32) = some (.writeInt32 (.rptr .cr) 4096 1#32) ∧
    (hostNext (.writeInt32 (.rptr .cr) 4096 1#32)).agenda = .host (.writeInt32 (.rptr .cr) 4096 1#32) :: [] ∧
    (hostNext (.writeInt32 (.rptr .cr) 4096 1#32)).status.busy = false ∧ 4096 < Space.length hw (.int32 (.rptr .cr)) ∧
    (writeMove (.real .prom) 63 (.real 0#64) = some (.writeReal .prom 63 0#64) ∧ 63 < Space.length hw (.real .prom)) ∧
    (writeMove (.int16 .qrom) 0 (.int16 0#16) = some (.writeInt16 .qrom 0 0#16) ∧ 0 < Space.length hw (.int16 .qrom)) ∧
    (writeMove (.int32 (.rptr .cr)) 4097 (.int32 1#32) = some (.writeInt32 (.rptr .cr) 4097 1#32) ∧
      Space.length hw (.int32 (.rptr .cr)) ≤ 4097) := by
  decide

theorem witness_BufferReadReturnsTheElement :
    ((hostNext (readMove (.real .pix) 50331648)).agenda = .host (readMove (.real .pix) 50331648) :: [] ∧
      (hostNext (readMove (.real .pix) 50331648)).status.busy = false ∧
      Space.length hw (.real .pix) ≤ 50331648) ∧
    (50331647 < Space.length hw (.real .pix) ∧ (hostNext (readMove (.real .pix) 50331647)).peek hw (.real .pix) 50331647 = none) ∧
    (63 < Space.length hw (.int16 .qrom) ∧
      (hostNext (readMove (.int16 .qrom) 63)).peek hw (.int16 .qrom) 63 = some (.int16 99#16)) := by decide

theorem witness_ResetLeavesTheResetValues :
    { v40 with agenda := [.reset] }.agenda = .reset :: [] ∧
    step { v40 with agenda := [.reset] } = .next (hardReset { v40 with agenda := [] }) := ⟨rfl, rfl⟩

/-! ## Faults and frames -/

theorem witness_PrimitivesFaultPrecisely :
    isComposite .quant = false ∧ State.reset.status.err = false ∧
    ∃ t, exec .quant { State.reset with threshold := -1#32 } = .next t ∧ t.status.err = true :=
  ⟨rfl, rfl, of_ends (by decide)⟩

theorem witness_FaultsOfEachCommand :
    State.reset.status.err = false ∧ ∃ t, exec .encode State.reset = .next t ∧ t.status.err = true :=
  ⟨rfl, of_ends (by decide)⟩

/-- An 8×8 state whose planes are all zero. -/
def plane8 : State :=
  { shaped 8#32 8#32 with
    mem := { Memory.empty with
      pln := Chan3.all (from_ 0 (List.replicate 64 0#64))
      qpl := Chan3.all (from_ 0 (List.replicate 64 0#16)) } }

/-- An 8×8 image of pixels `(0, 0, b)` whose luminance is exactly 128 (`b` is the number next to 128 / 0.114). -/
def enc8 : State :=
  { State.reset with
    height := 8#32
    width := 8#32
    mem := { Memory.empty with
      pix := from_ 0 ((List.range 192).map fun i => if i % 3 = 2 then 0x40918B3A62CE98B4#64 else 0#64) } }

/-- An 8×8 Artifact: a luminance CSR without entries and dense chrominance. -/
def dec8 : State :=
  { plane8 with
    rptrlen := { State.reset.rptrlen with y := 9#32 }
    mem := { plane8.mem with rptr := { Memory.empty.rptr with y := from_ 0 (List.replicate 9 0#32) } } }

theorem fqplane_runs : ∃ t, exec (.fqplane .cb) plane8 = .next t ∧ (!t.status.err) = true :=
  of_ends (by decide +kernel)

theorem dqiplane_runs : ∃ t, exec (.dqiplane .y) plane8 = .next t ∧ (!t.status.err) = true :=
  of_ends (by decide +kernel)

theorem encode_runs : ∃ t, exec .encode enc8 = .next t ∧ (!t.status.err) = true :=
  of_ends (by decide +kernel)

theorem decode_runs : ∃ t, exec .decode dec8 = .next t ∧ (!t.status.err) = true :=
  of_ends (by decide +kernel)

theorem witness_CompositesKeepTheirInputs :
    (∃ t, exec .encode enc8 = .next t) ∧ (∃ t, exec .decode dec8 = .next t) ∧ dec8.chroma = false ∧
    (∃ t, exec (.fqplane .cb) plane8 = .next t) ∧ ∃ t, exec (.dqiplane .y) plane8 = .next t :=
  ⟨⟨_, encode_runs.choose_spec.1⟩, ⟨_, decode_runs.choose_spec.1⟩, by decide, ⟨_, fqplane_runs.choose_spec.1⟩,
    ⟨_, dqiplane_runs.choose_spec.1⟩⟩

theorem witness_FrameOfEveryCommand :
    (∃ t, exec .encode enc8 = .next t ∧ (!t.status.err) = true) ∧ Space.real .opix ∉ writesOf enc8 .encode ∧
    Reg.ctrl ∉ regsOf enc8 .encode ∧ Reg.errcode ∉ regsOf enc8 .encode :=
  ⟨encode_runs, by decide, by decide, by decide⟩

/-! ## Colour -/

theorem witness_Rgb2yccCompletes : LegalInput hw enc8 ∧ InputWritten enc8 ∧ LegalInput hw image89 ∧ InputWritten image89 := by
  unfold LegalInput InputWritten; decide +kernel

/-- V50 to V54. -/
theorem witness_InputShapeFaults :
    ({ State.reset with channels := 4#32 }.channels.toInt ≠ 3) ∧
    (State.reset.channels.toInt = 3 ∧ State.reset.height.toInt ≤ 0) ∧
    ({ enc8 with width := 0#32 }.channels.toInt = 3 ∧ 0 < enc8.height.toInt ∧ (0#32 : Word32).toInt ≤ 0) ∧
    (0 < (7#32 : Word32).toInt ∧ 0 < (7#32 : Word32).toInt ∧ (7#32 : Word32).toInt < 8) ∧
    (8 ≤ (8#32 : Word32).toInt ∧ 0 < (7#32 : Word32).toInt ∧ (7#32 : Word32).toInt < 8) ∧
    (4096 < (4097#32 : Word32).toInt ∧ 8 ≤ (8#32 : Word32).toInt) ∧
    (8 ≤ (4096#32 : Word32).toInt ∧ (4096#32 : Word32).toInt ≤ 4096 ∧ 4096 < (4097#32 : Word32).toInt) := by decide

theorem witness_Ycc2rgbCompletes : LegalShape hw plane8 ∧ ∀ ch, PlaneWritten plane8 ch (plane8.nRows * plane8.nCols) := by
  refine ⟨by unfold LegalShape; decide, fun ch => ?_⟩
  unfold PlaneWritten
  cases ch <;> decide +kernel

/-- V57, V64. -/
theorem witness_PlaneShapeFaults :
    (shaped 0#32 8#32).rows.toInt ≤ 0 ∧
    (0 < (shaped 8#32 (-1#32)).rows.toInt ∧ (shaped 8#32 (-1#32)).cols.toInt ≤ 0) ∧
    (0 < (shaped 12#32 8#32).rows.toInt ∧ 0 < (shaped 12#32 8#32).cols.toInt ∧ (shaped 12#32 8#32).rows.toInt % 8 ≠ 0) ∧
    (0 < (shaped 16#32 20#32).rows.toInt ∧ (shaped 16#32 20#32).rows.toInt % 8 = 0 ∧
      (shaped 16#32 20#32).cols.toInt % 8 ≠ 0) ∧
    ((shaped 4104#32 8#32).rows.toInt % 8 = 0 ∧ 4096 < (shaped 4104#32 8#32).rows.toInt ∧
      0 < (shaped 4104#32 8#32).cols.toInt) ∧
    ((shaped 4096#32 4104#32).rows.toInt ≤ 4096 ∧ (shaped 4096#32 4104#32).cols.toInt % 8 = 0 ∧
      4096 < (shaped 4096#32 4104#32).cols.toInt) := by decide

theorem witness_ClampOfSamples :
    f64Finite 0x406FE00000000000#64 = true ∧ f64IsInf 0xFFF0000000000000#64 = true ∧ f64IsInf 0x7FF0000000000000#64 = true ∧
    f64IsNaN 0x7FF8000000000000#64 = true ∧ (f64Value 0#64 = 0 ∧ f64Finite 0#64 = true) := by
  refine ⟨by decide, by decide, by decide, by decide, ?_, by decide⟩
  have h : f64Units 0#64 = 0 := by decide
  simp [f64Value, h]

theorem witness_IdealColourIdentities : (0 : ℝ) ≤ 255 ∧ (255 : ℝ) ≤ 255 ∧ (0 : ℝ) ≤ 0 ∧ (0 : ℝ) ≤ 255 := by norm_num

/-! ## Quantizer -/

theorem witness_QuantCompletes :
    LegalParams (single 0 0 0x4038000000000000#64) ∧
    BlockFits (single 0 0 0x4038000000000000#64) (single 0 0 0x4038000000000000#64).blk := by
  refine ⟨by unfold LegalParams; decide, ?_⟩
  unfold BlockFits QuotientFits
  decide +kernel

theorem witness_QuantParameterFaults :
    LegalTiling hw plane8 ∧ LegalInput hw enc8 ∧ { plane8 with threshold := -1#32 }.threshold.toInt < 0 ∧
    (0 ≤ State.reset.threshold.toInt ∧ (0#32 : Word32).toInt < 1 ∧ 8 < (9#32 : Word32).toInt) := by
  unfold LegalTiling LegalShape LegalInput; decide

/-- V35: position (7, 7) beyond the range, and position (0, 3) infinite; every earlier position fits. -/
theorem witness_QuantRangeFaults :
    (LegalParams (single 7 7 0x41492D5000000000#64) ∧
      (∀ i' j' : Fin 8, 8 * i'.val + j'.val < 63 →
        QuotientFits (single 7 7 0x41492D5000000000#64) ((single 7 7 0x41492D5000000000#64).blk.at i' j') i' j') ∧
      f64Finite (quotient ((single 7 7 0x41492D5000000000#64).blk.at 7 7) 7 7) = true ∧
      32767 < rounded (single 7 7 0x41492D5000000000#64) ((single 7 7 0x41492D5000000000#64).blk.at 7 7) 7 7) ∧
    ((∀ i' j' : Fin 8, 8 * i'.val + j'.val < 3 →
        QuotientFits (single 0 3 0x7FF0000000000000#64) ((single 0 3 0x7FF0000000000000#64).blk.at i' j') i' j') ∧
      f64Finite (quotient ((single 0 3 0x7FF0000000000000#64).blk.at 0 3) 0 3) = false) := by
  unfold LegalParams QuotientFits
  decide +kernel

theorem witness_QuantZerosAreMonotone :
    (1#32 : Word32).toInt ≤ (2#32 : Word32).toInt ∧ (5#32 : Word32).toInt ≤ (8#32 : Word32).toInt ∧
    (∃ a, exec .quant { single 0 0 0x4038000000000000#64 with threshold := 1#32, bandCutoff := 8#32 } = .next a ∧
      (!a.status.err && a.qblk.at 0 1 == 0#16) = true) ∧
    ∃ b, exec .quant { single 0 0 0x4038000000000000#64 with threshold := 2#32, bandCutoff := 5#32 } = .next b ∧
      (!b.status.err) = true :=
  ⟨by decide, by decide, of_ends (by decide +kernel), of_ends (by decide +kernel)⟩

theorem witness_RoundingFunctions : f64Finite 0xBFE0000000000000#64 = true := by decide

theorem witness_IdealQuantizationError : (1 : Int) ≤ 1 := by decide

theorem witness_Binary64IsCorrectlyRounded :
    f64Finite 0x3FF0000000000000#64 = true ∧ f64Finite 0x4008000000000000#64 = true ∧
    f64Value 0x4008000000000000#64 ≠ 0 ∧ Int.natAbs (-9007199254740991) < 2 ^ 53 := by
  refine ⟨by decide, by decide, ?_, by decide⟩
  have h : f64Units 0x4008000000000000#64 ≠ 0 := by decide +kernel
  simp only [f64Value, ne_eq, div_eq_zero_iff, Int.cast_eq_zero, h, false_or]
  positivity

/-! ## Sparse codec -/

theorem witness_PackCompletes : LegalShape hw v40 ∧ QPlaneWritten v40 .y (v40.nRows * v40.nCols) := by
  unfold LegalShape QPlaneWritten; decide +kernel

theorem csr40_ready : CsrReady csr40 .y := by
  refine ⟨rfl, ?_⟩
  decide +kernel

theorem witness_UnpackCompletes : LegalShape hw csr40 ∧ CsrReady csr40 .y :=
  ⟨by unfold LegalShape; decide, csr40_ready⟩

/-- The arrays of a state built by `csr` as functions. -/
def at3 (a b c : I32) (k : Nat) : I32 := if k = 0 then a else if k = 1 then b else c

/-- V45: for each check a CSR that reaches it and fails it. -/
theorem witness_CsrFaults :
    (LegalShape hw csr40 ∧ (∀ r ≤ csr40.nRows, Buf.read (csr40.mem.rptr.get .y) r = some (at3 0#32 1#32 3#32 r)) ∧
      ∀ k < 3, Buf.read (csr40.mem.coli.get .y) k = some (at3 1#32 0#32 2#32 k)) ∧
    ((csr 3#32 3#32 2#32 [1#32, 0#32, 2#32] [0#32, 1#32, 3#32]).rptrlen.y.toInt ≠ csr40.rows.toInt + 1 ∧
      csr40.rptrlen.y.toInt = csr40.rows.toInt + 1) ∧
    (3#32 : Word32) ≠ 2#32 ∧
    ((7#32 : Word32).toInt > csr40.rows.toInt * csr40.cols.toInt ∧ (-1#32 : Word32).toInt < 0) ∧
    (at3 1#32 1#32 3#32 0).toInt ≠ 0 ∧
    (1 < csr40.nRows ∧ (at3 0#32 2#32 1#32 2).toInt < (at3 0#32 2#32 1#32 1).toInt ∧
      (at3 0#32 2#32 1#32 0).toInt ≤ (at3 0#32 2#32 1#32 1).toInt) ∧
    (∀ r < csr40.nRows, (at3 0#32 1#32 2#32 r).toInt ≤ (at3 0#32 1#32 2#32 (r + 1)).toInt) ∧
    (at3 0#32 1#32 2#32 csr40.nRows).toInt ≠ (3#32 : Word32).toInt ∧
    (csr40.cols.toInt ≤ (at3 1#32 0#32 3#32 2).toInt ∧
      ∀ k' < 2, 0 ≤ (at3 1#32 0#32 3#32 k').toInt ∧ (at3 1#32 0#32 3#32 k').toInt < csr40.cols.toInt) ∧
    ((at3 0#32 1#32 3#32 1).toInt < (2 : Nat) ∧ ((2 : Nat) : Int) < (at3 0#32 1#32 3#32 2).toInt ∧
      (at3 1#32 2#32 2#32 2).toInt ≤ (at3 1#32 2#32 2#32 1).toInt) := by
  unfold LegalShape
  decide +kernel

theorem witness_PackUnpackRoundTrip :
    LegalShape hw v40 ∧ QPlaneWritten v40 .y (v40.nRows * v40.nCols) ∧
    ∃ t, exec (.pack .y) v40 = .next t ∧ (!t.status.err) = true :=
  ⟨witness_PackCompletes.1, witness_PackCompletes.2, of_ends (by decide +kernel)⟩

theorem witness_UnpackPackRoundTrip :
    LegalShape hw csr40 ∧ CsrReady csr40 .y ∧ (∀ k < 3, Buf.read (csr40.mem.val.get .y) k ≠ some 0#16) ∧
    (csr40.vallen.get .y).toInt = 3 ∧ ∃ t, exec (.unpack .y) csr40 = .next t ∧ (!t.status.err) = true :=
  ⟨by unfold LegalShape; decide, csr40_ready, by decide, by decide, of_ends (by decide +kernel)⟩

/-! ## Tiles -/

/-- The last tile of a 2 × 3 grid (V63). -/
theorem witness_TileLoadsComplete :
    LegalTile hw v63 ∧
    (∀ i j : Fin 8, (Buf.read (v63.mem.pln.get .y) (tileIdx v63.nCols v63.nTileR v63.nTileC i j)).isSome) ∧
    ∀ i j : Fin 8, (Buf.read (v63.mem.qpl.get .cr) (tileIdx v63.nCols v63.nTileR v63.nTileC i j)).isSome := by
  unfold LegalTile LegalTiling LegalShape; decide +kernel

theorem witness_TileStoresComplete : LegalTile hw v63 := witness_TileLoadsComplete.1

/-- V64. -/
theorem witness_TileIndexFaults :
    LegalTiling hw v63 ∧ ({ v63 with tileR := -1#32 }.tileR.toInt < 0) ∧
    (v63.rows.toInt / 8 ≤ { v63 with tileR := 2#32 }.tileR.toInt) ∧
    (0 ≤ v63.tileR.toInt ∧ v63.tileR.toInt < v63.rows.toInt / 8 ∧
      v63.cols.toInt / 8 ≤ { v63 with tileC := 3#32 }.tileC.toInt ∧ { v63 with tileC := -1#32 }.tileC.toInt < 0) := by
  unfold LegalTiling LegalShape; decide

/-- V61: inside a row, at the end of a row, on the last tile. -/
theorem witness_TnextCompletes :
    (LegalTile hw { v63 with tileC := 1#32 } ∧ { v63 with tileC := 1#32 }.tileC.toInt + 1 < v63.cols.toInt / 8) ∧
    (LegalTile hw { v63 with tileR := 0#32 } ∧ v63.tileC.toInt + 1 = v63.cols.toInt / 8 ∧
      { v63 with tileR := 0#32 }.tileR.toInt + 1 < v63.rows.toInt / 8) ∧
    (LegalTile hw v63 ∧ v63.tileR.toInt + 1 = v63.rows.toInt / 8) := by
  unfold LegalTile LegalTiling LegalShape; decide

theorem witness_TileLoopVisitsEveryTile :
    LegalTiling hw { v63 with tileR := 0#32, tileC := 0#32 } ∧ v63.status.err = false ∧
    (0 < 1 ∧ 1 < v63.tileRows * v63.tileCols) ∧ 6 = v63.tileRows * v63.tileCols := by
  unfold LegalTiling LegalShape; decide

/-! ## Orchestrator -/

theorem witness_CompositesAreTheirExpansions :
    plane8.status.err = false ∧ LegalTiling hw plane8 ∧ LegalParams plane8 ∧ LegalInput hw enc8 ∧ LegalParams enc8 ∧
    LegalTiling hw dec8 := by
  unfold LegalTiling LegalShape LegalInput LegalParams; decide

/-- The block of zeros. -/
def zeros : Block F64 := Block.ofFn fun _ _ => 0#64

/-- The coefficients of a block of zeros fit. -/
theorem zeros_fit : BlockFits State.reset (fdct binary64 zeros) := by
  unfold BlockFits QuotientFits
  decide +kernel

theorem witness_FqplaneCompletes :
    LegalTiling hw plane8 ∧ LegalParams plane8 ∧ PlaneWritten plane8 .cb (plane8.nRows * plane8.nCols) ∧
    ∀ tr < plane8.tileRows, ∀ tc < plane8.tileCols,
      BlockFits plane8 (forwardTile .cb (blockAt (plane8.mem.pln.get .cb) plane8.nCols tr tc)) := by
  refine ⟨by unfold LegalTiling LegalShape; decide, by unfold LegalParams; decide,
    by unfold PlaneWritten; decide +kernel, ?_⟩
  have h : ∀ tr < plane8.tileRows, ∀ tc < plane8.tileCols,
      blockAt (plane8.mem.pln.get .cb) plane8.nCols tr tc = zeros := by decide +kernel
  intro tr hr tc hc
  rw [h tr hr tc hc]
  exact zeros_fit

/-- An 8×16 plane of zeros but for element (0, 8), which is 5000000 (V69, in the second tile). -/
def bad16 : State :=
  { shaped 8#32 16#32 with
    mem := { Memory.empty with
      pln := Chan3.all (from_ 0 ((List.range 128).map fun i => if i = 8 then 0x415312D000000000#64 else 0#64)) } }

/-- The failing tile is the second of two (`n = 1`), and, in a plane with the value in its first tile, the first. -/
theorem witness_FqplaneFaultKeepsEarlierTiles :
    LegalTiling hw bad16 ∧ LegalParams bad16 ∧ PlaneWritten bad16 .cb (bad16.nRows * bad16.nCols) ∧
    1 < bad16.tileRows * bad16.tileCols ∧
    (∀ m < 1, BlockFits bad16 (forwardTile .cb
      (blockAt (bad16.mem.pln.get .cb) bad16.nCols (m / bad16.tileCols) (m % bad16.tileCols)))) ∧
    ¬BlockFits bad16 (forwardTile .cb (blockAt (bad16.mem.pln.get .cb) bad16.nCols (1 / bad16.tileCols) (1 % bad16.tileCols))) ∧
    ¬BlockFits plane8 (forwardTile .cb (blockAt (from_ 0 (0x415312D000000000#64 :: List.replicate 63 0#64)) 8 0 0)) := by
  refine ⟨by unfold LegalTiling LegalShape; decide, by unfold LegalParams; decide,
    by unfold PlaneWritten; decide +kernel, by decide, ?_, fun h => ?_, fun h => ?_⟩
  · have h : ∀ m < 1, blockAt (bad16.mem.pln.get .cb) bad16.nCols (m / bad16.tileCols) (m % bad16.tileCols) = zeros := by
      decide +kernel
    intro m hm
    rw [h m hm]
    exact zeros_fit
  · exact absurd (h 0 0).2.2 (by decide +kernel)
  · exact absurd (h 0 0).2.2 (by decide +kernel)

theorem witness_DqiplaneCompletes : LegalTiling hw plane8 ∧ QPlaneWritten plane8 .y (plane8.nRows * plane8.nCols) := by
  unfold LegalTiling LegalShape QPlaneWritten; decide +kernel

theorem witness_EncodeCompletes :
    LegalInput hw enc8 ∧ InputWritten enc8 ∧ LegalParams enc8 ∧ sparseChannels enc8 = [.y] ∧
    ∀ tr < cropRows enc8 / 8, ∀ tc < cropCols enc8 / 8, BlockFits enc8 (forwardTile .y (convertedBlock enc8 .y tr tc)) := by
  refine ⟨by unfold LegalInput; decide, by unfold InputWritten; decide +kernel, by unfold LegalParams; decide, rfl, ?_⟩
  have h : ∀ tr < cropRows enc8 / 8, ∀ tc < cropCols enc8 / 8,
      centerBlock binary64 (convertedBlock enc8 .y tr tc) = zeros := by decide +kernel
  intro tr hr tc hc
  show BlockFits enc8 (fdct binary64 (centerBlock binary64 (convertedBlock enc8 .y tr tc)))
  rw [h tr hr tc hc]
  exact zeros_fit

/-- An 8×8 image of one pixel whose luminance is exactly 128 and whose chrominance is exactly 0, with all three channels
sparse (`CTRL.CHROMA = 1`). -/
def enc8Sparse : State :=
  { enc8 with
    ctrl := 4#32
    mem := { Memory.empty with
      pix := from_ 0 ((List.range 192).map fun i =>
        if i % 3 = 0 then 0xC049B98FAAEB94B8#64 else if i % 3 = 1 then 0x4070773A8737FBE3#64 else 0xC058B2F135A83379#64) } }

theorem witness_EncodeCompletes_sparse :
    LegalInput hw enc8Sparse ∧ InputWritten enc8Sparse ∧ LegalParams enc8Sparse ∧
    sparseChannels enc8Sparse = [.y, .cb, .cr] ∧
    ∀ ch, ∀ tr < cropRows enc8Sparse / 8, ∀ tc < cropCols enc8Sparse / 8,
      BlockFits enc8Sparse (forwardTile ch (convertedBlock enc8Sparse ch tr tc)) := by
  refine ⟨by unfold LegalInput; decide, by unfold InputWritten; decide +kernel, by unfold LegalParams; decide, rfl, ?_⟩
  have hy : ∀ tr < cropRows enc8Sparse / 8, ∀ tc < cropCols enc8Sparse / 8,
      centerBlock binary64 (convertedBlock enc8Sparse .y tr tc) = zeros := by decide +kernel
  have hb : ∀ tr < cropRows enc8Sparse / 8, ∀ tc < cropCols enc8Sparse / 8,
      convertedBlock enc8Sparse .cb tr tc = zeros := by decide +kernel
  have hr : ∀ tr < cropRows enc8Sparse / 8, ∀ tc < cropCols enc8Sparse / 8,
      convertedBlock enc8Sparse .cr tr tc = zeros := by decide +kernel
  intro ch tr htr tc htc
  cases ch with
  | y =>
    show BlockFits enc8Sparse (fdct binary64 (centerBlock binary64 (convertedBlock enc8Sparse .y tr tc)))
    rw [hy tr htr tc htc]; exact zeros_fit
  | cb =>
    show BlockFits enc8Sparse (fdct binary64 (convertedBlock enc8Sparse .cb tr tc))
    rw [hb tr htr tc htc]; exact zeros_fit
  | cr =>
    show BlockFits enc8Sparse (fdct binary64 (convertedBlock enc8Sparse .cr tr tc))
    rw [hr tr htr tc htc]; exact zeros_fit

theorem witness_DecodeCompletes :
    LegalTiling hw dec8 ∧ (∀ ch ∈ sparseChannels dec8, CsrReady dec8 ch) ∧
    ∀ ch, ch ∉ sparseChannels dec8 → PlaneWritten dec8 ch (dec8.nRows * dec8.nCols) := by
  refine ⟨by unfold LegalTiling LegalShape; decide, ?_, ?_⟩
  · intro ch hch
    have h : ch = .y := by revert hch; cases ch <;> decide
    subst h
    exact ⟨rfl, by decide +kernel⟩
  · intro ch _
    unfold PlaneWritten
    cases ch <;> decide +kernel

/-- `dec8` with all three channels sparse (`CTRL.CHROMA = 1`). -/
def dec8Sparse : State :=
  { dec8 with
    ctrl := 4#32
    rptrlen := Chan3.all 9#32
    mem := { dec8.mem with rptr := Chan3.all (from_ 0 (List.replicate 9 0#32)) } }

theorem witness_DecodeCompletes_sparse :
    LegalTiling hw dec8Sparse ∧ sparseChannels dec8Sparse = [.y, .cb, .cr] ∧ ∀ ch, CsrReady dec8Sparse ch := by
  refine ⟨by unfold LegalTiling LegalShape; decide, rfl, fun ch => ?_⟩
  cases ch <;> exact ⟨rfl, by decide +kernel⟩

theorem witness_DecodeAfterEncodeSucceeds : ∃ t, exec .encode enc8 = .next t ∧ (!t.status.err) = true := encode_runs

/-- `PIX` of `image89` with another sample in its ninth column (P3). -/
theorem witness_CroppedSamplesHaveNoInfluence :
    (∀ r < cropRows image89, ∀ c < cropCols image89, ∀ k < 3,
      Buf.read (Buf.write image89.mem.pix 24 0x406FE00000000000#64) (pixIdx image89.width.toInt.toNat r c k) =
        Buf.read image89.mem.pix (pixIdx image89.width.toInt.toNat r c k)) ∧
    Buf.read (Buf.write image89.mem.pix 24 0x406FE00000000000#64) 24 ≠ Buf.read image89.mem.pix 24 := by decide +kernel

theorem witness_DecodeIgnoresEncodeParameters : (3#32 : Word32).getLsbD 2 = dec8.ctrl.getLsbD 2 := by decide

/-! ## Invariants -/

theorem witness_EveryStepKeepsStatusSound :
    StatusSound (pending 0x70#32) ∧ ∃ t, step (pending 0x70#32) = .next t ∧ t.status.err = true :=
  ⟨witness_HostAccessWhileBusy.1, of_ends (by decide)⟩

theorem witness_EveryStepKeepsMemorySound :
    MemorySound { v40 with status := ⟨true, false, false, false⟩, pend := encode (.pack .y) } ∧
    ∃ t, step { v40 with status := ⟨true, false, false, false⟩, pend := encode (.pack .y) } = .next t ∧
      (t.mem.rptr.y == from_ 0 [0#32, 1#32, 3#32]) = true := by
  refine ⟨⟨by decide, ?_⟩, of_ends (by decide +kernel)⟩
  refine ⟨?_, ?_, fun ch => ?_, fun ch => ?_, fun ch => ?_, fun ch => ?_, fun ch => ?_⟩ <;>
    first
      | (unfold Buf.below; decide)
      | (unfold Buf.below; cases ch <;> decide)

end Sys2Proof.Tests
end

section
/-! Binary64 numbers (R11) as a sign and the 63 bits below it: class, magnitude, order and value. -/

namespace Sys2Proof.Machine

/-- The bits below the sign: exponent and fraction. -/
def lowBits (x : F64) : Nat := x.toNat % 2 ^ 63

/-- The magnitude, in units of `2^-1074`, that bits below the sign stand for. -/
def magOfBits (b : Nat) : Nat := if b / 2 ^ 52 = 0 then b % 2 ^ 52 else (2 ^ 52 + b % 2 ^ 52) * 2 ^ (b / 2 ^ 52 - 1)

/-! ## The fields -/

theorem lowBits_lt (x : F64) : lowBits x < 2 ^ 63 := Nat.mod_lt _ (by decide)

theorem f64Exp_eq (x : F64) : f64Exp x = lowBits x / 2 ^ 52 := by
  have := x.isLt
  unfold f64Exp lowBits
  omega

theorem f64Frac_eq (x : F64) : f64Frac x = lowBits x % 2 ^ 52 := by
  unfold f64Frac lowBits
  omega

theorem f64Mag_eq (x : F64) : f64Mag x = magOfBits (lowBits x) := by
  unfold f64Mag magOfBits
  rw [f64Exp_eq, f64Frac_eq]

theorem f64Sign_iff (x : F64) : f64Sign x = true ↔ 2 ^ 63 ≤ x.toNat := by
  have := x.isLt
  simp only [f64Sign, BitVec.getLsbD, Nat.testBit_eq_decide_div_mod_eq, decide_eq_true_eq]
  omega

theorem f64Finite_iff {x : F64} : f64Finite x = true ↔ lowBits x < infBits := by
  simp only [f64Finite, f64Exp_eq, infBits, bne_iff_ne]
  have := lowBits_lt x
  omega

theorem f64IsInf_iff {x : F64} : f64IsInf x = true ↔ lowBits x = infBits := by
  simp only [f64IsInf, f64Exp_eq, f64Frac_eq, infBits, Bool.and_eq_true, beq_iff_eq]
  omega

theorem f64IsNaN_iff {x : F64} : f64IsNaN x = true ↔ infBits < lowBits x := by
  simp only [f64IsNaN, f64Exp_eq, f64Frac_eq, infBits, Bool.and_eq_true, beq_iff_eq, bne_iff_ne]
  have := lowBits_lt x
  omega

theorem f64IsNaN_of_finite {x : F64} (h : f64Finite x = true) : f64IsNaN x = false := by
  rw [← Bool.not_eq_true, f64IsNaN_iff]
  exact (f64Finite_iff.1 h).not_gt

theorem f64IsInf_of_finite {x : F64} (h : f64Finite x = true) : f64IsInf x = false := by
  rw [← Bool.not_eq_true, f64IsInf_iff]
  exact (f64Finite_iff.1 h).ne

theorem lowBits_withSign (neg : Bool) {b : Nat} (h : b < 2 ^ 63) : lowBits (withSign neg b) = b := by
  cases neg <;> simp only [lowBits, withSign, BitVec.toNat_ofNat] <;> grind

theorem f64Sign_withSign (neg : Bool) {b : Nat} (h : b < 2 ^ 63) : f64Sign (withSign neg b) = neg := by
  rw [Bool.eq_iff_iff, f64Sign_iff]
  cases neg <;> simp [withSign] <;> omega

/-- A number is its sign and the bits below it. -/
theorem withSign_lowBits (x : F64) : withSign (f64Sign x) (lowBits x) = x := by
  have hlt := x.isLt
  have hsign := f64Sign_iff x
  apply BitVec.eq_of_toNat_eq
  cases h : f64Sign x <;> simp only [withSign, lowBits, BitVec.toNat_ofNat, h] at hsign ⊢ <;> grind

/-! ## The magnitude of bits -/

/-- An exponent `e` above a significand `s` of at most 53 bits, normal unless `e = 0`, is `s * 2^e` units; the carry of
`s = 2^53` into the exponent included. -/
theorem magOfBits_add {e s : Nat} (hs : s ≤ 2 ^ 53) (hn : e = 0 ∨ 2 ^ 52 ≤ s) : magOfBits (e * 2 ^ 52 + s) = s * 2 ^ e := by
  unfold magOfBits
  rcases Nat.lt_or_ge s (2 ^ 52) with hsub | hnorm
  · obtain rfl : e = 0 := hn.resolve_right (by omega)
    rw [if_pos (by omega), Nat.zero_mul, Nat.zero_add, Nat.mod_eq_of_lt hsub, Nat.pow_zero, Nat.mul_one]
  · rcases Nat.eq_or_lt_of_le hs with rfl | hlt
    · have hexp : (e * 2 ^ 52 + 2 ^ 53) / 2 ^ 52 = e + 2 := by omega
      have hfrac : (e * 2 ^ 52 + 2 ^ 53) % 2 ^ 52 = 0 := by omega
      rw [hexp, hfrac, if_neg (by omega), Nat.add_sub_cancel (n := e + 1) (m := 1), Nat.pow_succ]
      ring
    · have hexp : (e * 2 ^ 52 + s) / 2 ^ 52 = e + 1 := by omega
      have hfrac : 2 ^ 52 + (e * 2 ^ 52 + s) % 2 ^ 52 = s := by omega
      rw [hexp, hfrac, if_neg (by omega), Nat.add_sub_cancel]

/-- Every bit pattern below the sign is an exponent above a significand of at most 53 bits. -/
theorem exists_exponent_significand (b : Nat) : ∃ e s, b = e * 2 ^ 52 + s ∧ s < 2 ^ 53 ∧ (e = 0 ∨ 2 ^ 52 ≤ s) := by
  rcases Nat.lt_or_ge b (2 ^ 52) with h | h
  · exact ⟨0, b, by omega, by omega, .inl rfl⟩
  · exact ⟨b / 2 ^ 52 - 1, 2 ^ 52 + b % 2 ^ 52, by omega, by omega, .inr (by omega)⟩

/-- Magnitudes have at most 53 significant bits. -/
theorem exists_f64Mag_eq (x : F64) : ∃ k j, f64Mag x = k * 2 ^ j ∧ k < 2 ^ 53 := by
  obtain ⟨e, s, hb, hs, hn⟩ := exists_exponent_significand (lowBits x)
  exact ⟨s, e, by rw [f64Mag_eq, hb, magOfBits_add hs.le hn], hs⟩

/-- Magnitudes are in the order of their bits. -/
theorem magOfBits_strictMono : StrictMono magOfBits := by
  refine strictMono_nat_of_lt_succ fun b => ?_
  obtain ⟨e, s, rfl, hs, hn⟩ := exists_exponent_significand b
  rw [magOfBits_add hs.le hn, Nat.add_assoc, magOfBits_add hs (hn.imp_right (by omega))]
  exact Nat.mul_lt_mul_of_pos_right s.lt_succ_self (by positivity)

/-! ## Sign change -/

theorem lowBits_neg (x : F64) : lowBits (f64Neg x) = lowBits x := by
  rw [lowBits, lowBits, f64Neg, BitVec.toNat_xor, Nat.xor_mod_two_pow]
  exact Nat.xor_zero _

@[simp] theorem f64Mag_neg (x : F64) : f64Mag (f64Neg x) = f64Mag x := by rw [f64Mag_eq, f64Mag_eq, lowBits_neg]

@[simp] theorem f64Finite_neg (x : F64) : f64Finite (f64Neg x) = f64Finite x := by
  rw [Bool.eq_iff_iff, f64Finite_iff, f64Finite_iff, lowBits_neg]

@[simp] theorem f64Sign_neg (x : F64) : f64Sign (f64Neg x) = !f64Sign x := by
  simp [f64Sign, f64Neg]

@[simp] theorem f64Units_neg (x : F64) : f64Units (f64Neg x) = -f64Units x := by
  cases h : f64Sign x <;> simp [f64Units, h]

/-! ## Values and their order -/

theorem f64Units_natAbs (x : F64) : (f64Units x).natAbs = f64Mag x := by
  unfold f64Units
  split <;> simp

theorem unit64_cast : (unit64 : ℚ) = 2 ^ 1074 := by
  rw [unit64, Nat.cast_pow, Nat.cast_ofNat]

theorem unit64_pos : 0 < unit64 := by
  unfold unit64
  positivity

theorem unit64_cast_pos : (0 : ℚ) < unit64 := Nat.cast_pos.2 unit64_pos

theorem f64Value_eq (x : F64) : f64Value x = (f64Units x : ℚ) / unit64 := by rw [f64Value, unit64_cast]

@[simp] theorem f64Value_neg (x : F64) : f64Value (f64Neg x) = -f64Value x := by
  rw [f64Value_eq, f64Value_eq, f64Units_neg, Int.cast_neg, neg_div]

theorem abs_f64Value (x : F64) : |f64Value x| = (f64Mag x : ℚ) / unit64 := by
  rw [f64Value_eq, abs_div, abs_of_pos unit64_cast_pos, ← Int.cast_abs, Int.abs_eq_natAbs, f64Units_natAbs, Int.cast_natCast]

theorem f64Value_lt_iff {x y : F64} : f64Value x < f64Value y ↔ f64Units x < f64Units y := by
  rw [f64Value_eq, f64Value_eq, div_lt_div_iff_of_pos_right unit64_cast_pos, Int.cast_lt]

theorem f64Value_inj {x y : F64} : f64Value x = f64Value y ↔ f64Units x = f64Units y := by
  rw [f64Value_eq, f64Value_eq, div_left_inj' unit64_cast_pos.ne', Int.cast_inj]

theorem f64Key_eq (x : F64) : f64Key x = if f64Sign x then -(lowBits x : Int) else (lowBits x : Int) := rfl

/-- The order of the bits is the order of the units. -/
theorem f64Key_lt_iff {x y : F64} : f64Key x < f64Key y ↔ f64Units x < f64Units y := by
  have mono (a b : Nat) : magOfBits a < magOfBits b ↔ a < b := magOfBits_strictMono.lt_iff_lt
  have pos (a : Nat) : 0 < magOfBits a ↔ 0 < a := mono 0 a
  have hxy := mono (lowBits x) (lowBits y)
  have hyx := mono (lowBits y) (lowBits x)
  have hx := pos (lowBits x)
  have hy := pos (lowBits y)
  rw [f64Key_eq, f64Key_eq]
  simp only [f64Units, f64Mag_eq]
  split <;> split <;> omega

/-- On finite numbers the strict order is that of the values (R11). -/
theorem f64Lt_iff {x y : F64} (hx : f64Finite x = true) (hy : f64Finite y = true) :
    f64Lt x y = true ↔ f64Value x < f64Value y := by
  simp [f64Lt, f64IsNaN_of_finite hx, f64IsNaN_of_finite hy, f64Value_lt_iff, f64Key_lt_iff]

end Sys2Proof.Machine
end

section
/-! Rounding to nearest, ties to even (R11): what `roundUnits` delivers, and that every operation rounds correctly. -/

namespace Sys2Proof.Machine

/-! ## Signs -/

/-- The factor of a sign bit. -/
def signFactor (neg : Bool) : Int := if neg then -1 else 1

theorem signFactor_mul_self (neg : Bool) : signFactor neg * signFactor neg = 1 := by cases neg <;> rfl

theorem signFactor_bne (a b : Bool) : signFactor (a != b) = signFactor a * signFactor b := by
  cases a <;> cases b <;> rfl

theorem abs_signFactor (neg : Bool) : |signFactor neg| = 1 := by cases neg <;> rfl

theorem signFactor_mul_natAbs (u : Int) : signFactor (decide (u < 0)) * u.natAbs = u := by
  unfold signFactor
  split <;> rename_i h <;> simp only [decide_eq_true_eq] at h <;> omega

theorem f64Units_eq (x : F64) : f64Units x = signFactor (f64Sign x) * f64Mag x := by
  unfold f64Units signFactor
  split <;> simp

/-! ## The nearest multiple of a step -/

/-- The integer nearest to `n / step`, ties to even. -/
def nearestEven (n step : Nat) : Nat :=
  n / step + if step < 2 * (n % step) ∨ (2 * (n % step) = step ∧ n / step % 2 = 1) then 1 else 0

theorem nearestEven_bounds (n step : Nat) : n / step ≤ nearestEven n step ∧ nearestEven n step ≤ n / step + 1 := by
  unfold nearestEven
  split <;> omega

/-- No multiple of the step is nearer to `n`, and where another is as near the chosen one is even. -/
theorem nearestEven_nearest {n step : Nat} (h : 0 < step) (K : Int) :
    (nearestEven n step * step - n : Int).natAbs ≤ (K * step - n).natAbs ∧
      ((nearestEven n step * step - n : Int).natAbs = (K * step - n).natAbs → K ≠ nearestEven n step →
        nearestEven n step % 2 = 0) := by
  have hr : n % step < step := Nat.mod_lt n h
  have hn : (n : Int) = (n / step : Nat) * step + (n % step : Nat) := by
    exact_mod_cast (Nat.div_add_mod' n step).symm
  obtain ⟨i, rfl⟩ : ∃ i, K = (n / step : Nat) + i := ⟨K - (n / step : Nat), by omega⟩
  have hi : i * step ≤ -1 * step ∨ i = 0 ∧ i * step = 0 ∨ i = 1 ∧ i * step = step ∨ 2 * step ≤ i * step := by
    rcases (by omega : i ≤ -1 ∨ i = 0 ∨ i = 1 ∨ 2 ≤ i) with hlt | rfl | rfl | hgt
    · exact .inl (by gcongr)
    · exact .inr (.inl ⟨rfl, zero_mul _⟩)
    · exact .inr (.inr (.inl ⟨rfl, one_mul _⟩))
    · exact .inr (.inr (.inr (by gcongr)))
  unfold nearestEven
  rw [hn]
  push_cast [add_mul]
  generalize i * (step : Int) = T at *
  generalize ((n / step : Nat) : Int) * step = M
  split <;> omega

/-! ## The significand of a rounded number -/

/-- The number of low bits of `n / d` beyond 53. -/
def excessBits (n d : Nat) : Nat := Nat.log2 (n / d) + 1 - 53

/-- The significand, possibly `2^53`, to which `n / d` rounds. -/
def significand (n d : Nat) : Nat := nearestEven n (d * 2 ^ excessBits n d)

theorem roundBits_eq (n d : Nat) : roundBits n d = min (excessBits n d * 2 ^ 52 + significand n d) infBits := by
  rw [roundBits, significand, nearestEven, Nat.add_assoc]
  rfl

/-- Before rounding the significand has at most 53 bits, and 53 if bits are cut off. -/
theorem quotient_bounds (n d : Nat) :
    n / (d * 2 ^ excessBits n d) < 2 ^ 53 ∧ (excessBits n d = 0 ∨ 2 ^ 52 ≤ n / (d * 2 ^ excessBits n d)) := by
  rw [← Nat.div_div_eq_div_mul]
  constructor
  · rw [Nat.div_lt_iff_lt_mul (by positivity), ← Nat.pow_add]
    exact Nat.lt_log2_self.trans_le (Nat.pow_le_pow_right (by decide) (by unfold excessBits; omega))
  · refine or_iff_not_imp_left.2 fun he => ?_
    have hlog : 52 + excessBits n d = Nat.log2 (n / d) := by unfold excessBits at *; omega
    have hne : n / d ≠ 0 := by
      rintro h0
      rw [h0, Nat.log2_zero] at hlog
      omega
    rw [Nat.le_div_iff_mul_le (by positivity), ← Nat.pow_add, hlog]
    exact Nat.log2_self_le hne

theorem significand_bounds (n d : Nat) :
    significand n d ≤ 2 ^ 53 ∧ (excessBits n d = 0 ∨ 2 ^ 52 ≤ significand n d) := by
  have hq := quotient_bounds n d
  have hs := nearestEven_bounds n (d * 2 ^ excessBits n d)
  unfold significand
  omega

/-- Among the numbers of 53 significant bits, of any exponent and either sign, none is nearer to `n / d` than the rounded
one, and where another is as near the rounded significand is even. -/
theorem significand_nearest {n d : Nat} (hd : 0 < d) {v : Int} (hv : ∃ k j, v.natAbs = k * 2 ^ j ∧ k < 2 ^ 53) :
    ((significand n d * 2 ^ excessBits n d : Nat) * d - n : Int).natAbs ≤ (v * d - n).natAbs ∧
      (((significand n d * 2 ^ excessBits n d : Nat) * d - n : Int).natAbs = (v * d - n).natAbs →
        v ≠ (significand n d * 2 ^ excessBits n d : Nat) → significand n d % 2 = 0) := by
  obtain ⟨k, j, hkj, hk⟩ := hv
  have hstep : 0 < d * 2 ^ excessBits n d := by positivity
  have hcomm : ((significand n d * 2 ^ excessBits n d : Nat) * d : Int) =
      significand n d * (d * 2 ^ excessBits n d : Nat) := by push_cast; ring
  rw [hcomm]
  rcases Nat.lt_or_ge j (excessBits n d) with hj | hj
  · -- `v` has a finer grid: it lies below the significand cut off, so strictly farther.
    have hcut := (quotient_bounds n d).2.resolve_left (by omega)
    have hnear := (nearestEven_nearest hstep (n := n) (n / (d * 2 ^ excessBits n d) : Nat)).1
    have hle : n / (d * 2 ^ excessBits n d) * (d * 2 ^ excessBits n d) ≤ n := Nat.div_mul_le_self n _
    have hlt : v * d < (n / (d * 2 ^ excessBits n d) * (d * 2 ^ excessBits n d) : Nat) := by
      have hv : v.natAbs < n / (d * 2 ^ excessBits n d) * 2 ^ excessBits n d := by
        calc v.natAbs = k * 2 ^ j := hkj
          _ < 2 ^ 53 * 2 ^ j := by gcongr
          _ = 2 ^ 52 * 2 ^ (j + 1) := by ring
          _ ≤ n / (d * 2 ^ excessBits n d) * 2 ^ excessBits n d :=
            Nat.mul_le_mul hcut (Nat.pow_le_pow_right (by decide) hj)
      calc v * d ≤ (v.natAbs * d : Nat) := by push_cast; gcongr; exact le_abs_self v
        _ < (n / (d * 2 ^ excessBits n d) * 2 ^ excessBits n d * d : Nat) := by gcongr
        _ = _ := by push_cast; ring
    rw [← Nat.cast_mul] at hnear
    unfold significand
    omega
  · -- `v` is a multiple of the step.
    obtain ⟨i, rfl⟩ := Nat.exists_eq_add_of_le hj
    have hdvd : ((2 ^ excessBits n d : Nat) : Int) ∣ v :=
      Int.natCast_dvd.2 ⟨k * 2 ^ i, by rw [hkj]; ring⟩
    obtain ⟨K, rfl⟩ := hdvd
    have hK : ((2 ^ excessBits n d : Nat) * K * d : Int) = K * (d * 2 ^ excessBits n d : Nat) := by push_cast; ring
    rw [hK]
    obtain ⟨hle, heven⟩ := nearestEven_nearest hstep (n := n) K
    refine ⟨hle, fun heq hne => heven heq fun hKs => hne ?_⟩
    rw [hKs, significand]
    push_cast
    ring


/-- The significand carries to `2^53` exactly from the midpoint of `2^53 - 1` and `2^53` on. -/
theorem significand_lt_iff {n d : Nat} (hd : 0 < d) :
    significand n d < 2 ^ 53 ↔ 2 * n < (2 ^ 54 - 1) * (d * 2 ^ excessBits n d) := by
  have hlt := (quotient_bounds n d).1
  have hmod := Nat.div_add_mod' n (d * 2 ^ excessBits n d)
  have hr := Nat.mod_lt n (y := d * 2 ^ excessBits n d) (by positivity)
  unfold significand nearestEven
  generalize d * 2 ^ excessBits n d = step at *
  generalize n % step = r at *
  generalize n / step = m at *
  subst hmod
  rcases Nat.lt_or_ge m (2 ^ 53 - 1) with hm | hm
  · have hle : m * step ≤ (2 ^ 53 - 2) * step := Nat.mul_le_mul_right _ (by omega)
    refine iff_of_true ?_ ?_
    · split <;> omega
    · omega
  · have hm : m = 2 ^ 53 - 1 := by omega
    have hprod : m * step = (2 ^ 53 - 1) * step := by rw [hm]
    split <;> omega

/-! ## Overflow -/

/-- The least magnitude in units that rounds to infinity: `2^1024 - 2^970`. -/
def overflowUnits : Nat := (2 ^ 54 - 1) * 2 ^ 2044

theorem overflowUnits_pos : 0 < overflowUnits := Nat.mul_pos (by decide) (pow_pos (by decide) _)

/-- A power of two beside another: at most it, its double, or at least four times it. -/
theorem mul_two_pow_cases {d : Nat} (hd : 0 < d) (e t : Nat) :
    0 < d * 2 ^ t ∧ (e ≤ t → d * 2 ^ e ≤ d * 2 ^ t) ∧ (e = t + 1 → d * 2 ^ e = 2 * (d * 2 ^ t)) ∧
      (t + 2 ≤ e → 4 * (d * 2 ^ t) ≤ d * 2 ^ e) := by
  refine ⟨by positivity, fun h => by gcongr; decide, ?_, fun h => ?_⟩
  · rintro rfl
    ring
  · calc 4 * (d * 2 ^ t) = d * 2 ^ (t + 2) := by ring
      _ ≤ d * 2 ^ e := by gcongr; decide

/-- The rounded bits are finite exactly below the overflow bound. -/
theorem finiteBits_iff {n d : Nat} (hd : 0 < d) :
    excessBits n d * 2 ^ 52 + significand n d < infBits ↔ n < d * overflowUnits := by
  obtain ⟨hlt, hnorm⟩ := quotient_bounds n d
  have hs := significand_bounds n d
  have hcarry := significand_lt_iff hd (n := n)
  have hbound : d * overflowUnits = (2 ^ 54 - 1) * (d * 2 ^ 2044) := by rw [overflowUnits, Nat.mul_left_comm]
  obtain ⟨hpos, hbelow, hat, habove⟩ := mul_two_pow_cases hd (excessBits n d) 2044
  have hn : n < 2 ^ 53 * (d * 2 ^ excessBits n d) := (Nat.div_lt_iff_lt_mul (by positivity)).1 hlt
  have hn' : excessBits n d = 0 ∨ 2 ^ 52 * (d * 2 ^ excessBits n d) ≤ n :=
    hnorm.imp_right (Nat.le_div_iff_mul_le (by positivity)).1
  rw [hbound]
  unfold infBits
  generalize d * 2 ^ 2044 = P at *
  generalize d * 2 ^ excessBits n d = step at *
  rcases Nat.lt_trichotomy (excessBits n d) 2045 with he | he | he
  · exact iff_of_true (by omega) (by omega)
  · omega
  · exact iff_of_false (by omega) (by omega)

/-! ## The rounded number -/

theorem roundBits_le (n d : Nat) : roundBits n d ≤ infBits := by
  rw [roundBits_eq]
  exact Nat.min_le_right _ _

theorem roundBits_lt (n d : Nat) : roundBits n d < 2 ^ 63 := (roundBits_le n d).trans_lt (by decide)

@[simp] theorem f64Sign_roundUnits (neg : Bool) (n d : Nat) : f64Sign (roundUnits neg n d) = neg :=
  f64Sign_withSign neg (roundBits_lt n d)

theorem lowBits_roundUnits (neg : Bool) (n d : Nat) : lowBits (roundUnits neg n d) = roundBits n d :=
  lowBits_withSign neg (roundBits_lt n d)

/-- From the overflow bound on the result is an infinity. -/
theorem f64IsInf_roundUnits {n d : Nat} (neg : Bool) (hd : 0 < d) (h : d * overflowUnits ≤ n) :
    f64IsInf (roundUnits neg n d) = true := by
  rw [f64IsInf_iff, lowBits_roundUnits, roundBits_eq, Nat.min_eq_right]
  exact not_lt.1 fun hlt => h.not_gt ((finiteBits_iff hd).1 hlt)

section
variable {n d : Nat} (hd : 0 < d) (h : n < d * overflowUnits)
include hd h

theorem lowBits_roundUnits_of_lt (neg : Bool) :
    lowBits (roundUnits neg n d) = excessBits n d * 2 ^ 52 + significand n d := by
  rw [lowBits_roundUnits, roundBits_eq, Nat.min_eq_left ((finiteBits_iff hd).2 h).le]

/-- Below the overflow bound the result is finite. -/
theorem f64Finite_roundUnits (neg : Bool) : f64Finite (roundUnits neg n d) = true := by
  rw [f64Finite_iff, lowBits_roundUnits_of_lt hd h]
  exact (finiteBits_iff hd).2 h

/-- Below the overflow bound the result is the rounded significand at its exponent. -/
theorem f64Units_roundUnits (neg : Bool) :
    f64Units (roundUnits neg n d) = signFactor neg * (significand n d * 2 ^ excessBits n d : Nat) := by
  obtain ⟨hs, hn⟩ := significand_bounds n d
  rw [f64Units_eq, f64Sign_roundUnits, f64Mag_eq, lowBits_roundUnits_of_lt hd h, magOfBits_add hs hn]

theorem f64Frac_roundUnits_mod_two (neg : Bool) : f64Frac (roundUnits neg n d) % 2 = significand n d % 2 := by
  rw [f64Frac_eq, lowBits_roundUnits_of_lt hd h]
  omega

end

/-- A magnitude of 53 significant bits below the overflow bound is not changed by rounding. -/
theorem f64Units_roundUnits_exact {n k j : Nat} (neg : Bool) (hn : n = k * 2 ^ j) (hk : k < 2 ^ 53) (h : n < overflowUnits) :
    f64Finite (roundUnits neg n 1) = true ∧ f64Units (roundUnits neg n 1) = signFactor neg * n := by
  have h1 : n < 1 * overflowUnits := by rwa [Nat.one_mul]
  have hnear := (significand_nearest Nat.one_pos (n := n) (v := n) ⟨k, j, by simpa using hn, hk⟩).1
  have heq : significand n 1 * 2 ^ excessBits n 1 = n := by omega
  exact ⟨f64Finite_roundUnits Nat.one_pos h1 neg, by rw [f64Units_roundUnits Nat.one_pos h1, heq]⟩

/-! ## Distances -/

/-- The distance of a value to `± n / d` units, on integers. -/
theorem abs_f64Value_sub (y : F64) (neg : Bool) (n : Nat) {d : Nat} (hd : 0 < d) :
    |f64Value y - signFactor neg * (n / d / unit64 : ℚ)| =
      ((signFactor neg * f64Units y * d - n).natAbs : ℚ) / (d * unit64) := by
  have hd' : (0 : ℚ) < d := Nat.cast_pos.2 hd
  have hu := unit64_cast_pos
  have hs : (signFactor neg : ℚ) * signFactor neg = 1 := by exact_mod_cast signFactor_mul_self neg
  have habs : |(signFactor neg : ℚ)| = 1 := by exact_mod_cast abs_signFactor neg
  have hdiff : f64Value y - signFactor neg * (n / d / unit64 : ℚ) =
      signFactor neg * ((signFactor neg * f64Units y * d - n : Int) / (d * unit64)) := by
    rw [f64Value_eq]
    push_cast
    field_simp
    linear_combination (-(f64Units y : ℚ)) * d * hs
  rw [hdiff, abs_mul, habs, one_mul, abs_div, abs_of_pos (mul_pos hd' hu), Nat.cast_natAbs, Int.cast_abs]

theorem natAbs_signFactor_mul (neg : Bool) (u : Int) : (signFactor neg * u).natAbs = u.natAbs := by
  cases neg <;> simp [signFactor]

/-- The overflow bound as a value. -/
theorem overflow_cast : (2 : ℚ) ^ 1024 - 2 ^ 970 = overflowUnits / unit64 := by
  have hhigh : (2 : ℚ) ^ 1024 = 2 ^ 54 * 2 ^ 970 := by rw [← pow_add]
  have hlow : (2 : ℚ) ^ 2044 = 2 ^ 970 * 2 ^ 1074 := by rw [← pow_add]
  rw [eq_div_iff unit64_cast_pos.ne', unit64_cast, overflowUnits, Nat.cast_mul, Nat.cast_pow 2 2044, Nat.cast_ofNat, hhigh,
    hlow, ← mul_assoc, ← sub_one_mul]
  norm_num only

/-- `± n / d` units round as R11 says. -/
theorem roundsTo_roundUnits (neg : Bool) (n : Nat) {d : Nat} (hd : 0 < d) :
    RoundsTo (signFactor neg * (n / d / unit64 : ℚ)) (roundUnits neg n d) := by
  have hd' : (0 : ℚ) < d := Nat.cast_pos.2 hd
  have hu := unit64_cast_pos
  have hq : 0 ≤ (n / d / unit64 : ℚ) := div_nonneg (div_nonneg n.cast_nonneg hd'.le) hu.le
  have habs : |(signFactor neg * (n / d / unit64) : ℚ)| = n / d / unit64 := by
    rw [abs_mul, abs_of_nonneg hq, ← Int.cast_abs, abs_signFactor, Int.cast_one, one_mul]
  have hbound : |(signFactor neg * (n / d / unit64) : ℚ)| < 2 ^ 1024 - 2 ^ 970 ↔ n < d * overflowUnits := by
    rw [habs, overflow_cast, div_lt_div_iff_of_pos_right hu, div_lt_iff₀' hd']
    exact_mod_cast Iff.rfl
  refine ⟨fun hlt => ?_, fun hge => ?_⟩
  · have h := hbound.1 hlt
    refine ⟨f64Finite_roundUnits hd h neg, fun y _ => ?_⟩
    obtain ⟨hle, heven⟩ := significand_nearest hd (n := n) (v := signFactor neg * f64Units y) (by
      rw [natAbs_signFactor_mul, f64Units_natAbs]
      exact exists_f64Mag_eq y)
    rw [abs_f64Value_sub _ neg n hd, abs_f64Value_sub _ neg n hd, f64Units_roundUnits hd h, ← mul_assoc,
      signFactor_mul_self, one_mul, div_le_div_iff_of_pos_right (mul_pos hd' hu), div_left_inj' (mul_pos hd' hu).ne',
      Nat.cast_le, Nat.cast_inj, f64Frac_roundUnits_mod_two hd h]
    refine ⟨hle, fun heq hne => heven heq fun hv => hne ?_⟩
    rw [f64Value_inj, f64Units_roundUnits hd h, ← hv, ← mul_assoc, signFactor_mul_self, one_mul]
  · have h : d * overflowUnits ≤ n := not_lt.1 fun hlt => hge.not_gt (hbound.2 hlt)
    refine ⟨f64IsInf_roundUnits neg hd h, ?_⟩
    have hn : 0 < n := (Nat.mul_pos hd overflowUnits_pos).trans_le h
    have hpos : 0 < (n / d / unit64 : ℚ) := div_pos (div_pos (Nat.cast_pos.2 hn) hd') hu
    rw [f64Sign_roundUnits]
    generalize (n / d / unit64 : ℚ) = q at hpos hq
    cases neg <;> simp [signFactor, hpos, hq]

end Sys2Proof.Machine
end

section
/-! Every binary64 operation of the CORE rounds correctly (R11), and the two roundings to integers (R16). -/

namespace Sys2Proof.Machine

/-! ## The operations on finite numbers -/

/-- An integer number of units rounds as its value. -/
theorem roundsTo_int (neg : Bool) (u : Int) (h : u ≠ 0 → neg = decide (u < 0)) :
    RoundsTo (u / unit64) (roundUnits neg u.natAbs 1) := by
  have hu : (u : ℚ) / unit64 = signFactor neg * ((u.natAbs : ℚ) / (1 : Nat) / unit64) := by
    rcases eq_or_ne u 0 with rfl | hne
    · simp only [Int.cast_zero, zero_div, Int.natAbs_zero, Nat.cast_zero, mul_zero]
    · rw [h hne, Nat.cast_one, div_one, ← mul_div_assoc]
      congr 1
      rw [← Int.cast_natCast u.natAbs, ← Int.cast_mul, signFactor_mul_natAbs]
  rw [hu]
  exact roundsTo_roundUnits neg u.natAbs Nat.one_pos

section
variable {x y : F64} (hx : f64Finite x = true) (hy : f64Finite y = true)
include hx hy

theorem f64Sum_of_finite (nan : F64) :
    f64Sum nan x y = roundUnits (if f64Units x + f64Units y = 0 then f64Sign x && f64Sign y else
      decide (f64Units x + f64Units y < 0)) (f64Units x + f64Units y).natAbs 1 := by
  simp [f64Sum, f64IsNaN_of_finite, f64IsInf_of_finite, hx, hy]

theorem roundsTo_f64Sum (nan : F64) : RoundsTo (f64Value x + f64Value y) (f64Sum nan x y) := by
  rw [f64Sum_of_finite hx hy, f64Value_eq, f64Value_eq, ← add_div, ← Int.cast_add]
  exact roundsTo_int _ _ fun hne => if_neg hne

theorem roundsTo_f64Add : RoundsTo (f64Value x + f64Value y) (f64Add x y) := roundsTo_f64Sum hx hy _

theorem roundsTo_f64Sub : RoundsTo (f64Value x - f64Value y) (f64Sub x y) := by
  rw [sub_eq_add_neg, ← f64Value_neg]
  exact roundsTo_f64Sum hx (by rwa [f64Finite_neg]) _

theorem f64Mul_of_finite :
    f64Mul x y = roundUnits (f64Sign x != f64Sign y) (f64Mag x * f64Mag y) unit64 := by
  simp [f64Mul, f64IsNaN_of_finite, f64IsInf_of_finite, hx, hy]

theorem roundsTo_f64Mul : RoundsTo (f64Value x * f64Value y) (f64Mul x y) := by
  have hq : f64Value x * f64Value y =
      signFactor (f64Sign x != f64Sign y) * ((f64Mag x * f64Mag y : Nat) / unit64 / unit64 : ℚ) := by
    rw [f64Value_eq, f64Value_eq, f64Units_eq, f64Units_eq, signFactor_bne]
    push_cast
    ring
  rw [f64Mul_of_finite hx hy, hq]
  exact roundsTo_roundUnits _ _ unit64_pos

theorem f64Div_of_finite (h0 : f64Mag y ≠ 0) :
    f64Div x y = roundUnits (f64Sign x != f64Sign y) (f64Mag x * unit64) (f64Mag y) := by
  simp [f64Div, f64IsNaN_of_finite, f64IsInf_of_finite, hx, hy, h0]

theorem roundsTo_f64Div (h0 : f64Value y ≠ 0) : RoundsTo (f64Value x / f64Value y) (f64Div x y) := by
  have hmag : f64Mag y ≠ 0 := fun h => h0 (by
    rw [f64Value_eq, f64Units_eq, h, Nat.cast_zero, mul_zero, Int.cast_zero, zero_div])
  have hmag' : (f64Mag y : ℚ) ≠ 0 := Nat.cast_ne_zero.2 hmag
  have hu := unit64_cast_pos.ne'
  have hinv : (signFactor (f64Sign y) : ℚ)⁻¹ = signFactor (f64Sign y) := by
    cases f64Sign y <;> simp [signFactor]
  have hq : f64Value x / f64Value y =
      signFactor (f64Sign x != f64Sign y) * ((f64Mag x * unit64 : Nat) / f64Mag y / unit64 : ℚ) := by
    rw [f64Value_eq, f64Value_eq, f64Units_eq, f64Units_eq, signFactor_bne, div_div_div_cancel_right₀ hu]
    push_cast
    rw [div_eq_mul_inv, mul_inv, hinv]
    field_simp
  rw [f64Div_of_finite hx hy hmag, hq]
  exact roundsTo_roundUnits _ _ (Nat.pos_of_ne_zero hmag)

end

theorem roundsTo_f64Lit (n k : Nat) : RoundsTo ((n : ℚ) / 10 ^ k) (f64Lit n k) := by
  have hq : (n : ℚ) / 10 ^ k = signFactor false * ((n * unit64 : Nat) / (10 ^ k : Nat) / unit64 : ℚ) := by
    have hu := unit64_cast_pos.ne'
    simp only [signFactor]
    push_cast
    field_simp
  rw [hq]
  exact roundsTo_roundUnits false (n * unit64) (by positivity)

/-- Integers of at most 53 bits are below the overflow bound. -/
theorem mul_unit64_lt_overflowUnits {n : Nat} (h : n < 2 ^ 53) : n * unit64 < overflowUnits := by
  have hpow : unit64 ≤ 2 ^ 2044 := by
    rw [unit64]
    gcongr <;> decide
  calc n * unit64 < (2 ^ 54 - 1) * unit64 := Nat.mul_lt_mul_of_pos_right (by omega) unit64_pos
    _ ≤ overflowUnits := Nat.mul_le_mul_left _ hpow

/-- An integer below `2^53` converts exactly. -/
theorem f64OfInt_exact {n : Int} (h : n.natAbs < 2 ^ 53) : f64Finite (f64OfInt n) = true ∧ f64Value (f64OfInt n) = n := by
  obtain ⟨hfin, hunits⟩ := f64Units_roundUnits_exact (decide (n < 0)) (n := n.natAbs * unit64) (j := 1074) rfl h
    (mul_unit64_lt_overflowUnits h)
  refine ⟨hfin, ?_⟩
  rw [f64Value_eq, f64OfInt, hunits, Nat.cast_mul, ← mul_assoc, signFactor_mul_natAbs, Int.cast_mul, Int.cast_natCast,
    mul_div_cancel_right₀ _ unit64_cast_pos.ne']

/-- Settles O36: each operation is one exact rational number of units, rounded once. -/
theorem binary64IsCorrectlyRounded : Obligations.Binary64IsCorrectlyRounded :=
  ⟨fun _ _ hx hy => ⟨roundsTo_f64Add hx hy, roundsTo_f64Sub hx hy, roundsTo_f64Mul hx hy, roundsTo_f64Div hx hy⟩,
    roundsTo_f64Lit, fun _ => f64OfInt_exact⟩

/-! ## Rounding to integers (R16) -/

theorem f64Value_neg_iff (x : F64) : f64Value x < 0 ↔ f64Sign x = true ∧ f64Mag x ≠ 0 := by
  rw [f64Value_eq, div_lt_iff₀ unit64_cast_pos, zero_mul, Int.cast_lt_zero]
  unfold f64Units
  split <;> simp [*]
  omega

/-- The sign bit acts as the sign of the value on every integer that is 0 for a zero. -/
theorem signedInt_eq {x : F64} {n : Nat} (h : f64Mag x = 0 → n = 0) :
    signedInt x n = if f64Value x < 0 then -(n : Int) else n := by
  unfold signedInt
  rw [if_congr (f64Value_neg_iff x) rfl rfl]
  by_cases h0 : f64Mag x = 0
  · simp [h h0]
  · simp [h0]

theorem floor_abs_f64Value (x : F64) : ⌊|f64Value x|⌋ = (f64Mag x / unit64 : Nat) := by
  rw [abs_f64Value, Rat.floor_natCast_div_natCast, Int.natCast_div]

theorem floor_abs_f64Value_add_half (x : F64) :
    ⌊|f64Value x| + 1 / 2⌋ = ((2 * f64Mag x + unit64) / (2 * unit64) : Nat) := by
  have hsum : |f64Value x| + 1 / 2 = ((2 * f64Mag x + unit64 : Nat) : ℚ) / (2 * unit64 : Nat) := by
    have hu := unit64_cast_pos.ne'
    rw [abs_f64Value]
    push_cast
    field_simp
  rw [hsum, Rat.floor_natCast_div_natCast, Int.natCast_div]

theorem f64ToIntTRUNC_eq (x : F64) : f64ToIntTRUNC x = if f64Value x < 0 then -⌊|f64Value x|⌋ else ⌊|f64Value x|⌋ := by
  rw [floor_abs_f64Value]
  exact signedInt_eq fun h => by rw [h, Nat.zero_div]

theorem f64ToIntHAZ_eq (x : F64) :
    f64ToIntHAZ x = if f64Value x < 0 then -⌊|f64Value x| + 1 / 2⌋ else ⌊|f64Value x| + 1 / 2⌋ := by
  rw [floor_abs_f64Value_add_half]
  refine signedInt_eq fun h => Nat.div_eq_of_lt ?_
  have := unit64_pos
  omega

/-- Settles O33: the quotients of the magnitude are floors of the exact value. -/
theorem roundingFunctions : Obligations.RoundingFunctions := fun x _ => ⟨f64ToIntHAZ_eq x, f64ToIntTRUNC_eq x⟩

end Sys2Proof.Machine
end

section
/-! The clamp of a sample (R17) and what YCC2RGB stores (R120, R121). -/

namespace Sys2Proof.Machine

/-! ## The operations of `binary64` -/

theorem binary64_lit : binary64.lit = f64Lit := rfl

theorem binary64_add : binary64.add = f64Add := rfl

theorem binary64_sub : binary64.sub = f64Sub := rfl

theorem binary64_mul : binary64.mul = f64Mul := rfl

theorem binary64_lt : binary64.lt = f64Lt := rfl

/-! ## The clamp -/

theorem f64Lit_zero : f64Lit 0 0 = 0#64 := by decide +kernel

theorem f64Lit_255 : f64Lit 255 0 = 0x406FE00000000000#64 := by decide +kernel

/-- The clamp of R17 with the bits of its two bounds. -/
theorem clamp_binary64 (x : F64) :
    clamp binary64 x = if f64Lt x 0#64 then 0#64 else if f64Lt 0x406FE00000000000#64 x then 0x406FE00000000000#64 else x := by
  rw [clamp, binary64_lit, binary64_lt, f64Lit_zero, f64Lit_255]

theorem f64Value_zero : f64Value 0#64 = 0 := by
  have h : f64Units 0#64 = 0 := by decide +kernel
  rw [f64Value_eq, h, Int.cast_zero, zero_div]

theorem f64Value_255 : f64Value 0x406FE00000000000#64 = 255 := by
  have h : f64Units 0x406FE00000000000#64 = 255 * (unit64 : Int) := by decide +kernel
  rw [f64Value_eq, h, Int.cast_mul, Int.cast_natCast, mul_div_cancel_right₀ _ unit64_cast_pos.ne', Int.cast_ofNat]

/-- On a finite number the comparisons of the clamp are those of the value. -/
theorem clamp_of_finite {x : F64} (hx : f64Finite x = true) :
    clamp binary64 x =
      if f64Value x < 0 then 0#64 else if 255 < f64Value x then 0x406FE00000000000#64 else x := by
  have hlow := f64Lt_iff (y := 0#64) hx (by decide)
  have hhigh := f64Lt_iff (x := 0x406FE00000000000#64) (by decide) hx
  rw [f64Value_zero] at hlow
  rw [f64Value_255] at hhigh
  rw [clamp_binary64, if_congr hlow rfl (if_congr hhigh rfl rfl)]

theorem clamp_of_inf {x : F64} (hx : f64IsInf x = true) :
    clamp binary64 x = if f64Sign x then 0#64 else 0x406FE00000000000#64 := by
  have hbits := withSign_lowBits x
  rw [f64IsInf_iff.1 hx] at hbits
  rw [← hbits, f64Sign_withSign _ (by decide), clamp_binary64]
  cases f64Sign x <;> decide +kernel

theorem clamp_of_nan {x : F64} (hx : f64IsNaN x = true) : clamp binary64 x = x := by
  simp [clamp_binary64, f64Lt, hx]

/-- Settles O24, by the class of the number; a finite one by its place below, inside or above `[0, 255]`. -/
theorem clampOfSamples : Obligations.ClampOfSamples := by
  refine fun x => ⟨fun hx => ?_, clamp_of_inf, clamp_of_nan⟩
  rw [clamp_of_finite hx]
  split
  · next hlow =>
    exact ⟨by decide, by rw [f64Value_zero, max_eq_left (min_le_of_right_le hlow.le)], fun h => absurd hlow h.not_gt⟩
  · next hlow =>
    split
    · next hhigh =>
      exact ⟨by decide, by rw [f64Value_255, min_eq_left hhigh.le, max_eq_right (by norm_num)],
        fun _ h => absurd hhigh h.not_gt⟩
    · next hhigh =>
      exact ⟨hx, by rw [min_eq_right (not_lt.1 hhigh), max_eq_right (not_lt.1 hlow)], fun _ _ => rfl⟩

/-! ## YCC2RGB -/

/-- A position of a plane is inside it. -/
theorem plnIdx_lt {rows cols r c : Nat} (hr : r < rows) (hc : c < cols) : plnIdx cols r c < rows * cols := by
  calc r * cols + c < (r + 1) * cols := by rw [Nat.add_one_mul]; omega
    _ ≤ rows * cols := Nat.mul_le_mul_right _ hr

/-- Positions of a plane have different indices. -/
theorem plnIdx_inj {cols r c r' c' : Nat} (hc : c < cols) (hc' : c' < cols) (h : plnIdx cols r c = plnIdx cols r' c') :
    r = r' ∧ c = c' := by
  have hdiv (a b : Nat) (hb : b < cols) : plnIdx cols a b / cols = a ∧ plnIdx cols a b % cols = b := by
    rw [plnIdx, Nat.add_comm, Nat.add_mul_div_right _ _ (Nat.zero_lt_of_lt hb), Nat.add_mul_mod_self_right,
      Nat.div_eq_of_lt hb, Nat.zero_add]
    exact ⟨rfl, Nat.mod_eq_of_lt hb⟩
  have h1 := hdiv r c hc
  rw [h, (hdiv r' c' hc').1, (hdiv r' c' hc').2] at h1
  exact ⟨h1.1.symm, h1.2.symm⟩

theorem opixIdx_eq (cols r c k : Nat) : opixIdx cols r c k = plnIdx cols r c * 3 + k := rfl

/-- Components of pixels of a plane have different indices. -/
theorem opixIdx_inj {cols r c k r' c' k' : Nat} (hc : c < cols) (hc' : c' < cols) (hk : k < 3) (hk' : k' < 3)
    (h : opixIdx cols r c k = opixIdx cols r' c' k') : r = r' ∧ c = c' ∧ k = k' := by
  rw [opixIdx_eq, opixIdx_eq] at h
  obtain ⟨hr, hc⟩ := plnIdx_inj (r := r) (r' := r') hc hc' (by omega)
  subst hr hc
  exact ⟨rfl, rfl, by omega⟩

/-- Component `k` of a pixel. -/
def component (v : F64 × F64 × F64) (k : Nat) : F64 :=
  match k with
  | 0 => v.1
  | 1 => v.2.1
  | _ => v.2.2

theorem mem_opixWrites {cols r c a : Nat} {v : F64 × F64 × F64} {u : F64} :
    (a, u) ∈ opixWrites cols r c v ↔ ∃ k < 3, a = opixIdx cols r c k ∧ u = component v k := by
  constructor
  · intro h
    simp only [opixWrites, List.mem_cons, Prod.mk.injEq, List.not_mem_nil, or_false] at h
    rcases h with h | h | h
    · exact ⟨0, by decide, h⟩
    · exact ⟨1, by decide, h⟩
    · exact ⟨2, by decide, h⟩
  · rintro ⟨k, hk, rfl, rfl⟩
    interval_cases k <;> simp [opixWrites, component]

theorem inv_binary64 (y cb cr : F64) :
    inv binary64 y cb cr =
      (f64Add y (f64Mul (f64Lit 1402 3) (f64Sub cr (f64Lit 128 0))),
        f64Sub (f64Sub y (f64Mul (f64Lit 34414 5) (f64Sub cb (f64Lit 128 0))))
          (f64Mul (f64Lit 71414 5) (f64Sub cr (f64Lit 128 0))),
        f64Add y (f64Mul (f64Lit 1772 3) (f64Sub cb (f64Lit 128 0)))) := by
  simp only [inv, binary64_lit, binary64_add, binary64_sub, binary64_mul]

/-- The pixel `OPIX` gets at a position of the shape: the clamped conversion of the planes (R17, R121). -/
def displayedPixel (s : State) (p : Nat × Nat) : F64 × F64 × F64 :=
  let at_ := fun ch => (Buf.read (s.mem.pln.get ch) (plnIdx s.nCols p.1 p.2)).getD 0#64
  let v := inv binary64 (at_ .y) (at_ .cb) (at_ .cr)
  (clamp binary64 v.1, clamp binary64 v.2.1, clamp binary64 v.2.2)

/-- The writes of YCC2RGB to `OPIX`, in row-major order (R120). -/
def displayWrites (s : State) : List (Nat × F64) :=
  (grid s.nRows s.nCols).flatMap fun p => opixWrites s.nCols p.1 p.2 (displayedPixel s p)

/-- With written planes YCC2RGB does nothing but these writes. -/
theorem ycc2rgb_of_written {s : State} (hs : LegalShape hw s)
    (hwritten : ∀ ch, PlaneWritten s ch (s.nRows * s.nCols)) : ycc2rgb hw s = .ok (s.putOpix (displayWrites s)) := by
  refine ycc2rgb_ok_iff.2 ⟨hs, _, listM_map fun p hp => rgbEntry_ok_iff.2 ⟨displayedPixel s p, ?_, rfl⟩, rfl⟩
  obtain ⟨hr, hc⟩ := mem_grid.1 hp
  have hread (ch : Channel) : Buf.read (s.mem.pln.get ch) (plnIdx s.nCols p.1 p.2) =
      some ((Buf.read (s.mem.pln.get ch) (plnIdx s.nCols p.1 p.2)).getD 0#64) := by
    obtain ⟨v, hv⟩ := Option.isSome_iff_exists.1 (hwritten ch _ (plnIdx_lt hr hc))
    rw [hv, Option.getD_some]
  exact rgbAt_ok_iff.2 ⟨_, _, _, hread .y, hread .cb, hread .cr, rfl⟩

/-- The writes are those of the components of the pixels of the shape. -/
theorem mem_displayWrites {s : State} {a : Nat} {u : F64} :
    (a, u) ∈ displayWrites s ↔ ∃ r c, r < s.nRows ∧ c < s.nCols ∧
      ∃ k < 3, a = opixIdx s.nCols r c k ∧ u = component (displayedPixel s (r, c)) k := by
  simp only [displayWrites, List.mem_flatMap, mem_grid, mem_opixWrites,
    Prod.exists, and_assoc]

/-- The writes name only indices of the shape. -/
theorem lt_of_mem_displayWrites {s : State} {p : Nat × F64} (h : p ∈ displayWrites s) : p.1 < s.nRows * s.nCols * 3 := by
  obtain ⟨r, c, hr, hc, k, hk, ha, -⟩ := mem_displayWrites.1 h
  rw [ha, opixIdx_eq]
  have := plnIdx_lt hr hc
  omega

/-- No two writes name the same index, so each component is read back. -/
theorem read_displayWrites (s : State) (b : Buf 64) {r c k : Nat} (hr : r < s.nRows) (hc : c < s.nCols) (hk : k < 3) :
    Buf.read (Buf.writeAll b (displayWrites s)) (opixIdx s.nCols r c k) = some (component (displayedPixel s (r, c)) k) := by
  refine Buf.read_writeAll_of_mem b (mem_displayWrites.2 ⟨r, c, hr, hc, k, hk, rfl, rfl⟩) fun u hu => ?_
  obtain ⟨r', c', -, hc', k', hk', ha, rfl⟩ := mem_displayWrites.1 hu
  obtain ⟨rfl, rfl, rfl⟩ := opixIdx_inj hc hc' hk hk' ha
  rfl

/-- The pixel of a position whose three elements are known. -/
theorem displayedPixel_eq {s : State} {r c : Nat} {y cb cr : F64}
    (hy : Buf.read s.mem.pln.y (plnIdx s.nCols r c) = some y)
    (hcb : Buf.read s.mem.pln.cb (plnIdx s.nCols r c) = some cb)
    (hcr : Buf.read s.mem.pln.cr (plnIdx s.nCols r c) = some cr) :
    displayedPixel s (r, c) = (clamp binary64 (inv binary64 y cb cr).1, clamp binary64 (inv binary64 y cb cr).2.1,
      clamp binary64 (inv binary64 y cb cr).2.2) := by
  simp only [displayedPixel, Chan3.get, hy, hcb, hcr, Option.getD_some]

/-- After the writes the output buffer shows the planes (R120). -/
theorem displayed_putOpix (s : State) : Displayed (s.putOpix (displayWrites s)).complete := by
  intro r hr c hc y cb cr hy hcb hcr
  have hread {k : Nat} (hk : k < 3) := read_displayWrites s s.mem.opix hr hc hk
  rw [displayedPixel_eq (s := s) hy hcb hcr, inv_binary64] at hread
  exact ⟨hread (k := 0) (by decide), hread (k := 1) (by decide), hread (k := 2) (by decide)⟩

/-- Settles O22: the only writes are those of `displayWrites`, each read back, none beyond the shape. -/
theorem ycc2rgbCompletes : Obligations.Ycc2rgbCompletes := by
  intro s hs hwritten
  refine ⟨_, finish_ok (runPrim_ok_iff.2 (ycc2rgb_of_written hs hwritten)), rfl, displayed_putOpix s, fun a ha => ?_, rfl⟩
  exact Buf.read_writeAll_of_notMem _ fun p hp => (lt_of_mem_displayWrites hp).trans_le ha |>.ne

end Sys2Proof.Machine
end

section
/-! Whose turn a step takes (R80), command words that decode, and the gate of the `CMD` register (R23, R92). -/

namespace Sys2Proof.Machine

variable {s : State} {rest : List Turn} {w : Word32}

/-! ## Turns -/

theorem step_of_agenda_nil (h : s.agenda = []) : step s = coreTurn s := by rw [step, h]

theorem step_of_agenda_cons {turn : Turn} (h : s.agenda = turn :: rest) :
    step s = takeTurn turn { s with agenda := rest } := by rw [step, h]

theorem coreTurn_idle (h : s.status.busy = false) : coreTurn s = .next s := if_neg (by simp [h])

theorem coreTurn_busy (h : s.status.busy = true) : coreTurn s = coreStep s := if_pos h

theorem coreStep_of_decode {i : Instr} (h : decode s.pend = .ok i) : coreStep s = exec i s := by rw [coreStep, h]

theorem coreStep_of_illegal {e : Illegal} (h : decode s.pend = .error e) :
    coreStep s = .next (takeFault ⟨illegalCause e, s.pend⟩ s) := by rw [coreStep, h]

theorem coreTurn_runs {i : Instr} (hb : s.status.busy = true) (hd : decode s.pend = .ok i) : coreTurn s = exec i s :=
  (coreTurn_busy hb).trans (coreStep_of_decode hd)

/-! ## Command words -/

theorem coding (i : Instr) : Laws.Coding.Statement i := by
  cases i
  exacts [Laws.Coding.nop, Laws.Coding.clrerr, Laws.Coding.srst, Laws.Coding.rgb2ycc, Laws.Coding.ycc2rgb,
    Laws.Coding.fdct8, Laws.Coding.idct8, Laws.Coding.quant, Laws.Coding.dequant, Laws.Coding.pack _,
    Laws.Coding.unpack _, Laws.Coding.ldblk _, Laws.Coding.stblk _, Laws.Coding.ldqblk _, Laws.Coding.stqblk _,
    Laws.Coding.center, Laws.Coding.uncenter, Laws.Coding.trst, Laws.Coding.tnext, Laws.Coding.fqplane _,
    Laws.Coding.dqiplane _, Laws.Coding.encode, Laws.Coding.decode]

theorem decode_encode (i : Instr) : decode (encode i) = .ok i := (coding i).1

/-- A 32-bit word placed from outside is the accepted command, and the CORE moves next. -/
theorem withFetchWord_toNat (s : State) (w : Word32) :
    s.withFetchWord 32 w.toNat = { running s with pend := w, agenda := [] } := by
  rw [State.withFetchWord, Nat.mod_eq_of_lt w.isLt, BitVec.ofNat_toNat, BitVec.setWidth_eq]
  rfl

/-- Settles O5, by whose turn it is and whether the CORE is busy. -/
theorem stepRunsThePendingCommand : Obligations.StepRunsThePendingCommand := by
  refine ⟨fun s i ha hb hd => ?_, fun s rest i ha hb hd => ?_, fun s ha hb => ?_, fun s rest ha hb => ?_, fun s i => ?_⟩
  · exact (step_of_agenda_nil ha).trans (coreTurn_runs hb hd)
  · exact (step_of_agenda_cons ha).trans (coreTurn_runs hb hd)
  · exact (step_of_agenda_nil ha).trans (coreTurn_idle hb)
  · exact (step_of_agenda_cons ha).trans (coreTurn_idle hb)
  · rw [withFetchWord_toNat, step_of_agenda_nil rfl]
    exact coreTurn_runs rfl (decode_encode i)

/-! ## The gate of `CMD` -/

theorem passesErrGate_iff : passesErrGate w = true ↔ w = encode .clrerr ∨ w = encode .srst := by
  rw [passesErrGate, Bool.or_eq_true, beq_iff_eq, beq_iff_eq]
  rfl

theorem writeCmd_of_open (h : s.status.err = false ∨ passesErrGate w = true) : writeCmd s w = acceptCmd s w :=
  if_pos (by simpa using h)

theorem writeCmd_of_closed (he : s.status.err = true) (hw : passesErrGate w = false) : writeCmd s w = s :=
  if_neg (by simp [he, hw])

theorem writeReg_cmd_of_open (hb : s.status.busy = false) (h : s.status.err = false ∨ passesErrGate w = true) :
    writeReg s 0x00 w = acceptCmd s w := (writeReg_idle hb).trans (writeCmd_of_open h)

theorem writeReg_cmd_of_closed (h : s.status.busy = true ∨ s.status.err = true ∧ passesErrGate w = false) :
    writeReg s 0x00 w = s := by
  rcases hb : s.status.busy with _ | _
  · obtain ⟨he, hw⟩ := h.resolve_left (by simp [hb])
    exact (writeReg_idle hb).trans (writeCmd_of_closed he hw)
  · exact writeReg_busy hb

/-- The host's turn to write a register at a word offset. -/
theorem step_writeReg {off : Nat} (ha : s.agenda = .host (.writeReg off w) :: rest) (hoff : off % 4 = 0) :
    step s = .next (writeReg { s with agenda := rest } off w) :=
  (step_of_agenda_cons ha).trans (regMove_aligned hoff)

/-- Settles O6: the gate is open or closed, and `CMD` is no register that a read shows. -/
theorem commandWriteGate : Obligations.CommandWriteGate := by
  intro s rest w ha
  rw [step_writeReg ha rfl, ← not_or, ← passesErrGate_iff, Bool.not_eq_true]
  exact ⟨fun hb h => congrArg _ (writeReg_cmd_of_open hb h), fun h => congrArg _ (writeReg_cmd_of_closed h), rfl⟩

end Sys2Proof.Machine
end

section
/-! The register window (R22, R41) by register name: what an offset reads, and what an idle write stores. -/

namespace Sys2Proof.Machine

variable {s : State} {rest : List Turn} {off : Nat} {w : Word32} {r : Reg}

/-! ## Reads -/

/-- What a read of a register returns (R22, R41); `CMD` reads 0. -/
def State.reg (s : State) : Reg → Word32
  | .cmd => 0#32
  | .status => s.status.word
  | .errcode => s.errcode
  | .errinfo => s.errinfo
  | .ctrl => s.ctrl
  | .height => s.height
  | .width => s.width
  | .channels => s.channels
  | .threshold => s.threshold
  | .bandCutoff => s.bandCutoff
  | .rows => s.rows
  | .cols => s.cols
  | .tileR => s.tileR
  | .tileC => s.tileC
  | .vallen ch => s.vallen.get ch
  | .collen ch => s.collen.get ch
  | .rptrlen ch => s.rptrlen.get ch

theorem readReg_offset (s : State) (r : Reg) : readReg s r.offset = s.reg r := by
  cases r with
  | vallen ch => cases ch <;> rfl
  | collen ch => cases ch <;> rfl
  | rptrlen ch => cases ch <;> rfl
  | _ => rfl

/-- An offset is that of a register, or reads 0 (R65). -/
theorem offset_or_readReg_eq_zero (s : State) (off : Nat) : (∃ r : Reg, off = r.offset) ∨ readReg s off = 0#32 := by
  unfold readReg
  split
  exacts [.inl ⟨.status, rfl⟩, .inl ⟨.errcode, rfl⟩, .inl ⟨.errinfo, rfl⟩, .inl ⟨.ctrl, rfl⟩, .inl ⟨.height, rfl⟩,
    .inl ⟨.width, rfl⟩, .inl ⟨.channels, rfl⟩, .inl ⟨.threshold, rfl⟩, .inl ⟨.bandCutoff, rfl⟩, .inl ⟨.rows, rfl⟩,
    .inl ⟨.cols, rfl⟩, .inl ⟨.tileR, rfl⟩, .inl ⟨.tileC, rfl⟩, .inl ⟨.vallen .y, rfl⟩, .inl ⟨.collen .y, rfl⟩,
    .inl ⟨.rptrlen .y, rfl⟩, .inl ⟨.vallen .cb, rfl⟩, .inl ⟨.collen .cb, rfl⟩, .inl ⟨.rptrlen .cb, rfl⟩,
    .inl ⟨.vallen .cr, rfl⟩, .inl ⟨.collen .cr, rfl⟩, .inl ⟨.rptrlen .cr, rfl⟩, .inr rfl]

theorem readReg_eq_zero (s : State) (h : ∀ r : Reg, off ≠ r.offset) : readReg s off = 0#32 :=
  (offset_or_readReg_eq_zero s off).resolve_left fun ⟨r, hr⟩ => h r hr

/-- Two states read the same at an offset when they agree on the register there, if there is one. -/
theorem readReg_congr {t : State} (h : ∀ r : Reg, off = r.offset → t.reg r = s.reg r) : readReg t off = readReg s off := by
  by_cases hr : ∃ r : Reg, off = r.offset
  · obtain ⟨r, rfl⟩ := hr
    rw [readReg_offset, readReg_offset, h r rfl]
  · rw [readReg_eq_zero t (not_exists.1 hr), readReg_eq_zero s (not_exists.1 hr)]

/-! ## Idle writes -/

/-- A word stored in a register that the host can write (R27, R41); every other register ignores it. -/
def State.setReg (s : State) (w : Word32) : Reg → State
  | .cmd => s
  | .status => s
  | .errcode => s
  | .errinfo => s
  | .ctrl => { s with ctrl := w &&& ctrlMask }
  | .height => { s with height := w }
  | .width => { s with width := w }
  | .channels => { s with channels := w }
  | .threshold => { s with threshold := w }
  | .bandCutoff => { s with bandCutoff := w }
  | .rows => { s with rows := w }
  | .cols => { s with cols := w }
  | .tileR => { s with tileR := w }
  | .tileC => { s with tileC := w }
  | .vallen ch => { s with vallen := s.vallen.set ch w }
  | .collen ch => { s with collen := s.collen.set ch w }
  | .rptrlen ch => { s with rptrlen := s.rptrlen.set ch w }

theorem writeRegIdle_offset (s : State) (w : Word32) (hr : r ≠ .cmd) : writeRegIdle s r.offset w = s.setReg w r := by
  cases r with
  | cmd => exact absurd rfl hr
  | vallen ch => cases ch <;> rfl
  | collen ch => cases ch <;> rfl
  | rptrlen ch => cases ch <;> rfl
  | _ => rfl

theorem setReg_of_not_writable (s : State) (w : Word32) (hr : r.writable = false) : s.setReg w r = s := by
  cases r <;> first | rfl | cases hr

/-- An offset is that of a register, or ignores an idle write (R65). -/
theorem offset_or_writeRegIdle_eq_self (s : State) (off : Nat) (w : Word32) :
    (∃ r : Reg, off = r.offset) ∨ writeRegIdle s off w = s := by
  unfold writeRegIdle
  split
  exacts [.inl ⟨.cmd, rfl⟩, .inl ⟨.ctrl, rfl⟩, .inl ⟨.height, rfl⟩, .inl ⟨.width, rfl⟩, .inl ⟨.channels, rfl⟩,
    .inl ⟨.threshold, rfl⟩, .inl ⟨.bandCutoff, rfl⟩, .inl ⟨.rows, rfl⟩, .inl ⟨.cols, rfl⟩, .inl ⟨.tileR, rfl⟩,
    .inl ⟨.tileC, rfl⟩, .inl ⟨.vallen .y, rfl⟩, .inl ⟨.collen .y, rfl⟩, .inl ⟨.rptrlen .y, rfl⟩,
    .inl ⟨.vallen .cb, rfl⟩, .inl ⟨.collen .cb, rfl⟩, .inl ⟨.rptrlen .cb, rfl⟩, .inl ⟨.vallen .cr, rfl⟩,
    .inl ⟨.collen .cr, rfl⟩, .inl ⟨.rptrlen .cr, rfl⟩, .inr rfl]

/-- What an idle register write can do (R22, R23, R41): reach the gate of `CMD`, store the word, or nothing. -/
theorem writeRegIdle_cases (s : State) (off : Nat) (w : Word32) :
    (off = 0x00 ∧ writeRegIdle s off w = writeCmd s w) ∨
    (∃ r : Reg, r.writable = true ∧ off = r.offset ∧ writeRegIdle s off w = s.setReg w r) ∨
    writeRegIdle s off w = s := by
  rcases offset_or_writeRegIdle_eq_self s off w with ⟨r, rfl⟩ | h
  · rcases eq_or_ne r .cmd with rfl | hcmd
    · exact .inl ⟨rfl, rfl⟩
    · have hset := writeRegIdle_offset s w hcmd
      rcases hw : r.writable with _ | _
      · exact .inr (.inr (hset.trans (setReg_of_not_writable s w hw)))
      · exact .inr (.inl ⟨r, hw, rfl, hset⟩)
  · exact .inr (.inr h)

/-- What an idle write stores is read back (R27, R41), and no other register reads differently. -/
theorem reg_setReg (s : State) (w : Word32) (hr : r.writable = true) (r' : Reg) :
    (s.setReg w r).reg r' = if r' = r then if r = .ctrl then w &&& ctrlMask else w else s.reg r' := by
  cases r with
  | cmd | status | errcode | errinfo => cases hr
  | vallen ch | collen ch | rptrlen ch =>
    cases r' <;> simp [State.reg, State.setReg]
  | _ => cases r' <;> rfl

section
variable (s : State) (w : Word32) (r : Reg)

@[simp] theorem setReg_status : (s.setReg w r).status = s.status := by cases r <;> rfl
@[simp] theorem setReg_errcode : (s.setReg w r).errcode = s.errcode := by cases r <;> rfl
@[simp] theorem setReg_errinfo : (s.setReg w r).errinfo = s.errinfo := by cases r <;> rfl
@[simp] theorem setReg_pend : (s.setReg w r).pend = s.pend := by cases r <;> rfl
@[simp] theorem setReg_blk : (s.setReg w r).blk = s.blk := by cases r <;> rfl
@[simp] theorem setReg_qblk : (s.setReg w r).qblk = s.qblk := by cases r <;> rfl
@[simp] theorem setReg_mem : (s.setReg w r).mem = s.mem := by cases r <;> rfl
@[simp] theorem setReg_agenda : (s.setReg w r).agenda = s.agenda := by cases r <;> rfl
@[simp] theorem setReg_replies : (s.setReg w r).replies = s.replies := by cases r <;> rfl

theorem setReg_ctrl : (s.setReg w r).ctrl = if r = .ctrl then w &&& ctrlMask else s.ctrl := by cases r <;> rfl

end

/-- The idle host's turn to write a register at a word offset. -/
theorem step_writeRegIdle (ha : s.agenda = .host (.writeReg off w) :: rest) (hoff : off % 4 = 0)
    (hb : s.status.busy = false) : step s = .next (writeRegIdle { s with agenda := rest } off w) :=
  (step_writeReg ha hoff).trans (congrArg _ (writeReg_idle (s := { s with agenda := rest }) hb))

/-- Settles O7: the write stores the word in the register that stands at the offset, or does nothing. -/
theorem registerWriteReadsBack : Obligations.RegisterWriteReadsBack := by
  intro s rest off w ha hb
  refine ⟨?_, fun hoff hcmd hro => ?_, fun hoff => ?_⟩
  · rintro r hr rfl
    have hcmd : r ≠ .cmd := by rintro rfl; cases hr
    refine ⟨_, (step_writeRegIdle ha r.offset_aligned hb).trans (congrArg _ (writeRegIdle_offset _ w hcmd)), ?_,
      fun off' hoff' => readReg_congr fun r' hr' => ?_, by simp⟩
    · rw [readReg_offset, reg_setReg _ w hr, if_pos rfl]
      rfl
    · subst hr'
      rw [reg_setReg _ w hr, if_neg (fun h => hoff' (congrArg _ h))]
      rfl
  · rw [step_writeRegIdle ha hoff hb]
    rcases writeRegIdle_cases { s with agenda := rest } off w with ⟨h, -⟩ | ⟨r, hr, h, -⟩ | h
    · exact absurd h hcmd
    · exact absurd h (hro r hr)
    · rw [h]
  · exact (step_of_agenda_cons ha).trans (regMove_unaligned hoff)

/-! ## `STATUS` and `IRQ` -/

theorem getLsbD_flagBit (b : Bool) {k : Nat} (hk : k < 32) (n : Nat) :
    (flagBit b k).getLsbD n = (b && decide (k = n)) := by
  unfold flagBit
  cases b
  · simp
  · simp [← BitVec.twoPow_eq, BitVec.getLsbD_twoPow, hk]

/-- The bits of the `STATUS` word (R24). -/
theorem getLsbD_statusWord (st : Status) (n : Nat) :
    st.word.getLsbD n = (st.busy && decide (0 = n) || st.done && decide (1 = n) || st.err && decide (2 = n) ||
      st.last && decide (3 = n)) := by
  simp only [Status.word, BitVec.getLsbD_or, getLsbD_flagBit, Nat.reduceLT]

theorem statusWord_flags (st : Status) :
    st.word.getLsbD 0 = st.busy ∧ st.word.getLsbD 1 = st.done ∧ st.word.getLsbD 2 = st.err ∧
      st.word.getLsbD 3 = st.last := by
  simp only [getLsbD_statusWord]
  simp

theorem statusWord_above (st : Status) {n : Nat} (hn : 4 ≤ n) : st.word.getLsbD n = false := by
  have hne : ∀ k < 4, k ≠ n := by omega
  simp [getLsbD_statusWord, hne]

/-- Settles O8, by the bits of the word a read of `STATUS` returns. -/
theorem statusWordAndInterrupt : Obligations.StatusWordAndInterrupt := by
  intro s
  have hword : readReg s 0x04 = s.status.word := readReg_offset s .status
  have hctrl : readReg s 0x10 = s.ctrl := readReg_offset s .ctrl
  obtain ⟨hbusy, hdone, herr, hlast⟩ := statusWord_flags s.status
  rw [hword, hctrl, hdone, herr]
  exact ⟨⟨hbusy, rfl, rfl, hlast, fun n => statusWord_above s.status⟩, by simp only [State.irq, State.ie,
    Bool.and_eq_true, Bool.or_eq_true]⟩

end Sys2Proof.Machine
end

section
/-! The buffer port (R60, R66, R80): a write as one update of the state, and what every space reads after it. -/

namespace Sys2Proof.Machine

variable {s : State} {rest : List Turn} {cfg : Config} {sp : Space} {i : Nat} {e : Elem} {m : HostMove}

/-! ## Reads after writes, by element type -/

/-- A read of a channel family's buffers after a write to one of them. -/
theorem Chan3.read_set_write {w : Nat} (c : Chan3 (Buf w)) (ch ch' : Channel) (i j : Nat) (v : BitVec w) :
    Buf.read ((c.set ch (Buf.write (c.get ch) i v)).get ch') j =
      if ch' = ch ∧ j = i then some v else Buf.read (c.get ch') j := by
  rw [Chan3.get_set]
  by_cases hch : ch' = ch
  · subst hch
    simp [Buf.read_write]
  · simp [hch]

theorem readReal_writeReal (s : State) {sp : RealSpace} (sp' : RealSpace) {i : Nat} (j : Nat) (v : F64)
    (hsp : sp ≠ .prom) (hi : i < Space.length cfg (.real sp)) :
    (s.writeReal sp i v).readReal cfg sp' j = if sp' = sp ∧ j = i then some v else s.readReal cfg sp' j := by
  cases sp with
  | pix => cases sp' <;> simp [State.readReal, State.writeReal, Buf.read_write]
  | opix => cases sp' <;> simp [State.readReal, State.writeReal, Buf.read_write]
  | pln ch => cases sp' <;> simp [-Chan3.get_set, State.readReal, State.writeReal, Chan3.read_set_write]
  | blk =>
    have hlt : j = i ∧ j < 64 ↔ j = i := and_iff_left_of_imp fun h => h ▸ hi
    cases sp' <;> simp [State.readReal, State.writeReal, Block.elem_setElem, hlt]
  | prom => exact absurd rfl hsp

theorem readInt16_writeInt16 (s : State) {sp : Int16Space} (sp' : Int16Space) {i : Nat} (j : Nat) (v : I16)
    (hsp : sp ≠ .qrom) (hi : i < Space.length cfg (.int16 sp)) :
    (s.writeInt16 sp i v).readInt16 cfg sp' j = if sp' = sp ∧ j = i then some v else s.readInt16 cfg sp' j := by
  cases sp with
  | qpl ch => cases sp' <;> simp [-Chan3.get_set, State.readInt16, State.writeInt16, Chan3.read_set_write]
  | val ch => cases sp' <;> simp [-Chan3.get_set, State.readInt16, State.writeInt16, Chan3.read_set_write]
  | qblk =>
    have hlt : j = i ∧ j < 64 ↔ j = i := and_iff_left_of_imp fun h => h ▸ hi
    cases sp' <;> simp [State.readInt16, State.writeInt16, Block.elem_setElem, hlt]
  | qrom => exact absurd rfl hsp

theorem readInt32_writeInt32 (s : State) (sp sp' : Int32Space) (i j : Nat) (v : I32) :
    (s.writeInt32 sp i v).readInt32 sp' j = if sp' = sp ∧ j = i then some v else s.readInt32 sp' j := by
  cases sp <;> cases sp' <;> simp [-Chan3.get_set, State.readInt32, State.writeInt32, Chan3.read_set_write]

/-- A write of one element type is invisible to the spaces of the others. -/
theorem readInt16_writeReal (s : State) (sp : RealSpace) (i : Nat) (v : F64) (sp' : Int16Space) (j : Nat) :
    (s.writeReal sp i v).readInt16 cfg sp' j = s.readInt16 cfg sp' j := by cases sp <;> rfl

theorem readInt32_writeReal (s : State) (sp : RealSpace) (i : Nat) (v : F64) (sp' : Int32Space) (j : Nat) :
    (s.writeReal sp i v).readInt32 sp' j = s.readInt32 sp' j := by cases sp <;> rfl

theorem readReal_writeInt16 (s : State) (sp : Int16Space) (i : Nat) (v : I16) (sp' : RealSpace) (j : Nat) :
    (s.writeInt16 sp i v).readReal cfg sp' j = s.readReal cfg sp' j := by cases sp <;> rfl

theorem readInt32_writeInt16 (s : State) (sp : Int16Space) (i : Nat) (v : I16) (sp' : Int32Space) (j : Nat) :
    (s.writeInt16 sp i v).readInt32 sp' j = s.readInt32 sp' j := by cases sp <;> rfl

theorem readReal_writeInt32 (s : State) (sp : Int32Space) (i : Nat) (v : I32) (sp' : RealSpace) (j : Nat) :
    (s.writeInt32 sp i v).readReal cfg sp' j = s.readReal cfg sp' j := by cases sp <;> rfl

theorem readInt16_writeInt32 (s : State) (sp : Int32Space) (i : Nat) (v : I32) (sp' : Int16Space) (j : Nat) :
    (s.writeInt32 sp i v).readInt16 cfg sp' j = s.readInt16 cfg sp' j := by cases sp <;> rfl

/-! ## Any space -/

/-- The state after `HostWriteMem` of an element of the space's type (R66); an element of another type has no move. -/
def State.writeElem (s : State) (sp : Space) (i : Nat) (e : Elem) : State :=
  match sp, e with
  | .real sp, .real v => s.writeReal sp i v
  | .int16 sp, .int16 v => s.writeInt16 sp i v
  | .int32 sp, .int32 v => s.writeInt32 sp i v
  | _, _ => s

/-- The host's write of an element is one update behind the conditions of the port. -/
theorem hostMove_writeMove (h : writeMove sp i e = some m) :
    hostMove cfg m s = portMove cfg s sp i (.next (s.writeElem sp i e)) := by
  cases sp <;> cases e <;> cases h <;> rfl

/-- A write touches the buffers and the block registers only. -/
theorem writeElem_eq (s : State) (sp : Space) (i : Nat) (e : Elem) :
    ∃ mem blk qblk, s.writeElem sp i e = { s with mem := mem, blk := blk, qblk := qblk } := by
  rcases sp with sp | sp | sp <;> cases e <;> first | exact ⟨_, _, _, rfl⟩ | (cases sp <;> exact ⟨_, _, _, rfl⟩)

/-- `PROM` and `QROM` ignore a write (R34, R35). -/
theorem writeElem_rom (h : sp = .real .prom ∨ sp = .int16 .qrom) : s.writeElem sp i e = s := by
  rcases h with rfl | rfl <;> cases e <;> rfl

/-- Any element of any space after a write: the written one at its index, every other as before. -/
theorem peek_writeElem (s : State) (h : writeMove sp i e = some m) (hi : i < Space.length cfg sp)
    (hprom : sp ≠ .real .prom) (hqrom : sp ≠ .int16 .qrom) (sp' : Space) (j : Nat) :
    (s.writeElem sp i e).peek cfg sp' j = if sp' = sp ∧ j = i then some e else s.peek cfg sp' j := by
  rcases sp with sp | sp | sp <;> cases e <;> cases h
  case real.real v =>
    have hsp : sp ≠ .prom := fun h => hprom (congrArg _ h)
    cases sp' <;> simp [State.peek, State.writeElem, readReal_writeReal s _ _ v hsp hi, readInt16_writeReal,
      readInt32_writeReal, apply_ite (Option.map Elem.real)]
  case int16.int16 v =>
    have hsp : sp ≠ .qrom := fun h => hqrom (congrArg _ h)
    cases sp' <;> simp [State.peek, State.writeElem, readInt16_writeInt16 s _ _ v hsp hi, readReal_writeInt16,
      readInt32_writeInt16, apply_ite (Option.map Elem.int16)]
  case int32.int32 v =>
    cases sp' <;> simp [State.peek, State.writeElem, readInt32_writeInt32, readReal_writeInt32, readInt16_writeInt32,
      apply_ite (Option.map Elem.int32)]

/-- The idle host's turn to write an element that exists. -/
theorem step_writeMove (hm : writeMove sp i e = some m) (ha : s.agenda = .host m :: rest) (hb : s.status.busy = false)
    (hi : i < Space.length hw sp) : step s = .next (State.writeElem { s with agenda := rest } sp i e) :=
  (step_of_agenda_cons ha).trans ((hostMove_writeMove hm).trans
    (portMove_next_iff.2 ⟨hb, hi, rfl⟩))

/-- Settles O10: the move is the one update `writeElem`, and `peek_writeElem` says what it changes. -/
theorem bufferWriteReadsBack : Obligations.BufferWriteReadsBack := by
  intro s rest sp i e m hm ha hb
  refine ⟨fun hi => ?_, fun hi hrom => ?_, fun hi hprom hqrom => ?_⟩
  · exact (step_of_agenda_cons ha).trans ((hostMove_writeMove hm).trans (portMove_beyond hb hi))
  · rw [step_writeMove hm ha hb hi, writeElem_rom hrom]
  · refine ⟨_, step_writeMove hm ha hb hi, ?_, fun sp' i' hne => ?_, ?_⟩
    · rw [peek_writeElem _ hm hi hprom hqrom, if_pos ⟨rfl, rfl⟩]
    · rw [peek_writeElem _ hm hi hprom hqrom, if_neg (not_and_or.2 hne)]
      exact peek_congr rfl rfl rfl sp' i'
    · obtain ⟨mem, blk, qblk, heq⟩ := writeElem_eq { s with agenda := rest } sp i e
      rw [heq]
      exact ⟨rfl, rfl⟩

end Sys2Proof.Machine
end

section
/-! The hardware reset (R40, R270): the value of every register, and what the spaces hold. -/

namespace Sys2Proof.Machine

variable {cfg : Config} {s : State} {rest : List Turn}

/-- The reset state is itself what a reset leaves. -/
theorem hardReset_reset : hardReset State.reset = State.reset := rfl

theorem step_reset (h : s.agenda = .reset :: rest) : step s = .next (hardReset { s with agenda := rest }) :=
  step_of_agenda_cons h

theorem reset_statusWord : State.reset.status.word = 0#32 := by decide

/-- The reset values of R41, by register. -/
theorem reg_hardReset (s : State) (r : Reg) :
    (hardReset s).reg r = if r.offset = 0x1C then 3#32 else if r.offset = 0x24 then 5#32 else 0#32 := by
  cases r with
  | status => exact reset_statusWord
  | vallen ch => cases ch <;> rfl
  | collen ch => cases ch <;> rfl
  | rptrlen ch => cases ch <;> rfl
  | _ => rfl

/-- The reset values of R41, by offset. -/
theorem readReg_hardReset (s : State) (off : Nat) :
    readReg (hardReset s) off = if off = 0x1C then 3#32 else if off = 0x24 then 5#32 else 0#32 := by
  by_cases hr : ∃ r : Reg, off = r.offset
  · obtain ⟨r, rfl⟩ := hr
    rw [readReg_offset, reg_hardReset]
  · have hne := not_exists.1 hr
    rw [readReg_eq_zero _ hne, if_neg (show off ≠ 0x1C from hne .channels),
      if_neg (show off ≠ 0x24 from hne .bandCutoff)]

theorem irq_hardReset (s : State) : (hardReset s).irq = false := by simp [State.irq, State.reset]

/-- No buffer element holds a value after a reset (R40). -/
theorem peek_hardReset (s : State) {sp : Space} (hblk : sp ≠ .real .blk) (hqblk : sp ≠ .int16 .qblk)
    (hprom : sp ≠ .real .prom) (hqrom : sp ≠ .int16 .qrom) (i : Nat) : (hardReset s).peek cfg sp i = none := by
  rcases sp with (_ | _ | ch | _ | _) | (ch | ch | _ | _) | (ch | ch)
  case real.pix => rfl
  case real.opix => rfl
  case real.blk => exact absurd rfl hblk
  case real.prom => exact absurd rfl hprom
  case int16.qblk => exact absurd rfl hqblk
  case int16.qrom => exact absurd rfl hqrom
  all_goals cases ch <;> rfl

/-- The element of a 64-element space at a position (R62). -/
theorem Block.elem_blkIdx {α : Type} (b : Block α) (i j : Fin 8) : Block.elem b (blkIdx i j) = some (b.at i j) := by
  have hlt : blkIdx i j < 64 := by simp only [blkIdx]; omega
  obtain ⟨hrow, hcol⟩ := blkIdx_inj (blkIdx_row_col hlt)
  rw [Block.elem, if_pos hlt, hrow, hcol]

/-- `PROM` reads its constants in every state (R34). -/
theorem peek_prom (cfg : Config) (s : State) (i j : Fin 8) :
    s.peek cfg (.real .prom) (blkIdx i j) = some (.real (cfg.arith.prom i j)) := by
  simp [State.peek, State.readReal, Block.elem_blkIdx]

/-- `QROM` reads the table in every state (R35). -/
theorem peek_qrom (cfg : Config) (s : State) (i j : Fin 8) :
    s.peek cfg (.int16 .qrom) (blkIdx i j) = some (.int16 (cfg.qtable.at i j)) := by
  simp [State.peek, State.readInt16, Block.elem_blkIdx]

/-- Settles O12: the reset state and the state after a reset turn are both a `hardReset`. -/
theorem resetLeavesTheResetValues : Obligations.ResetLeavesTheResetValues := by
  intro t ht
  obtain ⟨u, rfl⟩ : ∃ u, t = hardReset u := by
    rcases ht with rfl | ⟨s, rest, ha, hstep⟩
    · exact ⟨_, hardReset_reset.symm⟩
    · rw [step_reset ha] at hstep
      cases hstep
      exact ⟨_, rfl⟩
  exact ⟨readReg_hardReset u, irq_hardReset u, fun sp hblk hqblk hprom hqrom => peek_hardReset u hblk hqblk hprom hqrom,
    fun i j => ⟨peek_prom hw _ i j, peek_qrom hw _ i j⟩⟩

/-! ## The invariants at reset -/

/-- Every state with the reset values in the registers of the protocol has it. -/
theorem statusSound_of_reset_values (hst : s.status = State.reset.status) (hcode : s.errcode = 0#32)
    (hinfo : s.errinfo = 0#32) (hctrl : s.ctrl = 0#32) : StatusSound s := by
  unfold StatusSound
  rw [hst, hcode, hinfo, hctrl]
  simp [State.reset, validErrcode]

theorem hardReset_statusSound (s : State) : StatusSound (hardReset s) := statusSound_of_reset_values rfl rfl rfl rfl

theorem softReset_statusSound (s : State) : StatusSound (softReset s) := statusSound_of_reset_values rfl rfl rfl rfl

theorem below_nil {w n : Nat} : Buf.below (w := w) n [] := fun _ h => nomatch h

theorem reset_inRange (cfg : Config) : State.reset.mem.inRange cfg :=
  ⟨below_nil, below_nil, fun ch => by cases ch <;> exact below_nil, fun ch => by cases ch <;> exact below_nil,
    fun ch => by cases ch <;> exact below_nil, fun ch => by cases ch <;> exact below_nil,
    fun ch => by cases ch <;> exact below_nil⟩

/-- Settles O60: no flag is set, no fault recorded, and no buffer lists an element. -/
theorem resetIsSound : Obligations.ResetIsSound :=
  ⟨statusSound_of_reset_values rfl rfl rfl rfl, reset_wf, reset_inRange hw⟩

end Sys2Proof.Machine
end

section
/-! What a command that gives a next state may write (R41, R63), and that every step keeps the status protocol
(R23 to R27, R247). -/

namespace Sys2Proof.Machine

variable {s t : State} {W : List Space} {R : List Reg} {i : Instr}

/-! ## How a command ends -/

/-- `t` ends a command begun in `s` that completes or faults after writes within the frame `W`, `R`. -/
def EndsWithin (W : List Space) (R : List Reg) (s t : State) : Prop :=
  ∃ u, Since W R s u ∧ (t = u.complete ∨ ∃ f, t = takeFault f u)

theorem Progress.Ends.endsWithin {p : Progress} {G : Prop} (hp : p.Ends (Since W R s) (fun u _ => Since W R s u) G)
    (h : finish p = .next t) : EndsWithin W R s t := by
  rcases Progress.ends_next hp h with ⟨u, hu, rfl⟩ | ⟨u, f, hu, rfl⟩
  · exact ⟨u, hu, .inl rfl⟩
  · exact ⟨u, hu, .inr ⟨f, rfl⟩⟩

theorem Frame.endsWithin {p : Prim} (hp : Frame W R p) (h : finish (runPrim p s) = .next t) : EndsWithin W R s t :=
  Progress.Ends.endsWithin (runPrim_ends (G := True) (fun u hu => hp s u hu) (fun _ _ => .refl W R s) fun _ _ => trivial) h

theorem exec_clrerr_next (h : exec .clrerr s = .next t) : t = (clearFault s).complete := by cases h; rfl

theorem exec_srst_next (h : exec .srst s = .next t) : t = softReset s := by cases h; rfl

/-- Every other command writes within its frame and then completes or faults (R63, R80, R243). -/
theorem exec_endsWithin (hclrerr : i ≠ .clrerr) (hsrst : i ≠ .srst) (h : exec i s = .next t) :
    EndsWithin (writesOf s i) (regsOf s i) s t := by
  cases i with
  | clrerr => exact absurd rfl hclrerr
  | srst => exact absurd rfl hsrst
  | nop => exact frame_nop.endsWithin h
  | rgb2ycc => exact frame_rgb2ycc.endsWithin h
  | ycc2rgb => exact frame_ycc2rgb.endsWithin h
  | fdct8 => exact frame_fdct8.endsWithin h
  | idct8 => exact frame_idct8.endsWithin h
  | quant => exact frame_quant.endsWithin h
  | dequant => exact frame_dequant.endsWithin h
  | pack ch => exact frame_pack.endsWithin h
  | unpack ch => exact frame_unpack.endsWithin h
  | ldblk ch => exact frame_ldblk.endsWithin h
  | stblk ch => exact frame_stblk.endsWithin h
  | ldqblk ch => exact frame_ldqblk.endsWithin h
  | stqblk ch => exact frame_stqblk.endsWithin h
  | center => exact frame_center.endsWithin h
  | uncenter => exact frame_uncenter.endsWithin h
  | trst => exact frame_trst.endsWithin h
  | tnext => exact frame_tnext.endsWithin h
  | fqplane ch => exact (fqplane_since hw ch s).endsWithin h
  | dqiplane ch => exact (dqiplane_since hw ch s).endsWithin h
  | encode => exact (encodeAll_since hw s).endsWithin h
  | decode => exact (decodeAll_since hw s).endsWithin h

/-! ## The frame -/

/-- The frame of a command with a next state: `ERRCODE` and `ERRINFO` are free when it faults. -/
def FrameKept (W : List Space) (R : List Reg) (s t : State) : Prop :=
  ElementsKept W s t ∧
    (∀ r, r ∉ R → r ≠ .status → (r = .errcode ∨ r = .errinfo → t.status.err = false) →
      readReg t r.offset = readReg s r.offset) ∧
    t.pend = s.pend ∧ t.agenda = s.agenda ∧ t.replies = s.replies

theorem FrameKept.of_kept (he : ElementsKept W s t) (hr : RegistersKept R s t) : FrameKept W R s t :=
  ⟨he, fun r hR hs _ => hr.1 r hR hs, hr.2⟩

/-- A fault writes `ERRCODE` and `ERRINFO` besides the frame of the writes that precede it (R243). -/
theorem FrameKept.takeFault (f : Raised) (he : ElementsKept W s t) (hr : RegistersKept R s t) :
    FrameKept W R s (takeFault f t) := by
  refine ⟨he.trans (elementsKept_takeFault W f t), fun r hR hs herr => ?_, hr.2⟩
  have hfree : r ∉ [Reg.errcode, .errinfo] := fun hmem => by simpa using herr (by simpa using hmem)
  exact ((registersKept_takeFault f t).1 r hfree hs).trans (hr.1 r hR hs)

theorem EndsWithin.frameKept (h : EndsWithin W R s t) : FrameKept W R s t := by
  obtain ⟨u, ⟨he, hr, -⟩, rfl | ⟨f, rfl⟩⟩ := h
  · exact .of_kept (he.trans (elementsKept_complete W u))
      (hr.trans ((registersKept_complete u).mono fun _ h => absurd h List.not_mem_nil))
  · exact .takeFault f he hr

theorem clrerr_frameKept (s : State) : FrameKept [] [.errcode, .errinfo] s (clearFault s).complete :=
  .of_kept (elementsKept_of_eq rfl rfl rfl)
    ((registersKept_clearFault s).trans ((registersKept_complete _).mono fun _ h => absurd h List.not_mem_nil))

/-- SRST writes every register but `CMD` (R232, R271). -/
theorem srst_frameKept (s : State) : FrameKept [] (regsOf s .srst) s (softReset s) := by
  refine .of_kept (elementsKept_of_eq rfl rfl rfl) ⟨fun r hR hs => ?_, rfl, rfl, rfl⟩
  have hcmd : r = .cmd := by
    cases r with
    | cmd => rfl
    | status => exact absurd rfl hs
    | vallen ch => exact absurd (by cases ch <;> simp [regsOf]) hR
    | collen ch => exact absurd (by cases ch <;> simp [regsOf]) hR
    | rptrlen ch => exact absurd (by cases ch <;> simp [regsOf]) hR
    | _ => exact absurd (by simp [regsOf]) hR
  rw [hcmd]
  rfl

/-- Settles O19: CLRERR and SRST by themselves, every other command by how it ends. -/
theorem frameOfEveryCommand : Obligations.FrameOfEveryCommand := by
  intro i s t h
  by_cases hclrerr : i = .clrerr
  · subst hclrerr
    rw [exec_clrerr_next h]
    exact clrerr_frameKept s
  by_cases hsrst : i = .srst
  · subst hsrst
    rw [exec_srst_next h]
    exact srst_frameKept s
  exact (exec_endsWithin hclrerr hsrst h).frameKept

/-! ## The status protocol at the end of a command -/

theorem Cause.code_ne_zero (c : Cause) : c.code ≠ 0#32 := by cases c <;> decide

/-- Within a frame `STATUS` changes in `LAST` only. -/
theorem Since.flags (h : Since W R s t) :
    t.status.busy = s.status.busy ∧ t.status.done = s.status.done ∧ t.status.err = s.status.err := by
  obtain ⟨-, -, hst, -⟩ := h
  rw [← hst]
  exact ⟨rfl, rfl, rfl⟩

/-- Writes within a frame that leaves `CTRL` alone keep the protocol. -/
theorem StatusSound.since (h : StatusSound s) (hmem : Reg.ctrl ∉ R) (hu : Since W R s t) : StatusSound t := by
  obtain ⟨hbusy, hdone, herr⟩ := hu.flags
  obtain ⟨-, ⟨hregs, hpend, -⟩, -, hcode, hinfo⟩ := hu
  have hctrl : t.ctrl = s.ctrl := hregs .ctrl hmem (by decide)
  unfold StatusSound
  rwa [hbusy, hdone, herr, hcode, hinfo, hctrl, hpend]

/-- Completion without a fault keeps the protocol: `BUSY` falls as `DONE` rises (R24, R80). -/
theorem StatusSound.complete (h : StatusSound s) (herr : s.status.err = false) : StatusSound s.complete := by
  obtain ⟨-, -, -, hvalid, hcode, hinfo, hctrl⟩ := h
  exact ⟨by simp, by simp [herr], by simp, hvalid, hcode, hinfo, hctrl⟩

/-- A fault of a command that has not completed keeps the protocol (R243). -/
theorem StatusSound.takeFault (h : StatusSound s) (hdone : s.status.done = false) (f : Raised) :
    StatusSound (takeFault f s) := by
  obtain ⟨-, -, -, -, -, -, hctrl⟩ := h
  exact ⟨by simp, by simp [hdone], by simp, .inr ⟨f.cause, rfl⟩, by simp [Cause.code_ne_zero], by simp, hctrl⟩

/-- The return from a fault keeps the protocol (R231, R247). -/
theorem StatusSound.clearFault (h : StatusSound s) : StatusSound (clearFault s) := by
  obtain ⟨hbusy, -, -, -, -, -, hctrl⟩ := h
  exact ⟨hbusy, by simp, by simp, .inl rfl, by simp, fun _ => rfl, hctrl⟩

theorem StatusSound.done_of_busy (h : StatusSound s) (hb : s.status.busy = true) : s.status.done = false :=
  Bool.eq_false_iff.2 fun hd => h.1 ⟨hb, hd⟩

/-- A pending command other than CLRERR and SRST is pending without a fault (R23, R247). -/
theorem StatusSound.err_of_pending (h : StatusSound s) (hb : s.status.busy = true) (hd : decode s.pend = .ok i)
    (hclrerr : i ≠ .clrerr) (hsrst : i ≠ .srst) : s.status.err = false := by
  obtain ⟨-, -, hpend, -⟩ := h
  refine Bool.eq_false_iff.2 fun he => ?_
  rcases passesErrGate_iff.1 (hpend hb he) with hw | hw
  · rw [hw, decode_encode] at hd
    cases hd
    exact hclrerr rfl
  · rw [hw, decode_encode] at hd
    cases hd
    exact hsrst rfl

/-- SRST is the one command that writes `CTRL` (R41). -/
theorem ctrl_notMem_regsOf (hsrst : i ≠ .srst) : Reg.ctrl ∉ regsOf s i := by
  cases i <;> simp [regsOf] at hsrst ⊢

theorem StatusSound.endsWithin (h : StatusSound s) (hb : s.status.busy = true) (herr : s.status.err = false)
    (hctrl : Reg.ctrl ∉ R) (ht : EndsWithin W R s t) : StatusSound t := by
  obtain ⟨u, hu, hend⟩ := ht
  have hsound := h.since hctrl hu
  obtain ⟨-, hudone, huerr⟩ := hu.flags
  rcases hend with rfl | ⟨f, rfl⟩
  · exact hsound.complete (huerr.trans herr)
  · exact hsound.takeFault (hudone.trans (h.done_of_busy hb)) f

theorem StatusSound.exec (h : StatusSound s) (hb : s.status.busy = true) (hd : decode s.pend = .ok i)
    (ht : exec i s = .next t) : StatusSound t := by
  by_cases hclrerr : i = .clrerr
  · subst hclrerr
    rw [exec_clrerr_next ht]
    exact h.clearFault.complete rfl
  by_cases hsrst : i = .srst
  · subst hsrst
    rw [exec_srst_next ht]
    exact softReset_statusSound s
  exact h.endsWithin hb (h.err_of_pending hb hd hclrerr hsrst) (ctrl_notMem_regsOf hsrst)
    (exec_endsWithin hclrerr hsrst ht)

theorem StatusSound.coreTurn (h : StatusSound s) (ht : coreTurn s = .next t) : StatusSound t := by
  rcases hb : s.status.busy with _ | _
  · rw [coreTurn_idle hb] at ht
    cases ht
    exact h
  · rw [coreTurn_busy hb] at ht
    rcases hd : decode s.pend with e | i
    · rw [coreStep_of_illegal hd] at ht
      cases ht
      exact h.takeFault (h.done_of_busy hb) _
    · exact h.exec hb hd ((coreStep_of_decode hd).symm.trans ht)

/-! ## The status protocol at the host's moves -/

/-- The gate lets a command in only where the protocol allows it to be pending (R23). -/
theorem StatusSound.acceptCmd {w : Word32} (h : StatusSound s) (hopen : s.status.err = false ∨ passesErrGate w = true) :
    StatusSound (acceptCmd s w) := by
  obtain ⟨-, -, -, hvalid, hcode, hinfo, hctrl⟩ := h
  exact ⟨by simp, by simp, fun _ he => hopen.resolve_left (by simpa using he), hvalid, hcode, hinfo, hctrl⟩

theorem StatusSound.writeCmd (h : StatusSound s) (w : Word32) : StatusSound (writeCmd s w) := by
  by_cases hopen : s.status.err = false ∨ passesErrGate w = true
  · rw [writeCmd_of_open hopen]
    exact h.acceptCmd hopen
  · simp only [not_or, Bool.not_eq_false, Bool.not_eq_true] at hopen
    rw [writeCmd_of_closed hopen.1 hopen.2]
    exact h

/-- A stored word keeps the protocol: `CTRL` keeps only bits 2:0 (R27). -/
theorem StatusSound.setReg (h : StatusSound s) (w : Word32) (r : Reg) : StatusSound (s.setReg w r) := by
  obtain ⟨hdone, herr, hpend, hvalid, hcode, hinfo, hctrl⟩ := h
  refine ⟨by simpa using hdone, by simpa using herr, by simpa using hpend, by simpa using hvalid, by simpa using hcode,
    by simpa using hinfo, ?_⟩
  rw [setReg_ctrl]
  split
  · rw [BitVec.and_assoc, BitVec.and_self]
  · exact hctrl

theorem StatusSound.writeReg (h : StatusSound s) (off : Nat) (w : Word32) : StatusSound (writeReg s off w) := by
  rcases hb : s.status.busy with _ | _
  · rw [writeReg_idle hb]
    rcases writeRegIdle_cases s off w with ⟨-, heq⟩ | ⟨r, -, -, heq⟩ | heq
    · rw [heq]
      exact h.writeCmd w
    · rw [heq]
      exact h.setReg w r
    · rw [heq]
      exact h
  · rw [writeReg_busy hb]
    exact h

theorem StatusSound.writeElem (h : StatusSound s) (sp : Space) (i : Nat) (e : Elem) : StatusSound (s.writeElem sp i e) := by
  obtain ⟨mem, blk, qblk, heq⟩ := writeElem_eq s sp i e
  rw [heq]
  exact h

theorem StatusSound.hostMove {cfg : Config} {m : HostMove} (h : StatusSound s) (ht : hostMove cfg m s = .next t) :
    StatusSound t := by
  rcases hostMove_next ht with ⟨off, -, -, rfl⟩ | ⟨off, w, -, -, rfl⟩ | ⟨-, ⟨sp, i, e, -, -, -, rfl⟩ |
    ⟨sp, i, v, -, -, rfl⟩ | ⟨sp, i, v, -, -, rfl⟩ | ⟨sp, i, v, -, -, rfl⟩⟩
  · exact h
  · exact h.writeReg off w
  · exact h
  · exact h.writeElem (.real sp) i (.real v)
  · exact h.writeElem (.int16 sp) i (.int16 v)
  · exact h.writeElem (.int32 sp) i (.int32 v)

/-- Every turn keeps the protocol. -/
theorem StatusSound.takeTurn {turn : Turn} (h : StatusSound s) (ht : takeTurn turn s = .next t) : StatusSound t := by
  cases turn with
  | host m => exact h.hostMove ht
  | core => exact h.coreTurn ht
  | reset =>
    cases ht
    exact hardReset_statusSound s

/-- Settles O58, by whose turn the step takes. -/
theorem everyStepKeepsStatusSound : Obligations.EveryStepKeepsStatusSound := by
  intro s t h ht
  rcases ha : s.agenda with _ | ⟨turn, rest⟩
  · exact h.coreTurn ((step_of_agenda_nil ha).symm.trans ht)
  · have hsame : StatusSound { s with agenda := rest } := h
    exact hsame.takeTurn ((step_of_agenda_cons ha).symm.trans ht)

end Sys2Proof.Machine
end

section
/-! The host's reads (R66, R80) and every move of the host while the CORE is busy (R82). -/

namespace Sys2Proof.Machine

variable {s : State} {rest : List Turn} {cfg : Config} {sp : Space} {i : Nat} {e : Elem}

/-! ## Buffer reads -/

theorem portMove_open {k : Host.Outcome State Fault Refusal} (hb : s.status.busy = false) (hi : i < Space.length cfg sp) :
    portMove cfg s sp i k = k := by
  rw [portMove, hb, if_neg Bool.false_ne_true, if_neg (Nat.not_le.2 hi)]

theorem hostRead_written (hb : s.status.busy = false) (hi : i < Space.length cfg sp) (he : s.peek cfg sp i = some e) :
    hostRead cfg s sp i = .next (s.reply (.elem e)) := hostRead_next_iff.2 ⟨hb, hi, e, he, rfl⟩

theorem hostRead_neverWritten (hb : s.status.busy = false) (hi : i < Space.length cfg sp) (he : s.peek cfg sp i = none) :
    hostRead cfg s sp i = .refused (.neverWritten sp i) := by
  rw [hostRead, portMove_open hb hi, he]

/-- The host's turn to read an element. -/
theorem step_readMove (ha : s.agenda = .host (readMove sp i) :: rest) :
    step s = hostRead hw { s with agenda := rest } sp i := by
  rw [step_of_agenda_cons ha]
  cases sp <;> rfl

/-- Settles O11: the index is beyond the space, or the element has been written, or it has not. -/
theorem bufferReadReturnsTheElement : Obligations.BufferReadReturnsTheElement := by
  intro s rest sp i ha hb
  rw [step_readMove ha]
  have hpeek : State.peek hw { s with agenda := rest } sp i = s.peek hw sp i := peek_congr rfl rfl rfl sp i
  exact ⟨portMove_beyond hb, fun hi e he => hostRead_written hb hi (hpeek.trans he),
    fun hi he => hostRead_neverWritten hb hi (hpeek.trans he)⟩

/-! ## While the CORE is busy -/

/-- The host's turn to read a register. -/
theorem step_readReg {off : Nat} (ha : s.agenda = .host (.readReg off) :: rest) :
    step s = regMove off (.next { s with agenda := rest, replies := s.replies ++ [.reg (readReg s off)] }) := by
  have hread : readReg { s with agenda := rest } off = readReg s off := readReg_congr fun r _ => by cases r <;> rfl
  rw [step_of_agenda_cons ha, ← hread]
  rfl

/-- The host's turn to write a register of the busy CORE. -/
theorem step_writeReg_busy {off : Nat} {w : Word32} (ha : s.agenda = .host (.writeReg off w) :: rest)
    (hb : s.status.busy = true) : step s = regMove off (.next { s with agenda := rest }) :=
  (step_of_agenda_cons ha).trans (congrArg (fun t => regMove off (.next t)) (writeReg_busy hb))

/-- Settles O9, by the kind of move; `DONE` is 0 by the status protocol. -/
theorem hostAccessWhileBusy : Obligations.HostAccessWhileBusy := by
  intro s rest hsound hb
  refine ⟨fun off ha => ?_, ?_, fun off w ha => ?_, fun sp i ha => ?_, fun sp i e m hm ha => ?_⟩
  · rw [step_readReg ha]
    exact ⟨regMove_aligned, regMove_unaligned⟩
  · have hword : readReg s 0x04 = s.status.word := readReg_offset s .status
    obtain ⟨hbusy, hdone, -⟩ := statusWord_flags s.status
    rw [hword]
    exact ⟨hbusy.trans hb, hdone.trans (hsound.done_of_busy hb)⟩
  · rw [step_writeReg_busy ha hb]
    exact ⟨regMove_aligned, regMove_unaligned⟩
  · exact (step_readMove ha).trans (portMove_busy hb)
  · exact (step_of_agenda_cons ha).trans ((hostMove_writeMove hm).trans (portMove_busy hb))

end Sys2Proof.Machine
end

section
/-! The buffers list only elements that exist (R60, R61, R67): a write keeps it when its indices are below the length of its
space. -/

namespace Sys2Proof.Machine

variable {w n : Nat} {cfg : Config} {s t : State}

/-! ## One buffer -/

theorem Buf.below_write {b : Buf w} (h : Buf.below n b) {i : Nat} (hi : i < n) (v : BitVec w) :
    Buf.below n (Buf.write b i v) := by
  intro p hp
  rcases Buf.mem_write hp with rfl | hp
  · exact hi
  · exact h p hp

theorem Buf.below_writeAll {b : Buf w} (h : Buf.below n b) {l : List (Nat × BitVec w)} (hl : Buf.below n l) :
    Buf.below n (Buf.writeAll b l) := fun p hp => (Buf.mem_writeAll hp).elim (hl p) (h p)

theorem Buf.below_append {l l' : List (Nat × BitVec w)} (h : Buf.below n l) (h' : Buf.below n l') :
    Buf.below n (l ++ l') := fun p hp => (List.mem_append.1 hp).elim (h p) (h' p)

theorem Buf.below_flatten {ls : List (List (Nat × BitVec w))} (h : ∀ l ∈ ls, Buf.below n l) : Buf.below n ls.flatten := by
  intro p hp
  obtain ⟨l, hl, hpl⟩ := List.mem_flatten.1 hp
  exact h l hl p hpl

/-- The writes of one value per index of a list. -/
theorem Buf.below_map {α : Type} (f : α → BitVec w) {l : List (Nat × α)} (h : ∀ x ∈ l, x.1 < n) :
    Buf.below n (l.map fun x => (x.1, f x.2)) := by
  intro p hp
  obtain ⟨x, hx, rfl⟩ := List.mem_map.1 hp
  exact h x hx

/-- The writes of a list to the indices from `i` on. -/
theorem Buf.below_indexed {l : List (BitVec w)} {i : Nat} (h : i + l.length ≤ n) : Buf.below n (indexed i l) := by
  induction l generalizing i with
  | nil => exact below_nil
  | cons v l ih =>
    rw [List.length_cons] at h
    intro p hp
    rcases List.mem_cons.1 hp with rfl | hp
    · show i < n
      omega
    · exact ih (by omega) p hp

/-- Writing one member of a channel family keeps it within its space. -/
theorem Chan3.below_set {c : Chan3 (Buf w)} (h : ∀ ch, Buf.below n (c.get ch)) (ch : Channel) {b : Buf w}
    (hb : Buf.below n b) (ch' : Channel) : Buf.below n ((c.set ch b).get ch') := by
  rw [Chan3.get_set]
  split
  · exact hb
  · exact h ch'

/-! ## The whole memory -/

theorem writeReal_inRange (h : s.mem.inRange cfg) {sp : RealSpace} {i : Nat} (hi : i < Space.length cfg (.real sp)) (v : F64) :
    (s.writeReal sp i v).mem.inRange cfg := by
  obtain ⟨hpix, hopix, hpln, hrest⟩ := h
  cases sp with
  | pix => exact ⟨Buf.below_write hpix hi v, hopix, hpln, hrest⟩
  | opix => exact ⟨hpix, Buf.below_write hopix hi v, hpln, hrest⟩
  | pln ch => exact ⟨hpix, hopix, Chan3.below_set hpln ch (Buf.below_write (hpln ch) hi v), hrest⟩
  | blk => exact ⟨hpix, hopix, hpln, hrest⟩
  | prom => exact ⟨hpix, hopix, hpln, hrest⟩

theorem writeInt16_inRange (h : s.mem.inRange cfg) {sp : Int16Space} {i : Nat} (hi : i < Space.length cfg (.int16 sp))
    (v : I16) : (s.writeInt16 sp i v).mem.inRange cfg := by
  obtain ⟨hpix, hopix, hpln, hqpl, hval, hrest⟩ := h
  cases sp with
  | qpl ch => exact ⟨hpix, hopix, hpln, Chan3.below_set hqpl ch (Buf.below_write (hqpl ch) hi v), hval, hrest⟩
  | val ch => exact ⟨hpix, hopix, hpln, hqpl, Chan3.below_set hval ch (Buf.below_write (hval ch) hi v), hrest⟩
  | qblk => exact ⟨hpix, hopix, hpln, hqpl, hval, hrest⟩
  | qrom => exact ⟨hpix, hopix, hpln, hqpl, hval, hrest⟩

theorem writeInt32_inRange (h : s.mem.inRange cfg) {sp : Int32Space} {i : Nat} (hi : i < Space.length cfg (.int32 sp))
    (v : I32) : (s.writeInt32 sp i v).mem.inRange cfg := by
  obtain ⟨hpix, hopix, hpln, hqpl, hval, hcoli, hrptr⟩ := h
  cases sp with
  | coli ch => exact ⟨hpix, hopix, hpln, hqpl, hval, Chan3.below_set hcoli ch (Buf.below_write (hcoli ch) hi v), hrptr⟩
  | rptr ch => exact ⟨hpix, hopix, hpln, hqpl, hval, hcoli, Chan3.below_set hrptr ch (Buf.below_write (hrptr ch) hi v)⟩

theorem putPln_inRange (h : s.mem.inRange cfg) (ch : Channel) {l : List (Nat × F64)}
    (hl : Buf.below (cfg.maxH * cfg.maxW) l) : (s.putPln ch l).mem.inRange cfg := by
  obtain ⟨hpix, hopix, hpln, hrest⟩ := h
  exact ⟨hpix, hopix, Chan3.below_set hpln ch (Buf.below_writeAll (hpln ch) hl), hrest⟩

theorem putQpl_inRange (h : s.mem.inRange cfg) (ch : Channel) {l : List (Nat × I16)}
    (hl : Buf.below (cfg.maxH * cfg.maxW) l) : (s.putQpl ch l).mem.inRange cfg := by
  obtain ⟨hpix, hopix, hpln, hqpl, hrest⟩ := h
  exact ⟨hpix, hopix, hpln, Chan3.below_set hqpl ch (Buf.below_writeAll (hqpl ch) hl), hrest⟩

theorem putOpix_inRange (h : s.mem.inRange cfg) {l : List (Nat × F64)}
    (hl : Buf.below (cfg.maxH * cfg.maxW * 3) l) : (s.putOpix l).mem.inRange cfg := by
  obtain ⟨hpix, hopix, hrest⟩ := h
  exact ⟨hpix, Buf.below_writeAll hopix hl, hrest⟩

theorem storeYcc_inRange (h : s.mem.inRange cfg) {px : List (Nat × F64 × F64 × F64)}
    (hpx : ∀ x ∈ px, x.1 < cfg.maxH * cfg.maxW) : (storeYcc s px).mem.inRange cfg := by
  have hcrop : (cropShape s).mem.inRange cfg := h
  have hy := putPln_inRange hcrop .y (Buf.below_map (fun v => v.1) hpx)
  have hcb := putPln_inRange hy .cb (Buf.below_map (fun v => v.2.1) hpx)
  exact putPln_inRange hcb .cr (Buf.below_map (fun v => v.2.2) hpx)

/-- A CSR fits when its entries and its row pointers do. -/
theorem storeCsr_inRange (h : s.mem.inRange cfg) (ch : Channel) {rows : List (List I16)}
    (hentries : (packRows rows).length ≤ cfg.maxH * cfg.maxW) (hpointers : (rowPointers 0 rows).length ≤ cfg.maxH + 1) :
    (storeCsr s ch rows).mem.inRange cfg := by
  obtain ⟨hpix, hopix, hpln, hqpl, hval, hcoli, hrptr⟩ := h
  refine ⟨hpix, hopix, hpln, hqpl, Chan3.below_set hval ch (Buf.below_writeAll (hval ch) (Buf.below_indexed ?_)),
    Chan3.below_set hcoli ch (Buf.below_writeAll (hcoli ch) (Buf.below_indexed ?_)),
    Chan3.below_set hrptr ch (Buf.below_writeAll (hrptr ch) (Buf.below_indexed ?_))⟩
  · rwa [List.length_map, Nat.zero_add]
  · rwa [List.length_map, Nat.zero_add]
  · rwa [List.length_map, Nat.zero_add]

/-! ## Memory in canonical form and within its spaces -/

theorem MemorySound.of_mem_eq (h : MemorySound s) (hmem : t.mem = s.mem) : MemorySound t := by
  unfold MemorySound
  rwa [hmem]

theorem MemorySound.writeReal (h : MemorySound s) {sp : RealSpace} {i : Nat} (hi : i < Space.length hw (.real sp)) (v : F64) :
    MemorySound (s.writeReal sp i v) := ⟨writeReal_wf h.1 sp i v, writeReal_inRange h.2 hi v⟩

theorem MemorySound.writeInt16 (h : MemorySound s) {sp : Int16Space} {i : Nat} (hi : i < Space.length hw (.int16 sp))
    (v : I16) : MemorySound (s.writeInt16 sp i v) := ⟨writeInt16_wf h.1 sp i v, writeInt16_inRange h.2 hi v⟩

theorem MemorySound.writeInt32 (h : MemorySound s) {sp : Int32Space} {i : Nat} (hi : i < Space.length hw (.int32 sp))
    (v : I32) : MemorySound (s.writeInt32 sp i v) := ⟨writeInt32_wf h.1 sp i v, writeInt32_inRange h.2 hi v⟩

end Sys2Proof.Machine
end

section
/-! No command generates an index out of range (R61, R67): the indices each primitive writes stay below its shape, and a legal
shape fits the spaces. -/

namespace Sys2Proof.Machine

variable {cfg : Config} {s t : State} {ch : Channel}

/-! ## Shapes fit the spaces (R61) -/

theorem LegalShape.area_le (h : LegalShape cfg s) : s.nRows * s.nCols ≤ cfg.maxH * cfg.maxW := by
  obtain ⟨-, hrows, -, hcols⟩ := h
  exact Nat.mul_le_mul (Int.toNat_le.2 hrows) (Int.toNat_le.2 hcols)

theorem LegalShape.nRows_le (h : LegalShape cfg s) : s.nRows ≤ cfg.maxH := by
  obtain ⟨-, hrows, -⟩ := h
  exact Int.toNat_le.2 hrows

theorem LegalInput.cropArea_le (h : LegalInput cfg s) : cropRows s * cropCols s ≤ cfg.maxH * cfg.maxW := by
  obtain ⟨-, -, hheight, -, hwidth⟩ := h
  have hrows : cropRows s ≤ cfg.maxH := (Nat.mul_div_le _ 8).trans (Int.toNat_le.2 hheight)
  have hcols : cropCols s ≤ cfg.maxW := (Nat.mul_div_le _ 8).trans (Int.toNat_le.2 hwidth)
  exact Nat.mul_le_mul hrows hcols

/-! ## Results of a loop -/

/-- Every result of a loop is that of one of its entries. -/
theorem exists_of_mem_listM {ε α β : Type} {f : α → Except ε β} {as : List α} {l : List β} (h : listM f as = .ok l) {b : β}
    (hb : b ∈ l) : ∃ a ∈ as, f a = .ok b := by
  induction as generalizing l with
  | nil =>
    cases h
    cases hb
  | cons a as ih =>
    obtain ⟨b', bs, ha, has, rfl⟩ := listM_cons_ok_iff.1 h
    rcases List.mem_cons.1 hb with rfl | hb
    · exact ⟨a, by simp, ha⟩
    · obtain ⟨a', ha', hb'⟩ := ih has hb
      exact ⟨a', by simp [ha'], hb'⟩

theorem length_of_listM {ε α β : Type} {f : α → Except ε β} {as : List α} {l : List β} (h : listM f as = .ok l) :
    l.length = as.length := (listM_ok_iff.1 h).length_eq.symm

/-! ## Colour -/

theorem yccEntries_below {px : List (Nat × F64 × F64 × F64)}
    (h : listM (yccEntry cfg s) (grid (cropRows s) (cropCols s)) = .ok px) :
    ∀ x ∈ px, x.1 < cropRows s * cropCols s := by
  intro x hx
  obtain ⟨p, hp, hpx⟩ := exists_of_mem_listM h hx
  obtain ⟨hr, hc⟩ := mem_grid.1 hp
  obtain ⟨v, -, rfl⟩ := yccEntry_ok_iff.1 hpx
  exact plnIdx_lt hr hc

theorem opixWrites_below {rows cols r c : Nat} (hr : r < rows) (hc : c < cols) (v : F64 × F64 × F64) :
    Buf.below (rows * cols * 3) (opixWrites cols r c v) := by
  rintro ⟨a, u⟩ hp
  obtain ⟨k, hk, rfl, -⟩ := mem_opixWrites.1 hp
  have hlt := plnIdx_lt hr hc
  rw [opixIdx_eq]
  omega

theorem rgbEntries_below {px : List (List (Nat × F64))} (h : listM (rgbEntry cfg s) (grid s.nRows s.nCols) = .ok px) :
    Buf.below (s.nRows * s.nCols * 3) px.flatten := by
  refine Buf.below_flatten fun l hl => ?_
  obtain ⟨p, hp, hpl⟩ := exists_of_mem_listM h hl
  obtain ⟨hr, hc⟩ := mem_grid.1 hp
  obtain ⟨v, -, rfl⟩ := rgbEntry_ok_iff.1 hpl
  exact opixWrites_below hr hc v

/-! ## Tiles -/

theorem tileWrites_below {w : Nat} (h : LegalTile cfg s) (b : Block (BitVec w)) :
    Buf.below (cfg.maxH * cfg.maxW) (tileWrites s.nCols s.nTileR s.nTileC b) := by
  intro p hp
  obtain ⟨i, j, rfl⟩ := mem_tileWrites.1 hp
  obtain ⟨hr, hc⟩ := h.fits
  obtain ⟨⟨hshape, -⟩, -⟩ := h
  exact (tileIdx_lt hr hc i j).trans_le hshape.area_le

/-! ## PACK -/

/-- A row packs into at most one entry per column. -/
theorem length_packRow_le (c : Nat) (row : List I16) : (packRow c row).length ≤ row.length := by
  induction row generalizing c with
  | nil => exact le_rfl
  | cons v vs ih =>
    have hvs := ih (c + 1)
    unfold packRow
    split <;> simp only [List.length_cons] <;> omega

/-- Rows of `cols` columns pack into at most one entry per position. -/
theorem length_packRows_le {cols : Nat} {rows : List (List I16)} (h : ∀ row ∈ rows, row.length = cols) :
    (packRows rows).length ≤ rows.length * cols := by
  induction rows with
  | nil => exact Nat.zero_le _
  | cons row rows ih =>
    have hrow : (packRow 0 row).length ≤ cols := (length_packRow_le 0 row).trans_eq (h row (by simp))
    have hrows := ih fun r hr => h r (by simp [hr])
    have hsplit : packRows (row :: rows) = packRow 0 row ++ packRows rows := rfl
    rw [hsplit, List.length_append, List.length_cons, Nat.add_one_mul]
    omega

/-- One pointer per row and one after the last (R171). -/
theorem length_rowPointers (n : Nat) (rows : List (List I16)) : (rowPointers n rows).length = rows.length + 1 := by
  induction rows generalizing n with
  | nil => rfl
  | cons row rows ih => rw [rowPointers, List.length_cons, ih, List.length_cons]

/-- The rows PACK reads have the shape of the plane. -/
theorem planeRows_shape {rows : List (List I16)} (h : planeRows s ch = .ok rows) :
    rows.length = s.nRows ∧ ∀ row ∈ rows, row.length = s.nCols := by
  unfold planeRows at h
  refine ⟨(length_of_listM h).trans List.length_range, fun row hrow => ?_⟩
  obtain ⟨r, -, hr⟩ := exists_of_mem_listM h hrow
  exact (length_of_listM hr).trans List.length_range

/-! ## UNPACK -/

theorem zeroFill_below (n : Nat) : Buf.below n (zeroFill n) := by
  intro p hp
  obtain ⟨i, hi, rfl⟩ := List.mem_map.1 hp
  exact List.mem_range.1 hi

/-- Row pointers that rise to `VALLEN` are all at most `VALLEN` (R176, checks 5 and 6). -/
theorem rptr_le_vallen (h : csrCheck s ch = .ok ()) {r : Nat} (hr : r ≤ s.nRows) {a : I32}
    (ha : Buf.read (s.mem.rptr.get ch) r = some a) : a.toInt ≤ (s.vallen.get ch).toInt := by
  obtain ⟨-, -, -, -, -, hrises, ⟨e, he, heq⟩, -⟩ := csrCheck_ok_iff.1 h
  induction hr using Nat.decreasingInduction generalizing a with
  | self =>
    obtain rfl : e = a := Option.some.inj (he.symm.trans ha)
    exact heq.le
  | of_succ k hk ih =>
    obtain ⟨a', b, ha', hb, hle⟩ := pointerRises_ok_iff.1 (hrises k hk)
    obtain rfl : a' = a := Option.some.inj (ha'.symm.trans ha)
    exact hle.trans (ih hb)

/-- A checked CSR scatters into its plane: each of its entries has a column of the plane (R176, check 7). -/
theorem scatterRow_below (h : csrCheck s ch = .ok ()) {r : Nat} (hr : r < s.nRows) {l : List (Nat × I16)}
    (hl : scatterRow s ch r = .ok l) : Buf.below (s.nRows * s.nCols) l := by
  intro p hp
  obtain ⟨a, b, -, hb, hscatter⟩ := scatterRow_ok_iff.1 hl
  obtain ⟨k, hk, hkp⟩ := exists_of_mem_listM hscatter hp
  obtain ⟨c, v, hc, -, rfl⟩ := scatterAt_ok_iff.1 hkp
  have hkv : k < (s.vallen.get ch).toInt.toNat := by
    have hle := rptr_le_vallen h hr hb
    rw [positions, List.mem_range'_1] at hk
    omega
  obtain ⟨-, -, -, -, -, -, -, hcolumns, -⟩ := csrCheck_ok_iff.1 h
  obtain ⟨c', hc', hnonneg, hlt⟩ := columnInRange_ok_iff.1 (hcolumns k hkv)
  obtain rfl : c' = c := Option.some.inj (hc'.symm.trans hc)
  refine plnIdx_lt hr ?_
  unfold State.nCols
  omega

theorem scatterRows_below (h : csrCheck s ch = .ok ()) {rows : List (List (Nat × I16))}
    (hrows : listM (scatterRow s ch) (List.range s.nRows) = .ok rows) :
    Buf.below (s.nRows * s.nCols) (zeroFill (s.nRows * s.nCols) ++ rows.flatten) := by
  refine Buf.below_append (zeroFill_below _) (Buf.below_flatten fun l hl => ?_)
  obtain ⟨r, hr, hrl⟩ := exists_of_mem_listM hrows hl
  exact scatterRow_below h (List.mem_range.1 hr) hrl

end Sys2Proof.Machine
end

section
/-! Every step keeps the memory in canonical form and within its spaces (R60, R67): the primitives, the composites made of them
(R210), and the turns of the agents. -/

namespace Sys2Proof.Machine

variable {cfg : Config} {s t : State} {ch : Channel} {i : Instr}

/-! ## Primitives that leave the buffers alone -/

theorem keeps_memorySound_of_mem_eq {p : Prim} (h : ∀ s t, p s = .ok t → t.mem = s.mem) : Keeps MemorySound p :=
  fun s t hs ht => hs.of_mem_eq (h s t ht)

theorem nextTile_mem (s : State) : (nextTile s).mem = s.mem := by
  obtain ⟨r, c, b, heq⟩ := nextTile_eq s
  rw [heq]

theorem keeps_memorySound_nop : Keeps MemorySound nop :=
  keeps_memorySound_of_mem_eq fun _ _ h => by rw [nop_ok_iff.1 h]

theorem keeps_memorySound_clrerr : Keeps MemorySound clrerr :=
  keeps_memorySound_of_mem_eq fun _ _ h => by rw [clrerr_ok_iff.1 h, clearFault_mem]

theorem keeps_memorySound_fdct8 : Keeps MemorySound (fdct8 cfg) :=
  keeps_memorySound_of_mem_eq fun _ _ h => by rw [fdct8_ok_iff.1 h]

theorem keeps_memorySound_idct8 : Keeps MemorySound (idct8 cfg) :=
  keeps_memorySound_of_mem_eq fun _ _ h => by rw [idct8_ok_iff.1 h]

theorem keeps_memorySound_quant : Keeps MemorySound (quant cfg) :=
  keeps_memorySound_of_mem_eq fun _ _ h => by
    obtain ⟨-, q, -, rfl⟩ := quant_ok_iff.1 h
    rfl

theorem keeps_memorySound_dequant : Keeps MemorySound (dequant cfg) :=
  keeps_memorySound_of_mem_eq fun _ _ h => by rw [dequant_ok_iff.1 h]

theorem keeps_memorySound_ldblk : Keeps MemorySound (ldblk cfg ch) :=
  keeps_memorySound_of_mem_eq fun _ _ h => by
    obtain ⟨-, b, -, rfl⟩ := ldblk_ok_iff.1 h
    rfl

theorem keeps_memorySound_ldqblk : Keeps MemorySound (ldqblk cfg ch) :=
  keeps_memorySound_of_mem_eq fun _ _ h => by
    obtain ⟨-, b, -, rfl⟩ := ldqblk_ok_iff.1 h
    rfl

theorem keeps_memorySound_center : Keeps MemorySound (center cfg) :=
  keeps_memorySound_of_mem_eq fun _ _ h => by rw [center_ok_iff.1 h]

theorem keeps_memorySound_uncenter : Keeps MemorySound (uncenter cfg) :=
  keeps_memorySound_of_mem_eq fun _ _ h => by rw [uncenter_ok_iff.1 h]

theorem keeps_memorySound_trst : Keeps MemorySound trst :=
  keeps_memorySound_of_mem_eq fun _ _ h => by rw [trst_ok_iff.1 h, State.setLast_mem]

theorem keeps_memorySound_tnext : Keeps MemorySound (tnext cfg) :=
  keeps_memorySound_of_mem_eq fun s _ h => by rw [(tnext_ok_iff.1 h).2, nextTile_mem]

/-! ## Primitives that write buffers -/

theorem keeps_memorySound_rgb2ycc : Keeps MemorySound (rgb2ycc hw) := by
  rintro s t ⟨hwf, hrange⟩ h
  obtain ⟨hinput, px, hpx, rfl⟩ := rgb2ycc_ok_iff.1 h
  exact ⟨storeYcc_wf hwf px,
    storeYcc_inRange hrange fun x hx => (yccEntries_below hpx x hx).trans_le hinput.cropArea_le⟩

theorem keeps_memorySound_ycc2rgb : Keeps MemorySound (ycc2rgb hw) := by
  rintro s t ⟨hwf, hrange⟩ h
  obtain ⟨hshape, px, hpx, rfl⟩ := ycc2rgb_ok_iff.1 h
  exact ⟨putOpix_wf hwf _,
    putOpix_inRange hrange fun p hp => (rgbEntries_below hpx p hp).trans_le (Nat.mul_le_mul_right 3 hshape.area_le)⟩

theorem keeps_memorySound_pack : Keeps MemorySound (pack hw ch) := by
  rintro s t ⟨hwf, hrange⟩ h
  obtain ⟨hshape, rows, hrows, rfl⟩ := pack_ok_iff.1 h
  obtain ⟨hlen, hcols⟩ := planeRows_shape hrows
  have hentries : (packRows rows).length ≤ s.nRows * s.nCols := hlen ▸ length_packRows_le hcols
  have hpointers : (rowPointers 0 rows).length = s.nRows + 1 := hlen ▸ length_rowPointers 0 rows
  exact ⟨storeCsr_wf hwf ch rows, storeCsr_inRange hrange ch (hentries.trans hshape.area_le)
    (hpointers.trans_le (Nat.succ_le_succ hshape.nRows_le))⟩

theorem keeps_memorySound_unpack : Keeps MemorySound (unpack hw ch) := by
  rintro s t ⟨hwf, hrange⟩ h
  obtain ⟨hshape, hcheck, rows, hrows, rfl⟩ := unpack_ok_iff.1 h
  exact ⟨putQpl_wf hwf ch _,
    putQpl_inRange hrange ch fun p hp => (scatterRows_below hcheck hrows p hp).trans_le hshape.area_le⟩

theorem keeps_memorySound_stblk : Keeps MemorySound (stblk hw ch) := by
  rintro s t ⟨hwf, hrange⟩ h
  obtain ⟨htile, rfl⟩ := stblk_ok_iff.1 h
  exact ⟨putPln_wf hwf ch _, putPln_inRange hrange ch (tileWrites_below htile s.blk)⟩

theorem keeps_memorySound_stqblk : Keeps MemorySound (stqblk hw ch) := by
  rintro s t ⟨hwf, hrange⟩ h
  obtain ⟨htile, rfl⟩ := stqblk_ok_iff.1 h
  exact ⟨putQpl_wf hwf ch _, putQpl_inRange hrange ch (tileWrites_below htile s.qblk)⟩

theorem keeps_memorySound_fqPrims (ch : Channel) : ∀ p ∈ fqPrims hw ch, Keeps MemorySound p := by
  intro p hp
  simp only [fqPrims, List.mem_cons, List.not_mem_nil, or_false] at hp
  rcases hp with rfl | rfl | rfl | rfl | rfl | rfl | rfl
  exacts [keeps_memorySound_trst, keeps_memorySound_ldblk, keeps_memorySound_center, keeps_memorySound_fdct8,
    keeps_memorySound_quant, keeps_memorySound_stqblk, keeps_memorySound_tnext]

theorem keeps_memorySound_dqiPrims (ch : Channel) : ∀ p ∈ dqiPrims hw ch, Keeps MemorySound p := by
  intro p hp
  simp only [dqiPrims, List.mem_cons, List.not_mem_nil, or_false] at hp
  rcases hp with rfl | rfl | rfl | rfl | rfl | rfl | rfl
  exacts [keeps_memorySound_trst, keeps_memorySound_ldqblk, keeps_memorySound_dequant, keeps_memorySound_idct8,
    keeps_memorySound_uncenter, keeps_memorySound_stblk, keeps_memorySound_tnext]

/-! ## Commands -/

/-- Completion and a fault leave the buffers as the writes before them did (R80, R243). -/
theorem Progress.Ends.memorySound {p : Progress} (hp : p.Ends MemorySound (fun u _ => MemorySound u) True)
    (ht : finish p = .next t) : MemorySound t := by
  rcases Progress.ends_next hp ht with ⟨u, hu, rfl⟩ | ⟨u, f, hu, rfl⟩
  · exact hu.of_mem_eq (State.complete_mem u)
  · exact hu.of_mem_eq (takeFault_mem u f)

theorem Keeps.memorySound {p : Prim} (hp : Keeps MemorySound p) (h : MemorySound s) (ht : finish (runPrim p s) = .next t) :
    MemorySound t :=
  Progress.Ends.memorySound (runPrim_ends (fun u hu => hp s u h hu) (fun _ _ => h) fun _ _ => trivial) ht

theorem MemorySound.exec (h : MemorySound s) (ht : exec i s = .next t) : MemorySound t := by
  cases i with
  | srst =>
    rw [exec_srst_next ht]
    exact h.of_mem_eq (softReset_mem s)
  | nop => exact keeps_memorySound_nop.memorySound h ht
  | clrerr => exact keeps_memorySound_clrerr.memorySound h ht
  | rgb2ycc => exact keeps_memorySound_rgb2ycc.memorySound h ht
  | ycc2rgb => exact keeps_memorySound_ycc2rgb.memorySound h ht
  | fdct8 => exact keeps_memorySound_fdct8.memorySound h ht
  | idct8 => exact keeps_memorySound_idct8.memorySound h ht
  | quant => exact keeps_memorySound_quant.memorySound h ht
  | dequant => exact keeps_memorySound_dequant.memorySound h ht
  | pack ch => exact keeps_memorySound_pack.memorySound h ht
  | unpack ch => exact keeps_memorySound_unpack.memorySound h ht
  | ldblk ch => exact keeps_memorySound_ldblk.memorySound h ht
  | stblk ch => exact keeps_memorySound_stblk.memorySound h ht
  | ldqblk ch => exact keeps_memorySound_ldqblk.memorySound h ht
  | stqblk ch => exact keeps_memorySound_stqblk.memorySound h ht
  | center => exact keeps_memorySound_center.memorySound h ht
  | uncenter => exact keeps_memorySound_uncenter.memorySound h ht
  | trst => exact keeps_memorySound_trst.memorySound h ht
  | tnext => exact keeps_memorySound_tnext.memorySound h ht
  | fqplane ch => exact (keeps_fqplane (keeps_memorySound_fqPrims ch) h).memorySound ht
  | dqiplane ch => exact (keeps_dqiplane (keeps_memorySound_dqiPrims ch) h).memorySound ht
  | encode =>
    exact (keeps_encodeAll keeps_memorySound_rgb2ycc
      (fun ch _ => ⟨keeps_memorySound_fqPrims ch, keeps_memorySound_pack⟩) h).memorySound ht
  | decode =>
    exact (keeps_decodeAll keeps_memorySound_ycc2rgb
      (fun ch _ => ⟨keeps_memorySound_dqiPrims ch, keeps_memorySound_unpack⟩) h).memorySound ht

/-! ## Turns -/

theorem MemorySound.coreTurn (h : MemorySound s) (ht : coreTurn s = .next t) : MemorySound t := by
  rcases hb : s.status.busy with _ | _
  · rw [coreTurn_idle hb] at ht
    cases ht
    exact h
  · rw [coreTurn_busy hb] at ht
    rcases hd : decode s.pend with e | i
    · rw [coreStep_of_illegal hd] at ht
      cases ht
      exact h.of_mem_eq (takeFault_mem s _)
    · exact h.exec ((coreStep_of_decode hd).symm.trans ht)

theorem writeCmd_mem (s : State) (w : Word32) : (writeCmd s w).mem = s.mem := by
  unfold writeCmd
  split
  · exact acceptCmd_mem s w
  · rfl

/-- The register window does not reach the buffers. -/
theorem writeReg_mem (s : State) (off : Nat) (w : Word32) : (writeReg s off w).mem = s.mem := by
  rcases hb : s.status.busy with _ | _
  · rw [writeReg_idle hb]
    rcases writeRegIdle_cases s off w with ⟨-, heq⟩ | ⟨r, -, -, heq⟩ | heq
    · rw [heq, writeCmd_mem]
    · rw [heq, setReg_mem]
    · rw [heq]
  · rw [writeReg_busy hb]

theorem MemorySound.hostMove {m : HostMove} (h : MemorySound s) (ht : hostMove hw m s = .next t) : MemorySound t := by
  rcases hostMove_next ht with ⟨off, -, -, rfl⟩ | ⟨off, w, -, -, rfl⟩ | ⟨-, ⟨sp, i, e, -, -, -, rfl⟩ |
    ⟨sp, i, v, -, hi, rfl⟩ | ⟨sp, i, v, -, hi, rfl⟩ | ⟨sp, i, v, -, hi, rfl⟩⟩
  · exact h.of_mem_eq (State.reply_mem s _)
  · exact h.of_mem_eq (writeReg_mem s off w)
  · exact h.of_mem_eq (State.reply_mem s _)
  · exact h.writeReal hi v
  · exact h.writeInt16 hi v
  · exact h.writeInt32 hi v

theorem hardReset_memorySound (s : State) : MemorySound (hardReset s) := ⟨reset_wf, reset_inRange hw⟩

theorem MemorySound.takeTurn {turn : Turn} (h : MemorySound s) (ht : takeTurn turn s = .next t) : MemorySound t := by
  cases turn with
  | host m => exact h.hostMove ht
  | core => exact h.coreTurn ht
  | reset =>
    cases ht
    exact hardReset_memorySound s

/-- Settles O59, by whose turn the step takes; for the CORE's by the primitives of its command. -/
theorem everyStepKeepsMemorySound : Obligations.EveryStepKeepsMemorySound := by
  intro s t h ht
  rcases ha : s.agenda with _ | ⟨turn, rest⟩
  · exact h.coreTurn ((step_of_agenda_nil ha).symm.trans ht)
  · have hsame : MemorySound { s with agenda := rest } := h
    exact hsame.takeTurn ((step_of_agenda_cons ha).symm.trans ht)

end Sys2Proof.Machine
end

section
/-! The coding of command words: the fields of a word (R14, R90), the rows of the opcode map (R92), the checks of the decoder in
their order, and the fault of a pending word that is no command (R94). -/

namespace Sys2Proof.Machine

/-! ## The fields of a word -/

theorem fieldsOf_opc_toNat (w : Word32) : (fieldsOf w).opc.toNat = bits w 7 0 := by
  simp [fieldsOf, bits]

theorem fieldsOf_ch_toNat (w : Word32) : (fieldsOf w).ch.toNat = bits w 9 8 := by
  simp [fieldsOf, bits, Nat.shiftRight_eq_div_pow]

theorem fieldsOf_rsv_toNat (w : Word32) : (fieldsOf w).rsv.toNat = bits w 31 10 := by
  simp [fieldsOf, bits, Nat.shiftRight_eq_div_pow]

theorem ofNat_bits_opc (w : Word32) : BitVec.ofNat 8 (bits w 7 0) = (fieldsOf w).opc := by
  rw [← fieldsOf_opc_toNat, BitVec.ofNat_toNat, BitVec.setWidth_eq]

theorem fieldsOf_ch_eq_iff {w : Word32} {c : BitVec 2} : (fieldsOf w).ch = c ↔ bits w 9 8 = c.toNat := by
  rw [← fieldsOf_ch_toNat, BitVec.toNat_inj]

theorem fieldsOf_rsv_eq_zero_iff {w : Word32} : (fieldsOf w).rsv = 0#22 ↔ bits w 31 10 = 0 := by
  rw [← fieldsOf_rsv_toNat, ← BitVec.toNat_inj]
  rfl

/-- The three fields cover the word (R90). -/
theorem wordOf_fieldsOf (w : Word32) : wordOf (fieldsOf w) = w := by
  have hhigh : w.extractLsb' 10 22 ++ w.extractLsb' 8 2 = w.extractLsb' 8 24 :=
    BitVec.extractLsb'_append_extractLsb'_eq_extractLsb' rfl
  have hall : w.extractLsb' 8 24 ++ w.extractLsb' 0 8 = w.extractLsb' 0 32 :=
    BitVec.extractLsb'_append_extractLsb'_eq_extractLsb' rfl
  calc wordOf (fieldsOf w)
    _ = w.extractLsb' 10 22 ++ w.extractLsb' 8 2 ++ w.extractLsb' 0 8 := rfl
    _ = w.extractLsb' 0 32 := by rw [hhigh, hall]
    _ = w := BitVec.extractLsb'_eq_self

/-! ## Channel codes -/

theorem code_of_channelOf {c : BitVec 2} {ch : Channel} : channelOf c = some ch → ch.code = c := by
  revert c ch
  decide

theorem channelOf_eq_none_iff {c : BitVec 2} : channelOf c = none ↔ c = 3#2 := by
  revert c
  decide

/-! ## Rows of the opcode map -/

/-- The format a row of the opcode map gives its commands (R91). -/
def rowFormat : OpRow → OpFormat
  | .n _ => .n
  | .c _ => .c

/-- Every command of a row has the operation code `opc`, and a channel operand exactly in format C. -/
def RowCodes (opc : Nat) : OpRow → Prop
  | .n i => i.channel = none ∧ (opcOf i).toNat = opc
  | .c mk => ∀ ch, (mk ch).channel = some ch ∧ (opcOf (mk ch)).toNat = opc

theorem rowCodes_of_opRow {opc : Nat} {row : OpRow} (h : opRow opc = some row) : RowCodes opc row := by
  unfold opRow at h
  split at h <;> cases h
  all_goals simp [RowCodes, Instr.channel, opcOf]

/-- The table of formats and the decoder's own table list the same operation codes (R92). -/
theorem opFormat_eq_map_opRow (opc : BitVec 8) : opFormat opc = (opRow opc.toNat).map rowFormat := by
  revert opc
  decide

/-! ## The checks of the decoder -/

section
variable {c : CmdWord}

theorem decodeFields_of_unassigned (h : opRow c.opc.toNat = none) : decodeFields c = .error .opcode := by
  rw [decodeFields, h]

theorem decodeFields_of_reserved {row : OpRow} (h : opRow c.opc.toNat = some row) (hr : c.rsv ≠ 0#22) :
    decodeFields c = .error .reserved := by
  rw [decodeFields, h]
  exact if_pos hr

theorem decodeFields_of_rowN {i : Instr} (h : opRow c.opc.toNat = some (.n i)) (hr : c.rsv = 0#22) :
    decodeFields c = if c.ch ≠ 0#2 then .error .channel else .ok i := by
  rw [decodeFields, h]
  exact if_neg (not_not.2 hr)

theorem decodeFields_of_rowC {mk : Channel → Instr} (h : opRow c.opc.toNat = some (.c mk)) (hr : c.rsv = 0#22) :
    decodeFields c = (channelOf c.ch).elim (.error .channel) fun ch => .ok (mk ch) := by
  rw [decodeFields, h]
  refine (if_neg (not_not.2 hr)).trans ?_
  cases channelOf c.ch <;> rfl

/-- A command of a row is coded in its word by the row's operation code and the code of its channel (R90, R92). -/
theorem fieldsOfInstr_of_rowN {i : Instr} (h : RowCodes c.opc.toNat (.n i)) (hr : c.rsv = 0#22) (hch : c.ch = 0#2) :
    fieldsOfInstr i = c := by
  obtain ⟨hnone, hopc⟩ := h
  simp [fieldsOfInstr, hnone, BitVec.eq_of_toNat_eq hopc, ← hr, ← hch]

theorem fieldsOfInstr_of_rowC {mk : Channel → Instr} {ch : Channel} (h : RowCodes c.opc.toNat (.c mk))
    (hr : c.rsv = 0#22) (hch : ch.code = c.ch) : fieldsOfInstr (mk ch) = c := by
  obtain ⟨hsome, hopc⟩ := h ch
  simp [fieldsOfInstr, hsome, BitVec.eq_of_toNat_eq hopc, ← hr, hch]

/-- The fields that decode to a command are those of its word. -/
theorem fieldsOfInstr_of_decodeFields {i : Instr} (h : decodeFields c = .ok i) : fieldsOfInstr i = c := by
  rcases hrow : opRow c.opc.toNat with _ | row
  · rw [decodeFields_of_unassigned hrow] at h
    cases h
  by_cases hr : c.rsv = 0#22
  · cases row with
    | n j =>
      rw [decodeFields_of_rowN hrow hr] at h
      split at h <;> cases h
      next hch => exact fieldsOfInstr_of_rowN (rowCodes_of_opRow hrow) hr (not_not.1 hch)
    | c mk =>
      rw [decodeFields_of_rowC hrow hr] at h
      rcases hch : channelOf c.ch with _ | ch <;> rw [hch] at h <;> cases h
      exact fieldsOfInstr_of_rowC (rowCodes_of_opRow hrow) hr (code_of_channelOf hch)
  · rw [decodeFields_of_reserved hrow hr] at h
    cases h

end

/-! ## Decoding a word -/

/-- Settles O1: forwards the fields of the word are those of the command's word, backwards by the coding of each command. -/
theorem decodeIsExactlyEncode : Obligations.DecodeIsExactlyEncode := by
  intro w i
  refine ⟨fun h => ?_, fun h => h ▸ decode_encode i⟩
  calc w
    _ = wordOf (fieldsOf w) := (wordOf_fieldsOf w).symm
    _ = encode i := by rw [encode, fieldsOfInstr_of_decodeFields h]

/-- Settles O2: an unassigned operation code has no row; a row gives the format, and its commands the last two clauses. -/
theorem decodeFollowsTheCascade : Obligations.DecodeFollowsTheCascade := by
  intro w
  rw [ofNat_bits_opc, opFormat_eq_map_opRow]
  refine ⟨fun h => decodeFields_of_unassigned (Option.map_eq_none_iff.1 h), fun fmt h => ?_⟩
  obtain ⟨row, hrow, rfl⟩ := Option.map_eq_some_iff.1 h
  have hcodes := rowCodes_of_opRow hrow
  rw [fieldsOf_opc_toNat] at hcodes
  refine ⟨fun hr => decodeFields_of_reserved hrow (mt fieldsOf_rsv_eq_zero_iff.1 hr), ?_⟩
  cases row with
  | n i =>
    have hdec := fun hr => decodeFields_of_rowN hrow (fieldsOf_rsv_eq_zero_iff.2 hr)
    refine ⟨fun hr _ hch => ?_, nofun, fun hr _ hch => ⟨i, ?_, hcodes⟩, nofun⟩
    · exact (hdec hr).trans (if_pos (mt fieldsOf_ch_eq_iff.1 hch))
    · exact (hdec hr).trans (if_neg (not_not.2 (fieldsOf_ch_eq_iff.2 hch)))
  | c mk =>
    have hdec := fun hr => decodeFields_of_rowC hrow (fieldsOf_rsv_eq_zero_iff.2 hr)
    refine ⟨nofun, fun hr _ hch => ?_, nofun, fun hr _ hch => ?_⟩
    · rw [decode, hdec hr, channelOf_eq_none_iff.2 (fieldsOf_ch_eq_iff.2 hch)]
      rfl
    · obtain ⟨ch, hsome⟩ := Option.ne_none_iff_exists'.1 (mt channelOf_eq_none_iff.1 (mt fieldsOf_ch_eq_iff.1 hch))
      obtain ⟨hchannel, hopc⟩ := hcodes ch
      refine ⟨mk ch, ch, ?_, hchannel, ?_, hopc⟩
      · rw [decode, hdec hr, hsome]
        rfl
      · exact (fieldsOf_ch_eq_iff.1 (code_of_channelOf hsome).symm).symm

/-- Settles O3: each word is the one the encoder gives for its command. -/
theorem opcodeMapWords : Obligations.OpcodeMapWords := by
  unfold Obligations.OpcodeMapWords
  simp only [decodeIsExactlyEncode _ _]
  decide

theorem takeFault_eq_faulted (s : State) (c : Cause) (info : Word32) :
    takeFault ⟨c, info⟩ s = faulted s c.code info := rfl

/-- Settles O4: the CORE's turn takes the decode fault, whose code is that of the failed check (R241). -/
theorem illegalWordFaults : Obligations.IllegalWordFaults := by
  intro s e ha hb hd
  rw [step_of_agenda_nil ha, coreTurn_busy hb, coreStep_of_illegal hd, takeFault_eq_faulted]
  refine congrArg (fun code => Host.Outcome.next (faulted s code s.pend)) ?_
  cases e <;> decide

end Sys2Proof.Machine
end

section
/-! The shape checks (R112, R122): the fault of the first check that fails, and every command that makes them. -/

namespace Sys2Proof.Machine

variable {cfg : Config} {s : State} {f : Raised}

/-! ## The first check that fails -/

/-- The fault of `INSHAPE` (R112): that of the first of the seven checks that fails, which those before it pass. -/
theorem inshape_fault_iff :
    inshape cfg s = .error (.fault f) ↔
      s.channels.toInt ≠ 3 ∧ f = ⟨.channelCount, s.channels⟩ ∨ s.channels.toInt = 3 ∧
        (s.height.toInt ≤ 0 ∧ f = ⟨.dimNonPositive, axisRows⟩ ∨ 0 < s.height.toInt ∧
        (s.width.toInt ≤ 0 ∧ f = ⟨.dimNonPositive, axisCols⟩ ∨ 0 < s.width.toInt ∧
        (s.height.toInt < 8 ∧ f = ⟨.dimBelow8, axisRows⟩ ∨ 8 ≤ s.height.toInt ∧
        (s.width.toInt < 8 ∧ f = ⟨.dimBelow8, axisCols⟩ ∨ 8 ≤ s.width.toInt ∧
        (cfg.maxH < s.height.toInt ∧ f = ⟨.dimCapacity, axisRows⟩ ∨ s.height.toInt ≤ cfg.maxH ∧
        (cfg.maxW < s.width.toInt ∧ f = ⟨.dimCapacity, axisCols⟩)))))) := by
  simp only [inshape, bind, check_error_iff, raiseIf_error_iff, raiseIf_ok_iff, decide_eq_true_eq, decide_eq_false_iff_not,
    ne_eq, not_not, not_le, not_lt, Stop.fault.injEq]

/-- The fault of `PSHAPE` (R122): that of the first of the six checks that fails, which those before it pass. -/
theorem pshape_fault_iff {m8 : Bool} :
    pshape cfg m8 s = .error (.fault f) ↔
      s.rows.toInt ≤ 0 ∧ f = ⟨.dimNonPositive, axisRows⟩ ∨ 0 < s.rows.toInt ∧
        (s.cols.toInt ≤ 0 ∧ f = ⟨.dimNonPositive, axisCols⟩ ∨ 0 < s.cols.toInt ∧
        ((m8 = true ∧ s.rows.toInt % 8 ≠ 0) ∧ f = ⟨.dimNotTrimmed, axisRows⟩ ∨ (m8 = true → s.rows.toInt % 8 = 0) ∧
        ((m8 = true ∧ s.cols.toInt % 8 ≠ 0) ∧ f = ⟨.dimNotTrimmed, axisCols⟩ ∨ (m8 = true → s.cols.toInt % 8 = 0) ∧
        (cfg.maxH < s.rows.toInt ∧ f = ⟨.dimCapacity, axisRows⟩ ∨ s.rows.toInt ≤ cfg.maxH ∧
        (cfg.maxW < s.cols.toInt ∧ f = ⟨.dimCapacity, axisCols⟩))))) := by
  cases m8 <;>
    simp only [pshape, bind, check_error_iff, raiseIf_error_iff, raiseIf_ok_iff, decide_eq_true_eq, decide_eq_false_iff_not,
      Bool.true_and, Bool.false_and, Bool.false_eq_true, ne_eq, not_not, not_le, not_lt, Stop.fault.injEq, true_and, false_and,
      true_implies, false_implies, false_or]

/-! ## A check that faults ends the command -/

/-- A computation that begins with a check ends with what the check raises. -/
theorem bind_of_error {ε α β : Type} {x : Except ε α} {k : α → Except ε β} {e : ε} (h : x = .error e) : x >>= k = .error e := by
  rw [h]
  rfl

theorem finish_runPrim_fault {p : Prim} {c : Cause} {info : Word32} (h : p s = .error (.fault ⟨c, info⟩)) :
    finish (runPrim p s) = .next (faulted s c.code info) := by
  rw [runPrim_raised_iff.2 ⟨h, rfl⟩]
  rfl

theorem finish_upfront_fault {check : State → Except Stop Unit} {k : State → Progress} {c : Cause} {info : Word32}
    (h : check s = .error (.fault ⟨c, info⟩)) : finish (upfront check k s) = .next (faulted s c.code info) := by
  rw [upfront_raised_iff.2 (.inl ⟨h, rfl⟩)]
  rfl

/-- The commands that begin with `INSHAPE` (R112). -/
theorem exec_of_inshape_fault {i : Instr} {c : Cause} {info : Word32} (hi : i = .rgb2ycc ∨ i = .encode)
    (h : inshape hw s = .error (.fault ⟨c, info⟩)) : exec i s = .next (faulted s c.code info) := by
  rcases hi with rfl | rfl
  · exact finish_runPrim_fault (p := rgb2ycc hw) (bind_of_error h)
  · exact finish_upfront_fault h

/-- The commands that begin with `PSHAPE`, without and with the multiple-of-8 checks (R122). -/
def ChecksPlaneShape (i : Instr) (m8 : Bool) : Prop :=
  m8 = false ∧ (i = .ycc2rgb ∨ ∃ ch, i = .pack ch ∨ i = .unpack ch) ∨
    m8 = true ∧ (i = .tnext ∨ i = .decode ∨ ∃ ch, i = .ldblk ch ∨ i = .stblk ch ∨ i = .ldqblk ch ∨ i = .stqblk ch ∨
      i = .fqplane ch ∨ i = .dqiplane ch)

theorem exec_of_pshape_fault {i : Instr} {m8 : Bool} {c : Cause} {info : Word32} (hi : ChecksPlaneShape i m8)
    (h : pshape hw m8 s = .error (.fault ⟨c, info⟩)) : exec i s = .next (faulted s c.code info) := by
  rcases hi with ⟨rfl, hi⟩ | ⟨rfl, hi⟩
  · rcases hi with rfl | ⟨ch, rfl | rfl⟩
    · exact finish_runPrim_fault (p := ycc2rgb hw) (bind_of_error h)
    · exact finish_runPrim_fault (p := pack hw ch) (bind_of_error h)
    · exact finish_runPrim_fault (p := unpack hw ch) (bind_of_error h)
  · have htile : tileCheck hw s = .error (.fault ⟨c, info⟩) := bind_of_error h
    rcases hi with rfl | rfl | ⟨ch, rfl | rfl | rfl | rfl | rfl | rfl⟩
    · exact finish_runPrim_fault (p := tnext hw) (bind_of_error htile)
    · exact finish_upfront_fault h
    · exact finish_runPrim_fault (p := ldblk hw ch) (bind_of_error htile)
    · exact finish_runPrim_fault (p := stblk hw ch) (bind_of_error htile)
    · exact finish_runPrim_fault (p := ldqblk hw ch) (bind_of_error htile)
    · exact finish_runPrim_fault (p := stqblk hw ch) (bind_of_error htile)
    · exact finish_upfront_fault h
    · exact finish_upfront_fault h

theorem hw_limits : (hw.maxH : Int) = 4096 ∧ (hw.maxW : Int) = 4096 := ⟨rfl, rfl⟩

/-- Settles O21: each clause names the first check of `INSHAPE` that fails. -/
theorem inputShapeFaults : Obligations.InputShapeFaults := by
  intro i s hi
  have fault {c : Cause} {info : Word32} := exec_of_inshape_fault (s := s) (c := c) (info := info) hi
  simp only [inshape_fault_iff, hw_limits, Raised.mk.injEq] at fault
  refine ⟨fun hch => ?_, fun hch hh => ?_, fun hch hh hw => ?_, fun hch hh hw hh8 => ?_, fun hch hh8 hw hw8 => ?_,
    fun hch hmax hw8 => ?_, fun hch hh8 hh hmax => ?_⟩
  · exact fault (.inl ⟨hch, rfl, rfl⟩)
  · exact fault (.inr ⟨hch, .inl ⟨hh, rfl, rfl⟩⟩)
  · exact fault (.inr ⟨hch, .inr ⟨hh, .inl ⟨hw, rfl, rfl⟩⟩⟩)
  · exact fault (.inr ⟨hch, .inr ⟨hh, .inr ⟨hw, .inl ⟨hh8, rfl, rfl⟩⟩⟩⟩)
  · exact fault (.inr ⟨hch, .inr ⟨by omega, .inr ⟨hw, .inr ⟨hh8, .inl ⟨hw8, rfl, rfl⟩⟩⟩⟩⟩)
  · exact fault (.inr ⟨hch, .inr ⟨by omega, .inr ⟨by omega, .inr ⟨by omega, .inr ⟨hw8, .inl ⟨hmax, rfl, rfl⟩⟩⟩⟩⟩⟩)
  · exact fault (.inr ⟨hch, .inr ⟨by omega, .inr ⟨by omega, .inr ⟨hh8, .inr ⟨by omega, .inr ⟨hh, hmax, rfl, rfl⟩⟩⟩⟩⟩⟩)

/-- Settles O23: each clause names the first check of `PSHAPE` that fails. -/
theorem planeShapeFaults : Obligations.PlaneShapeFaults := by
  intro i m8 s hi
  have fault {c : Cause} {info : Word32} := exec_of_pshape_fault (s := s) (c := c) (info := info) hi
  simp only [pshape_fault_iff, hw_limits, Raised.mk.injEq] at fault
  refine ⟨fun hr => ?_, fun hr hc => ?_, fun hr hc hm hr8 => ?_, fun hr hc hm hr8 hc8 => ?_, fun hc h8 hmax => ?_,
    fun hr hrmax h8 hmax => ?_⟩
  · exact fault (.inl ⟨hr, rfl, rfl⟩)
  · exact fault (.inr ⟨hr, .inl ⟨hc, rfl, rfl⟩⟩)
  · exact fault (.inr ⟨hr, .inr ⟨hc, .inl ⟨⟨hm, hr8⟩, rfl, rfl⟩⟩⟩)
  · exact fault (.inr ⟨hr, .inr ⟨hc, .inr ⟨fun _ => hr8, .inl ⟨⟨hm, hc8⟩, rfl, rfl⟩⟩⟩⟩)
  · exact fault (.inr ⟨by omega, .inr ⟨hc, .inr ⟨fun hm => (h8 hm).1, .inr ⟨fun hm => (h8 hm).2,
      .inl ⟨hmax, rfl, rfl⟩⟩⟩⟩⟩)
  · exact fault (.inr ⟨hr, .inr ⟨by omega, .inr ⟨fun hm => (h8 hm).1, .inr ⟨fun hm => (h8 hm).2,
      .inr ⟨hrmax, hmax, rfl, rfl⟩⟩⟩⟩⟩)

end Sys2Proof.Machine
end

section
/-! What RGB2YCC stores (R111, R113, R114): the cropped shape, and in each plane the converted samples. -/

namespace Sys2Proof.Machine

variable {s : State} {ch : Channel}

/-! ## The converted pixels -/

theorem binary64_neg : binary64.neg = f64Neg := rfl

theorem fwd_binary64 (red green blue : F64) :
    fwd binary64 red green blue =
      (f64Add (f64Add (f64Mul (f64Lit 299 3) red) (f64Mul (f64Lit 587 3) green)) (f64Mul (f64Lit 114 3) blue),
        f64Add (f64Add (f64Sub (f64Mul (f64Neg (f64Lit 1687 4)) red) (f64Mul (f64Lit 3313 4) green))
          (f64Mul (f64Lit 5 1) blue)) (f64Lit 128 0),
        f64Add (f64Sub (f64Sub (f64Mul (f64Lit 5 1) red) (f64Mul (f64Lit 4187 4) green))
          (f64Mul (f64Lit 813 4) blue)) (f64Lit 128 0)) := by
  simp only [fwd, binary64_lit, binary64_add, binary64_sub, binary64_mul, binary64_neg]

/-- The three samples RGB2YCC stores for a position of the cropped shape. -/
def convertedPixel (s : State) (p : Nat × Nat) : F64 × F64 × F64 :=
  (convertedSample s .y p.1 p.2, convertedSample s .cb p.1 p.2, convertedSample s .cr p.1 p.2)

/-- The converted pixel of a position whose three samples are known. -/
theorem convertedPixel_eq {r c : Nat} {red green blue : F64}
    (hr : Buf.read s.mem.pix (pixIdx s.width.toInt.toNat r c 0) = some red)
    (hg : Buf.read s.mem.pix (pixIdx s.width.toInt.toNat r c 1) = some green)
    (hb : Buf.read s.mem.pix (pixIdx s.width.toInt.toNat r c 2) = some blue) :
    convertedPixel s (r, c) = fwd binary64 red green blue := by
  simp only [convertedPixel, convertedSample, hr, hg, hb, Option.getD_some]

/-- What RGB2YCC stores, in row-major order (R111). -/
def convertedPixels (s : State) : List (Nat × F64 × F64 × F64) :=
  (grid (cropRows s) (cropCols s)).map fun p => (plnIdx (cropCols s) p.1 p.2, convertedPixel s p)

/-- On a legal, written input RGB2YCC does nothing but store the converted pixels. -/
theorem rgb2ycc_of_written (hs : LegalInput hw s) (hwritten : InputWritten s) :
    rgb2ycc hw s = .ok (storeYcc s (convertedPixels s)) := by
  refine rgb2ycc_ok_iff.2 ⟨hs, convertedPixels s, listM_map fun p hp => yccEntry_ok_iff.2 ⟨convertedPixel s p, ?_, rfl⟩, rfl⟩
  obtain ⟨hr, hc⟩ := mem_grid.1 hp
  have hread {k : Nat} (hk : k < 3) := Option.isSome_iff_exists.1 (hwritten p.1 hr p.2 hc k hk)
  obtain ⟨red, hred⟩ := hread (k := 0) (by decide)
  obtain ⟨green, hgreen⟩ := hread (k := 1) (by decide)
  obtain ⟨blue, hblue⟩ := hread (k := 2) (by decide)
  exact yccAt_ok_iff.2 ⟨red, green, blue, hred, hgreen, hblue, convertedPixel_eq hred hgreen hblue⟩

/-! ## The planes -/

/-- The writes of RGB2YCC to the plane of a channel. -/
def convertWrites (s : State) (ch : Channel) : List (Nat × F64) :=
  (grid (cropRows s) (cropCols s)).map fun p => (plnIdx (cropCols s) p.1 p.2, convertedSample s ch p.1 p.2)

theorem mem_convertWrites {p : Nat × F64} :
    p ∈ convertWrites s ch ↔
      ∃ r c, (r < cropRows s ∧ c < cropCols s) ∧ (plnIdx (cropCols s) r c, convertedSample s ch r c) = p := by
  simp only [convertWrites, List.mem_map, mem_grid, Prod.exists]

/-- Each plane of the next state is the plane of this one under the writes of its channel. -/
theorem pln_storeYcc (s : State) (ch : Channel) :
    (storeYcc s (convertedPixels s)).mem.pln.get ch = Buf.writeAll (s.mem.pln.get ch) (convertWrites s ch) := by
  cases ch <;> simp only [storeYcc, convertedPixels, convertedPixel, convertWrites, List.map_map] <;> rfl

/-- No two writes name the same index, so each sample is read back. -/
theorem read_convertWrites (b : Buf 64) {r c : Nat} (hr : r < cropRows s) (hc : c < cropCols s) :
    Buf.read (Buf.writeAll b (convertWrites s ch)) (plnIdx (cropCols s) r c) = some (convertedSample s ch r c) := by
  refine Buf.read_writeAll_of_mem b (mem_convertWrites.2 ⟨r, c, ⟨hr, hc⟩, rfl⟩) fun u hu => ?_
  obtain ⟨r', c', ⟨-, hc'⟩, h⟩ := mem_convertWrites.1 hu
  obtain ⟨hidx, rfl⟩ := Prod.mk.inj h
  obtain ⟨rfl, rfl⟩ := plnIdx_inj hc' hc hidx
  rfl

/-- An index beyond the cropped shape reads as before. -/
theorem read_convertWrites_beyond (b : Buf 64) {a : Nat} (ha : cropRows s * cropCols s ≤ a) :
    Buf.read (Buf.writeAll b (convertWrites s ch)) a = Buf.read b a := by
  refine Buf.read_writeAll_of_notMem b fun p hp => ?_
  obtain ⟨r, c, ⟨hr, hc⟩, rfl⟩ := mem_convertWrites.1 hp
  exact (plnIdx_lt hr hc).trans_le ha |>.ne

/-- The planes hold the conversion of the cropped region (R111, R114). -/
theorem converted_storeYcc (s : State) : Converted s (storeYcc s (convertedPixels s)).complete := by
  intro r hr c hc red green blue hred hgreen hblue
  have hread (ch : Channel) : Buf.read ((storeYcc s (convertedPixels s)).mem.pln.get ch) (plnIdx (cropCols s) r c) =
      some (convertedSample s ch r c) := by
    rw [pln_storeYcc, read_convertWrites _ hr hc]
  have hpixel := convertedPixel_eq hred hgreen hblue
  rw [fwd_binary64] at hpixel
  obtain ⟨hy, hc⟩ := Prod.mk.inj hpixel
  obtain ⟨hcb, hcr⟩ := Prod.mk.inj hc
  exact ⟨hy ▸ hread .y, hcb ▸ hread .cb, hcr ▸ hread .cr⟩

/-! ## The cropped shape -/

/-- A dimension cropped to whole tiles, as a register (R113). -/
theorem toInt_crop {w : Word32} {n : Nat} (h0 : 0 ≤ w.toInt) (hn : n = 8 * (w.toInt.toNat / 8)) :
    (BitVec.ofNat 32 n).toInt = 8 * (w.toInt / 8) := by
  have hlt := BitVec.toInt_lt (x := w)
  rw [BitVec.toInt_eq_toNat_of_lt (by rw [BitVec.toNat_ofNat]; omega), BitVec.toNat_ofNat]
  omega

/-- RGB2YCC writes `ROWS`, `COLS` and the planes, and nothing else. -/
theorem storeYcc_eq (s : State) (px : List (Nat × F64 × F64 × F64)) :
    storeYcc s px = { s with
      rows := BitVec.ofNat 32 (cropRows s)
      cols := BitVec.ofNat 32 (cropCols s)
      mem := { s.mem with pln := (storeYcc s px).mem.pln } } := rfl

/-- Settles O20: the only writes are `ROWS`, `COLS` and the converted samples, each read back, none beyond the shape. -/
theorem rgb2yccCompletes : Obligations.Rgb2yccCompletes := by
  intro s hs hwritten
  have ⟨_, hheight, _, hwidth, _⟩ := hs
  refine ⟨_, finish_ok (runPrim_ok_iff.2 (rgb2ycc_of_written hs hwritten)), rfl, toInt_crop (by omega) rfl,
    toInt_crop (by omega) rfl, converted_storeYcc s, fun ch a ha => ?_, ?_⟩
  · exact (congrArg (Buf.read · a) (pln_storeYcc s ch)).trans (read_convertWrites_beyond _ ha)
  · rw [storeYcc_eq]
    rfl

end Sys2Proof.Machine
end

section
/-! A command that neither reads nor writes a part of the state runs alike on states that differ in it: the change of that part
commutes with the primitives, hence with the composites made of them (R210). -/

namespace Sys2Proof.Machine

variable {f : State → State} {cfg : Config} {ch : Channel} {s : State}

/-! ## Primitives -/

/-- The change `f` of the state may be made before the primitive or after it. -/
def Commutes (f : State → State) (p : Prim) : Prop := ∀ s, p (f s) = (p s).map f

/-- A change that a computation does not see and the write of its result commutes with may be made after them. -/
theorem bind_map {ε α : Type} {x y : Except ε α} {k k' : α → Except ε State} (hx : x = y) (hk : ∀ a, k a = (k' a).map f) :
    x >>= k = (y >>= k').map f := by
  subst hx
  cases x with
  | error e => rfl
  | ok a => exact hk a

/-! ## Sequences of primitives -/

/-- A change of the state with which a sequence ends. -/
def Progress.map (f : State → State) : Progress → Progress
  | .ok s => .ok (f s)
  | .raised s e => .raised (f s) e
  | .refused r => .refused r

/-- The change `f` of the state may be made before the sequence or after it. -/
def CommutesSeq (f : State → State) (k : State → Progress) : Prop := ∀ s, k (f s) = (k s).map f

theorem runPrim_map {p : Prim} (h : p (f s) = (p s).map f) : runPrim p (f s) = (runPrim p s).map f := by
  unfold runPrim
  rw [h]
  rcases p s with (e | r) | t <;> rfl

theorem Commutes.runPrim {p : Prim} (h : Commutes f p) : CommutesSeq f (runPrim p) := fun s => runPrim_map (h s)

theorem andThen_map {p q : Progress} {k : State → Progress} (hp : p = q.map f) (hk : CommutesSeq f k) :
    p.andThen k = (q.andThen k).map f := by
  subst hp
  cases q with
  | ok t => exact hk t
  | raised t e => rfl
  | refused r => rfl

/-- A check that does not see the change, before a sequence. -/
theorem upfront_map {c : State → Except Stop Unit} {k k' : State → Progress} (hc : c (f s) = c s)
    (hk : k (f s) = (k' s).map f) : upfront c k (f s) = (upfront c k' s).map f := by
  unfold upfront
  rw [hc]
  rcases c s with (e | r) | ⟨⟩
  · rfl
  · rfl
  · exact hk

theorem commutesSeq_sequence {l : List Prim} (h : ∀ p ∈ l, Commutes f p) : CommutesSeq f (sequence l) := by
  induction l with
  | nil => exact fun _ => rfl
  | cons p l ih =>
    exact fun s => andThen_map ((h p (by simp)).runPrim s) (ih fun q hq => h q (by simp [hq]))

/-- The tile loop: a change that keeps `STATUS.LAST` does not change how often it runs. -/
theorem commutesSeq_untilLast {body : State → Progress} (hlast : ∀ s, (f s).status.last = s.status.last)
    (h : CommutesSeq f body) (n : Nat) : CommutesSeq f (untilLast body n) := by
  induction n with
  | zero => exact fun _ => rfl
  | succ n ih =>
    refine fun s => andThen_map (h s) fun t => ?_
    rw [hlast]
    split
    · rfl
    · exact ih t

theorem commutesSeq_eachChannel {g : Channel → State → Progress} {l : List Channel} (h : ∀ ch, CommutesSeq f (g ch)) :
    CommutesSeq f (eachChannel g l) := by
  induction l with
  | nil => exact fun _ => rfl
  | cons ch l ih => exact fun s => andThen_map (h ch s) ih

/-! ## The tile loops of the composites -/

theorem commutesSeq_fqTiles (hlast : ∀ s, (f s).status.last = s.status.last) (htiles : ∀ s, (f s).tiles = s.tiles)
    (h : ∀ p ∈ fqPrims cfg ch, Commutes f p) : CommutesSeq f (fqTiles cfg ch) := by
  refine fun s => andThen_map ((h trst (by simp [fqPrims])).runPrim s) fun t => ?_
  rw [htiles]
  refine commutesSeq_untilLast hlast (commutesSeq_sequence fun p hp => h p ?_) _ t
  cases ch <;> simp [fqPrims, lumaOnly] at hp ⊢ <;> tauto

theorem commutesSeq_dqiTiles (hlast : ∀ s, (f s).status.last = s.status.last) (htiles : ∀ s, (f s).tiles = s.tiles)
    (h : ∀ p ∈ dqiPrims cfg ch, Commutes f p) : CommutesSeq f (dqiTiles cfg ch) := by
  refine fun s => andThen_map ((h trst (by simp [dqiPrims])).runPrim s) fun t => ?_
  rw [htiles]
  refine commutesSeq_untilLast hlast (commutesSeq_sequence fun p hp => h p ?_) _ t
  cases ch <;> simp [dqiPrims, lumaOnly] at hp ⊢ <;> tauto

/-- DECODE (R218), for a change that its upfront check and the choice of channels do not see. -/
theorem commutesSeq_decodeAll (hlast : ∀ s, (f s).status.last = s.status.last) (htiles : ∀ s, (f s).tiles = s.tiles)
    (hshape : ∀ s, pshape cfg true (f s) = pshape cfg true s) (hsparse : ∀ s, sparseChannels (f s) = sparseChannels s)
    (hunpack : ∀ ch, Commutes f (unpack cfg ch)) (hdqi : ∀ ch, ∀ p ∈ dqiPrims cfg ch, Commutes f p)
    (hcolour : Commutes f (ycc2rgb cfg)) : CommutesSeq f (decodeAll cfg) := by
  refine fun s => upfront_map (hshape s) ?_
  rw [hsparse]
  exact andThen_map (andThen_map (commutesSeq_eachChannel (fun ch => (hunpack ch).runPrim) s)
    (commutesSeq_eachChannel fun ch => commutesSeq_dqiTiles hlast htiles (hdqi ch))) hcolour.runPrim

/-- ENCODE (R215) from a state whose conversion does not see the change. -/
theorem encodeAll_map (hlast : ∀ s, (f s).status.last = s.status.last) (htiles : ∀ s, (f s).tiles = s.tiles)
    (hshape : inshape cfg (f s) = inshape cfg s) (hparam : qparam (f s) = qparam s)
    (hsparse : sparseChannels (f s) = sparseChannels s) (hcolour : rgb2ycc cfg (f s) = (rgb2ycc cfg s).map f)
    (hfq : ∀ ch, ∀ p ∈ fqPrims cfg ch, Commutes f p) (hpack : ∀ ch, Commutes f (pack cfg ch)) :
    encodeAll cfg (f s) = (encodeAll cfg s).map f := by
  refine upfront_map hshape (upfront_map hparam ?_)
  rw [hsparse]
  exact andThen_map (runPrim_map hcolour) (commutesSeq_eachChannel fun ch u =>
    andThen_map (commutesSeq_fqTiles hlast htiles (hfq ch) u) (hpack ch).runPrim)

/-- The end of a command, for a change of a part that neither completion nor a fault writes. -/
theorem finish_map (hcomplete : ∀ s, (f s).complete = f s.complete) (hfault : ∀ e s, takeFault e (f s) = f (takeFault e s))
    (p : Progress) : finish (p.map f) = mapNext f (finish p) := by
  cases p with
  | ok s => exact congrArg Host.Outcome.next (hcomplete s)
  | raised s e => exact congrArg Host.Outcome.next (hfault e s)
  | refused r => rfl

end Sys2Proof.Machine
end

section
/-! The input pixels: no primitive but RGB2YCC reads `PIX`, and RGB2YCC reads it in the cropped region only (R113, R224). -/

namespace Sys2Proof.Machine

variable {cfg : Config} {ch : Channel} {s : State} {pix : Buf 64}

/-- The state with another input buffer. -/
def State.withPix (pix : Buf 64) (s : State) : State := { s with mem := { s.mem with pix := pix } }

@[simp] theorem State.withPix_width (pix : Buf 64) (s : State) : (s.withPix pix).width = s.width := rfl

@[simp] theorem State.withPix_cropCols (pix : Buf 64) (s : State) : cropCols (s.withPix pix) = cropCols s := rfl

/-! ## Primitives that do not read the pixels -/

theorem commutes_withPix_trst : Commutes (.withPix pix) trst := fun _ => rfl

theorem commutes_withPix_ldblk : Commutes (.withPix pix) (ldblk cfg ch) := fun _ =>
  bind_map rfl fun _ => bind_map rfl fun _ => rfl

theorem commutes_withPix_ldqblk : Commutes (.withPix pix) (ldqblk cfg ch) := fun _ =>
  bind_map rfl fun _ => bind_map rfl fun _ => rfl

theorem commutes_withPix_stblk : Commutes (.withPix pix) (stblk cfg ch) := fun _ => bind_map rfl fun _ => rfl

theorem commutes_withPix_stqblk : Commutes (.withPix pix) (stqblk cfg ch) := fun _ => bind_map rfl fun _ => rfl

theorem commutes_withPix_center : Commutes (.withPix pix) (center cfg) := fun _ => rfl

theorem commutes_withPix_uncenter : Commutes (.withPix pix) (uncenter cfg) := fun _ => rfl

theorem commutes_withPix_fdct8 : Commutes (.withPix pix) (fdct8 cfg) := fun _ => rfl

theorem commutes_withPix_idct8 : Commutes (.withPix pix) (idct8 cfg) := fun _ => rfl

theorem commutes_withPix_dequant : Commutes (.withPix pix) (dequant cfg) := fun _ => rfl

theorem commutes_withPix_quant : Commutes (.withPix pix) (quant cfg) := fun _ =>
  bind_map rfl fun _ => bind_map rfl fun _ => rfl

theorem commutes_withPix_pack : Commutes (.withPix pix) (pack cfg ch) := fun _ =>
  bind_map rfl fun _ => bind_map rfl fun _ => rfl

theorem commutes_withPix_unpack : Commutes (.withPix pix) (unpack cfg ch) := fun _ =>
  bind_map rfl fun _ => bind_map rfl fun _ => bind_map rfl fun _ => rfl

theorem commutes_withPix_ycc2rgb : Commutes (.withPix pix) (ycc2rgb cfg) := fun _ =>
  bind_map rfl fun _ => bind_map rfl fun _ => rfl

/-- TNEXT moves the counter by the shape and the counter alone (R204). -/
theorem nextTile_withPix : nextTile (s.withPix pix) = (nextTile s).withPix pix := by
  simp only [nextTile, apply_ite (State.withPix pix)]
  rfl

theorem commutes_withPix_tnext : Commutes (.withPix pix) (tnext cfg) := fun _ =>
  bind_map rfl fun _ => congrArg Except.ok nextTile_withPix

theorem commutes_withPix_fqPrims : ∀ p ∈ fqPrims cfg ch, Commutes (.withPix pix) p := by
  simp only [fqPrims, List.forall_mem_cons, List.not_mem_nil, false_implies, implies_true, and_true]
  exact ⟨commutes_withPix_trst, commutes_withPix_ldblk, commutes_withPix_center, commutes_withPix_fdct8, commutes_withPix_quant,
    commutes_withPix_stqblk, commutes_withPix_tnext⟩

theorem commutes_withPix_dqiPrims : ∀ p ∈ dqiPrims cfg ch, Commutes (.withPix pix) p := by
  simp only [dqiPrims, List.forall_mem_cons, List.not_mem_nil, false_implies, implies_true, and_true]
  exact ⟨commutes_withPix_trst, commutes_withPix_ldqblk, commutes_withPix_dequant, commutes_withPix_idct8,
    commutes_withPix_uncenter, commutes_withPix_stblk, commutes_withPix_tnext⟩

/-! ## The conversion -/

/-- Loops over the same list whose entries agree on it. -/
theorem listM_congr {ε α β : Type} {g h : α → Except ε β} {l : List α} (hgh : ∀ a ∈ l, g a = h a) : listM g l = listM h l := by
  induction l with
  | nil => rfl
  | cons a l ih => rw [listM, listM, hgh a (by simp), ih fun b hb => hgh b (by simp [hb])]

/-- `pix` holds the samples of the cropped region of `s`, at the stride of the declared width (R113). -/
def SameCrop (s : State) (pix : Buf 64) : Prop :=
  ∀ r < cropRows s, ∀ c < cropCols s, ∀ k < 3,
    Buf.read pix (pixIdx s.width.toInt.toNat r c k) = Buf.read s.mem.pix (pixIdx s.width.toInt.toNat r c k)

theorem yccEntry_withPix (h : SameCrop s pix) {p : Nat × Nat} (hp : p ∈ grid (cropRows s) (cropCols s)) :
    yccEntry cfg (s.withPix pix) p = yccEntry cfg s p := by
  obtain ⟨hr, hc⟩ := mem_grid.1 hp
  have hread (k : Nat) (hk : k < 3) : (s.withPix pix).pixAt (pixIdx s.width.toInt.toNat p.1 p.2 k) =
      s.pixAt (pixIdx s.width.toInt.toNat p.1 p.2 k) := congrArg (need _ _) (h p.1 hr p.2 hc k hk)
  simp only [yccEntry, yccAt, State.withPix_width, State.withPix_cropCols, hread 0 (by decide), hread 1 (by decide),
    hread 2 (by decide)]

theorem rgb2ycc_withPix (h : SameCrop s pix) : rgb2ycc cfg (s.withPix pix) = (rgb2ycc cfg s).map (.withPix pix) :=
  bind_map rfl fun _ => bind_map (listM_congr fun _ hp => yccEntry_withPix h hp) fun _ => rfl

/-! ## The codec commands -/

theorem finish_withPix (p : Progress) : finish (p.map (.withPix pix)) = mapNext (.withPix pix) (finish p) :=
  finish_map (f := .withPix pix) (fun _ => rfl) (fun _ _ => rfl) p

theorem exec_encode_withPix (h : SameCrop s pix) : exec .encode (s.withPix pix) = mapNext (.withPix pix) (exec .encode s) :=
  (congrArg finish (encodeAll_map (f := .withPix pix) (fun _ => rfl) (fun _ => rfl) rfl rfl rfl (rgb2ycc_withPix h)
    (fun _ => commutes_withPix_fqPrims) fun _ => commutes_withPix_pack)).trans (finish_withPix _)

theorem exec_decode_withPix : exec .decode (s.withPix pix) = mapNext (.withPix pix) (exec .decode s) :=
  (congrArg finish (commutesSeq_decodeAll (f := .withPix pix) (fun _ => rfl) (fun _ => rfl) (fun _ => rfl) (fun _ => rfl)
    (fun _ => commutes_withPix_unpack) (fun _ => commutes_withPix_dqiPrims) commutes_withPix_ycc2rgb s)).trans
    (finish_withPix _)

/-- Settles O56: exchanging the pixels commutes with every primitive, with RGB2YCC when the cropped region stays. -/
theorem croppedSamplesHaveNoInfluence : Obligations.CroppedSamplesHaveNoInfluence :=
  fun _ _ => ⟨exec_encode_withPix, exec_decode_withPix⟩

end Sys2Proof.Machine
end

section
/-! The conversions of colours under exact arithmetic (R10, R115, R123). -/

namespace Sys2Proof.Machine

/-- Under `ideal` the forward conversion is the linear map of R111. -/
theorem fwd_ideal (r g b : ℝ) :
    fwd ideal r g b =
      (0.299 * r + 0.587 * g + 0.114 * b, -0.1687 * r - 0.3313 * g + 0.5 * b + 128, 0.5 * r - 0.4187 * g - 0.0813 * b + 128) := by
  simp only [fwd, ideal, Prod.mk.injEq]
  norm_num

/-- Under `ideal` the inverse conversion is the linear map of R120. -/
theorem inv_ideal (y cb cr : ℝ) :
    inv ideal y cb cr =
      (y + 1.402 * (cr - 128), y - 0.34414 * (cb - 128) - 0.71414 * (cr - 128), y + 1.772 * (cb - 128)) := by
  simp only [inv, ideal, Prod.mk.injEq]
  norm_num

/-- The residual of the conversion there and back, exactly: the rows of the product of the two matrices less the identity. -/
theorem inv_fwd_ideal_residual (r g b : ℝ) :
    inv ideal (fwd ideal r g b).1 (fwd ideal r g b).2.1 (fwd ideal r g b).2.2 =
      (r + 0.0000174 * (b - g), g - 0.000013582 * r + 0.000024 * g - 0.000010418 * b, b + 0.0000636 * (r - g)) := by
  simp only [fwd_ideal, inv_ideal, Prod.mk.injEq]
  refine ⟨?_, ?_, ?_⟩ <;> ring

/-- Settles O25: on a grey pixel the weights of R111 cancel, and the residual is linear in the three samples. -/
theorem idealColourIdentities : Obligations.IdealColourIdentities := by
  refine ⟨fun v => ?_, fun r g b hr0 hr hg0 hg hb0 hb => ?_⟩
  · rw [fwd_ideal, Prod.mk.injEq, Prod.mk.injEq]
    refine ⟨?_, ?_, ?_⟩ <;> ring
  · rw [inv_fwd_ideal_residual]
    refine ⟨abs_le.2 ⟨?_, ?_⟩, abs_le.2 ⟨?_, ?_⟩, abs_le.2 ⟨?_, ?_⟩⟩ <;> linarith

end Sys2Proof.Machine
end

section
/-! The bit patterns of the literals (R110) and of the transform matrix (R132), and how near its entries are to the cosines of
R131. -/

namespace Sys2Proof.Machine

/-! ## Cosines of multiples of a sixteenth of a half turn -/

/-- `cos(n * pi / 16)`. -/
noncomputable def cos16 (n : ℤ) : ℝ := Real.cos (n * Real.pi / 16)

theorem cos16_neg (n : ℤ) : cos16 (-n) = cos16 n := by
  rw [cos16, cos16, ← Real.cos_neg]
  congr 1
  push_cast
  ring

theorem cos16_sub_sixteen (n : ℤ) : cos16 (n - 16) = -cos16 n := by
  rw [cos16, cos16, ← Real.cos_sub_pi]
  congr 1
  push_cast
  ring

theorem cos16_add_mul_thirtyTwo (n k : ℤ) : cos16 (n + 32 * k) = cos16 n := by
  rw [cos16, cos16, ← Real.cos_add_int_mul_two_pi (n * Real.pi / 16) k]
  congr 1
  push_cast
  ring

/-- Angles that agree up to sign and whole turns have the same cosine. -/
theorem cos16_congr {n c : ℤ} (h : 32 ∣ n - c ∨ 32 ∣ n + c) : cos16 n = cos16 c := by
  rcases h with ⟨k, hk⟩ | ⟨k, hk⟩
  · rw [← cos16_add_mul_thirtyTwo c k, ← hk, add_sub_cancel]
  · rw [← cos16_neg c, ← cos16_add_mul_thirtyTwo (-c) k, ← hk, neg_add_cancel_comm_assoc]

theorem cos16_double (n : ℤ) : cos16 (2 * n) = 2 * cos16 n ^ 2 - 1 := by
  rw [cos16, cos16, ← Real.cos_two_mul]
  congr 1
  push_cast
  ring

theorem cos16_nonneg {n : ℤ} (h0 : 0 ≤ n) (h8 : n ≤ 8) : 0 ≤ cos16 n := by
  have hn0 : (0 : ℝ) ≤ n := Int.cast_nonneg h0
  have hn8 : (n : ℝ) ≤ 8 := mod_cast h8
  have hpi := Real.pi_pos
  exact Real.cos_nonneg_of_neg_pi_div_two_le_of_le (by nlinarith) (by nlinarith)

theorem cos16_four : cos16 4 = Real.sqrt 2 / 2 := by
  rw [cos16, ← Real.cos_pi_div_four]
  congr 1
  push_cast
  ring

theorem cos16_eight : cos16 8 = 0 := by
  rw [cos16, ← Real.cos_pi_div_two]
  congr 1
  push_cast
  ring

/-! ## Rational bounds -/

/-- Bounds of a cosine from those of the doubled angle, `cos(2x) = 2 cos(x)^2 - 1`. -/
theorem cos16_near_of_double {n : ℤ} {a b d e : ℝ} (h : |cos16 (2 * n) - b| ≤ d) (hn : 0 ≤ n ∧ n ≤ 8)
    (hae : 0 ≤ a + e ∧ 2 * (a - e) ^ 2 - 1 ≤ b - d ∧ b + d ≤ 2 * (a + e) ^ 2 - 1) : |cos16 n - a| ≤ e := by
  obtain ⟨hpos, hlow, hhigh⟩ := hae
  have hcos := cos16_nonneg hn.1 hn.2
  rw [cos16_double, abs_le] at h
  rw [abs_le]
  constructor
  · by_contra hlt
    nlinarith
  · by_contra hlt
    nlinarith

theorem cos16_near_of_supplement {n : ℤ} {b d : ℝ} (h : |cos16 (16 - n) - b| ≤ d) : |cos16 n - -b| ≤ d := by
  rwa [← neg_sub n, cos16_neg, cos16_sub_sixteen, ← neg_add', abs_neg, ← sub_neg_eq_add] at h

theorem cos16_four_near : |cos16 4 - 56022770974786139918731938227 / 2 ^ 96| ≤ 1 / 2 ^ 94 :=
  cos16_near_of_double (b := 0) (d := 0) (by norm_num [cos16_eight]) (by norm_num) (by norm_num)

theorem cos16_two_near : |cos16 2 - 73197277745406789746128126514 / 2 ^ 96| ≤ 1 / 2 ^ 94 :=
  cos16_near_of_double cos16_four_near (by norm_num) (by norm_num)

theorem cos16_six_near : |cos16 6 - 30319305170937817432302117203 / 2 ^ 96| ≤ 1 / 2 ^ 94 :=
  cos16_near_of_double (cos16_near_of_supplement (n := 12) cos16_four_near) (by norm_num) (by norm_num)

/-! ## The magnitudes -/

/-- A number of `k` units of `2^-56` beside half a cosine. -/
theorem f64Value_near_of_units {x : F64} {n : ℤ} {k : ℕ} (hx : f64Units x = k * 2 ^ 1018)
    (h : |cos16 n - k / 2 ^ 55| ≤ 1 / 2 ^ 54) : |(f64Value x : ℝ) - cos16 n / 2| ≤ 1 / 2 ^ 55 := by
  have hvalue : f64Value x = k / 2 ^ 56 := by
    have hpow : (2 : ℚ) ^ 1074 = 2 ^ 1018 * 2 ^ 56 := by rw [← pow_add]
    rw [f64Value, hx, hpow, Int.cast_mul, Int.cast_natCast, Int.cast_pow, Int.cast_ofNat, mul_comm,
      mul_div_mul_left _ _ (by positivity)]
  rw [hvalue]
  push_cast
  rw [abs_le] at h ⊢
  constructor <;> linarith

/-- The seven magnitudes are half the cosines of R131, to half a unit in the last place of `c1` to `c5`. -/
theorem cosBits_near {m : ℕ} (h1 : 1 ≤ m) (h7 : m ≤ 7) : |(f64Value (cosBits m) : ℝ) - cos16 m / 2| ≤ 1 / 2 ^ 55 := by
  have of_double {n : ℤ} {a b : ℝ} := cos16_near_of_double (n := n) (a := a) (b := b) (d := 1 / 2 ^ 94) (e := 1 / 2 ^ 54)
  have weaken {n : ℤ} {a b : ℝ} (h : |cos16 n - b| ≤ 1 / 2 ^ 94) (hab : |b - a| ≤ 1 / 2 ^ 54 - 1 / 2 ^ 94) :
      |cos16 n - a| ≤ 1 / 2 ^ 54 := (abs_sub_le _ b _).trans (by linarith)
  interval_cases m
  · exact f64Value_near_of_units (k := 35336513786835648) (by decide +kernel)
      (of_double cos16_two_near (by norm_num) (by norm_num))
  · exact f64Value_near_of_units (k := 33286268146824472) (by decide +kernel) (weaken cos16_two_near (by norm_num [abs_le]))
  · exact f64Value_near_of_units (k := 29956849889085068) (by decide +kernel)
      (of_double cos16_six_near (by norm_num) (by norm_num))
  · exact f64Value_near_of_units (k := 25476206690103092) (by decide +kernel) (weaken cos16_four_near (by norm_num [abs_le]))
  · exact f64Value_near_of_units (k := 20016527155241760) (by decide +kernel)
      (of_double (cos16_near_of_supplement (n := 10) cos16_six_near) (by norm_num) (by norm_num))
  · exact f64Value_near_of_units (k := 13787623707202246) (by decide +kernel) (weaken cos16_six_near (by norm_num [abs_le]))
  · exact f64Value_near_of_units (k := 7028869612283403) (by decide +kernel)
      (of_double (cos16_near_of_supplement (n := 14) cos16_two_near) (by norm_num) (by norm_num))

/-! ## The entries -/

/-- The angle of `P[i][j]` in sixteenths of a half turn (R131). -/
def promAngle (i j : Fin 8) : ℤ := if i.val = 0 then 4 else (2 * j.val + 1) * i.val

theorem idealProm_eq (i j : Fin 8) : idealProm i j = cos16 (promAngle i j) / 2 := by
  unfold idealProm promAngle
  split
  · have h := Real.sq_sqrt (zero_le_two (α := ℝ))
    have hpos := Real.sqrt_pos.2 (zero_lt_two (α := ℝ))
    rw [cos16_four]
    field_simp
    linarith
  · rw [cos16]
    push_cast
    ring

/-- The table of R131 names the magnitude and the sign of each angle. -/
theorem cosIndex_spec : ∀ i j : Fin 8,
    (1 ≤ (cosIndex.at i j).natAbs ∧ (cosIndex.at i j).natAbs ≤ 7) ∧
    if cosIndex.at i j < 0 then
      (32 : ℤ) ∣ promAngle i j - 16 - (cosIndex.at i j).natAbs ∨ (32 : ℤ) ∣ promAngle i j - 16 + (cosIndex.at i j).natAbs
    else (32 : ℤ) ∣ promAngle i j - (cosIndex.at i j).natAbs ∨ (32 : ℤ) ∣ promAngle i j + (cosIndex.at i j).natAbs := by
  decide

theorem f64Prom_near (i j : Fin 8) : |(f64Value (f64Prom i j) : ℝ) - idealProm i j| ≤ 1 / 2 ^ 55 := by
  obtain ⟨⟨h1, h7⟩, hangle⟩ := cosIndex_spec i j
  have hnear := cosBits_near h1 h7
  rw [idealProm_eq, f64Prom]
  split at hangle
  · next hneg =>
    have hcos := cos16_congr hangle
    rw [cos16_sub_sixteen] at hcos
    rw [if_pos hneg, f64Value_neg, Rat.cast_neg, ← abs_neg]
    rw [← hcos] at hnear
    convert hnear using 2
    ring
  · next hpos =>
    rw [if_neg hpos, cos16_congr hangle]
    exact hnear

/-- The literals of R110. -/
theorem literalBits :
    f64Lit 299 3 = 0x3FD322D0E5604189#64 ∧ f64Lit 587 3 = 0x3FE2C8B439581062#64 ∧
    f64Lit 114 3 = 0x3FBD2F1A9FBE76C9#64 ∧ f64Lit 1687 4 = 0x3FC597F62B6AE7D5#64 ∧
    f64Lit 3313 4 = 0x3FD53404EA4A8C15#64 ∧ f64Lit 5 1 = 0x3FE0000000000000#64 ∧
    f64Lit 4187 4 = 0x3FDACBFB15B573EB#64 ∧ f64Lit 813 4 = 0x3FB4D013A92A3055#64 ∧
    f64Lit 128 0 = 0x4060000000000000#64 ∧ f64Lit 1402 3 = 0x3FF66E978D4FDF3B#64 ∧
    f64Lit 34414 5 = 0x3FD60663C74FB54A#64 ∧ f64Lit 71414 5 = 0x3FE6DA3C21187E7C#64 ∧
    f64Lit 1772 3 = 0x3FFC5A1CAC083127#64 ∧ f64Lit 255 0 = 0x406FE00000000000#64 := by
  decide +kernel

/-- Settles O28: the patterns by evaluation, the entries by the angle each stands for. -/
theorem literalAndMatrixBits : Obligations.LiteralAndMatrixBits :=
  ⟨literalBits, by decide +kernel, f64Prom_near⟩

end Sys2Proof.Machine
end

section
/-! The block transform (R131 to R139): what FDCT8 and IDCT8 compute as sums of eight, and under `ideal` as products of
orthogonal matrices. -/

namespace Sys2Proof.Machine

/-! ## The products in their fixed order -/

theorem dot_eq_sum8 {α : Type} (A : Arith α) (f g : Fin 8 → α) : dot A f g = sum8 A fun k => A.mul (f k) (g k) := rfl

/-- R134, R135: each element is the right product of the left product. -/
theorem fdct_eq {α : Type} (A : Arith α) (b : Block α) :
    fdct A b = Block.ofFn fun i j => sum8 A fun k =>
      A.mul (sum8 A fun l => A.mul (A.prom i l) (b.at l k)) (A.prom j k) := by
  simp only [fdct, Block.at_ofFn, dot_eq_sum8]

/-- R137, R135: each element is the right product of the left product. -/
theorem idct_eq {α : Type} (A : Arith α) (c : Block α) :
    idct A c = Block.ofFn fun i j => sum8 A fun k =>
      A.mul (sum8 A fun l => A.mul (A.prom l i) (c.at l k)) (A.prom k j) := by
  simp only [idct, Block.at_ofFn, dot_eq_sum8]

theorem exec_fdct8 (s : State) :
    exec .fdct8 s = .next { s with status := doneStatus s, blk := fdct binary64 s.blk } :=
  finish_ok (runPrim_ok_iff.2 (fdct8_ok_iff.2 rfl))

theorem exec_idct8 (s : State) :
    exec .idct8 s = .next { s with status := doneStatus s, blk := idct binary64 s.blk } :=
  finish_ok (runPrim_ok_iff.2 (idct8_ok_iff.2 rfl))

/-- Settles O26: neither command checks anything, and the two products are sums of eight. -/
theorem transformsComplete : Obligations.TransformsComplete := by
  intro s
  rw [exec_fdct8, exec_idct8, fdct_eq, idct_eq]
  exact ⟨rfl, rfl⟩

/-! ## Sums of cosines of odd multiples of an angle -/

theorem cos16_eq_zero_iff {n : ℤ} : cos16 n = 0 ↔ 16 ∣ n - 8 := by
  have hangle (k : ℤ) : (n * Real.pi / 16 = (2 * k + 1) * Real.pi / 2) ↔ n - 8 = 16 * k := by
    have hpi := Real.pi_ne_zero
    rw [← @Int.cast_inj ℝ]
    push_cast
    field_simp
    constructor <;> intro h <;> linarith
  simp only [cos16, Real.cos_eq_zero_iff, hangle, dvd_def]

theorem cos16_zero : cos16 0 = 1 := by simp [cos16]

theorem two_mul_cos16_mul_cos16 (a b : ℤ) : 2 * cos16 a * cos16 b = cos16 (a - b) + cos16 (a + b) := by
  simp only [cos16]
  rw [Real.two_mul_cos_mul_cos]
  congr 2 <;> push_cast <;> ring

/-- Multiplied by `cos16 (n - 8)`, the sine of the angle, the sum telescopes to a sine of a multiple of the half turn. -/
theorem sum_cos16_odd_mul {n : ℤ} (h : ¬ 16 ∣ n) : ∑ j : Fin 8, cos16 ((2 * j.val + 1) * n) = 0 := by
  have hsine : cos16 (n - 8) ≠ 0 := by
    rw [Ne, cos16_eq_zero_iff]
    omega
  have hterm (j : ℕ) :
      2 * cos16 ((2 * j + 1) * n) * cos16 (n - 8) = cos16 (2 * (j + 1 : ℕ) * n - 8) - cos16 (2 * j * n - 8) := by
    rw [two_mul_cos16_mul_cos16, add_comm, sub_eq_add_neg (cos16 _), ← cos16_neg (2 * j * n - 8), ← cos16_sub_sixteen,
      ← cos16_neg (_ - 16)]
    congr 2 <;> push_cast <;> ring
  have htelescope : 2 * (∑ j : Fin 8, cos16 ((2 * j.val + 1) * n)) * cos16 (n - 8) = 0 := by
    rw [Finset.mul_sum, Finset.sum_mul, Fin.sum_univ_eq_sum_range fun j => 2 * cos16 ((2 * j + 1) * n) * cos16 (n - 8)]
    simp only [hterm]
    rw [Finset.sum_range_sub fun j : ℕ => cos16 (2 * j * n - 8), cos16_eq_zero_iff.2 (by omega),
      cos16_eq_zero_iff.2 (by omega), sub_zero]
  simpa [hsine] using htelescope

/-! ## Orthogonality -/

theorem idealProm_zero (k : Fin 8) : idealProm 0 k = cos16 4 / 2 := idealProm_eq 0 k

theorem idealProm_of_ne_zero {i : Fin 8} (h : i ≠ 0) (k : Fin 8) :
    idealProm i k = cos16 ((2 * k.val + 1) * i.val) / 2 := by
  rw [idealProm_eq, promAngle, if_neg (Fin.val_ne_zero_iff.2 h)]

/-- The constant row has norm 1. -/
theorem idealProm_zero_row : ∑ k : Fin 8, idealProm 0 k * idealProm 0 k = 1 := by
  have h := cos16_double 4
  norm_num [cos16_eight] at h
  simp only [idealProm_zero, Finset.sum_const, Finset.card_univ, Fintype.card_fin, nsmul_eq_mul]
  push_cast
  linarith

/-- The constant row is orthogonal to the others. -/
theorem idealProm_zero_row_mul {i : Fin 8} (h : i ≠ 0) : ∑ k : Fin 8, idealProm 0 k * idealProm i k = 0 := by
  simp only [idealProm_zero, idealProm_of_ne_zero h]
  rw [← Finset.mul_sum, ← Finset.sum_div, sum_cos16_odd_mul (by omega), zero_div, mul_zero]

/-- A product of two cosine rows is a sum over the difference and one over the sum of the two frequencies. -/
theorem idealProm_row_mul {i j : Fin 8} (hi : i ≠ 0) (hj : j ≠ 0) :
    ∑ k : Fin 8, idealProm i k * idealProm j k =
      (∑ k : Fin 8, cos16 ((2 * k.val + 1) * (i.val - j.val)) +
        ∑ k : Fin 8, cos16 ((2 * k.val + 1) * (i.val + j.val))) / 8 := by
  rw [← Finset.sum_add_distrib, Finset.sum_div]
  refine Finset.sum_congr rfl fun k _ => ?_
  rw [idealProm_of_ne_zero hi, idealProm_of_ne_zero hj, mul_sub, mul_add, ← two_mul_cos16_mul_cos16]
  ring

/-- R133: the rows of the matrix have norm 1 and are orthogonal to one another. -/
theorem idealProm_rows (i j : Fin 8) : ∑ k : Fin 8, idealProm i k * idealProm j k = if i = j then 1 else 0 := by
  by_cases hi : i = 0
  · subst hi
    split
    · next h => rw [← h, idealProm_zero_row]
    · next h => exact idealProm_zero_row_mul (Ne.symm h)
  · by_cases hj : j = 0
    · simp_rw [hj, if_neg hi, mul_comm (idealProm i _)]
      exact idealProm_zero_row_mul hi
    · rw [idealProm_row_mul hi hj, sum_cos16_odd_mul (n := i.val + j.val) (by omega)]
      split
      · next h => simp [h, cos16_zero]
      · next h => rw [sum_cos16_odd_mul (by omega), add_zero, zero_div]

/-! ## The transforms as matrix products -/

/-- The matrix `P` under `ideal` (R131). -/
noncomputable def promMatrix : Matrix (Fin 8) (Fin 8) ℝ := Matrix.of idealProm

/-- A block of reals as a matrix. -/
def blockMatrix (b : Block ℝ) : Matrix (Fin 8) (Fin 8) ℝ := Matrix.of b.at

theorem blockMatrix_injective {a b : Block ℝ} (h : blockMatrix a = blockMatrix b) : a = b :=
  Block.ext_at fun i j => congrFun₂ h i j

theorem promMatrix_mul_transpose : promMatrix * promMatrix.transpose = 1 :=
  Matrix.ext fun i j => (idealProm_rows i j).trans Matrix.one_apply.symm

/-- A square matrix with a right inverse has it on the left too: the columns are orthogonal because the rows are. -/
theorem transpose_mul_promMatrix : promMatrix.transpose * promMatrix = 1 :=
  mul_eq_one_comm.1 promMatrix_mul_transpose

theorem idealProm_columns (i j : Fin 8) : ∑ k : Fin 8, idealProm k i * idealProm k j = if i = j then 1 else 0 :=
  (congrFun₂ transpose_mul_promMatrix i j).trans Matrix.one_apply

theorem sum8_ideal (f : Fin 8 → ℝ) : sum8 ideal f = ∑ k, f k := (Fin.sum_univ_eight f).symm

theorem fdct_matrix (b : Block ℝ) :
    blockMatrix (fdct ideal b) = promMatrix * blockMatrix b * promMatrix.transpose := by
  ext i j
  simp only [blockMatrix, Matrix.of_apply, fdct_eq, Block.at_ofFn, sum8_ideal]
  rfl

theorem idct_matrix (c : Block ℝ) :
    blockMatrix (idct ideal c) = promMatrix.transpose * blockMatrix c * promMatrix := by
  ext i j
  simp only [blockMatrix, Matrix.of_apply, idct_eq, Block.at_ofFn, sum8_ideal]
  rfl

/-- `V (U B V) U = B` when `V` is a left inverse of `U`. -/
theorem conj_cancel_of_mul_eq_one {U V : Matrix (Fin 8) (Fin 8) ℝ} (h : V * U = 1) (B : Matrix (Fin 8) (Fin 8) ℝ) :
    V * (U * B * V) * U = B := by
  calc V * (U * B * V) * U = V * U * B * (V * U) := by simp only [Matrix.mul_assoc]
    _ = B := by rw [h, Matrix.one_mul, Matrix.mul_one]

/-- R139: IDCT8 undoes FDCT8. -/
theorem idct_fdct (b : Block ℝ) : idct ideal (fdct ideal b) = b := by
  apply blockMatrix_injective
  rw [idct_matrix, fdct_matrix, conj_cancel_of_mul_eq_one transpose_mul_promMatrix]

/-- R139: FDCT8 undoes IDCT8. -/
theorem fdct_idct (c : Block ℝ) : fdct ideal (idct ideal c) = c := by
  apply blockMatrix_injective
  rw [fdct_matrix, idct_matrix, conj_cancel_of_mul_eq_one promMatrix_mul_transpose]

/-- Settles O27: the rows are orthogonal by sums of cosines, the columns because `P` is square, and each round trip
cancels `P` with its transpose on both sides. -/
theorem idealTransformsInvert : Obligations.IdealTransformsInvert :=
  ⟨idealProm_rows, idealProm_columns, fun b => ⟨idct_fdct b, fdct_idct b⟩⟩

end Sys2Proof.Machine
end

section
/-! The quantizer (R152 to R161): its parameter checks, the first position that faults, what a completed QUANT makes zero, the
products of DEQUANT, and what a round trip loses under exact arithmetic. -/

namespace Sys2Proof.Machine

variable {s t : State} {b : Block F64} {i j : Fin 8} {f : Raised} {c : Cause} {info : Word32}

/-! ## The parameter checks -/

/-- The fault of `QPARAM` (R156): the cutoff is checked once the threshold has passed. -/
theorem qparam_fault_iff :
    qparam s = .error (.fault f) ↔
      s.threshold.toInt < 0 ∧ f = ⟨.thresholdNegative, s.threshold⟩ ∨ 0 ≤ s.threshold.toInt ∧
        ((s.bandCutoff.toInt < 1 ∨ 8 < s.bandCutoff.toInt) ∧ f = ⟨.bandCutoffRange, s.bandCutoff⟩) := by
  simp only [qparam, bind, check_error_iff, raiseIf_error_iff, raiseIf_ok_iff, Bool.or_eq_true, decide_eq_true_eq,
    decide_eq_false_iff_not, not_lt, Stop.fault.injEq]

/-- A check that passes leaves what follows it. -/
theorem upfront_of_ok {check : State → Except Stop Unit} {k : State → Progress} (h : check s = .ok ()) :
    upfront check k s = k s := by
  rw [upfront, h]

/-- The commands that check the parameters, the composites once the shape has passed (R156, R246). -/
theorem exec_of_qparam_fault {i : Instr}
    (hi : i = .quant ∨ (∃ ch, i = .fqplane ch ∧ LegalTiling hw s) ∨ (i = .encode ∧ LegalInput hw s))
    (h : qparam s = .error (.fault ⟨c, info⟩)) : exec i s = .next (faulted s c.code info) := by
  rcases hi with rfl | ⟨ch, rfl, htiling⟩ | ⟨rfl, hinput⟩
  · exact finish_runPrim_fault (p := quant hw) (bind_of_error h)
  · exact (congrArg finish (upfront_of_ok (pshape_true_ok_iff.2 htiling))).trans (finish_upfront_fault h)
  · exact (congrArg finish (upfront_of_ok (inshape_ok_iff.2 hinput))).trans (finish_upfront_fault h)

/-- Settles O30: each clause names the first check of `QPARAM` that fails. -/
theorem quantParameterFaults : Obligations.QuantParameterFaults := by
  intro i s hi
  have fault {c : Cause} {info : Word32} := exec_of_qparam_fault (c := c) (info := info) hi
  simp only [qparam_fault_iff, Raised.mk.injEq] at fault
  exact ⟨fun ht => fault (.inl ⟨ht, rfl, rfl⟩), fun ht hk => fault (.inr ⟨ht, hk, rfl, rfl⟩)⟩

/-! ## QUANT -/

theorem exec_quant_of_fits (hp : LegalParams s) (hb : BlockFits s s.blk) :
    exec .quant s = .next { s with status := doneStatus s, qblk := quantized s s.blk } :=
  finish_ok (runPrim_ok_iff.2 (quant_ok_iff.2 ⟨hp, _, quantOf_ok_iff.2 ⟨hb, rfl⟩, rfl⟩))

/-- Settles O29: `QPARAM` passes and every position gives a value. -/
theorem quantCompletes : Obligations.QuantCompletes := fun _ => exec_quant_of_fits

/-- When QUANT ends without `ERR`, every quotient fits and the block is stored. -/
theorem exec_quant_completed (h : exec .quant s = .next t) (herr : t.status.err = false) :
    BlockFits s s.blk ∧ t.qblk = quantized s s.blk := by
  rcases finish_runPrim_next_iff.1 h with ⟨u, hu, rfl⟩ | ⟨f, -, rfl⟩
  · obtain ⟨-, q, hq, rfl⟩ := quant_ok_iff.1 hu
    exact quantOf_ok_iff.1 hq
  · exact absurd herr (by simp)

/-! ## The first position that faults -/

/-- The error of a position is that of the block when every position before it in row-major order fits (R152, R246). -/
theorem quantOf_error_of_first {e : Stop}
    (hbefore : ∀ i' j' : Fin 8, 8 * i'.val + j'.val < 8 * i.val + j.val → QuotientFits s (b.at i' j') i' j')
    (h : roundQuotient hw.arith (hw.qtable.at i j).toInt s.rmode i j (b.at i j) = .error e) : quantOf hw s b = .error e := by
  have fits (i' j' : Fin 8) (hlt : 8 * i'.val + j'.val < 8 * i.val + j.val) :
      ∃ a, quantAt hw.arith (hw.qtable.at i' j').toInt s.threshold.toInt s.bandCutoff.toInt s.rmode i' j' (b.at i' j') =
        .ok a :=
    ⟨_, bind_ok_iff.2 ⟨_, roundQuotient_ok_iff.2 ⟨hbefore i' j' hlt, rfl⟩, rfl⟩⟩
  exact blockM_error_iff.2 ⟨i, j, bind_of_error h, fun j' _ => fits i j' (by omega), fun i' _ j' => fits i' j' (by omega)⟩

/-- The fault of the first position that does not fit is that of QUANT. -/
theorem exec_quant_of_first_fault (hp : LegalParams s)
    (hbefore : ∀ i' j' : Fin 8, 8 * i'.val + j'.val < 8 * i.val + j.val → QuotientFits s (s.blk.at i' j') i' j')
    (h : roundQuotient hw.arith (hw.qtable.at i j).toInt s.rmode i j (s.blk.at i j) = .error (.fault ⟨c, info⟩)) :
    exec .quant s = .next (faulted s c.code info) :=
  finish_runPrim_fault (p := quant hw)
    (check_error_iff.2 (.inr ⟨qparam_ok_iff.2 hp, bind_of_error (quantOf_error_of_first hbefore h)⟩))

/-- Settles O31: the loop stops at the first position that does not fit, where finiteness is checked before the range. -/
theorem quantRangeFaults : Obligations.QuantRangeFaults := by
  intro s i j hp hbefore
  have fault {c : Cause} {info : Word32} := exec_quant_of_first_fault (c := c) (info := info) hp hbefore
  exact ⟨fun hfin => fault (roundQuotient_fault_iff.2 (.inl ⟨hfin, rfl⟩)),
    fun hfin hrange => fault (roundQuotient_fault_iff.2 (.inr ⟨hfin, hrange, rfl⟩))⟩

/-! ## The zeros of a quantized block -/

/-- An integer in the range of `INT16` is stored as 0 only if it is 0. -/
theorem ofInt16_eq_zero_iff {n : Int} (hlow : -32768 ≤ n) (hhigh : n ≤ 32767) : BitVec.ofInt 16 n = 0#16 ↔ n = 0 := by
  rw [← BitVec.toInt_inj, BitVec.toInt_ofInt_eq_self (by decide) (by simpa using hlow) (by omega)]
  rfl

/-- A position holds 0 when the cutoff or the threshold makes it 0, or its quotient rounds to 0 (R153, R154, R155). -/
theorem quantized_at_eq_zero_iff (h : QuotientFits s (b.at i j) i j) :
    (quantized s b).at i j = 0#16 ↔
      (s.bandCutoff.toInt ≤ (i.val : Int) ∨ s.bandCutoff.toInt ≤ (j.val : Int)) ∨
        ((rounded s (b.at i j) i j).natAbs : Int) < s.threshold.toInt ∨ rounded s (b.at i j) i j = 0 := by
  obtain ⟨-, hlow, hhigh⟩ := h
  simp only [quantized, Block.at_ofFn]
  split
  · next hcut => exact iff_of_true rfl (.inl hcut)
  · next hcut =>
    split
    · next hsmall => exact iff_of_true rfl (.inr (.inl hsmall))
    · next hsmall => rw [ofInt16_eq_zero_iff hlow hhigh]; simp only [hcut, hsmall, false_or]

/-- Settles O32: the rounded quotients are the same in both runs, and each way to be 0 only gets wider. -/
theorem quantZerosAreMonotone : Obligations.QuantZerosAreMonotone := by
  intro s a b t₁ t₂ k₁ k₂ ht hk ha haerr hb hberr i j hzero
  obtain ⟨hafits, haq⟩ := exec_quant_completed ha haerr
  obtain ⟨hbfits, hbq⟩ := exec_quant_completed hb hberr
  have hrounded (d : F64) : rounded { s with threshold := t₁, bandCutoff := k₁ } d i j =
      rounded { s with threshold := t₂, bandCutoff := k₂ } d i j := rfl
  rw [haq, quantized_at_eq_zero_iff (hafits i j), hrounded] at hzero
  rw [hbq, quantized_at_eq_zero_iff (hbfits i j)]
  exact hzero.imp (.imp hk.trans hk.trans) (.imp_left fun h => h.trans_le ht)

/-! ## DEQUANT -/

theorem exec_dequant (s : State) :
    exec .dequant s = .next { s with status := doneStatus s, blk := dequantBlock binary64 defaultQ s.qblk } :=
  finish_ok (runPrim_ok_iff.2 (dequant_ok_iff.2 rfl))

theorem dequantBlock_at {α : Type} (A : Arith α) (q n : Block I16) (i j : Fin 8) :
    (dequantBlock A q n).at i j = A.ofInt ((n.at i j).toInt * (q.at i j).toInt) := Block.at_ofFn _ i j

theorem natAbs_toInt_le (x : I16) : x.toInt.natAbs ≤ 2 ^ 15 := by
  have := BitVec.toInt_lt (x := x)
  have := BitVec.le_toInt (x := x)
  omega

/-- A product of two `INT16` integers converts exactly: it is far below `2^53`. -/
theorem f64OfInt_mul_exact (x y : I16) :
    f64Finite (f64OfInt (x.toInt * y.toInt)) = true ∧ f64Value (f64OfInt (x.toInt * y.toInt)) = (x.toInt * y.toInt : Int) := by
  refine f64OfInt_exact ?_
  calc (x.toInt * y.toInt).natAbs = x.toInt.natAbs * y.toInt.natAbs := Int.natAbs_mul _ _
    _ ≤ 2 ^ 15 * 2 ^ 15 := Nat.mul_le_mul (natAbs_toInt_le x) (natAbs_toInt_le y)
    _ < 2 ^ 53 := by decide

theorem f64OfInt_zero : f64OfInt 0 = 0#64 := by decide +kernel

/-- Settles O34: DEQUANT checks nothing, and no product needs rounding. -/
theorem dequantCompletes : Obligations.DequantCompletes := by
  intro s
  refine ⟨_, exec_dequant s, fun i j => ?_, rfl, rfl⟩
  have hat : (dequantBlock binary64 defaultQ s.qblk).at i j =
      f64OfInt ((s.qblk.at i j).toInt * (defaultQ.at i j).toInt) := dequantBlock_at ..
  obtain ⟨hfin, hval⟩ := f64OfInt_mul_exact (s.qblk.at i j) (defaultQ.at i j)
  rw [hat]
  exact ⟨hfin, hval, fun h0 => by rw [h0, BitVec.toInt_zero, zero_mul, f64OfInt_zero]⟩

/-! ## What rounding loses under `ideal` -/

/-- A number with an integer in place of its magnitude is as far from it as the integer is from the magnitude. -/
theorem abs_signed_sub (x : ℝ) (n : Int) : |((if x < 0 then -n else n : Int) : ℝ) - x| = |(n : ℝ) - (|x|)| := by
  split
  · next h => rw [abs_of_neg h, ← abs_neg]; push_cast; ring_nf
  · next h => rw [abs_of_nonneg (not_lt.1 h)]

theorem abs_idealHAZ_sub_le (x : ℝ) : |(idealHAZ x : ℝ) - x| ≤ 1 / 2 := by
  rw [idealHAZ, abs_signed_sub, abs_le]
  have := Int.floor_le (|x| + 1 / 2)
  have := Int.lt_floor_add_one (|x| + 1 / 2)
  constructor <;> linarith

theorem abs_idealTRUNC_sub_lt (x : ℝ) : |(idealTRUNC x : ℝ) - x| < 1 := by
  rw [idealTRUNC, abs_signed_sub, abs_lt]
  have := Int.floor_le |x|
  have := Int.lt_floor_add_one |x|
  constructor <;> linarith

/-- The loss of a product with a table entry is that entry times the loss of the quotient. -/
theorem abs_mul_sub_eq {q : Int} (hq : 1 ≤ q) (d : ℝ) (n : Int) :
    |((n * q : Int) : ℝ) - d| = |(n : ℝ) - d / q| * q := by
  have hpos : (0 : ℝ) < q := Int.cast_pos.2 hq
  rw [← abs_of_pos hpos, ← abs_mul, abs_of_pos hpos, sub_mul, div_mul_cancel₀ _ hpos.ne', Int.cast_mul]

/-- Settles O35: the bounds on the two roundings, times the table entry. -/
theorem idealQuantizationError : Obligations.IdealQuantizationError := by
  intro q d hq
  have hpos : (0 : ℝ) < q := Int.cast_pos.2 hq
  constructor
  · calc |((idealHAZ (d / q) * q : Int) : ℝ) - d| = |(idealHAZ (d / q) : ℝ) - d / q| * q := abs_mul_sub_eq hq d _
      _ ≤ 1 / 2 * q := by gcongr; exact abs_idealHAZ_sub_le _
      _ = q / 2 := by ring
  · calc |((idealTRUNC (d / q) * q : Int) : ℝ) - d| = |(idealTRUNC (d / q) : ℝ) - d / q| * q := abs_mul_sub_eq hq d _
      _ < 1 * q := by gcongr; exact abs_idealTRUNC_sub_lt _
      _ = q := one_mul _

end Sys2Proof.Machine
end

section
/-! Ranks: counting the numbers with a property in ascending order. -/

namespace Sys2Proof.Machine

/-! ## Ranks -/

/-- Every rank below a count is that of an element. -/
theorem exists_of_lt_count {P : Nat → Prop} [DecidablePred P] {k m : Nat} (h : k < Nat.count P m) :
    ∃ a < m, P a ∧ Nat.count P a = k := by
  induction m with
  | zero => exact absurd h (by simp)
  | succ m ih =>
    by_cases hlt : k < Nat.count P m
    · obtain ⟨a, ha, hP⟩ := ih hlt
      exact ⟨a, ha.trans m.lt_succ_self, hP⟩
    · rw [Nat.count_succ] at h
      split at h
      · next hP => exact ⟨m, m.lt_succ_self, hP, by omega⟩
      · omega

/-- When `e` lists the elements of `P` below `m` in ascending order, the count is the number of those listed. -/
theorem count_eq_of_strictMonoOn {P : Nat → Prop} [DecidablePred P] {e : Nat → Nat} {n m k : Nat}
    (hmono : StrictMonoOn e (Set.Iio n)) (hP : ∀ a < m, P a ↔ ∃ j < n, e j = a) (hk : k ≤ n)
    (hm : ∀ j < n, e j < m ↔ j < k) : Nat.count P m = k := by
  have himage : (Finset.range m).filter P = (Finset.range k).image e := by
    ext a
    simp only [Finset.mem_filter, Finset.mem_range, Finset.mem_image]
    constructor
    · rintro ⟨ha, hPa⟩
      obtain ⟨j, hj, rfl⟩ := (hP a ha).1 hPa
      exact ⟨j, (hm j hj).1 ha, rfl⟩
    · rintro ⟨j, hj, rfl⟩
      have hlt := (hm j (hj.trans_le hk)).2 hj
      exact ⟨hlt, (hP _ hlt).2 ⟨j, hj.trans_le hk, rfl⟩⟩
  have hinj : Set.InjOn e (Finset.range k) := by
    rw [Finset.coe_range]
    exact hmono.injOn.mono (Set.Iio_subset_Iio hk)
  rw [Nat.count_eq_card_filter_range, himage, Finset.card_image_of_injOn hinj, Finset.card_range]

/-- In the ascending list of the elements below `n`, each stands at its rank. -/
theorem getElem?_filter_range {P : Nat → Prop} [DecidablePred P] {a n : Nat} (ha : a < n) (hP : P a) :
    ((List.range n).filter fun b => decide (P b))[Nat.count P a]? = some a := by
  induction n with
  | zero => exact absurd ha a.not_lt_zero
  | succ n ih =>
    rw [List.range_succ, List.filter_append]
    rcases Nat.lt_succ_iff_lt_or_eq.1 ha with hlt | rfl
    · have h := ih hlt
      obtain ⟨hlen, -⟩ := List.getElem?_eq_some_iff.1 h
      rwa [List.getElem?_append_left hlen]
    · rw [Nat.count, List.countP_eq_length_filter]
      simp [hP]

end Sys2Proof.Machine
end

section
/-! PACK (R172): the entries it stores are the non-zero elements of the plane in row-major order, its row pointers their
cumulative counts. -/

namespace Sys2Proof.Machine

/-! ## Lists as writes to consecutive indices -/

theorem le_of_mem_indexed {α : Type} {l : List α} {i : Nat} {p : Nat × α} (h : p ∈ indexed i l) : i ≤ p.1 := by
  induction l generalizing i with
  | nil => cases h
  | cons v l ih =>
    rcases List.mem_cons.1 h with rfl | h
    · exact le_rfl
    · exact (Nat.le_succ i).trans (ih h)

/-- A list written from index `i` on: its entries are read back, every element beyond it is as before. -/
theorem Buf.read_writeAll_indexed {w : Nat} (b : Buf w) (l : List (BitVec w)) (i k : Nat) :
    Buf.read (Buf.writeAll b (indexed i l)) (i + k) = l[k]?.or (Buf.read b (i + k)) := by
  induction l generalizing b i k with
  | nil => rfl
  | cons v l ih =>
    rw [indexed, Buf.writeAll_cons]
    cases k with
    | zero =>
      have hafter : ∀ p ∈ indexed (i + 1) l, p.1 ≠ i := fun p hp => Nat.ne_of_gt (le_of_mem_indexed hp)
      exact (Buf.read_writeAll_of_notMem _ hafter).trans (Buf.read_write_self b i v)
    | succ k =>
      have h := ih (Buf.write b i v) (i + 1) k
      rwa [Nat.add_right_comm, Nat.add_assoc, Buf.read_write_ne b v (by omega)] at h

/-! ## The entries of a plane -/

/-- The rows of a `rows × cols` plane with element `f a` at index `a` (R62). -/
def planeList (f : Nat → I16) (rows cols : Nat) : List (List I16) :=
  (List.range rows).map fun r => (List.range cols).map fun c => f (plnIdx cols r c)

theorem planeList_succ (f : Nat → I16) (rows cols : Nat) :
    planeList f (rows + 1) cols = planeList f rows cols ++ [(List.range cols).map fun c => f (plnIdx cols rows c)] := by
  rw [planeList, List.range_succ, List.map_append]
  rfl

theorem length_planeList (f : Nat → I16) (rows cols : Nat) : (planeList f rows cols).length = rows := by
  rw [planeList, List.length_map, List.length_range]

theorem take_planeList (f : Nat → I16) {r rows cols : Nat} (hr : r ≤ rows) :
    (planeList f rows cols).take r = planeList f r cols := by
  rw [planeList, ← List.map_take, List.take_range, Nat.min_eq_left hr]
  rfl

/-- The column of an index of a plane. -/
theorem plnIdx_mod {cols c : Nat} (r : Nat) (hc : c < cols) : plnIdx cols r c % cols = c := by
  rw [plnIdx, Nat.mul_add_mod', Nat.mod_eq_of_lt hc]

/-- The entries of a row are its non-zero elements, each with its column (R172). -/
theorem packRow_map (g : Nat → I16) (i n : Nat) :
    packRow i ((List.range' i n).map g) = ((List.range' i n).filter fun c => g c ≠ 0#16).map fun c => (g c, c) := by
  induction n generalizing i with
  | zero => rfl
  | succ n ih =>
    rw [List.range'_succ, List.map_cons, packRow, ih]
    by_cases h : g i = 0#16 <;> simp [h]

/-- The entries of a plane are its non-zero elements in row-major order, each with its column (R172). -/
theorem packRows_planeList (f : Nat → I16) (rows cols : Nat) :
    packRows (planeList f rows cols) =
      ((List.range (rows * cols)).filter fun a => f a ≠ 0#16).map fun a => (f a, a % cols) := by
  induction rows with
  | zero => simp [planeList, packRows]
  | succ rows ih =>
    have hrow : packRow 0 ((List.range cols).map fun c => f (plnIdx cols rows c)) =
        ((List.range cols).filter fun c => f (plnIdx cols rows c) ≠ 0#16).map fun c =>
          (f (plnIdx cols rows c), plnIdx cols rows c % cols) := by
      rw [List.range_eq_range', packRow_map, ← List.range_eq_range']
      refine List.map_congr_left fun c hc => ?_
      rw [plnIdx_mod rows (List.mem_range.1 (List.mem_filter.1 hc).1)]
    calc packRows (planeList f (rows + 1) cols)
        = packRows (planeList f rows cols) ++ packRow 0 ((List.range cols).map fun c => f (plnIdx cols rows c)) := by
          simp [planeList_succ, packRows]
      _ = _ := by
          rw [ih, hrow, Nat.add_one_mul, List.range_add, List.filter_append, List.map_append, List.filter_map, List.map_map]
          rfl

/-- The number of entries of a plane is that of its non-zero elements (R172). -/
theorem length_packRows_planeList (f : Nat → I16) (rows cols : Nat) :
    (packRows (planeList f rows cols)).length = Nat.count (fun a => f a ≠ 0#16) (rows * cols) := by
  rw [packRows_planeList, List.length_map, ← List.countP_eq_length_filter]
  rfl

/-- A non-zero element is the entry that its rank names (R172). -/
theorem getElem?_packRows_planeList {f : Nat → I16} {rows cols a : Nat} (ha : a < rows * cols) (hf : f a ≠ 0#16) :
    (packRows (planeList f rows cols))[Nat.count (fun a => f a ≠ 0#16) a]? = some (f a, a % cols) := by
  rw [packRows_planeList, List.getElem?_map, getElem?_filter_range (P := fun a => f a ≠ 0#16) ha hf]
  rfl

/-- A row pointer is the number of entries of the rows before it (R172). -/
theorem getElem?_rowPointers (n : Nat) {r : Nat} {rows : List (List I16)} (hr : r ≤ rows.length) :
    (rowPointers n rows)[r]? = some (n + (packRows (rows.take r)).length) := by
  induction rows generalizing n r with
  | nil => obtain rfl := Nat.le_zero.1 hr; rfl
  | cons row rows ih =>
    cases r with
    | zero => rfl
    | succ r =>
      rw [rowPointers, List.getElem?_cons_succ, ih _ (Nat.le_of_succ_le_succ hr), List.take_succ_cons, packRows, packRows,
        List.flatMap_cons, List.length_append, Nat.add_assoc]

theorem getElem?_rowPointers_planeList (f : Nat → I16) {r rows : Nat} (cols : Nat) (hr : r ≤ rows) :
    (rowPointers 0 (planeList f rows cols))[r]? = some (Nat.count (fun a => f a ≠ 0#16) (r * cols)) := by
  rw [getElem?_rowPointers 0 (by rwa [length_planeList]), take_planeList f hr, length_packRows_planeList, Nat.zero_add]

/-! ## What PACK stores -/

variable {s : State} {ch : Channel} {rows : List (List I16)}

theorem read_val_storeCsr (k : Nat) : Buf.read ((storeCsr s ch rows).mem.val.get ch) k =
    ((packRows rows)[k]?.map Prod.fst).or (Buf.read (s.mem.val.get ch) k) := by
  have h := Buf.read_writeAll_indexed (s.mem.val.get ch) ((packRows rows).map fun e => e.1) 0 k
  rw [Nat.zero_add, List.getElem?_map] at h
  rw [← h, storeCsr, Chan3.get_set_self]

theorem read_coli_storeCsr (k : Nat) : Buf.read ((storeCsr s ch rows).mem.coli.get ch) k =
    ((packRows rows)[k]?.map fun e => BitVec.ofNat 32 e.2).or (Buf.read (s.mem.coli.get ch) k) := by
  have h := Buf.read_writeAll_indexed (s.mem.coli.get ch) ((packRows rows).map fun e => BitVec.ofNat 32 e.2) 0 k
  rw [Nat.zero_add, List.getElem?_map] at h
  rw [← h, storeCsr, Chan3.get_set_self]

theorem read_rptr_storeCsr (r : Nat) : Buf.read ((storeCsr s ch rows).mem.rptr.get ch) r =
    ((rowPointers 0 rows)[r]?.map (BitVec.ofNat 32)).or (Buf.read (s.mem.rptr.get ch) r) := by
  have h := Buf.read_writeAll_indexed (s.mem.rptr.get ch) ((rowPointers 0 rows).map fun k => BitVec.ofNat 32 k) 0 r
  rw [Nat.zero_add, List.getElem?_map] at h
  rw [← h, storeCsr, Chan3.get_set_self]

/-- The element of a quantized plane at an index; one without a value counts as 0. -/
def qplValue (s : State) (ch : Channel) (a : Nat) : I16 := (Buf.read (s.mem.qpl.get ch) a).getD 0#16

theorem QPlaneWritten.read {n a : Nat} (h : QPlaneWritten s ch n) (ha : a < n) :
    Buf.read (s.mem.qpl.get ch) a = some (qplValue s ch a) := by
  obtain ⟨v, hv⟩ := Option.isSome_iff_exists.1 (h a ha)
  rw [qplValue, hv, Option.getD_some]

/-- The number of non-zero elements of a quantized plane below an index: the position of a non-zero element in the CSR
(R172). -/
def rank (s : State) (ch : Channel) (a : Nat) : Nat := Nat.count (fun b => qplValue s ch b ≠ 0#16) a

/-- In the written part of a plane the non-zero elements are those whose value is not 0. -/
theorem QPlaneWritten.nonzerosBelow {n m : Nat} (h : QPlaneWritten s ch n) (hm : m ≤ n) :
    nonzerosBelow s ch m = rank s ch m := by
  rw [Machine.nonzerosBelow, rank, Nat.count, List.countP_eq_length_filter]
  congr 1
  refine List.filter_congr fun a ha => ?_
  rw [h.read ((List.mem_range.1 ha).trans_le hm)]
  simp

/-- The state PACK answers for the plane of `s`. -/
def packed (s : State) (ch : Channel) : State := storeCsr s ch (planeList (qplValue s ch) s.nRows s.nCols)

theorem exec_pack_of_written (hs : LegalShape hw s) (hq : QPlaneWritten s ch (s.nRows * s.nCols)) :
    exec (.pack ch) s = .next (packed s ch).complete := by
  refine finish_ok (runPrim_ok_iff.2 (pack_ok_iff.2 ⟨hs, _, ?_, rfl⟩))
  refine listM_map fun r hr => listM_map fun c hc => qplAt_ok_iff.2 (hq.read ?_)
  exact plnIdx_lt (List.mem_range.1 hr) (List.mem_range.1 hc)

/-- A register that is not negative is the word of its count. -/
theorem ofNat_toNat_toInt {w : Word32} (h : 0 ≤ w.toInt) : BitVec.ofNat 32 w.toInt.toNat = w := by
  rw [← BitVec.ofInt_natCast, Int.toNat_of_nonneg h, BitVec.ofInt_toInt]

theorem LegalShape.rows_add_one {cfg : Config} (h : LegalShape cfg s) : s.rows + 1#32 = BitVec.ofNat 32 (s.nRows + 1) := by
  obtain ⟨hrows, -⟩ := h
  rw [BitVec.ofNat_add, State.nRows, ofNat_toNat_toInt hrows.le]

theorem vallen_packed : (packed s ch).vallen.get ch = BitVec.ofNat 32 (rank s ch (s.nRows * s.nCols)) := by
  rw [rank, ← length_packRows_planeList, packed, storeCsr, Chan3.get_set_self]

theorem collen_packed : (packed s ch).collen.get ch = BitVec.ofNat 32 (rank s ch (s.nRows * s.nCols)) := by
  rw [rank, ← length_packRows_planeList, packed, storeCsr, Chan3.get_set_self]

theorem rptrlen_packed (hs : LegalShape hw s) : (packed s ch).rptrlen.get ch = BitVec.ofNat 32 (s.nRows + 1) := by
  rw [← hs.rows_add_one, packed, storeCsr, Chan3.get_set_self]

theorem read_rptr_packed {r : Nat} (hr : r ≤ s.nRows) : Buf.read ((packed s ch).mem.rptr.get ch) r =
    some (BitVec.ofNat 32 (rank s ch (r * s.nCols))) := by
  rw [packed, read_rptr_storeCsr, getElem?_rowPointers_planeList _ _ hr]
  rfl

theorem read_val_packed {a : Nat} (ha : a < s.nRows * s.nCols) (hv : qplValue s ch a ≠ 0#16) :
    Buf.read ((packed s ch).mem.val.get ch) (rank s ch a) = some (qplValue s ch a) := by
  rw [packed, read_val_storeCsr, rank, getElem?_packRows_planeList ha hv]
  rfl

theorem read_coli_packed {a : Nat} (ha : a < s.nRows * s.nCols) (hv : qplValue s ch a ≠ 0#16) :
    Buf.read ((packed s ch).mem.coli.get ch) (rank s ch a) = some (BitVec.ofNat 32 (a % s.nCols)) := by
  rw [packed, read_coli_storeCsr, rank, getElem?_packRows_planeList ha hv]
  rfl

/-- PACK stores the CSR of the plane (R172). -/
theorem csrOfPlane_packed (hs : LegalShape hw s) (hq : QPlaneWritten s ch (s.nRows * s.nCols)) :
    CsrOfPlane (packed s ch).complete ch := by
  have hcount {m : Nat} (hm : m ≤ s.nRows * s.nCols) : nonzerosBelow (packed s ch).complete ch m = rank s ch m :=
    hq.nonzerosBelow hm
  have hlen := congrArg (BitVec.ofNat 32) (hcount le_rfl).symm
  refine ⟨vallen_packed.trans hlen, collen_packed.trans hlen, rptrlen_packed hs, fun r (hr : r ≤ s.nRows) => ?_,
    fun r (hr : r < s.nRows) c (hc : c < s.nCols) v hv hread => ?_⟩
  · have hrank := hcount (Nat.mul_le_mul_right s.nCols hr)
    exact (read_rptr_packed hr).trans (congrArg (fun k => some (BitVec.ofNat 32 k)) hrank.symm)
  · have ha : plnIdx s.nCols r c < s.nRows * s.nCols := plnIdx_lt hr hc
    obtain rfl : qplValue s ch (plnIdx s.nCols r c) = v := Option.some.inj ((hq.read ha).symm.trans hread)
    have hrank := hcount ha.le
    have hcoli := read_coli_packed ha hv
    rw [plnIdx_mod r hc] at hcoli
    exact ⟨(congrArg _ hrank).trans (read_val_packed ha hv), (congrArg _ hrank).trans hcoli⟩

/-- Settles O37: what PACK stores is the CSR of the plane, and it writes nothing else. -/
theorem packCompletes : Obligations.PackCompletes := by
  intro s ch hs hq
  have hbeyond {k : Nat} (hk : nonzerosBelow s ch (s.nRows * s.nCols) ≤ k) :
      (packRows (planeList (qplValue s ch) s.nRows s.nCols))[k]? = none := by
    rw [List.getElem?_eq_none_iff, length_packRows_planeList, ← rank, ← hq.nonzerosBelow le_rfl]
    exact hk
  refine ⟨_, exec_pack_of_written hs hq, rfl, csrOfPlane_packed hs hq, fun k hk => ⟨?_, ?_⟩, fun r hr => ?_,
    fun ch' hne => ?_, rfl⟩
  · refine (read_val_storeCsr k).trans ?_
    rw [hbeyond hk]
    rfl
  · refine (read_coli_storeCsr k).trans ?_
    rw [hbeyond hk]
    rfl
  · refine (read_rptr_storeCsr r).trans ?_
    rw [List.getElem?_eq_none (by rw [length_rowPointers, length_planeList]; exact hr)]
    rfl
  · exact ⟨Chan3.get_set_ne _ _ hne, Chan3.get_set_ne _ _ hne, Chan3.get_set_ne _ _ hne, Chan3.get_set_ne _ _ hne,
      Chan3.get_set_ne _ _ hne, Chan3.get_set_ne _ _ hne⟩

end Sys2Proof.Machine
end

section
/-! A CSR as two functions (R171): where each row starts and the column of each entry; `CSRCHECK` passes exactly when the
arrays and lengths hold such a pair (R176). -/

namespace Sys2Proof.Machine

variable {s : State} {ch : Channel} {start column : Nat → Nat}

/-! ## Words of counts -/

theorem toInt_ofNat_of_lt {n : Nat} (h : n < 2 ^ 31) : (BitVec.ofNat 32 n).toInt = n := by
  rw [BitVec.toInt_eq_toNat_of_lt (by rw [BitVec.toNat_ofNat]; omega), BitVec.toNat_ofNat]
  omega

theorem toNat_toInt_ofNat {n : Nat} (h : n < 2 ^ 31) : (BitVec.ofNat 32 n).toInt.toNat = n := by
  rw [toInt_ofNat_of_lt h, Int.toNat_natCast]

/-- The count a word of an `INT32` array stands for; no value counts as 0. -/
def countOf (o : Option I32) : Nat := (o.getD 0#32).toInt.toNat

theorem eq_ofNat_countOf {o : Option I32} {w : I32} (h : o = some w) (h0 : 0 ≤ w.toInt) :
    o = some (BitVec.ofNat 32 (countOf o)) := by
  rw [h, countOf, Option.getD_some, ofNat_toNat_toInt h0]

/-- The shape of the plane as integers, and small enough that every count is a word (R61). -/
theorem LegalShape.counts (h : LegalShape hw s) : s.rows.toInt = s.nRows ∧ s.cols.toInt = s.nCols ∧ s.nRows ≤ 4096 ∧
    s.nCols ≤ 4096 ∧ s.nRows * s.nCols < 2 ^ 31 := by
  have harea : s.nRows * s.nCols ≤ 4096 * 4096 := h.area_le
  obtain ⟨hrows, hmaxH, hcols, hmaxW⟩ := h
  rw [hw_limits.1] at hmaxH
  rw [hw_limits.2] at hmaxW
  unfold State.nRows State.nCols at *
  omega

/-! ## The shape of a CSR -/

/-- The arrays and lengths of `ch` are a CSR of the plane's shape (R171): row `r` holds the entries from `start r` on and
before `start (r + 1)`, entry `k` is in column `column k`, and the columns of a row rise. -/
structure CsrShape (s : State) (ch : Channel) (start column : Nat → Nat) : Prop where
  rptrlen : s.rptrlen.get ch = BitVec.ofNat 32 (s.nRows + 1)
  vallen : s.vallen.get ch = BitVec.ofNat 32 (start s.nRows)
  collen : s.collen.get ch = BitVec.ofNat 32 (start s.nRows)
  start_zero : start 0 = 0
  start_le_succ : ∀ r < s.nRows, start r ≤ start (r + 1)
  start_le_area : start s.nRows ≤ s.nRows * s.nCols
  rptr : ∀ r ≤ s.nRows, Buf.read (s.mem.rptr.get ch) r = some (BitVec.ofNat 32 (start r))
  coli : ∀ k < start s.nRows, Buf.read (s.mem.coli.get ch) k = some (BitVec.ofNat 32 (column k))
  column_lt : ∀ k < start s.nRows, column k < s.nCols
  column_rises : ∀ r < s.nRows, ∀ k, start r < k → k < start (r + 1) → column (k - 1) < column k

/-- The values of the entries have been written (R175). -/
def ValuesWritten (s : State) (ch : Channel) (n : Nat) : Prop := ∀ k < n, (Buf.read (s.mem.val.get ch) k).isSome

section
variable (h : CsrShape s ch start column)
include h

theorem CsrShape.start_le {r : Nat} (hr : r ≤ s.nRows) : start r ≤ start s.nRows := by
  induction hr using Nat.decreasingInduction with
  | self => exact le_rfl
  | of_succ k hk ih => exact (h.start_le_succ k hk).trans ih

/-- An entry of a row is an entry of the CSR. -/
theorem CsrShape.lt_of_mem_row {r k : Nat} (hr : r < s.nRows) (hk : k < start (r + 1)) : k < start s.nRows :=
  hk.trans_le (h.start_le (r := r + 1) hr)

/-- The columns of a row rise (R176, check 8). -/
theorem CsrShape.column_lt_column {r i j : Nat} (hr : r < s.nRows) (hi : start r ≤ i) (hij : i < j) (hj : j < start (r + 1)) :
    column i < column j := by
  induction j, hij using Nat.le_induction with
  | base => exact h.column_rises r hr (i + 1) (Nat.lt_succ_of_le hi) hj
  | succ j hij ih => exact (ih (j.lt_succ_self.trans hj)).trans (h.column_rises r hr (j + 1) (by omega) hj)

/-- Entries of a row in the same column are the same entry. -/
theorem CsrShape.column_inj {r i j : Nat} (hr : r < s.nRows) (hi : start r ≤ i) (hi' : i < start (r + 1)) (hj : start r ≤ j)
    (hj' : j < start (r + 1)) (heq : column i = column j) : i = j := by
  rcases Nat.lt_trichotomy i j with hlt | rfl | hlt
  · exact absurd heq (h.column_lt_column hr hi hlt hj').ne
  · rfl
  · exact absurd heq.symm (h.column_lt_column hr hj hlt hi').ne

/-- Every entry belongs to a row. -/
theorem CsrShape.exists_row {r k : Nat} (hr : r ≤ s.nRows) (hk : k < start r) : ∃ q < r, start q ≤ k ∧ k < start (q + 1) := by
  induction r with
  | zero => rw [h.start_zero] at hk; exact absurd hk k.not_lt_zero
  | succ r ih =>
    by_cases hlt : k < start r
    · obtain ⟨q, hq, hrow⟩ := ih (Nat.le_of_succ_le hr) hlt
      exact ⟨q, hq.trans r.lt_succ_self, hrow⟩
    · exact ⟨r, r.lt_succ_self, not_lt.1 hlt, hk⟩

variable (hs : LegalShape hw s)
include hs

theorem CsrShape.start_lt {r : Nat} (hr : r ≤ s.nRows) : start r < 2 ^ 31 := by
  obtain ⟨-, -, -, -, harea⟩ := hs.counts
  exact ((h.start_le hr).trans h.start_le_area).trans_lt harea

theorem CsrShape.column_small {k : Nat} (hk : k < start s.nRows) : column k < 2 ^ 31 := by
  obtain ⟨-, -, -, hcols, -⟩ := hs.counts
  have := h.column_lt k hk
  omega

/-- `VALLEN` is the number of entries. -/
theorem CsrShape.vallen_toInt : (s.vallen.get ch).toInt = start s.nRows := by
  rw [h.vallen, toInt_ofNat_of_lt (h.start_lt hs le_rfl)]

/-- The entries of a row are those between its pointers (R171). -/
theorem CsrShape.inRow_iff {r k : Nat} (hr : r < s.nRows) : InRow s ch r k ↔ start r ≤ k ∧ k < start (r + 1) := by
  have hstart := toInt_ofNat_of_lt (h.start_lt hs hr.le)
  have hend := toInt_ofNat_of_lt (h.start_lt hs (r := r + 1) hr)
  constructor
  · rintro ⟨a, b, ha, hb, hak, hkb⟩
    obtain rfl := Option.some.inj ((h.rptr r hr.le).symm.trans ha)
    obtain rfl := Option.some.inj ((h.rptr (r + 1) hr).symm.trans hb)
    omega
  · rintro ⟨hak, hkb⟩
    exact ⟨_, _, h.rptr r hr.le, h.rptr (r + 1) hr, by omega, by omega⟩

/-- A CSR of the plane's shape passes `CSRCHECK` (R176). -/
theorem CsrShape.csrCheck : csrCheck s ch = .ok () := by
  obtain ⟨hrows, hcols, hrowsmax, hcolsmax, -⟩ := hs.counts
  have hrptrlen : (s.rptrlen.get ch).toInt = s.rows.toInt + 1 := by
    rw [h.rptrlen, toInt_ofNat_of_lt (by omega), hrows]
    rfl
  have hlen := h.vallen_toInt hs
  have harea : (start s.nRows : Int) ≤ s.rows.toInt * s.cols.toInt := by
    rw [hrows, hcols]
    exact_mod_cast h.start_le_area
  have hstart {r : Nat} (hr : r ≤ s.nRows) := toInt_ofNat_of_lt (h.start_lt hs hr)
  have hcolumn {k : Nat} (hk : k < start s.nRows) := toInt_ofNat_of_lt (h.column_small hs hk)
  refine csrCheck_ok_iff.2 ⟨hrptrlen, h.vallen.trans h.collen.symm, by omega, by omega,
    ⟨_, h.rptr 0 (Nat.zero_le _), ?_⟩, fun r hr => ?_, ⟨_, h.rptr _ le_rfl, ?_⟩, fun k hk => ?_, fun r hr => ?_⟩
  · rw [h.start_zero]
    rfl
  · refine pointerRises_ok_iff.2 ⟨_, _, h.rptr r hr.le, h.rptr (r + 1) hr, ?_⟩
    rw [hstart hr.le, hstart hr]
    exact_mod_cast h.start_le_succ r hr
  · rw [hstart le_rfl, hlen]
  · rw [hlen, Int.toNat_natCast] at hk
    have := h.column_lt k hk
    refine columnInRange_ok_iff.2 ⟨_, h.coli k hk, ?_⟩
    rw [hcolumn hk, hcols]
    omega
  · refine rowRises_ok_iff.2 ⟨_, _, h.rptr r hr.le, h.rptr (r + 1) hr, fun k hk => ?_⟩
    rw [hstart hr.le, hstart (r := r + 1) hr, Int.toNat_natCast, Int.toNat_natCast, positions, List.mem_range'_1] at hk
    have hk' : k < start s.nRows := h.lt_of_mem_row hr (by omega)
    have hpred : k - 1 < start s.nRows := by omega
    refine columnRises_ok_iff.2 ⟨_, _, h.coli k hk', h.coli (k - 1) hpred, ?_⟩
    rw [hcolumn hk', hcolumn hpred]
    exact_mod_cast h.column_rises r hr k (by omega) (by omega)

end

/-- Row pointers that begin at 0 and rise are not negative (R176, checks 4 and 5). -/
theorem rptr_nonneg (h : csrCheck s ch = .ok ()) {r : Nat} (hr : r ≤ s.nRows) :
    ∃ a, Buf.read (s.mem.rptr.get ch) r = some a ∧ 0 ≤ a.toInt := by
  obtain ⟨-, -, -, -, ⟨p, hp, hp0⟩, hrises, -⟩ := csrCheck_ok_iff.1 h
  induction r with
  | zero => exact ⟨p, hp, hp0.ge⟩
  | succ r ih =>
    obtain ⟨a, ha, hnonneg⟩ := ih (Nat.le_of_succ_le hr)
    obtain ⟨a', b, ha', hb, hle⟩ := pointerRises_ok_iff.1 (hrises r hr)
    obtain rfl : a = a' := Option.some.inj (ha.symm.trans ha')
    exact ⟨b, hb, hnonneg.trans hle⟩

theorem countOf_some {o : Option I32} {w : I32} (h : o = some w) : countOf o = w.toInt.toNat := by
  rw [h, countOf, Option.getD_some]

/-- `CSRCHECK` passes exactly on a CSR of the plane's shape (R176): the starts are the row pointers, the columns `COLI`. -/
theorem csrCheck_iff_csrShape (hs : LegalShape hw s) :
    csrCheck s ch = .ok () ↔ ∃ start column, CsrShape s ch start column := by
  refine ⟨fun h => ?_, fun ⟨start, column, h⟩ => h.csrCheck hs⟩
  obtain ⟨hrptrlen, hlens, hlen, harea, ⟨p, hp, hp0⟩, hrises, ⟨e, he, helen⟩, hcolumns, hrows⟩ := csrCheck_ok_iff.1 h
  obtain ⟨hnRows, hnCols, -, -, -⟩ := hs.counts
  refine ⟨fun r => countOf (Buf.read (s.mem.rptr.get ch) r), fun k => countOf (Buf.read (s.mem.coli.get ch) k), ?_⟩
  have hcount : countOf (Buf.read (s.mem.rptr.get ch) s.nRows) = (s.vallen.get ch).toInt.toNat := by
    rw [countOf_some he, helen]
  have hcolumn {k : Nat} (hk : k < (s.vallen.get ch).toInt.toNat) : ∃ c, Buf.read (s.mem.coli.get ch) k = some c ∧
      0 ≤ c.toInt ∧ c.toInt < s.cols.toInt := columnInRange_ok_iff.1 (hcolumns k hk)
  have hvallen : s.vallen.get ch = BitVec.ofNat 32 (countOf (Buf.read (s.mem.rptr.get ch) s.nRows)) := by
    rw [hcount, ofNat_toNat_toInt hlen]
  refine ⟨?_, hvallen, hlens.symm.trans hvallen, ?_, fun r hr => ?_, ?_, fun r hr => ?_, fun k hk => ?_, fun k hk => ?_,
    fun r hr k hlo hhi => ?_⟩
  · have hcast : s.nRows + 1 = (s.rptrlen.get ch).toInt.toNat := by omega
    rw [hcast, ofNat_toNat_toInt (by omega)]
  · rw [countOf_some hp, hp0]
    rfl
  · obtain ⟨a, b, ha, hb, hle⟩ := pointerRises_ok_iff.1 (hrises r hr)
    rw [countOf_some ha, countOf_some hb]
    exact Int.toNat_le_toNat hle
  · rw [hcount, Int.toNat_le, Int.natCast_mul, ← hnRows, ← hnCols]
    exact harea
  · obtain ⟨a, ha, ha0⟩ := rptr_nonneg h hr
    exact eq_ofNat_countOf ha ha0
  · rw [hcount] at hk
    obtain ⟨c, hc, hc0, -⟩ := hcolumn hk
    exact eq_ofNat_countOf hc hc0
  · rw [hcount] at hk
    obtain ⟨c, hc, hc0, hlt⟩ := hcolumn hk
    rw [countOf_some hc]
    omega
  · obtain ⟨a, b, ha, hb, hrow⟩ := rowRises_ok_iff.1 (hrows r hr)
    have hend := rptr_le_vallen h hr hb
    rw [countOf_some ha] at hlo
    rw [countOf_some hb] at hhi
    obtain ⟨c, q, hc, hq, hlt⟩ := columnRises_ok_iff.1 (hrow k (by rw [positions, List.mem_range'_1]; omega))
    obtain ⟨q', hq', hq0, -⟩ := hcolumn (k := k - 1) (by omega)
    obtain rfl : q = q' := Option.some.inj (hq.symm.trans hq')
    rw [countOf_some hq, countOf_some hc]
    omega

end Sys2Proof.Machine
end

section
/-! UNPACK (R175): what it writes for a CSR of the plane's shape, and what the dense plane then reads. -/

namespace Sys2Proof.Machine

variable {s : State} {ch : Channel} {start column : Nat → Nat}

/-! ## The writes -/

/-- The value of an entry; one without a value counts as 0. -/
def entryValue (s : State) (ch : Channel) (k : Nat) : I16 := (Buf.read (s.mem.val.get ch) k).getD 0#16

theorem entryValue_eq {k : Nat} {v : I16} (h : Buf.read (s.mem.val.get ch) k = some v) : entryValue s ch k = v := by
  rw [entryValue, h, Option.getD_some]

/-- The writes of the entries of row `r` (R175). -/
def rowWrites (s : State) (ch : Channel) (start column : Nat → Nat) (r : Nat) : List (Nat × I16) :=
  (positions (start r) (start (r + 1))).map fun k => (plnIdx s.nCols r (column k), entryValue s ch k)

/-- The writes of all entries, row by row (R175). -/
def entryWrites (s : State) (ch : Channel) (start column : Nat → Nat) : List (Nat × I16) :=
  ((List.range s.nRows).map (rowWrites s ch start column)).flatten

@[simp] theorem mem_positions {lo hi k : Nat} : k ∈ positions lo hi ↔ lo ≤ k ∧ k < hi := by
  rw [positions, List.mem_range'_1]
  omega

theorem mem_entryWrites {p : Nat × I16} : p ∈ entryWrites s ch start column ↔
    ∃ r < s.nRows, ∃ k, (start r ≤ k ∧ k < start (r + 1)) ∧ (plnIdx s.nCols r (column k), entryValue s ch k) = p := by
  simp only [entryWrites, rowWrites, List.mem_flatten, List.mem_map, List.mem_range, exists_exists_and_eq_and, mem_positions]

/-- The state UNPACK answers for a CSR of the plane's shape. -/
def unpacked (s : State) (ch : Channel) (start column : Nat → Nat) : State :=
  s.putQpl ch (zeroFill (s.nRows * s.nCols) ++ entryWrites s ch start column)

/-- UNPACK completes when the values of the entries have been written. -/
theorem CsrShape.exec_unpack (h : CsrShape s ch start column) (hs : LegalShape hw s)
    (hval : ValuesWritten s ch (start s.nRows)) :
    exec (.unpack ch) s = .next (unpacked s ch start column).complete := by
  refine finish_ok (runPrim_ok_iff.2 (unpack_ok_iff.2 ⟨hs, h.csrCheck hs, _, listM_map fun r hr => ?_, rfl⟩))
  have hr : r < s.nRows := List.mem_range.1 hr
  refine scatterRow_ok_iff.2 ⟨_, _, h.rptr r hr.le, h.rptr (r + 1) hr, ?_⟩
  rw [toNat_toInt_ofNat (h.start_lt hs hr.le), toNat_toInt_ofNat (h.start_lt hs (r := r + 1) hr)]
  refine listM_map fun k hk => ?_
  have hk : k < start s.nRows := h.lt_of_mem_row hr (mem_positions.1 hk).2
  obtain ⟨v, hv⟩ := Option.isSome_iff_exists.1 (hval k hk)
  refine scatterAt_ok_iff.2 ⟨_, v, h.coli k hk, hv, ?_⟩
  rw [toNat_toInt_ofNat (h.column_small hs hk), entryValue_eq hv]

/-! ## The dense plane -/

theorem read_unpacked (a : Nat) : Buf.read ((unpacked s ch start column).mem.qpl.get ch) a =
    Buf.read (Buf.writeAll (Buf.writeAll (s.mem.qpl.get ch) (zeroFill (s.nRows * s.nCols)))
      (entryWrites s ch start column)) a := by
  rw [unpacked, State.putQpl_mem, Chan3.get_set_self, Buf.writeAll_append]

section
variable (h : CsrShape s ch start column)
include h

/-- Each entry stands at its row and column. -/
theorem CsrShape.read_unpacked_entry {r k : Nat} (hr : r < s.nRows) (hlo : start r ≤ k) (hhi : k < start (r + 1)) :
    Buf.read ((unpacked s ch start column).mem.qpl.get ch) (plnIdx s.nCols r (column k)) = some (entryValue s ch k) := by
  rw [read_unpacked]
  refine Buf.read_writeAll_of_mem _ (mem_entryWrites.2 ⟨r, hr, k, ⟨hlo, hhi⟩, rfl⟩) fun u hu => ?_
  obtain ⟨r', hr', k', ⟨hlo', hhi'⟩, heq⟩ := mem_entryWrites.1 hu
  obtain ⟨hidx, rfl⟩ := Prod.mk.inj heq
  have hcol := h.column_lt k (h.lt_of_mem_row hr hhi)
  have hcol' := h.column_lt k' (h.lt_of_mem_row hr' hhi')
  obtain ⟨rfl, hcols⟩ := plnIdx_inj hcol' hcol hidx
  rw [h.column_inj hr hlo' hhi' hlo hhi hcols]

/-- A position without an entry is 0. -/
theorem CsrShape.read_unpacked_zero {r c : Nat} (hr : r < s.nRows) (hc : c < s.nCols)
    (hno : ∀ k, start r ≤ k → k < start (r + 1) → column k ≠ c) :
    Buf.read ((unpacked s ch start column).mem.qpl.get ch) (plnIdx s.nCols r c) = some 0#16 := by
  rw [read_unpacked, Buf.read_writeAll_of_notMem]
  · refine Buf.read_writeAll_of_mem _ (List.mem_map.2 ⟨_, List.mem_range.2 (plnIdx_lt hr hc), rfl⟩) fun u hu => ?_
    obtain ⟨a, -, heq⟩ := List.mem_map.1 hu
    exact (Prod.mk.inj heq).2.symm
  · intro p hp hidx
    obtain ⟨r', hr', k, ⟨hlo, hhi⟩, rfl⟩ := mem_entryWrites.1 hp
    obtain ⟨rfl, hcol⟩ := plnIdx_inj (h.column_lt k (h.lt_of_mem_row hr' hhi)) hc hidx
    exact hno k hlo hhi hcol

/-- Nothing beyond the shape is written. -/
theorem CsrShape.read_unpacked_beyond {a : Nat} (ha : s.nRows * s.nCols ≤ a) :
    Buf.read ((unpacked s ch start column).mem.qpl.get ch) a = Buf.read (s.mem.qpl.get ch) a := by
  rw [read_unpacked, Buf.read_writeAll_of_notMem, Buf.read_writeAll_of_notMem]
  · exact fun p hp => ((zeroFill_below _ p hp).trans_le ha).ne
  · intro p hp
    obtain ⟨r, hr, k, ⟨hlo, hhi⟩, rfl⟩ := mem_entryWrites.1 hp
    exact ((plnIdx_lt hr (h.column_lt k (h.lt_of_mem_row hr hhi))).trans_le ha).ne

/-- The plane UNPACK answers is the dense form of the CSR (R175). -/
theorem CsrShape.denseOfCsr (hs : LegalShape hw s) : DenseOfCsr s (unpacked s ch start column).complete ch := by
  obtain ⟨-, -, -, hmax, -⟩ := hs.counts
  constructor
  · intro r hr k hk c v hc hv
    obtain ⟨hlo, hhi⟩ := (h.inRow_iff hs hr).1 hk
    have hlt := h.lt_of_mem_row hr hhi
    obtain rfl := Option.some.inj ((h.coli k hlt).symm.trans hc)
    have hread := h.read_unpacked_entry hr hlo hhi
    rwa [entryValue_eq hv, ← toNat_toInt_ofNat (h.column_small hs hlt)] at hread
  · intro r hr c hc hno
    refine h.read_unpacked_zero hr hc fun k hlo hhi hcol => hno k ((h.inRow_iff hs hr).2 ⟨hlo, hhi⟩) ?_
    rw [h.coli k (h.lt_of_mem_row hr hhi), hcol]

end

theorem CsrReady.exists_shape (hs : LegalShape hw s) (h : CsrReady s ch) :
    ∃ start column, CsrShape s ch start column ∧ ValuesWritten s ch (start s.nRows) := by
  obtain ⟨hcheck, hval⟩ := h
  obtain ⟨start, column, hcsr⟩ := (csrCheck_iff_csrShape hs).1 hcheck
  rw [hcsr.vallen_toInt hs, Int.toNat_natCast] at hval
  exact ⟨start, column, hcsr, hval⟩

/-- Settles O38: UNPACK writes the zero fill and the entries, each at its own place, and nothing else. -/
theorem unpackCompletes : Obligations.UnpackCompletes := by
  intro s ch hs hready
  obtain ⟨start, column, h, hval⟩ := hready.exists_shape hs
  exact ⟨_, h.exec_unpack hs hval, rfl, h.denseOfCsr hs, fun a ha => h.read_unpacked_beyond ha,
    fun ch' hne => Chan3.get_set_ne _ _ hne, rfl⟩

end Sys2Proof.Machine
end

section
/-! The round trips of the sparse codec (R177): the shape of the CSR PACK stores, and the ranks of the elements UNPACK
writes. -/

namespace Sys2Proof.Machine

variable {s : State} {ch : Channel} {start column : Nat → Nat}

theorem exists_plnIdx {rows cols a : Nat} (ha : a < rows * cols) : ∃ r < rows, ∃ c < cols, plnIdx cols r c = a := by
  have hcols : 0 < cols := Nat.pos_of_ne_zero fun h => by simp [h] at ha
  exact ⟨a / cols, Nat.div_lt_of_lt_mul (by rwa [Nat.mul_comm]), a % cols, Nat.mod_lt a hcols, Nat.div_add_mod' a cols⟩

/-! ## The CSR of a plane -/

/-- Where row `r` starts in the CSR of a plane (R172). -/
def planeStart (s : State) (ch : Channel) (r : Nat) : Nat := rank s ch (r * s.nCols)

/-- The column of entry `k` in the CSR of a plane: that of the non-zero element of rank `k` (R172). -/
noncomputable def planeColumn (s : State) (ch : Channel) (k : Nat) : Nat :=
  Nat.nth (fun a => qplValue s ch a ≠ 0#16) k % s.nCols

theorem planeColumn_rank {a : Nat} (ha : qplValue s ch a ≠ 0#16) : planeColumn s ch (rank s ch a) = a % s.nCols := by
  rw [planeColumn, rank, Nat.nth_count (p := fun a => qplValue s ch a ≠ 0#16) ha]

theorem rank_le_rank {a b : Nat} (h : a ≤ b) : rank s ch a ≤ rank s ch b := Nat.count_monotone _ h

theorem lt_of_rank_lt_rank {a b : Nat} (h : rank s ch a < rank s ch b) : a < b := Nat.lt_of_count_lt_count h

/-- A non-zero element of a row has a rank between the starts of its row and of the next. -/
theorem rank_mem_row {r c : Nat} (hc : c < s.nCols) (hv : qplValue s ch (plnIdx s.nCols r c) ≠ 0#16) :
    planeStart s ch r ≤ rank s ch (plnIdx s.nCols r c) ∧ rank s ch (plnIdx s.nCols r c) < planeStart s ch (r + 1) := by
  refine ⟨rank_le_rank (Nat.le_add_right _ c), Nat.count_strict_mono (p := fun a => qplValue s ch a ≠ 0#16) hv ?_⟩
  exact plnIdx_lt r.lt_succ_self hc

/-- Every entry of the CSR of a plane is a non-zero element of it. -/
theorem exists_of_lt_rank {k n : Nat} (h : k < rank s ch n) : ∃ a < n, qplValue s ch a ≠ 0#16 ∧ rank s ch a = k :=
  exists_of_lt_count h

/-- Every entry of row `r` is a non-zero element of that row. -/
theorem exists_of_mem_row {r k : Nat} (hlo : planeStart s ch r ≤ k) (hhi : k < planeStart s ch (r + 1)) :
    ∃ c < s.nCols, qplValue s ch (plnIdx s.nCols r c) ≠ 0#16 ∧ rank s ch (plnIdx s.nCols r c) = k ∧
      planeColumn s ch k = c := by
  obtain ⟨a, ha, hv, rfl⟩ := exists_of_lt_rank hhi
  have hle : r * s.nCols ≤ a := not_lt.1 fun hlt =>
    hlo.not_gt (Nat.count_strict_mono (p := fun a => qplValue s ch a ≠ 0#16) hv hlt)
  obtain ⟨c, rfl⟩ := Nat.exists_eq_add_of_le hle
  have hc : c < s.nCols := by rwa [Nat.add_one_mul, Nat.add_lt_add_iff_left] at ha
  exact ⟨c, hc, hv, rfl, (planeColumn_rank hv).trans (plnIdx_mod r hc)⟩

/-- The state after PACK with the quantized planes overwritten. -/
def packedOver (s : State) (ch : Channel) (q : Chan3 (Buf 16)) : State :=
  { (packed s ch).complete with mem := { (packed s ch).mem with qpl := q } }

/-- What PACK stores is a CSR of the plane's shape (R171, R172). -/
theorem csrShape_packedOver (hs : LegalShape hw s) (q : Chan3 (Buf 16)) :
    CsrShape (packedOver s ch q) ch (planeStart s ch) (planeColumn s ch) where
  rptrlen := rptrlen_packed hs
  vallen := vallen_packed
  collen := collen_packed
  start_zero := by rw [planeStart, Nat.zero_mul, rank, Nat.count_zero]
  start_le_succ r _ := rank_le_rank (Nat.mul_le_mul_right _ r.le_succ)
  start_le_area := Nat.count_le _
  rptr r hr := read_rptr_packed hr
  coli k hk := by
    obtain ⟨a, ha, hv, rfl⟩ := exists_of_lt_rank hk
    rw [planeColumn_rank hv]
    exact read_coli_packed ha hv
  column_lt k hk := by
    obtain ⟨a, ha, hv, rfl⟩ := exists_of_lt_rank hk
    obtain ⟨r, hr, c, hc, rfl⟩ := exists_plnIdx ha
    rw [planeColumn_rank hv]
    exact (plnIdx_mod r hc).trans_lt hc
  column_rises r _ k hlo hhi := by
    obtain ⟨c, -, -, hrank, hcol⟩ := exists_of_mem_row hlo.le hhi
    obtain ⟨c', -, -, hrank', hcol'⟩ := exists_of_mem_row (k := k - 1) (Nat.le_sub_one_of_lt hlo) (by omega)
    have hlt : plnIdx s.nCols r c' < plnIdx s.nCols r c := lt_of_rank_lt_rank (by rw [hrank, hrank']; omega)
    rw [hcol, hcol']
    exact Nat.lt_of_add_lt_add_left hlt

/-- Settles O40: the entries PACK stores are the non-zero elements, so UNPACK writes back each of them and 0 elsewhere. -/
theorem packUnpackRoundTrip : Obligations.PackUnpackRoundTrip := by
  intro s t ch q hs hq hpack
  obtain rfl : t = (packed s ch).complete := by
    rw [exec_pack_of_written hs hq] at hpack
    exact (Host.Outcome.next.inj hpack).symm
  have h := csrShape_packedOver (ch := ch) hs q
  refine ⟨_, h.exec_unpack hs fun k hk => ?_, rfl, fun a ha => ?_⟩
  · obtain ⟨a, ha, hv, rfl⟩ := exists_of_lt_rank hk
    exact Option.isSome_iff_exists.2 ⟨_, read_val_packed ha hv⟩
  · obtain ⟨r, hr, c, hc, rfl⟩ := exists_plnIdx ha
    rw [hq.read ha]
    by_cases hv : qplValue s ch (plnIdx s.nCols r c) = 0#16
    · rw [hv]
      refine h.read_unpacked_zero hr hc fun k hlo hhi hcol => ?_
      obtain ⟨c', -, hv', -, hcol'⟩ := exists_of_mem_row hlo hhi
      obtain rfl : c' = c := hcol'.symm.trans hcol
      exact hv' hv
    · obtain ⟨hlo, hhi⟩ := rank_mem_row hc hv
      have hread := h.read_unpacked_entry hr hlo hhi
      have hval : entryValue (packedOver s ch q) ch (rank s ch (plnIdx s.nCols r c)) = qplValue s ch (plnIdx s.nCols r c) :=
        entryValue_eq (read_val_packed ha hv)
      rwa [planeColumn_rank hv, plnIdx_mod r hc, hval] at hread

/-! ## The plane of a CSR -/

/-- `QPL[ch]` holds a value at every position of the shape after UNPACK. -/
theorem CsrShape.unpacked_written (h : CsrShape s ch start column) :
    QPlaneWritten (unpacked s ch start column) ch (s.nRows * s.nCols) := by
  intro a ha
  obtain ⟨r, hr, c, hc, rfl⟩ := exists_plnIdx ha
  refine Option.isSome_iff_exists.2 ?_
  by_cases hentry : ∃ k, start r ≤ k ∧ k < start (r + 1) ∧ column k = c
  · obtain ⟨k, hlo, hhi, rfl⟩ := hentry
    exact ⟨_, h.read_unpacked_entry hr hlo hhi⟩
  · exact ⟨_, h.read_unpacked_zero hr hc fun k hlo hhi hcol => hentry ⟨k, hlo, hhi, hcol⟩⟩

theorem CsrShape.qplValue_unpacked_entry (h : CsrShape s ch start column) {r k : Nat} (hr : r < s.nRows) (hlo : start r ≤ k)
    (hhi : k < start (r + 1)) :
    qplValue (unpacked s ch start column) ch (plnIdx s.nCols r (column k)) = entryValue s ch k := by
  rw [qplValue, h.read_unpacked_entry hr hlo hhi, Option.getD_some]

section
variable (h : CsrShape s ch start column) (hnz : ∀ k < start s.nRows, entryValue s ch k ≠ 0#16)
include h hnz

/-- Without stored zeros the non-zero elements of a row are its entries. -/
theorem CsrShape.qplValue_unpacked_ne_zero_iff {r c : Nat} (hr : r < s.nRows) (hc : c < s.nCols) :
    qplValue (unpacked s ch start column) ch (plnIdx s.nCols r c) ≠ 0#16 ↔
      ∃ j < start (r + 1) - start r, column (start r + j) = c := by
  constructor
  · refine fun hv => by_contra fun hno => hv ?_
    rw [qplValue, h.read_unpacked_zero hr hc fun k hlo hhi hcol => hno ⟨k - start r, by omega, ?_⟩, Option.getD_some]
    rwa [Nat.add_sub_cancel' hlo]
  · rintro ⟨j, hj, rfl⟩
    have hhi : start r + j < start (r + 1) := by omega
    rw [h.qplValue_unpacked_entry hr (Nat.le_add_right _ _) hhi]
    exact hnz _ (h.lt_of_mem_row hr hhi)

/-- The number of non-zero elements of row `r` before a column is that of its entries before it. -/
theorem CsrShape.rank_in_row {r m k : Nat} (hr : r < s.nRows) (hm : m ≤ s.nCols) (hk : k ≤ start (r + 1) - start r)
    (hcols : ∀ j < start (r + 1) - start r, column (start r + j) < m ↔ j < k) :
    rank (unpacked s ch start column) ch (r * s.nCols + m) = rank (unpacked s ch start column) ch (r * s.nCols) + k := by
  have hmono : StrictMonoOn (fun j => column (start r + j)) (Set.Iio (start (r + 1) - start r)) := by
    intro i _ j hj hij
    have hj : j < start (r + 1) - start r := hj
    exact h.column_lt_column hr (Nat.le_add_right _ _) (Nat.add_lt_add_left hij _) (by omega)
  rw [rank, rank, Nat.count_add, Nat.add_left_cancel_iff]
  exact count_eq_of_strictMonoOn hmono (fun c hc => h.qplValue_unpacked_ne_zero_iff hnz hr (hc.trans_le hm)) hk hcols

/-- The elements before row `r` are the entries before it. -/
theorem CsrShape.rank_row {r : Nat} (hr : r ≤ s.nRows) : rank (unpacked s ch start column) ch (r * s.nCols) = start r := by
  induction r with
  | zero => rw [Nat.zero_mul, rank, Nat.count_zero, h.start_zero]
  | succ r ih =>
    have hcols {j : Nat} (hj : j < start (r + 1) - start r) : column (start r + j) < s.nCols :=
      h.column_lt _ (h.lt_of_mem_row hr (by omega))
    have hrow := h.rank_in_row hnz hr le_rfl le_rfl fun j hj => iff_of_true (hcols hj) hj
    have hle := h.start_le_succ r hr
    rw [Nat.add_one_mul, hrow, ih (Nat.le_of_succ_le hr)]
    omega

/-- The rank of the element of an entry is the position of the entry. -/
theorem CsrShape.rank_entry {r k : Nat} (hr : r < s.nRows) (hlo : start r ≤ k) (hhi : k < start (r + 1)) :
    rank (unpacked s ch start column) ch (plnIdx s.nCols r (column k)) = k := by
  have hcol := h.column_lt k (h.lt_of_mem_row hr hhi)
  have hrow := h.rank_in_row hnz (m := column k) (k := k - start r) hr hcol.le (by omega) fun j hj => ?_
  · rw [plnIdx, hrow, h.rank_row hnz hr.le]
    omega
  · constructor
    · intro hlt
      by_contra hge
      rcases Nat.eq_or_lt_of_le (not_lt.1 hge) with heq | hgt
      · rw [← heq, Nat.add_sub_cancel' hlo] at hlt
        exact lt_irrefl _ hlt
      · exact lt_asymm hlt (h.column_lt_column hr hlo (by omega) (by omega))
    · intro hlt
      exact h.column_lt_column hr (Nat.le_add_right _ _) (by omega) hhi

end

/-- The state after UNPACK with the arrays and lengths overwritten. -/
def unpackedOver (s : State) (ch : Channel) (start column : Nat → Nat) (v : Chan3 (Buf 16)) (c p : Chan3 (Buf 32))
    (l m n : Chan3 Word32) : State :=
  { (unpacked s ch start column).complete with
    vallen := l
    collen := m
    rptrlen := n
    mem := { (unpacked s ch start column).mem with val := v, coli := c, rptr := p } }

/-- Settles O41: UNPACK makes each entry the non-zero element whose rank is its position, where PACK stores it again. -/
theorem unpackPackRoundTrip : Obligations.UnpackPackRoundTrip := by
  intro s t ch v c p l m n hs hready hnz hunpack
  obtain ⟨start, column, h, hval⟩ := hready.exists_shape hs
  obtain rfl : t = (unpacked s ch start column).complete := by
    rw [h.exec_unpack hs hval] at hunpack
    exact (Host.Outcome.next.inj hunpack).symm
  have hread {k : Nat} (hk : k < start s.nRows) : Buf.read (s.mem.val.get ch) k = some (entryValue s ch k) := by
    obtain ⟨w, hw⟩ := Option.isSome_iff_exists.1 (hval k hk)
    rw [hw, entryValue_eq hw]
  rw [h.vallen_toInt hs] at hnz ⊢
  have hnz (k : Nat) (hk : k < start s.nRows) : entryValue s ch k ≠ 0#16 := fun h0 =>
    hnz k (by exact_mod_cast hk) (by rw [hread hk, h0])
  let s' := unpackedOver s ch start column v c p l m n
  have hlen : BitVec.ofNat 32 (rank s' ch (s'.nRows * s'.nCols)) = BitVec.ofNat 32 (start s.nRows) :=
    congrArg _ (h.rank_row hnz le_rfl)
  refine ⟨_, exec_pack_of_written (s := s') hs h.unpacked_written, (vallen_packed.trans hlen).trans h.vallen.symm,
    (collen_packed.trans hlen).trans h.collen.symm, (rptrlen_packed (s := s') hs).trans h.rptrlen.symm, fun r hr => ?_,
    fun k hk => ?_⟩
  · have hrow : rank s' ch (r * s'.nCols) = start r := h.rank_row hnz hr
    have hrptr := read_rptr_packed (s := s') (ch := ch) hr
    rw [hrow] at hrptr
    exact hrptr.trans (h.rptr r hr).symm
  · have hk : k < start s.nRows := by exact_mod_cast hk
    obtain ⟨r, hr, hlo, hhi⟩ := h.exists_row le_rfl hk
    have hcol := h.column_lt k hk
    have hidx : plnIdx s'.nCols r (column k) < s'.nRows * s'.nCols := plnIdx_lt hr hcol
    have hrank : rank s' ch (plnIdx s'.nCols r (column k)) = k := h.rank_entry hnz hr hlo hhi
    have hvalue : qplValue s' ch (plnIdx s'.nCols r (column k)) = entryValue s ch k := h.qplValue_unpacked_entry hr hlo hhi
    have hv := hvalue.trans_ne (hnz k hk)
    have hval' := read_val_packed hidx hv
    have hcoli' := read_coli_packed hidx hv
    rw [hrank, hvalue] at hval'
    rw [hrank, plnIdx_mod (cols := s'.nCols) r hcol] at hcoli'
    exact ⟨hval'.trans (hread hk).symm, hcoli'.trans (h.coli k hk).symm⟩

end Sys2Proof.Machine
end

section
/-! The eight checks of a CSR (R176): the fault of the first check that fails, at its first offending place. -/

namespace Sys2Proof.Machine

variable {s : State} {ch : Channel} {e : Stop} {p c : Nat → I32}

/-! ## The first place that fails -/

/-- A loop of checks ends with the error of the first entry that fails. -/
theorem forM_append_error {ε α : Type} {g : α → Except ε Unit} {l l' : List α} {a : α} {e : ε} (hl : ∀ b ∈ l, g b = .ok ())
    (ha : g a = .error e) : forM g (l ++ a :: l') = .error e := by
  induction l with
  | nil => exact bind_of_error ha
  | cons b l ih =>
    rw [List.cons_append, forM, hl b (by simp)]
    exact ih fun b' hb' => hl b' (by simp [hb'])

theorem forM_positions_error {g : Nat → Except Stop Unit} {lo hi k : Nat} (hlo : lo ≤ k) (hhi : k < hi)
    (hbefore : ∀ k', lo ≤ k' → k' < k → g k' = .ok ()) (hk : g k = .error e) : forM g (positions lo hi) = .error e := by
  have hsplit : positions lo hi = positions lo k ++ k :: positions (k + 1) hi := by
    obtain ⟨m, rfl⟩ := Nat.exists_eq_add_of_le hlo
    obtain ⟨n, rfl⟩ := Nat.exists_eq_add_of_lt hhi
    rw [positions, positions, positions, ← List.range'_succ, show lo + m + n + 1 - lo = m + (n + 1) by omega,
      ← List.range'_append_1]
    congr 2 <;> omega
  rw [hsplit]
  exact forM_append_error (fun k' hk' => hbefore k' (mem_positions.1 hk').1 (mem_positions.1 hk').2) hk

theorem forM_range_error {g : Nat → Except Stop Unit} {n k : Nat} (hk : k < n) (hbefore : ∀ k' < k, g k' = .ok ())
    (he : g k = .error e) : forM g (List.range n) = .error e := by
  rw [List.range_eq_range']
  exact forM_positions_error (hi := n) k.zero_le hk (fun k' _ hlt => hbefore k' hlt) he

/-! ## The checks of one place -/

theorem rptrAt_of_read {r : Nat} {a : I32} (h : Buf.read (s.mem.rptr.get ch) r = some a) : s.rptrAt ch r = .ok a :=
  rptrAt_ok_iff.2 h

theorem coliAt_of_read {k : Nat} {a : I32} (h : Buf.read (s.mem.coli.get ch) k = some a) : s.coliAt ch k = .ok a :=
  coliAt_ok_iff.2 h

/-- Check 5 at a row whose pointers have been written. -/
theorem pointerRises_eq {r : Nat} {a b : I32} (ha : Buf.read (s.mem.rptr.get ch) r = some a)
    (hb : Buf.read (s.mem.rptr.get ch) (r + 1) = some b) :
    pointerRises s ch r = raiseIf (decide (b.toInt < a.toInt)) .csrPointerFalls (BitVec.ofNat 32 r) := by
  rw [pointerRises, rptrAt_of_read ha, rptrAt_of_read hb]
  rfl

/-- Check 7 at an entry whose column has been written. -/
theorem columnInRange_eq {k : Nat} {a : I32} (ha : Buf.read (s.mem.coli.get ch) k = some a) :
    columnInRange s ch k =
      raiseIf (decide (a.toInt < 0) || decide (s.cols.toInt ≤ a.toInt)) .csrColumnRange (BitVec.ofNat 32 k) := by
  rw [columnInRange, coliAt_of_read ha]
  rfl

/-- Check 8 at an entry whose column and the one before it have been written. -/
theorem columnRises_eq {k : Nat} {a b : I32} (ha : Buf.read (s.mem.coli.get ch) k = some a)
    (hb : Buf.read (s.mem.coli.get ch) (k - 1) = some b) :
    columnRises s ch k = raiseIf (decide (a.toInt ≤ b.toInt)) .csrColumnOrder (BitVec.ofNat 32 k) := by
  rw [columnRises, coliAt_of_read ha, coliAt_of_read hb]
  rfl

/-- Check 8 in a row whose pointers have been written. -/
theorem rowRises_eq {r : Nat} {a b : I32} (ha : Buf.read (s.mem.rptr.get ch) r = some a)
    (hb : Buf.read (s.mem.rptr.get ch) (r + 1) = some b) :
    rowRises s ch r = forM (columnRises s ch) (positions (a.toInt.toNat + 1) b.toInt.toNat) := by
  rw [rowRises, rptrAt_of_read ha, rptrAt_of_read hb]
  rfl

/-! ## The first check that fails -/

/-- The fault of `CSRCHECK` (R176) when the row pointers have been written: that of the first of the eight checks that fails,
which those before it pass. -/
theorem csrCheck_error_iff (hp : ∀ r ≤ s.nRows, Buf.read (s.mem.rptr.get ch) r = some (p r)) :
    csrCheck s ch = .error e ↔
      (s.rptrlen.get ch).toInt ≠ s.rows.toInt + 1 ∧ e = .fault ⟨.csrRowPointerLength, s.rptrlen.get ch⟩ ∨
      (s.rptrlen.get ch).toInt = s.rows.toInt + 1 ∧
        (s.vallen.get ch ≠ s.collen.get ch ∧ e = .fault ⟨.csrLengthsDiffer, s.collen.get ch⟩ ∨
        s.vallen.get ch = s.collen.get ch ∧
        (((s.vallen.get ch).toInt < 0 ∨ s.rows.toInt * s.cols.toInt < (s.vallen.get ch).toInt) ∧
          e = .fault ⟨.csrLength, s.vallen.get ch⟩ ∨
        (0 ≤ (s.vallen.get ch).toInt ∧ (s.vallen.get ch).toInt ≤ s.rows.toInt * s.cols.toInt) ∧
        ((p 0).toInt ≠ 0 ∧ e = .fault ⟨.csrFirstPointer, p 0⟩ ∨ (p 0).toInt = 0 ∧
        (forM (pointerRises s ch) (List.range s.nRows) = .error e ∨
        forM (pointerRises s ch) (List.range s.nRows) = .ok () ∧
        ((p s.nRows).toInt ≠ (s.vallen.get ch).toInt ∧ e = .fault ⟨.csrLength, p s.nRows⟩ ∨
        (p s.nRows).toInt = (s.vallen.get ch).toInt ∧
        (forM (columnInRange s ch) (List.range (s.vallen.get ch).toInt.toNat) = .error e ∨
        forM (columnInRange s ch) (List.range (s.vallen.get ch).toInt.toNat) = .ok () ∧
        forM (rowRises s ch) (List.range s.nRows) = .error e)))))) := by
  have hfirst : s.rptrAt ch 0 = .ok (p 0) := rptrAt_of_read (hp 0 (Nat.zero_le _))
  have hlast : s.rptrAt ch s.nRows = .ok (p s.nRows) := rptrAt_of_read (hp _ le_rfl)
  have hbind {β : Type} (w : I32) (k : I32 → Except Stop β) : (Except.ok w).bind k = k w := rfl
  simp only [csrCheck, bind, hfirst, hlast, hbind, check_error_iff, raiseIf_error_iff, raiseIf_ok_iff, decide_eq_true_eq,
    decide_eq_false_iff_not, Bool.or_eq_true, Bool.or_eq_false_iff, ne_eq, not_not, not_lt]

theorem exec_unpack_of_csrCheck_fault {cause : Cause} {info : Word32} (hs : LegalShape hw s)
    (h : csrCheck s ch = .error (.fault ⟨cause, info⟩)) : exec (.unpack ch) s = .next (faulted s cause.code info) :=
  finish_runPrim_fault (p := unpack hw ch) (check_error_iff.2 (.inr ⟨pshape_false_ok_iff.2 hs, bind_of_error h⟩))

/-! ## The loops over written arrays -/

section
variable (hp : ∀ r ≤ s.nRows, Buf.read (s.mem.rptr.get ch) r = some (p r))
include hp

theorem pointerRises_eq_ok {r : Nat} (hr : r < s.nRows) (hle : (p r).toInt ≤ (p (r + 1)).toInt) : pointerRises s ch r = .ok () :=
  pointerRises_ok_iff.2 ⟨_, _, hp r hr.le, hp (r + 1) hr, hle⟩

/-- Check 5 raises the fault of the first row whose pointer falls. -/
theorem pointersRise_error {r : Nat} (hr : r < s.nRows) (hfall : (p (r + 1)).toInt < (p r).toInt)
    (hbefore : ∀ r' < r, (p r').toInt ≤ (p (r' + 1)).toInt) :
    forM (pointerRises s ch) (List.range s.nRows) = .error (.fault ⟨.csrPointerFalls, BitVec.ofNat 32 r⟩) := by
  refine forM_range_error hr (fun r' hr' => pointerRises_eq_ok hp (hr'.trans hr) (hbefore r' hr')) ?_
  rw [pointerRises_eq (hp r hr.le) (hp (r + 1) hr), decide_eq_true hfall, raiseIf_true]

end

section
variable {n : Nat} (hc : ∀ k < n, Buf.read (s.mem.coli.get ch) k = some (c k))
include hc

theorem columnInRange_eq_ok {k : Nat} (hk : k < n) (hcol : 0 ≤ (c k).toInt ∧ (c k).toInt < s.cols.toInt) :
    columnInRange s ch k = .ok () := columnInRange_ok_iff.2 ⟨_, hc k hk, hcol⟩

/-- Check 7 raises the fault of the first entry whose column is out of range. -/
theorem columnsInRange_error {k : Nat} (hk : k < n) (hcol : (c k).toInt < 0 ∨ s.cols.toInt ≤ (c k).toInt)
    (hbefore : ∀ k' < k, 0 ≤ (c k').toInt ∧ (c k').toInt < s.cols.toInt) :
    forM (columnInRange s ch) (List.range n) = .error (.fault ⟨.csrColumnRange, BitVec.ofNat 32 k⟩) := by
  refine forM_range_error hk (fun k' hk' => columnInRange_eq_ok hc (hk'.trans hk) (hbefore k' hk')) ?_
  rw [columnInRange_eq (hc k hk), ← Bool.decide_or, decide_eq_true hcol, raiseIf_true]

variable (hp : ∀ r ≤ s.nRows, Buf.read (s.mem.rptr.get ch) r = some (p r))
include hp

/-- Check 8 raises the fault of the first entry whose column does not rise within its row. -/
theorem columnsRise_error {r k : Nat} (hr : r < s.nRows) (hnonneg : ∀ r' ≤ r, 0 ≤ (p r').toInt)
    (hmono : ∀ r' < r, (p (r' + 1)).toInt ≤ (p r).toInt) (hlo : (p r).toInt < k) (hhi : (k : Int) < (p (r + 1)).toInt)
    (hk : k < n) (hfall : (c k).toInt ≤ (c (k - 1)).toInt)
    (hbefore : ∀ r' k' : Nat, r' ≤ r → (p r').toInt < k' → (k' : Int) < (p (r' + 1)).toInt → k' < k →
      (c (k' - 1)).toInt < (c k').toInt) :
    forM (rowRises s ch) (List.range s.nRows) = .error (.fault ⟨.csrColumnOrder, BitVec.ofNat 32 k⟩) := by
  have hrises {r' k' : Nat} (hr' : r' ≤ r) (hlo' : (p r').toInt.toNat + 1 ≤ k') (hhi' : (k' : Int) < (p (r' + 1)).toInt)
      (hlt : k' < k) : columnRises s ch k' = .ok () :=
    columnRises_ok_iff.2 ⟨_, _, hc k' (hlt.trans hk), hc (k' - 1) (by omega), hbefore r' k' hr' (by omega) hhi' hlt⟩
  refine forM_range_error hr (fun r' hr' => ?_) ?_
  · rw [rowRises_eq (hp r' (hr'.trans hr).le) (hp (r' + 1) (hr'.trans hr)), forM_ok_iff]
    intro k' hk'
    obtain ⟨hlo', hhi'⟩ := mem_positions.1 hk'
    have hmono := hmono r' hr'
    exact hrises hr'.le hlo' (by omega) (by omega)
  · have hstart := hnonneg r le_rfl
    rw [rowRises_eq (hp r hr.le) (hp (r + 1) hr)]
    refine forM_positions_error (k := k) (by omega) (by omega) (fun k' hlo' hlt => hrises le_rfl hlo' (by omega) hlt) ?_
    rw [columnRises_eq (hc k hk) (hc (k - 1) (by omega)), decide_eq_true hfall, raiseIf_true]

end

/-- Rising pointers rise from any row to any later one. -/
theorem pointers_mono {n : Nat} (h : ∀ r < n, (p r).toInt ≤ (p (r + 1)).toInt) {r q : Nat} (hrq : r ≤ q) (hq : q ≤ n) :
    (p r).toInt ≤ (p q).toInt := by
  induction q, hrq using Nat.le_induction with
  | base => exact le_rfl
  | succ q hrq ih => exact (ih (Nat.le_of_succ_le hq)).trans (h q hq)

/-- Settles O39: each clause names the first check that fails and its first offending place. -/
theorem csrFaults : Obligations.CsrFaults := by
  intro s ch p c hs hp hc
  have fault {cause : Cause} {info : Word32} := exec_unpack_of_csrCheck_fault (ch := ch) (cause := cause) (info := info) hs
  simp only [csrCheck_error_iff hp, Stop.fault.injEq, Raised.mk.injEq] at fault
  have hcols (k : Nat) (hk : k < (s.vallen.get ch).toInt.toNat) : Buf.read (s.mem.coli.get ch) k = some (c k) :=
    hc k (by omega)
  refine ⟨fun h1 => ?_, fun h1 => ⟨fun h2 => ?_, fun h2 => ⟨fun h3 => ?_, fun hlen harea => ?_⟩⟩⟩
  · exact fault (.inl ⟨h1, rfl, rfl⟩)
  · exact fault (.inr ⟨h1, .inl ⟨h2, rfl, rfl⟩⟩)
  · exact fault (.inr ⟨h1, .inr ⟨h2, .inl ⟨h3, rfl, rfl⟩⟩⟩)
  have fault {cause : Cause} {info : Word32} h := fault (cause := cause) (info := info)
    (.inr ⟨h1, .inr ⟨h2, .inr ⟨⟨hlen, harea⟩, h⟩⟩⟩)
  refine ⟨fun h4 => fault (.inl ⟨h4, rfl, rfl⟩), fun h4 => ⟨fun r hr hfall hbefore => ?_, fun h5 => ?_⟩⟩
  · exact fault (.inr ⟨h4, .inl (pointersRise_error hp hr hfall hbefore)⟩)
  have hpointers : forM (pointerRises s ch) (List.range s.nRows) = .ok () := forM_ok_iff.2 fun r hr =>
    have hr := List.mem_range.1 hr
    pointerRises_eq_ok hp hr (h5 r hr)
  have fault {cause : Cause} {info : Word32} h := fault (cause := cause) (info := info) (.inr ⟨h4, .inr ⟨hpointers, h⟩⟩)
  refine ⟨fun h6 => fault (.inl ⟨h6, rfl, rfl⟩), fun h6 => ⟨fun k hk hcol hbefore => ?_,
    fun h7 r hr k hlo hhi hfall hbefore => ?_⟩⟩
  · exact fault (.inr ⟨h6, .inl (columnsInRange_error hcols (by omega) hcol hbefore)⟩)
  have hcolumns : forM (columnInRange s ch) (List.range (s.vallen.get ch).toInt.toNat) = .ok () := forM_ok_iff.2 fun k hk =>
    have hk := List.mem_range.1 hk
    columnInRange_eq_ok hcols hk (h7 k (by omega))
  have hnonneg (r' : Nat) (hr' : r' ≤ r) : 0 ≤ (p r').toInt :=
    h4.ge.trans (pointers_mono h5 r'.zero_le (hr'.trans hr.le))
  have hmono (r' : Nat) (hr' : r' < r) : (p (r' + 1)).toInt ≤ (p r).toInt := pointers_mono h5 hr' hr.le
  have hend : (p (r + 1)).toInt ≤ (p s.nRows).toInt := pointers_mono h5 hr le_rfl
  exact fault (.inr ⟨h6, .inr ⟨hcolumns,
    columnsRise_error hcols hp hr hnonneg hmono hlo hhi (by omega) hfall hbefore⟩⟩)

end Sys2Proof.Machine
end

section
/-! Tile movement (R190 to R195), level shift (R196, R197) and the reset of the tile counter (R203): what each command does to
the state on a tile of the grid, and the two checks of the tile counter (R191). -/

namespace Sys2Proof.Machine

variable {cfg : Config} {s : State} {ch : Channel} {f : Raised}

/-! ## Loads (R192, R194) -/

theorem blockAt_at_of_isSome {b : Buf 64} {cols tr tc : Nat} {i j : Fin 8}
    (h : (Buf.read b (tileIdx cols tr tc i j)).isSome) :
    some ((blockAt b cols tr tc).at i j) = Buf.read b (tileIdx cols tr tc i j) := by
  obtain ⟨v, hv⟩ := Option.isSome_iff_exists.1 h
  rw [blockAt, Block.at_ofFn, hv, Option.getD_some]

theorem qblockAt_at_of_isSome {b : Buf 16} {cols tr tc : Nat} {i j : Fin 8}
    (h : (Buf.read b (tileIdx cols tr tc i j)).isSome) :
    some ((qblockAt b cols tr tc).at i j) = Buf.read b (tileIdx cols tr tc i j) := by
  obtain ⟨v, hv⟩ := Option.isSome_iff_exists.1 h
  rw [qblockAt, Block.at_ofFn, hv, Option.getD_some]

theorem exec_ldblk_of_written (ht : LegalTile hw s)
    (hwritten : ∀ i j : Fin 8, (Buf.read (s.mem.pln.get ch) (tileIdx s.nCols s.nTileR s.nTileC i j)).isSome) :
    exec (.ldblk ch) s =
      .next { s with status := doneStatus s, blk := blockAt (s.mem.pln.get ch) s.nCols s.nTileR s.nTileC } :=
  finish_ok (runPrim_ok_iff.2 (ldblk_ok_iff.2 ⟨ht, _, tileOf_written hwritten, rfl⟩))

theorem exec_ldqblk_of_written (ht : LegalTile hw s)
    (hwritten : ∀ i j : Fin 8, (Buf.read (s.mem.qpl.get ch) (tileIdx s.nCols s.nTileR s.nTileC i j)).isSome) :
    exec (.ldqblk ch) s =
      .next { s with status := doneStatus s, qblk := qblockAt (s.mem.qpl.get ch) s.nCols s.nTileR s.nTileC } :=
  finish_ok (runPrim_ok_iff.2 (ldqblk_ok_iff.2 ⟨ht, _, qtileOf_written hwritten, rfl⟩))

/-- Settles O42: the check passes, and no position of the tile is without a value. -/
theorem tileLoadsComplete : Obligations.TileLoadsComplete := by
  intro s ch ht
  constructor
  · intro hwritten
    exact ⟨_, exec_ldblk_of_written ht hwritten, rfl, fun i j => blockAt_at_of_isSome (hwritten i j), rfl⟩
  · intro hwritten
    exact ⟨_, exec_ldqblk_of_written ht hwritten, rfl, fun i j => qblockAt_at_of_isSome (hwritten i j), rfl⟩

/-! ## Stores (R193, R195) -/

theorem exec_stblk_of_legal (ht : LegalTile hw s) :
    exec (.stblk ch) s = .next (s.putPln ch (tileWrites s.nCols s.nTileR s.nTileC s.blk)).complete :=
  finish_ok (runPrim_ok_iff.2 (stblk_ok_iff.2 ⟨ht, rfl⟩))

theorem exec_stqblk_of_legal (ht : LegalTile hw s) :
    exec (.stqblk ch) s = .next (s.putQpl ch (tileWrites s.nCols s.nTileR s.nTileC s.qblk)).complete :=
  finish_ok (runPrim_ok_iff.2 (stqblk_ok_iff.2 ⟨ht, rfl⟩))

/-- A channel family under the writes of a block to a tile of one of its planes: the tile holds the block, everything else is
as before. -/
theorem set_writeAll_tileWrites {w cols tr tc : Nat} (planes : Chan3 (Buf w)) (ch : Channel) (b : Block (BitVec w))
    (hc : 8 * tc + 8 ≤ cols) :
    let planes' := planes.set ch (Buf.writeAll (planes.get ch) (tileWrites cols tr tc b))
    (∀ i j, Buf.read (planes'.get ch) (tileIdx cols tr tc i j) = some (b.at i j)) ∧
      (∀ a, (∀ i j, a ≠ tileIdx cols tr tc i j) → Buf.read (planes'.get ch) a = Buf.read (planes.get ch) a) ∧
      ∀ ch', ch' ≠ ch → planes'.get ch' = planes.get ch' := by
  intro planes'
  rw [Chan3.get_set_self]
  exact ⟨read_writeAll_tileWrites _ b hc, fun a ha => read_writeAll_tileWrites_ne _ b ha,
    fun ch' hne => Chan3.get_set_ne _ _ hne⟩

/-- Settles O43: the check passes, and the writes are those of the block to its tile. -/
theorem tileStoresComplete : Obligations.TileStoresComplete := by
  intro s ch ht
  obtain ⟨-, hcols⟩ := ht.fits
  constructor
  · obtain ⟨hin, hout, hother⟩ := set_writeAll_tileWrites (tr := s.nTileR) s.mem.pln ch s.blk hcols
    exact ⟨_, exec_stblk_of_legal ht, rfl, hin, hout, hother, rfl⟩
  · obtain ⟨hin, hout, hother⟩ := set_writeAll_tileWrites (tr := s.nTileR) s.mem.qpl ch s.qblk hcols
    exact ⟨_, exec_stqblk_of_legal ht, rfl, hin, hout, hother, rfl⟩

/-! ## The checks of the tile counter (R191) -/

/-- The fault of `TILECHECK` (R191): that of the shape, then `TILE_R` outside the grid, then `TILE_C`. -/
theorem tileCheck_fault_iff :
    tileCheck cfg s = .error (.fault f) ↔
      pshape cfg true s = .error (.fault f) ∨ LegalTiling cfg s ∧
        ((s.tileR.toInt < 0 ∨ s.rows.toInt / 8 ≤ s.tileR.toInt) ∧ f = ⟨.tileIndex, axisRows⟩ ∨
        (0 ≤ s.tileR.toInt ∧ s.tileR.toInt < s.rows.toInt / 8) ∧
        ((s.tileC.toInt < 0 ∨ s.cols.toInt / 8 ≤ s.tileC.toInt) ∧ f = ⟨.tileIndex, axisCols⟩)) := by
  simp only [tileCheck, bind, check_error_iff, raiseIf_error_iff, raiseIf_ok_iff, pshape_true_ok_iff, Bool.or_eq_true,
    Bool.or_eq_false_iff, decide_eq_true_eq, decide_eq_false_iff_not, not_lt, not_le, Stop.fault.injEq]

/-- The commands that begin with `TILECHECK` (R191, R204). -/
theorem exec_of_tileCheck_fault {i : Instr} {c : Cause} {info : Word32}
    (hi : i = .tnext ∨ ∃ ch, i = .ldblk ch ∨ i = .stblk ch ∨ i = .ldqblk ch ∨ i = .stqblk ch)
    (h : tileCheck hw s = .error (.fault ⟨c, info⟩)) : exec i s = .next (faulted s c.code info) := by
  rcases hi with rfl | ⟨ch, rfl | rfl | rfl | rfl⟩
  · exact finish_runPrim_fault (p := tnext hw) (bind_of_error h)
  · exact finish_runPrim_fault (p := ldblk hw ch) (bind_of_error h)
  · exact finish_runPrim_fault (p := stblk hw ch) (bind_of_error h)
  · exact finish_runPrim_fault (p := ldqblk hw ch) (bind_of_error h)
  · exact finish_runPrim_fault (p := stqblk hw ch) (bind_of_error h)

/-- Settles O44: the shape passes, and each clause names the first check of the counter that fails. -/
theorem tileIndexFaults : Obligations.TileIndexFaults := by
  intro i s hs hi
  have fault {info : Word32} := exec_of_tileCheck_fault (s := s) (c := .tileIndex) (info := info) hi
  simp only [tileCheck_fault_iff, Raised.mk.injEq, true_and] at fault
  exact ⟨fun hr => fault (.inr ⟨hs, .inl ⟨hr, rfl⟩⟩),
    fun hr0 hr hc => fault (.inr ⟨hs, .inr ⟨⟨hr0, hr⟩, hc, rfl⟩⟩)⟩

/-! ## Commands without a check -/

theorem exec_center (s : State) :
    exec .center s = .next { s with status := doneStatus s, blk := centerBlock binary64 s.blk } :=
  finish_ok (runPrim_ok_iff.2 (center_ok_iff.2 rfl))

theorem exec_uncenter (s : State) :
    exec .uncenter s = .next { s with status := doneStatus s, blk := uncenterBlock binary64 s.blk } :=
  finish_ok (runPrim_ok_iff.2 (uncenter_ok_iff.2 rfl))

theorem f64Lit_128 : f64Lit 128 0 = 0x4060000000000000#64 := by decide +kernel

theorem centerBlock_at (b : Block F64) (i j : Fin 8) :
    (centerBlock binary64 b).at i j = f64Sub (b.at i j) 0x4060000000000000#64 := by
  rw [centerBlock, Block.at_ofFn, binary64_sub, binary64_lit, f64Lit_128]

theorem uncenterBlock_at (b : Block F64) (i j : Fin 8) :
    (uncenterBlock binary64 b).at i j = f64Add (b.at i j) 0x4060000000000000#64 := by
  rw [uncenterBlock, Block.at_ofFn, binary64_add, binary64_lit, f64Lit_128]

/-- Settles O45: neither command checks anything, and the literal of R196 and R197 is 128. -/
theorem levelShiftsComplete : Obligations.LevelShiftsComplete := fun s =>
  ⟨⟨_, exec_center s, rfl, rfl, centerBlock_at s.blk⟩, ⟨_, exec_uncenter s, rfl, rfl, uncenterBlock_at s.blk⟩⟩

/-- Settles O46: TRST checks nothing. -/
theorem trstCompletes : Obligations.TrstCompletes := fun _ => finish_ok (runPrim_ok_iff.2 (trst_ok_iff.2 rfl))

end Sys2Proof.Machine
end

section
/-! TNEXT (R204): the row-major successor of the tile counter, and the tiles that one TNEXT after another visits (R205). -/

namespace Sys2Proof.Machine

variable {s : State} {k : Nat}

/-! ## The successor (R204) -/

/-- A state with another tile counter and another `LAST`. -/
def State.withCounter (s : State) (r c : Word32) (last : Bool) : State :=
  { s with tileR := r, tileC := c, status := { s.status with last := last } }

theorem nextTile_of_next_column (h : s.tileC.toInt + 1 < s.cols.toInt / 8) :
    nextTile s = s.withCounter s.tileR (s.tileC + 1#32) false := if_pos h

theorem nextTile_of_next_row (hc : s.tileC.toInt + 1 = s.cols.toInt / 8) (hr : s.tileR.toInt + 1 < s.rows.toInt / 8) :
    nextTile s = s.withCounter (s.tileR + 1#32) 0#32 false := (if_neg hc.not_lt).trans (if_pos hr)

theorem nextTile_of_last_tile (hc : s.tileC.toInt + 1 = s.cols.toInt / 8) (hr : s.tileR.toInt + 1 = s.rows.toInt / 8) :
    nextTile s = s.withCounter 0#32 0#32 true := (if_neg hc.not_lt).trans (if_neg hr.not_lt)

/-- TNEXT moves the counter and sets or clears `LAST`, nothing else. -/
theorem exists_nextTile_eq (s : State) : ∃ r c last, nextTile s = s.withCounter r c last := nextTile_eq s

theorem toInt_add_one_of_lt {w : Word32} (h0 : 0 ≤ w.toInt) (h : w.toInt < 2 ^ 30) : (w + 1#32).toInt = w.toInt + 1 := by
  rw [toInt_add_one (Int.toNat_of_nonneg h0).symm (by omega)]
  omega

theorem exec_tnext_of_legal (ht : LegalTile hw s) : exec .tnext s = .next (nextTile s).complete :=
  finish_ok (runPrim_ok_iff.2 (tnext_ok_iff.2 ⟨ht, rfl⟩))

/-- Settles O47, by the place of the tile: inside a row, at the end of a row, or the last one. -/
theorem tnextCompletes : Obligations.TnextCompletes := by
  intro s ht
  have ⟨⟨⟨_, hrows, _, hcols⟩, _⟩, hr0, hr, hc0, hc⟩ := ht
  rw [hw_limits.1] at hrows
  rw [hw_limits.2] at hcols
  refine ⟨_, exec_tnext_of_legal ht, ?_, fun hcol => ?_, fun hcol hrow => ?_, fun hcol hrow => ?_⟩
  · obtain ⟨r, c, last, h⟩ := exists_nextTile_eq s
    rw [h]
    rfl
  · rw [nextTile_of_next_column hcol]
    exact ⟨rfl, toInt_add_one_of_lt hc0 (by omega), rfl⟩
  · rw [nextTile_of_next_row hcol hrow]
    exact ⟨toInt_add_one_of_lt hr0 (by omega), rfl, rfl⟩
  · rw [nextTile_of_last_tile hcol hrow]
    exact ⟨rfl, rfl, rfl⟩

/-! ## One TNEXT after another (R205) -/

theorem hw_capacity : hw.maxH ≤ 2 ^ 30 ∧ hw.maxW ≤ 2 ^ 30 := by decide

theorem AfterRound.inside (h : AfterRound s k) (hk : k < s.tiles) : AtTile s k ∧ s.status.last = false := by
  rwa [AfterRound, if_pos hk] at h

theorem AfterRound.wrapped (h : AfterRound s k) (hk : s.tiles ≤ k) :
    s.tileR = 0#32 ∧ s.tileC = 0#32 ∧ s.status.last = true := by
  rwa [AfterRound, if_neg hk.not_gt] at h

/-- `t` is `s` but for the tile counter and `STATUS`. -/
def CounterMoved (s t : State) : Prop := ∃ r c st, t = { s with tileR := r, tileC := c, status := st }

/-- A command that completes leaves the rest of a list to the state it answers. -/
theorem runAll_cons_of_next {i : Instr} {is : List Instr} {t : State} (h : exec i (running s) = .next t)
    (herr : t.status.err = false) : runAll (i :: is) s = runAll is t := by
  rw [runAll, h]
  simp only [herr, Bool.false_eq_true, if_false]

/-- A TNEXT issued at the `k`-th tile. -/
theorem exec_tnext_running (hs : LegalTiling hw s) (herr : s.status.err = false) (hat : AtTile s k) :
    ∃ t, exec .tnext (running s) = .next t ∧ t.status.err = false ∧ AfterRound t (k + 1) ∧ CounterMoved s t := by
  have hs' : LegalTiling hw (running s) := hs
  have hat' : AtTile (running s) k := hat
  refine ⟨_, exec_tnext_of_legal (hat'.legal hs'), ?_, hat'.next hs' hw_capacity, ?_⟩ <;>
    obtain ⟨r, c, last, h⟩ := exists_nextTile_eq (running s) <;> rw [h]
  · exact herr
  · exact ⟨r, c, _, rfl⟩

/-- From the `k`-th tile `n` TNEXTs lead to the tile `n` places on, or round to the first. -/
theorem runAll_tnext (n : Nat) (hs : LegalTiling hw s) (herr : s.status.err = false) (hat : AtTile s k)
    (hn : k + n + 1 ≤ s.tiles) :
    ∃ t, runAll (List.replicate (n + 1) .tnext) s = .next t ∧ AfterRound t (k + n + 1) ∧ CounterMoved s t := by
  induction n generalizing s k with
  | zero =>
    obtain ⟨t, ht, hterr, hround, hframe⟩ := exec_tnext_running hs herr hat
    exact ⟨t, runAll_cons_of_next ht hterr, hround, hframe⟩
  | succ n ih =>
    obtain ⟨t, ht, hterr, hround, r, c, st, rfl⟩ := exec_tnext_running hs herr hat
    obtain ⟨hat, -⟩ := hround.inside (show k + 1 < s.tiles by omega)
    obtain ⟨u, hu, hround, hframe⟩ := ih (k := k + 1) (s := { s with tileR := r, tileC := c, status := st }) hs hterr hat
      (show k + 1 + n + 1 ≤ s.tiles by omega)
    rw [Nat.add_right_comm k 1 n] at hround
    exact ⟨u, (runAll_cons_of_next ht hterr).trans hu, hround, hframe⟩

/-- Settles O48: each TNEXT moves on by one tile, by induction on their number. -/
theorem tileLoopVisitsEveryTile : Obligations.TileLoopVisitsEveryTile := by
  intro s n hs herr hr hc hpos hn
  obtain ⟨htr, htc, -⟩ := hs.counts
  have hat : AtTile s 0 := ⟨Nat.mul_pos htr htc, by rw [hr]; simp, by rw [hc]; simp⟩
  obtain ⟨n, rfl⟩ := Nat.exists_eq_add_one.2 hpos
  obtain ⟨t, ht, hround, r, c, st, rfl⟩ := runAll_tnext n hs herr hat (by rwa [Nat.zero_add])
  rw [Nat.zero_add] at hround
  refine ⟨_, ht, fun hlt => ?_, fun heq => ?_, rfl⟩
  · obtain ⟨hat, hlast⟩ := hround.inside hlt
    exact ⟨hat.nTile.1, hat.nTile.2, hlast⟩
  · exact hround.wrapped heq.ge

end Sys2Proof.Machine
end

section
/-! FQPLANE (R211): the state after the work of any number of tiles in row-major order, and what the quantized plane then
reads. -/

namespace Sys2Proof.Machine

variable {s : State} {ch : Channel} {n : Nat}

/-! ## Channel families -/

theorem Chan3.set_get_self {α : Type} (c : Chan3 α) (ch : Channel) : c.set ch (c.get ch) = c := by
  cases ch <;> rfl

theorem Chan3.set_set {α : Type} (c : Chan3 α) (ch : Channel) (a b : α) : (c.set ch a).set ch b = c.set ch b := by
  cases ch <;> rfl

/-! ## The work of the first tiles -/

/-- The coefficients of the `m`-th tile of the row-major order. -/
def tileCoefficients (s : State) (ch : Channel) (m : Nat) : Block F64 :=
  forwardTile ch (blockAt (s.mem.pln.get ch) s.nCols (m / s.tileCols) (m % s.tileCols))

/-- The quantized coefficients of the `m`-th tile. -/
def tileQuantized (s : State) (ch : Channel) (m : Nat) : Block I16 := quantized s (tileCoefficients s ch m)

/-- The writes of a block to each of the first `n` tiles. -/
def gridWrites {α : Type} (s : State) (tile : Nat → Block α) (n : Nat) : List (Nat × α) :=
  (List.range n).flatMap fun m => tileWrites s.nCols (m / s.tileCols) (m % s.tileCols) (tile m)

/-- A block register after the first `n` tiles: that of the last of them, or its first content. -/
def lastTile {α : Type} (before : α) (tile : Nat → α) : Nat → α
  | 0 => before
  | m + 1 => tile m

/-- The state after FQPLANE's work on the first `n` tiles, but for the tile counter and `LAST`. -/
def fqAfter (s : State) (ch : Channel) (n : Nat) : State :=
  { s with
    blk := lastTile s.blk (tileCoefficients s ch) n
    qblk := lastTile s.qblk (tileQuantized s ch) n
    mem := { s.mem with qpl := s.mem.qpl.set ch (Buf.writeAll (s.mem.qpl.get ch) (gridWrites s (tileQuantized s ch) n)) } }

theorem fqAfter_zero : fqAfter s ch 0 = s := by
  have hqpl : s.mem.qpl.set ch (Buf.writeAll (s.mem.qpl.get ch) (gridWrites s (tileQuantized s ch) 0)) = s.mem.qpl :=
    Chan3.set_get_self _ _
  rw [fqAfter, hqpl]
  rfl

theorem gridWrites_succ {α : Type} (s : State) (tile : Nat → Block α) (n : Nat) :
    gridWrites s tile (n + 1) =
      gridWrites s tile n ++ tileWrites s.nCols (n / s.tileCols) (n % s.tileCols) (tile n) := by
  rw [gridWrites, List.range_succ, List.flatMap_append, List.flatMap_singleton]
  rfl

theorem mem_gridWrites {α : Type} {tile : Nat → Block α} {p : Nat × α} : p ∈ gridWrites s tile n ↔
    ∃ m < n, ∃ i j, p = (tileIdx s.nCols (m / s.tileCols) (m % s.tileCols) i j, (tile m).at i j) := by
  simp only [gridWrites, List.mem_flatMap, List.mem_range, mem_tileWrites]

/-- An element of none of the first `n` tiles reads as before. -/
theorem read_gridWrites_of_ne {w : Nat} {tile : Nat → Block (BitVec w)} (b : Buf w) {a : Nat}
    (ha : ∀ m < n, ∀ i j, a ≠ tileIdx s.nCols (m / s.tileCols) (m % s.tileCols) i j) :
    Buf.read (Buf.writeAll b (gridWrites s tile n)) a = Buf.read b a := by
  refine Buf.read_writeAll_of_notMem b fun p hp => ?_
  obtain ⟨m, hm, i, j, rfl⟩ := mem_gridWrites.1 hp
  exact (ha m hm i j).symm

/-- The work of one more tile. -/
theorem fqAfter_succ (s : State) (ch : Channel) (n : Nat) :
    fqAfter s ch (n + 1) =
      ({ fqAfter s ch n with blk := tileCoefficients s ch n, qblk := tileQuantized s ch n } : State).putQpl ch
        (tileWrites s.nCols (n / s.tileCols) (n % s.tileCols) (tileQuantized s ch n)) := by
  rw [fqAfter, gridWrites_succ, Buf.writeAll_append, State.putQpl, fqAfter, Chan3.get_set_self, Chan3.set_set]
  rfl

/-! ## The loop -/

/-- `t` is `s` after FQPLANE's work on the first `n` tiles, wherever the counter stands. -/
def FqDone (s : State) (ch : Channel) (n : Nat) (t : State) : Prop :=
  ∃ r c last, t = (fqAfter s ch n).withCounter r c last

theorem FqDone.tiles {t : State} (h : FqDone s ch n t) : t.tiles = s.tiles := by
  obtain ⟨r, c, last, rfl⟩ := h
  rfl

section
variable (hs : LegalTiling hw s)
include hs

/-- The elements of a tile of the grid are elements of the plane. -/
theorem LegalTiling.tileIdx_lt {tr tc : Nat} (hr : tr < s.tileRows) (hc : tc < s.tileCols) (i j : Fin 8) :
    tileIdx s.nCols tr tc i j < s.nRows * s.nCols := by
  obtain ⟨-, -, hrows, hcols, -⟩ := hs.counts
  exact Machine.tileIdx_lt (by omega) (by omega) i j

/-- One round of FQPLANE after the work of `n` tiles, with the counter at the next one. -/
theorem fqBody_fqAfter {r c : Word32} {last : Bool} (hp : LegalParams s) (hwritten : PlaneWritten s ch (s.nRows * s.nCols))
    (hat : AtTile ((fqAfter s ch n).withCounter r c last) n) (hfits : BlockFits s (tileCoefficients s ch n)) :
    fqBody hw ch ((fqAfter s ch n).withCounter r c last) =
      .ok (nextTile ((fqAfter s ch (n + 1)).withCounter r c last)) := by
  obtain ⟨htr, htc⟩ := hat.nTile
  obtain ⟨hrow, hcol⟩ := div_lt_of_lt_tiles hat.1
  have hcoeff : coefficients ((fqAfter s ch n).withCounter r c last) ch = tileCoefficients s ch n := by
    rw [coefficients, htr, htc]
    rfl
  rw [fqBody_ok (hat.legal hs) hp, hcoeff, fqWork, htr, htc]
  · rw [fqAfter_succ]
    rfl
  · intro i j
    rw [htr, htc]
    exact hwritten _ (hs.tileIdx_lt hrow hcol i j)
  · rwa [hcoeff]

/-- One round of FQPLANE leaves the counter at the next tile, or at the first with `LAST` set. -/
theorem FqDone.round {t : State} (h : FqDone s ch n t) (hp : LegalParams s)
    (hwritten : PlaneWritten s ch (s.nRows * s.nCols)) (hat : AtTile t n) (hfits : BlockFits s (tileCoefficients s ch n)) :
    ∃ u, fqBody hw ch t = .ok u ∧ FqDone s ch (n + 1) u ∧ AfterRound u (n + 1) := by
  obtain ⟨r, c, last, rfl⟩ := h
  have hat' : AtTile ((fqAfter s ch (n + 1)).withCounter r c last) n := hat
  obtain ⟨r', c', last', hnext⟩ := exists_nextTile_eq ((fqAfter s ch (n + 1)).withCounter r c last)
  exact ⟨_, fqBody_fqAfter hs hp hwritten hat hfits, ⟨r', c', last', hnext⟩, hat'.next hs hw_capacity⟩

/-- The loop of FQPLANE does the work of every tile and leaves the counter at the first, with `LAST` set. -/
theorem fqTiles_ok (hp : LegalParams s) (hwritten : PlaneWritten s ch (s.nRows * s.nCols))
    (hfits : ∀ m < s.tiles, BlockFits s (tileCoefficients s ch m)) :
    fqTiles hw ch s = .ok ((fqAfter s ch s.tiles).withCounter 0#32 0#32 true) := by
  have hround (n : Nat) (t : State) (h : FqDone s ch n t) (hat : AtTile t n) :
      (fqBody hw ch t).Ends (fun u => FqDone s ch (n + 1) u ∧ AfterRound u (n + 1)) (fun _ _ => False) False := by
    have hn : n < s.tiles := h.tiles ▸ hat.1
    obtain ⟨u, hu, hdone⟩ := h.round hs hp hwritten hat (hfits n hn)
    rw [hu]
    exact hdone
  have hstart : FqDone s ch 0 (s.withCounter 0#32 0#32 false) := ⟨_, _, _, by rw [fqAfter_zero]⟩
  obtain ⟨_, hrun, ⟨r, c, last, rfl⟩, hr, hc, hlast⟩ :=
    Progress.ends_ok (untilLast_tiles (fun _ _ h => h.tiles) hround hstart (trst_atTile hs))
  obtain rfl : r = 0#32 := hr
  obtain rfl : c = 0#32 := hc
  obtain rfl : last = true := hlast
  rw [fqTiles, runPrim_ok_iff.2 (trst_ok_iff.2 rfl), Progress.ok_andThen]
  exact hrun

/-! ## The quantized plane -/

/-- No two tiles share an element, so each block is read back. -/
theorem read_gridWrites {w : Nat} {tile : Nat → Block (BitVec w)} (b : Buf w) {m : Nat} (hm : m < n) (hn : n ≤ s.tiles)
    (i j : Fin 8) :
    Buf.read (Buf.writeAll b (gridWrites s tile n)) (tileIdx s.nCols (m / s.tileCols) (m % s.tileCols) i j) =
      some ((tile m).at i j) := by
  obtain ⟨-, -, -, hcols, -⟩ := hs.counts
  have hfit {k : Nat} (hk : k < n) : 8 * (k % s.tileCols) + 8 ≤ s.nCols := by
    have := (div_lt_of_lt_tiles (hk.trans_le hn)).2
    omega
  refine Buf.read_writeAll_of_mem b (mem_gridWrites.2 ⟨m, hm, i, j, rfl⟩) fun u hu => ?_
  obtain ⟨k, hk, i', j', heq⟩ := mem_gridWrites.1 hu
  obtain ⟨hidx, rfl⟩ := Prod.mk.inj heq
  obtain ⟨hdiv, hmod, rfl, rfl⟩ := tileIdx_inj (hfit hm) (hfit hk) hidx
  obtain rfl : m = k := by rw [← Nat.div_add_mod m s.tileCols, hdiv, hmod, Nat.div_add_mod]
  rfl

/-- Nothing beyond the shape is written. -/
theorem read_gridWrites_beyond {w : Nat} {tile : Nat → Block (BitVec w)} (b : Buf w) {a : Nat} (ha : s.nRows * s.nCols ≤ a) :
    Buf.read (Buf.writeAll b (gridWrites s tile s.tiles)) a = Buf.read b a := by
  refine read_gridWrites_of_ne b fun m hm i j => ?_
  obtain ⟨hrow, hcol⟩ := div_lt_of_lt_tiles hm
  exact ((hs.tileIdx_lt hrow hcol i j).trans_le ha).ne'

end

/-- The place of a tile in the row-major order names its row and column. -/
theorem tile_div_mod {tr tc cols : Nat} (hc : tc < cols) : (tr * cols + tc) / cols = tr ∧ (tr * cols + tc) % cols = tc := by
  rw [Nat.mul_comm, Nat.mul_add_div (by omega), Nat.div_eq_of_lt hc, Nat.mul_add_mod, Nat.mod_eq_of_lt hc]
  exact ⟨rfl, rfl⟩

theorem tile_lt {tr tc rows cols : Nat} (hr : tr < rows) (hc : tc < cols) : tr * cols + tc < rows * cols :=
  plnIdx_lt hr hc

theorem tileCoefficients_eq {tc : Nat} (tr : Nat) (hc : tc < s.tileCols) :
    tileCoefficients s ch (tr * s.tileCols + tc) = forwardTile ch (blockAt (s.mem.pln.get ch) s.nCols tr tc) := by
  obtain ⟨hdiv, hmod⟩ := tile_div_mod (tr := tr) hc
  rw [tileCoefficients, hdiv, hmod]

/-- The last tile of the row-major order is `(TR - 1, TC - 1)`. -/
theorem lastTile_tiles {α : Type} (hs : LegalTiling hw s) (before : α) (tile : Nat → α) :
    lastTile before tile s.tiles = tile ((s.tileRows - 1) * s.tileCols + (s.tileCols - 1)) := by
  obtain ⟨hrows, hcols, -⟩ := hs.counts
  have htiles : s.tiles = (s.tileRows - 1) * s.tileCols + (s.tileCols - 1) + 1 := by
    rw [State.tiles, Nat.add_assoc, Nat.sub_add_cancel hcols, ← Nat.succ_mul, Nat.succ_eq_add_one,
      Nat.sub_add_cancel hrows]
  rw [htiles, lastTile]

/-- After the work of every tile the quantized plane is that of the plane (R211). -/
theorem quantized_fqAfter (hs : LegalTiling hw s) : Quantized (fqAfter s ch s.tiles) ch := by
  intro tr (hr : tr < s.tileRows) tc (hc : tc < s.tileCols) i j
  have hread := read_gridWrites (tile := tileQuantized s ch) hs (s.mem.qpl.get ch) (tile_lt hr hc) le_rfl i j
  obtain ⟨hdiv, hmod⟩ := tile_div_mod (tr := tr) hc
  rw [hdiv, hmod, tileQuantized, tileCoefficients_eq tr hc] at hread
  rw [fqAfter, Chan3.get_set_self]
  exact hread

/-- FQPLANE is the work of every tile when shape and parameters are legal, the plane is written and every quotient fits. -/
theorem exec_fqplane_of_fits (hs : LegalTiling hw s) (hp : LegalParams s)
    (hwritten : PlaneWritten s ch (s.nRows * s.nCols)) (hfits : ∀ m < s.tiles, BlockFits s (tileCoefficients s ch m)) :
    exec (.fqplane ch) s = .next ((fqAfter s ch s.tiles).withCounter 0#32 0#32 true).complete := by
  refine finish_ok ?_
  rw [fqplane, upfront_of_ok (pshape_true_ok_iff.2 hs), upfront_of_ok (qparam_ok_iff.2 hp), fqTiles_ok hs hp hwritten hfits]

/-- Settles O50: each tile of the quantized plane is read back, and the block registers hold the last tile. -/
theorem fqplaneCompletes : Obligations.FqplaneCompletes := by
  intro s ch hs hp hwritten hfits
  obtain ⟨-, hcols, -⟩ := hs.counts
  have hfits' : ∀ m < s.tiles, BlockFits s (tileCoefficients s ch m) := fun m hm =>
    hfits _ (div_lt_of_lt_tiles hm).1 _ (div_lt_of_lt_tiles hm).2
  have hblk : (fqAfter s ch s.tiles).blk =
      forwardTile ch (blockAt (s.mem.pln.get ch) s.nCols (s.tileRows - 1) (s.tileCols - 1)) :=
    (lastTile_tiles hs _ _).trans (tileCoefficients_eq _ (Nat.sub_one_lt hcols.ne'))
  have hqblk : (fqAfter s ch s.tiles).qblk = quantized s (fqAfter s ch s.tiles).blk := by
    rw [fqAfter, lastTile_tiles hs, lastTile_tiles hs, tileQuantized]
  refine ⟨_, exec_fqplane_of_fits hs hp hwritten hfits', rfl, rfl, rfl, quantized_fqAfter hs, hblk, hqblk, fun a ha => ?_,
    fun ch' hne => Chan3.get_set_ne _ _ hne, rfl⟩
  exact (congrArg (Buf.read · a) (Chan3.get_set_self ..)).trans (read_gridWrites_beyond hs _ ha)

end Sys2Proof.Machine
end

section
/-! Composite commands as their primitives issued one after another (R210): a list of primitives that the host issues ends as
one sequence of them, and each tile loop is such a sequence, because it runs once per tile (R205). -/

namespace Sys2Proof.Machine

variable {s t u : State} {i : Instr} {is : List Instr} {p : Prim} {cfg : Config} {ch : Channel}

/-! ## Commands that are one primitive -/

/-- The primitive a command consists of (R210, R244 a). Composite commands and SRST have none; NOP stands for them. -/
def primOf : Instr → Prim
  | .nop => nop
  | .clrerr => clrerr
  | .srst => nop
  | .rgb2ycc => rgb2ycc hw
  | .ycc2rgb => ycc2rgb hw
  | .fdct8 => fdct8 hw
  | .idct8 => idct8 hw
  | .quant => quant hw
  | .dequant => dequant hw
  | .pack ch => pack hw ch
  | .unpack ch => unpack hw ch
  | .ldblk ch => ldblk hw ch
  | .stblk ch => stblk hw ch
  | .ldqblk ch => ldqblk hw ch
  | .stqblk ch => stqblk hw ch
  | .center => center hw
  | .uncenter => uncenter hw
  | .trst => trst
  | .tnext => tnext hw
  | .fqplane _ => nop
  | .dqiplane _ => nop
  | .encode => nop
  | .decode => nop

/-- The command is one primitive: neither a composite nor SRST. -/
def IsPrimitive (i : Instr) : Prop := isComposite i = false ∧ i ≠ .srst

theorem exec_eq_finish_primOf (hi : IsPrimitive i) (s : State) : exec i s = finish (runPrim (primOf i) s) := by
  obtain ⟨hcomposite, hsrst⟩ := hi
  cases i with
  | srst => exact absurd rfl hsrst
  | fqplane ch => cases hcomposite
  | dqiplane ch => cases hcomposite
  | encode => cases hcomposite
  | decode => cases hcomposite
  | _ => rfl

/-! ## `STATUS` while a command runs -/

/-- The state with `STATUS` as it is while a command runs without a fault: only `LAST` stays. -/
def issued (s : State) : State := { s with status := { s.status with busy := true, done := false, err := false } }

theorem nextTile_issued (s : State) : nextTile (issued s) = issued (nextTile s) := by
  simp only [nextTile, apply_ite issued]
  rfl

/-- A primitive neither reads nor writes `BUSY`, `DONE` and `ERR`; CLRERR leaves `ERR` clear. -/
theorem commutes_issued_primOf (i : Instr) : Commutes issued (primOf i) := by
  cases i with
  | rgb2ycc => exact fun _ => bind_map rfl fun _ => bind_map rfl fun _ => rfl
  | ycc2rgb => exact fun _ => bind_map rfl fun _ => bind_map rfl fun _ => rfl
  | quant => exact fun _ => bind_map rfl fun _ => bind_map rfl fun _ => rfl
  | pack ch => exact fun _ => bind_map rfl fun _ => bind_map rfl fun _ => rfl
  | unpack ch => exact fun _ => bind_map rfl fun _ => bind_map rfl fun _ => bind_map rfl fun _ => rfl
  | ldblk ch => exact fun _ => bind_map rfl fun _ => bind_map rfl fun _ => rfl
  | ldqblk ch => exact fun _ => bind_map rfl fun _ => bind_map rfl fun _ => rfl
  | stblk ch => exact fun _ => bind_map rfl fun _ => rfl
  | stqblk ch => exact fun _ => bind_map rfl fun _ => rfl
  | tnext => exact fun _ => bind_map rfl fun _ => congrArg Except.ok (nextTile_issued _)
  | _ => exact fun _ => rfl

theorem issued_of_primOf (hs : issued s = s) (h : primOf i s = .ok t) : issued t = t := by
  have hmap := commutes_issued_primOf i s
  rw [hs, h] at hmap
  exact (Except.ok.inj hmap).symm

theorem issued_eq_running (herr : s.status.err = false) : issued (running s) = running s := by
  rw [issued, running, ← herr]

theorem running_complete (hs : issued s = s) : running s.complete = s := by
  rw [← hs]
  rfl

/-! ## A list of primitives -/

/-- From the end of a primitive the host issues the rest of a list: it ends as the sequence does in the state that the
primitive answered. -/
theorem runAll_complete (his : ∀ i ∈ is, IsPrimitive i) (hs : issued s = s) :
    runAll is s.complete = finish (sequence (is.map primOf) s) := by
  induction is generalizing s with
  | nil => rfl
  | cons i is ih =>
    rw [runAll, running_complete hs, exec_eq_finish_primOf (his i (by simp)), List.map_cons, sequence_cons]
    rcases hend : primOf i s with (f | r) | t
    · rw [runPrim_raised_iff.2 ⟨hend, rfl⟩]
      rfl
    · rw [runPrim_refused_iff.2 hend]
      rfl
    · have ht := issued_of_primOf hs hend
      have herr : t.complete.status.err = false := by rw [← ht]; rfl
      rw [runPrim_ok_iff.2 hend, Progress.ok_andThen, ← ih (fun j hj => his j (by simp [hj])) ht]
      simp only [finish, herr, Bool.false_eq_true, if_false]

/-- Commands that are primitives, issued one after another, end as one sequence of them. -/
theorem runAll_eq_finish_sequence (hne : is ≠ []) (his : ∀ i ∈ is, IsPrimitive i) (herr : s.status.err = false) :
    runAll is s = finish (sequence (is.map primOf) (running s)) := by
  rw [← runAll_complete his (issued_eq_running herr)]
  cases is with
  | nil => exact absurd rfl hne
  | cons i is => rfl

/-! ## Sequences -/

theorem sequence_append (l l' : List Prim) (s : State) :
    sequence (l ++ l') s = (sequence l s).andThen (sequence l') := by
  induction l generalizing s with
  | nil => rfl
  | cons p l ih =>
    rw [List.cons_append, sequence_cons, sequence_cons]
    rcases runPrim p s with t | ⟨t, f⟩ | r
    · exact ih t
    · rfl
    · rfl

theorem andThen_congr {q : Progress} {k k' : State → Progress} (h : ∀ t, q = .ok t → k t = k' t) :
    q.andThen k = q.andThen k' := by
  cases q with
  | ok t => exact h t rfl
  | raised t f => rfl
  | refused r => rfl

theorem Progress.Ends.of_ok {R : State → Prop} {F : State → Raised → Prop} {G : Prop} {q : Progress} (h : q.Ends R F G)
    (ht : q = .ok t) : R t := by
  rw [ht] at h
  exact h

/-! ## The tile loops -/

/-- A legal tiling of `n` tiles. -/
def TilingOf (n : Nat) (s : State) : Prop := LegalTiling hw s ∧ s.tiles = n

theorem TilingOf.of_shape_eq {n : Nat} (h : TilingOf n s) (hrows : t.rows = s.rows) (hcols : t.cols = s.cols) :
    TilingOf n t := by
  unfold TilingOf LegalTiling LegalShape State.tiles State.tileRows State.tileCols State.nRows State.nCols at *
  rwa [hrows, hcols]

/-- A primitive whose frame leaves the shape alone keeps the tiling. -/
theorem Frame.keeps_tilingOf {W : List Space} {R : List Reg} {n : Nat} (h : Frame W R p) (hrows : Reg.rows ∉ R)
    (hcols : Reg.cols ∉ R) : Keeps (TilingOf n) p := by
  intro s t hs ht
  obtain ⟨-, ⟨hregs, -⟩, -⟩ := h s t ht
  exact hs.of_shape_eq (hregs .rows hrows (by decide)) (hregs .cols hcols (by decide))

/-- A tiling with the counter at the `k`-th tile. -/
def TilingAt (n k : Nat) (s : State) : Prop := TilingOf n s ∧ AtTile s k

theorem Frame.keeps_tilingAt {W : List Space} {n k : Nat} (h : Frame W [] p) : Keeps (TilingAt n k) p := by
  rintro s t ⟨htiling, hat⟩ ht
  refine ⟨h.keeps_tilingOf List.not_mem_nil List.not_mem_nil s t htiling ht, ?_⟩
  obtain ⟨-, ⟨hregs, -⟩, -⟩ := h s t ht
  have hrows : t.rows = s.rows := hregs .rows List.not_mem_nil (by decide)
  have hcols : t.cols = s.cols := hregs .cols List.not_mem_nil (by decide)
  have hr : t.tileR = s.tileR := hregs .tileR List.not_mem_nil (by decide)
  have hc : t.tileC = s.tileC := hregs .tileC List.not_mem_nil (by decide)
  unfold AtTile State.tiles State.tileRows State.tileCols State.nRows State.nCols at *
  rwa [hrows, hcols, hr, hc]

/-- The work of a round, which leaves shape and counter alone, and its TNEXT. -/
theorem tilingAt_round {l : List Prim} {n k : Nat} (hl : ∀ p ∈ l, ∃ W, Frame W [] p) (hs : TilingAt n k s)
    (h : sequence (l ++ [tnext hw]) s = .ok t) : TilingOf n t ∧ AfterRound t (k + 1) := by
  rw [sequence_append] at h
  obtain ⟨u, hu, hnext⟩ := Progress.andThen_ok_iff.1 h
  have hkeeps : ∀ p ∈ l, Keeps (TilingAt n k) p := fun p hp => (hl p hp).elim fun _ hframe => hframe.keeps_tilingAt
  obtain ⟨htiling, hat⟩ : TilingAt n k u := (keeps_sequence hkeeps hs).of_ok hu
  rw [sequence_cons, Progress.andThen_ok_iff] at hnext
  obtain ⟨v, hv, hend⟩ := hnext
  cases hend
  obtain ⟨-, rfl⟩ := tnext_ok_iff.1 (runPrim_ok_iff.1 hv)
  exact ⟨frame_tnext.keeps_tilingOf (by simp) (by simp) u _ htiling (runPrim_ok_iff.1 hv),
    hat.next htiling.1 hw_capacity⟩

/-- From the `k`-th of the tiles the loop runs once for each tile that is left. -/
theorem untilLast_eq_sequence {l : List Prim} (hl : ∀ p ∈ l, ∃ W, Frame W [] p) {n k : Nat} (hs : TilingAt (k + n) k s) :
    untilLast (sequence (l ++ [tnext hw])) n s = sequence (List.replicate n (l ++ [tnext hw])).flatten s := by
  induction n generalizing s k with
  | zero => rfl
  | succ n ih =>
    rw [untilLast_succ, List.replicate_succ, List.flatten_cons, sequence_append (l ++ [tnext hw])]
    refine andThen_congr fun t ht => ?_
    obtain ⟨htiling, hafter⟩ := tilingAt_round hl hs ht
    cases n with
    | zero =>
      obtain ⟨-, -, hlast⟩ := hafter.wrapped htiling.2.le
      rw [if_pos hlast]
      rfl
    | succ n =>
      obtain ⟨hat, hlast⟩ := hafter.inside (by rw [htiling.2]; omega)
      rw [hlast, if_neg Bool.false_ne_true]
      exact ih ⟨by rwa [Nat.add_assoc, Nat.add_comm 1 (n + 1)], hat⟩

/-- TRST and then the loop. -/
theorem trst_untilLast_eq_sequence {l : List Prim} (hl : ∀ p ∈ l, ∃ W, Frame W [] p) {n : Nat} (hs : TilingOf n s) :
    ((runPrim trst s).andThen fun t => untilLast (sequence (l ++ [tnext hw])) t.tiles t) =
      sequence (trst :: (List.replicate n (l ++ [tnext hw])).flatten) s := by
  refine andThen_congr fun t ht => ?_
  obtain rfl := trst_ok_iff.1 (runPrim_ok_iff.1 ht)
  obtain ⟨hlegal, rfl⟩ := hs
  have hat := trst_atTile hlegal
  exact untilLast_eq_sequence hl (k := 0) ⟨⟨hlegal, (Nat.zero_add _).symm⟩, hat⟩

theorem map_primOf_rounds (n : Nat) (round : List Instr) :
    ((List.replicate n round).flatten).map primOf = (List.replicate n (round.map primOf)).flatten := by
  rw [List.map_flatten, List.map_replicate]

/-- The work of FQPLANE on one tile (R211). -/
def fqWorkPrims (ch : Channel) : List Prim :=
  [ldblk hw ch] ++ lumaOnly ch (center hw) ++ [fdct8 hw, quant hw, stqblk hw ch]

theorem fqRound_map_primOf (ch : Channel) : (fqRound ch).map primOf = fqWorkPrims ch ++ [tnext hw] := by cases ch <;> rfl

theorem fqBody_eq (ch : Channel) : fqBody hw ch = sequence (fqWorkPrims ch ++ [tnext hw]) := by cases ch <;> rfl

theorem frame_fqWorkPrims (ch : Channel) : ∀ p ∈ fqWorkPrims ch, ∃ W, Frame W [] p := by
  intro p hp
  have hp : p ∈ [ldblk hw ch, center hw, fdct8 hw, quant hw, stqblk hw ch] := by
    cases ch <;> simp [fqWorkPrims, lumaOnly] at hp ⊢ <;> tauto
  simp only [List.mem_cons, List.not_mem_nil, or_false] at hp
  rcases hp with rfl | rfl | rfl | rfl | rfl
  exacts [⟨_, frame_ldblk⟩, ⟨_, frame_center⟩, ⟨_, frame_fdct8⟩, ⟨_, frame_quant⟩, ⟨_, frame_stqblk⟩]

/-- FQPLANE's loop is its expansion (R211). -/
theorem fqTiles_eq_sequence {n : Nat} (hs : TilingOf n s) :
    fqTiles hw ch s = sequence ((fqExpansion n ch).map primOf) s := by
  rw [fqTiles, fqBody_eq, trst_untilLast_eq_sequence (frame_fqWorkPrims ch) hs, fqExpansion, List.map_cons,
    map_primOf_rounds, fqRound_map_primOf]
  rfl

/-- The work of DQIPLANE on one tile (R213). -/
def dqiWorkPrims (ch : Channel) : List Prim :=
  [ldqblk hw ch, dequant hw, idct8 hw] ++ lumaOnly ch (uncenter hw) ++ [stblk hw ch]

theorem dqiRound_map_primOf (ch : Channel) : (dqiRound ch).map primOf = dqiWorkPrims ch ++ [tnext hw] := by
  cases ch <;> rfl

theorem dqiBody_eq (ch : Channel) : dqiBody hw ch = sequence (dqiWorkPrims ch ++ [tnext hw]) := by cases ch <;> rfl

theorem frame_dqiWorkPrims (ch : Channel) : ∀ p ∈ dqiWorkPrims ch, ∃ W, Frame W [] p := by
  intro p hp
  have hp : p ∈ [ldqblk hw ch, dequant hw, idct8 hw, uncenter hw, stblk hw ch] := by
    cases ch <;> simp [dqiWorkPrims, lumaOnly] at hp ⊢ <;> tauto
  simp only [List.mem_cons, List.not_mem_nil, or_false] at hp
  rcases hp with rfl | rfl | rfl | rfl | rfl
  exacts [⟨_, frame_ldqblk⟩, ⟨_, frame_dequant⟩, ⟨_, frame_idct8⟩, ⟨_, frame_uncenter⟩, ⟨_, frame_stblk⟩]

/-- DQIPLANE's loop is its expansion (R213). -/
theorem dqiTiles_eq_sequence {n : Nat} (hs : TilingOf n s) :
    dqiTiles hw ch s = sequence ((dqiExpansion n ch).map primOf) s := by
  rw [dqiTiles, dqiBody_eq, trst_untilLast_eq_sequence (frame_dqiWorkPrims ch) hs, dqiExpansion, List.map_cons,
    map_primOf_rounds, dqiRound_map_primOf]
  rfl

/-! ## The commands of the expansions -/

/-- A primitive other than RGB2YCC: one that does not write `ROWS` and `COLS` (R41). -/
def ShapeKeeping (i : Instr) : Prop := IsPrimitive i ∧ i ≠ .rgb2ycc

theorem ShapeKeeping.keeps_tilingOf {n : Nat} (hi : ShapeKeeping i) : Keeps (TilingOf n) (primOf i) := by
  obtain ⟨⟨hcomposite, hsrst⟩, hrgb⟩ := hi
  cases i with
  | srst => exact absurd rfl hsrst
  | rgb2ycc => exact absurd rfl hrgb
  | fqplane ch => cases hcomposite
  | dqiplane ch => cases hcomposite
  | encode => cases hcomposite
  | decode => cases hcomposite
  | clrerr =>
    intro s t hs ht
    obtain rfl := clrerr_ok_iff.1 ht
    exact hs
  | nop => exact frame_nop.keeps_tilingOf (by simp) (by simp)
  | ycc2rgb => exact frame_ycc2rgb.keeps_tilingOf (by simp) (by simp)
  | fdct8 => exact frame_fdct8.keeps_tilingOf (by simp) (by simp)
  | idct8 => exact frame_idct8.keeps_tilingOf (by simp) (by simp)
  | quant => exact frame_quant.keeps_tilingOf (by simp) (by simp)
  | dequant => exact frame_dequant.keeps_tilingOf (by simp) (by simp)
  | pack ch => exact frame_pack.keeps_tilingOf (by simp) (by simp)
  | unpack ch => exact frame_unpack.keeps_tilingOf (by simp) (by simp)
  | ldblk ch => exact frame_ldblk.keeps_tilingOf (by simp) (by simp)
  | stblk ch => exact frame_stblk.keeps_tilingOf (by simp) (by simp)
  | ldqblk ch => exact frame_ldqblk.keeps_tilingOf (by simp) (by simp)
  | stqblk ch => exact frame_stqblk.keeps_tilingOf (by simp) (by simp)
  | center => exact frame_center.keeps_tilingOf (by simp) (by simp)
  | uncenter => exact frame_uncenter.keeps_tilingOf (by simp) (by simp)
  | trst => exact frame_trst.keeps_tilingOf (by simp) (by simp)
  | tnext => exact frame_tnext.keeps_tilingOf (by simp) (by simp)

theorem shapeKeeping_pack : ShapeKeeping (.pack ch) := ⟨⟨rfl, by simp⟩, by simp⟩

theorem shapeKeeping_unpack : ShapeKeeping (.unpack ch) := ⟨⟨rfl, by simp⟩, by simp⟩

theorem isPrimitive_ycc2rgb : IsPrimitive .ycc2rgb := ⟨rfl, by simp⟩

theorem isPrimitive_rgb2ycc : IsPrimitive .rgb2ycc := ⟨rfl, by simp⟩

/-- TRST and a repeated round of such commands. -/
theorem shapeKeeping_rounds {round : List Instr} (h : ∀ i ∈ round, ShapeKeeping i) (n : Nat) :
    ∀ i ∈ Instr.trst :: (List.replicate n round).flatten, ShapeKeeping i := by
  intro i hi
  rcases List.mem_cons.1 hi with rfl | hi
  · exact ⟨⟨rfl, by simp⟩, by simp⟩
  · obtain ⟨l, hl, hil⟩ := List.mem_flatten.1 hi
    rw [List.eq_of_mem_replicate hl] at hil
    exact h i hil

theorem shapeKeeping_fqExpansion (n : Nat) (ch : Channel) : ∀ i ∈ fqExpansion n ch, ShapeKeeping i := by
  refine shapeKeeping_rounds ?_ n
  cases ch <;> simp [fqRound, ShapeKeeping, IsPrimitive, isComposite]

theorem shapeKeeping_dqiExpansion (n : Nat) (ch : Channel) : ∀ i ∈ dqiExpansion n ch, ShapeKeeping i := by
  refine shapeKeeping_rounds ?_ n
  cases ch <;> simp [dqiRound, ShapeKeeping, IsPrimitive, isComposite]

/-! ## The channels one after another -/

/-- What is done for each channel is its list of commands, and these keep the tiling. -/
structure ExpandsTo (n : Nat) (g : Channel → State → Progress) (e : Channel → List Instr) : Prop where
  eq_sequence : ∀ ch s, TilingOf n s → g ch s = sequence ((e ch).map primOf) s
  shapeKeeping : ∀ ch, ∀ i ∈ e ch, ShapeKeeping i

variable {n : Nat} {g : Channel → State → Progress} {e : Channel → List Instr} {l : List Channel}

theorem ExpandsTo.keeps_tilingOf (h : ExpandsTo n g e) (hs : TilingOf n s) (ht : g ch s = .ok t) : TilingOf n t := by
  rw [h.eq_sequence ch s hs] at ht
  refine (keeps_sequence (fun p hp => ?_) hs).of_ok ht
  obtain ⟨i, hi, rfl⟩ := List.mem_map.1 hp
  exact (h.shapeKeeping ch i hi).keeps_tilingOf

/-- One channel after another is one list after another. -/
theorem ExpandsTo.eachChannel_eq (h : ExpandsTo n g e) (hs : TilingOf n s) :
    eachChannel g l s = sequence ((l.flatMap e).map primOf) s := by
  induction l generalizing s with
  | nil => rfl
  | cons ch l ih =>
    rw [List.flatMap_cons, List.map_append, sequence_append, ← h.eq_sequence ch s hs]
    exact andThen_congr fun t ht => ih (h.keeps_tilingOf hs ht)

theorem ExpandsTo.eachChannel_tilingOf (h : ExpandsTo n g e) (hs : TilingOf n s) (ht : eachChannel g l s = .ok t) :
    TilingOf n t := by
  induction l generalizing s with
  | nil =>
    cases ht
    exact hs
  | cons ch l ih =>
    obtain ⟨u, hu, ht⟩ := Progress.andThen_ok_iff.1 ht
    exact ih (h.keeps_tilingOf hs hu) ht

theorem ExpandsTo.isPrimitive (h : ExpandsTo n g e) : ∀ i ∈ l.flatMap e, IsPrimitive i := by
  intro i hi
  obtain ⟨ch, -, hi⟩ := List.mem_flatMap.1 hi
  exact (h.shapeKeeping ch i hi).1

theorem sequence_singleton (p : Prim) (s : State) : sequence [p] s = runPrim p s := by
  rw [sequence_cons]
  cases runPrim p s <;> rfl

/-- ENCODE's work on a channel (R215 steps 3 to 5). -/
theorem encodeChannel_expandsTo (n : Nat) :
    ExpandsTo n (encodeChannel hw) (fun ch => fqExpansion n ch ++ [.pack ch]) where
  eq_sequence ch s hs := by
    rw [encodeChannel, fqTiles_eq_sequence hs, List.map_append, sequence_append]
    exact andThen_congr fun t _ => (sequence_singleton _ t).symm
  shapeKeeping ch := List.forall_mem_append.2 ⟨shapeKeeping_fqExpansion n ch, by simpa using shapeKeeping_pack⟩

theorem dqiTiles_expandsTo (n : Nat) : ExpandsTo n (dqiTiles hw) (dqiExpansion n) where
  eq_sequence _ _ hs := dqiTiles_eq_sequence hs
  shapeKeeping := shapeKeeping_dqiExpansion n

theorem unpack_expandsTo (n : Nat) : ExpandsTo n (fun ch => runPrim (unpack hw ch)) (fun ch => [.unpack ch]) where
  eq_sequence ch s _ := (sequence_singleton (unpack hw ch) s).symm
  shapeKeeping ch := by simpa using shapeKeeping_unpack

/-! ## The cropped shape -/

/-- A cropped dimension is a legal one. -/
theorem toInt_ofNat_crop {w : Word32} {m : Nat} (hlo : 8 ≤ w.toInt) (hhi : w.toInt ≤ m) :
    0 < (BitVec.ofNat 32 (8 * (w.toInt.toNat / 8))).toInt ∧ (BitVec.ofNat 32 (8 * (w.toInt.toNat / 8))).toInt ≤ m ∧
      (BitVec.ofNat 32 (8 * (w.toInt.toNat / 8))).toInt % 8 = 0 := by
  rw [toInt_crop (by omega) rfl]
  omega

theorem nRows_cropShape (s : State) : (cropShape s).nRows = cropRows s := by
  have := BitVec.toInt_lt (x := s.height)
  exact toNat_toInt_ofNat (by rw [cropRows]; omega)

theorem nCols_cropShape (s : State) : (cropShape s).nCols = cropCols s := by
  have := BitVec.toInt_lt (x := s.width)
  exact toNat_toInt_ofNat (by rw [cropCols]; omega)

/-- The cropped shape of a legal input is a legal tiling (R113). -/
theorem LegalInput.tilingOf_cropShape (hs : LegalInput hw s) :
    TilingOf (cropRows s / 8 * (cropCols s / 8)) (cropShape s) := by
  obtain ⟨-, hheight, hmaxH, hwidth, hmaxW⟩ := hs
  obtain ⟨hr0, hr, hr8⟩ := toInt_ofNat_crop hheight hmaxH
  obtain ⟨hc0, hc, hc8⟩ := toInt_ofNat_crop hwidth hmaxW
  refine ⟨⟨⟨hr0, hr, hc0, hc⟩, hr8, hc8⟩, ?_⟩
  rw [State.tiles, State.tileRows, State.tileCols, nRows_cropShape, nCols_cropShape]

theorem rgb2ycc_tilingOf (h : rgb2ycc hw s = .ok t) : TilingOf (cropRows s / 8 * (cropCols s / 8)) t := by
  obtain ⟨hs, px, -, rfl⟩ := rgb2ycc_ok_iff.1 h
  exact hs.tilingOf_cropShape

/-! ## The composites -/

theorem exec_fqplane_eq_sequence (hs : LegalTiling hw s) (hp : LegalParams s) :
    exec (.fqplane ch) s = finish (sequence ((fqExpansion s.tiles ch).map primOf) s) := by
  rw [← fqTiles_eq_sequence ⟨hs, rfl⟩]
  show finish (fqplane hw ch s) = _
  rw [fqplane, upfront_of_ok (pshape_true_ok_iff.2 hs), upfront_of_ok (qparam_ok_iff.2 hp)]

theorem exec_dqiplane_eq_sequence (hs : LegalTiling hw s) :
    exec (.dqiplane ch) s = finish (sequence ((dqiExpansion s.tiles ch).map primOf) s) := by
  rw [← dqiTiles_eq_sequence ⟨hs, rfl⟩]
  show finish (dqiplane hw ch s) = _
  rw [dqiplane, upfront_of_ok (pshape_true_ok_iff.2 hs)]

theorem exec_encode_eq_sequence (hs : LegalInput hw s) (hp : LegalParams s) :
    exec .encode s = finish (sequence ((encodeExpansion s).map primOf) s) := by
  show finish (encodeAll hw s) = _
  rw [encodeAll, upfront_of_ok (inshape_ok_iff.2 hs), upfront_of_ok (qparam_ok_iff.2 hp), encodeExpansion, List.map_cons,
    sequence_cons]
  refine congrArg finish (andThen_congr fun t ht => ?_)
  exact (encodeChannel_expandsTo _).eachChannel_eq (rgb2ycc_tilingOf (runPrim_ok_iff.1 ht))

theorem exec_decode_eq_sequence (hs : LegalTiling hw s) :
    exec .decode s = finish (sequence ((decodeExpansion s).map primOf) s) := by
  have hunpack := unpack_expandsTo s.tiles
  have htiling : TilingOf s.tiles s := ⟨hs, rfl⟩
  show finish (decodeAll hw s) = _
  rw [decodeAll, upfront_of_ok (pshape_true_ok_iff.2 hs), decodeExpansion, List.map_append, List.map_append,
    List.map_eq_flatMap (f := Instr.unpack), sequence_append, sequence_append, ← hunpack.eachChannel_eq htiling,
    andThen_congr fun t ht => (dqiTiles_expandsTo s.tiles).eachChannel_eq (hunpack.eachChannel_tilingOf htiling ht)]
  exact congrArg finish (andThen_congr fun t _ => (sequence_singleton _ t).symm)

theorem isPrimitive_encodeExpansion (s : State) : ∀ i ∈ encodeExpansion s, IsPrimitive i :=
  List.forall_mem_cons.2 ⟨isPrimitive_rgb2ycc, (encodeChannel_expandsTo _).isPrimitive⟩

theorem isPrimitive_decodeExpansion (s : State) : ∀ i ∈ decodeExpansion s, IsPrimitive i := by
  have hunpack : ∀ i ∈ (sparseChannels s).map Instr.unpack, IsPrimitive i := by
    rw [List.map_eq_flatMap]
    exact (unpack_expandsTo s.tiles).isPrimitive
  exact List.forall_mem_append.2 ⟨List.forall_mem_append.2 ⟨hunpack, (dqiTiles_expandsTo s.tiles).isPrimitive⟩,
    by simpa using isPrimitive_ycc2rgb⟩

/-- Settles O49: once its checks pass a composite is the sequence of its expansion, as is the list the host issues. -/
theorem compositesAreTheirExpansions : Obligations.CompositesAreTheirExpansions := by
  intro s herr
  have issue {is : List Instr} (hne : is ≠ []) (his : ∀ i ∈ is, IsPrimitive i) :=
    (runAll_eq_finish_sequence hne his herr).symm
  refine ⟨fun ch hs hp => ?_, fun ch hs => ?_, fun hs hp => ?_, fun hs => ?_⟩
  · exact (exec_fqplane_eq_sequence (s := running s) hs hp).trans
      (issue (by simp [fqExpansion]) fun i hi => (shapeKeeping_fqExpansion _ ch i hi).1)
  · exact (exec_dqiplane_eq_sequence (s := running s) hs).trans
      (issue (by simp [dqiExpansion]) fun i hi => (shapeKeeping_dqiExpansion _ ch i hi).1)
  · exact (exec_encode_eq_sequence (s := running s) hs hp).trans
      (issue (by simp [encodeExpansion]) (isPrimitive_encodeExpansion s))
  · exact (exec_decode_eq_sequence (s := running s) hs).trans
      (issue (by simp [decodeExpansion]) (isPrimitive_decodeExpansion s))

end Sys2Proof.Machine
end

section
/-! FQPLANE with a quotient that does not fit (R157, R210, R211): the state at the first tile that has one. -/

namespace Sys2Proof.Machine

variable {s t : State} {ch : Channel} {n : Nat}

/-- The work of the first `n` tiles is done, the counter stands at the next one, and `BLK` holds its coefficients. -/
def StoppedAt (s : State) (ch : Channel) (n : Nat) (t : State) : Prop :=
  ∃ r c, t = { (fqAfter s ch n).withCounter r c false with blk := tileCoefficients s ch n } ∧ AtTile t n

/-- The round of a tile with a quotient that does not fit stops before QUANT has written anything. -/
theorem FqDone.round_raised (hs : LegalTiling hw s) (h : FqDone s ch n t) (hlast : t.status.last = false)
    (hp : LegalParams s) (hwritten : PlaneWritten s ch (s.nRows * s.nCols)) (hat : AtTile t n)
    (hfails : ¬BlockFits s (tileCoefficients s ch n)) :
    ∃ u f, fqBody hw ch t = .raised u f ∧ StoppedAt s ch n u ∧ f.cause ∈ [Cause.quotientRange, .quotientNotFinite] := by
  obtain ⟨r, c, last, rfl⟩ := h
  obtain rfl : last = false := hlast
  obtain ⟨htr, htc⟩ := hat.nTile
  obtain ⟨hrow, hcol⟩ := div_lt_of_lt_tiles hat.1
  have hcoeff : coefficients ((fqAfter s ch n).withCounter r c false) ch = tileCoefficients s ch n := by
    rw [coefficients, htr, htc]
    rfl
  obtain ⟨f, hf, hcause⟩ := fqBody_raised (ch := ch) (hat.legal hs) hp
    (by rw [htr, htc]; exact fun i j => hwritten _ (hs.tileIdx_lt hrow hcol i j)) (by rwa [hcoeff])
  rw [hcoeff] at hf
  exact ⟨_, f, hf, ⟨r, c, rfl, hat⟩, hcause⟩

/-- The loop of FQPLANE stops at the first tile with a quotient that does not fit. -/
theorem fqTiles_raised (hs : LegalTiling hw s) (hp : LegalParams s) (hwritten : PlaneWritten s ch (s.nRows * s.nCols))
    (hn : n < s.tiles) (hfits : ∀ m < n, BlockFits s (tileCoefficients s ch m))
    (hfails : ¬BlockFits s (tileCoefficients s ch n)) :
    ∃ u f, fqTiles hw ch s = .raised u f ∧ StoppedAt s ch n u ∧ f.cause ∈ [Cause.quotientRange, .quotientNotFinite] := by
  have hround (k : Nat) (t : State) : FqDone s ch k t ∧ k ≤ n ∧ t.status.last = false → AtTile t k →
      (fqBody hw ch t).Ends
        (fun u => (FqDone s ch (k + 1) u ∧ k + 1 ≤ n ∧ u.status.last = false) ∧ AfterRound u (k + 1))
        (fun u f => StoppedAt s ch n u ∧ f.cause ∈ [Cause.quotientRange, .quotientNotFinite]) False := by
    rintro ⟨h, hk, hlast⟩ hat
    rcases Nat.lt_or_eq_of_le hk with hlt | rfl
    · obtain ⟨u, hu, hdone, hafter⟩ := h.round hs hp hwritten hat (hfits k hlt)
      have hnext : k + 1 < u.tiles := by rw [hdone.tiles]; omega
      rw [hu]
      exact ⟨⟨hdone, hlt, (hafter.inside hnext).2⟩, hafter⟩
    · obtain ⟨u, f, hu, hstop⟩ := h.round_raised hs hlast hp hwritten hat hfails
      rw [hu]
      exact hstop
  have hstart : FqDone s ch 0 (s.withCounter 0#32 0#32 false) := ⟨_, _, _, by rw [fqAfter_zero]⟩
  have hrun : (fqTiles hw ch s).Ends (fun _ => False)
      (fun u f => StoppedAt s ch n u ∧ f.cause ∈ [Cause.quotientRange, .quotientNotFinite]) False := by
    rw [fqTiles, runPrim_ok_iff.2 (trst_ok_iff.2 rfl), Progress.ok_andThen]
    refine Progress.ends_of_imp (untilLast_tiles (fun _ _ h => h.1.tiles) hround ⟨hstart, n.zero_le, rfl⟩
      (trst_atTile hs)) ?_ fun _ _ h => h
    rintro u ⟨⟨-, hle, -⟩, -⟩
    exact hle.not_gt hn
  rcases hend : fqTiles hw ch s with u | ⟨u, f⟩ | r <;> rw [hend] at hrun
  · exact hrun.elim
  · exact ⟨u, f, rfl, hrun⟩
  · exact hrun.elim

/-- FQPLANE with a quotient that does not fit ends in the fault of the first tile that has one. -/
theorem exec_fqplane_of_fails (hs : LegalTiling hw s) (hp : LegalParams s)
    (hwritten : PlaneWritten s ch (s.nRows * s.nCols)) (hn : n < s.tiles)
    (hfits : ∀ m < n, BlockFits s (tileCoefficients s ch m)) (hfails : ¬BlockFits s (tileCoefficients s ch n)) :
    ∃ u f, exec (.fqplane ch) s = .next (takeFault f u) ∧ StoppedAt s ch n u ∧
      f.cause ∈ [Cause.quotientRange, .quotientNotFinite] := by
  obtain ⟨u, f, hrun, hstop⟩ := fqTiles_raised hs hp hwritten hn hfits hfails
  refine ⟨u, f, ?_, hstop⟩
  show finish (fqplane hw ch s) = _
  rw [fqplane, upfront_of_ok (pshape_true_ok_iff.2 hs), upfront_of_ok (qparam_ok_iff.2 hp), hrun]
  rfl

/-- The codes of the two range faults (R241). -/
theorem code_of_rangeError {c : Cause} (h : c ∈ [Cause.quotientRange, .quotientNotFinite]) :
    c.code = 0x15#32 ∨ c.code = 0x25#32 := by
  rcases List.mem_pair.1 h with rfl | rfl
  · exact .inl rfl
  · exact .inr rfl

/-- Settles O51: the fault leaves the work of the tiles before the failing one, whose blocks are read back. -/
theorem fqplaneFaultKeepsEarlierTiles : Obligations.FqplaneFaultKeepsEarlierTiles := by
  intro s ch n hs hp hwritten hn hfits hfails
  obtain ⟨_, f, hexec, ⟨r, c, rfl, hat⟩, hcause⟩ := exec_fqplane_of_fails hs hp hwritten hn hfits hfails
  have hqpl : (fqAfter s ch n).mem.qpl.get ch =
      Buf.writeAll (s.mem.qpl.get ch) (gridWrites s (tileQuantized s ch) n) := Chan3.get_set_self ..
  refine ⟨_, hexec, rfl, code_of_rangeError hcause, hat.nTile.1, hat.nTile.2, rfl, ?_, ?_, fun m hm i j => ?_,
    fun a ha => ?_⟩
  · rintro rfl
    rfl
  · rintro m rfl
    rfl
  · exact (congrArg (Buf.read · _) hqpl).trans (read_gridWrites hs _ hm (le_of_lt hn) i j)
  · exact (congrArg (Buf.read · a) hqpl).trans (read_gridWrites_of_ne _ ha)

end Sys2Proof.Machine
end

section
/-! DQIPLANE (R213): the state after the work of any number of tiles in row-major order, and what the plane then reads. -/

namespace Sys2Proof.Machine

variable {s : State} {ch : Channel} {n : Nat}

/-! ## The work of the first tiles -/

/-- The quantized coefficients of the `m`-th tile of the row-major order. -/
def storedTile (s : State) (ch : Channel) (m : Nat) : Block I16 :=
  qblockAt (s.mem.qpl.get ch) s.nCols (m / s.tileCols) (m % s.tileCols)

/-- The samples rebuilt from the `m`-th tile. -/
def tileSamples (s : State) (ch : Channel) (m : Nat) : Block F64 := inverseTile ch (storedTile s ch m)

/-- The state after DQIPLANE's work on the first `n` tiles, but for the tile counter and `LAST`. -/
def dqiAfter (s : State) (ch : Channel) (n : Nat) : State :=
  { s with
    blk := lastTile s.blk (tileSamples s ch) n
    qblk := lastTile s.qblk (storedTile s ch) n
    mem := { s.mem with pln := s.mem.pln.set ch (Buf.writeAll (s.mem.pln.get ch) (gridWrites s (tileSamples s ch) n)) } }

theorem dqiAfter_zero : dqiAfter s ch 0 = s := by
  have hpln : s.mem.pln.set ch (Buf.writeAll (s.mem.pln.get ch) (gridWrites s (tileSamples s ch) 0)) = s.mem.pln :=
    Chan3.set_get_self _ _
  rw [dqiAfter, hpln]
  rfl

/-- The work of one more tile. -/
theorem dqiAfter_succ (s : State) (ch : Channel) (n : Nat) :
    dqiAfter s ch (n + 1) =
      ({ dqiAfter s ch n with blk := tileSamples s ch n, qblk := storedTile s ch n } : State).putPln ch
        (tileWrites s.nCols (n / s.tileCols) (n % s.tileCols) (tileSamples s ch n)) := by
  rw [dqiAfter, gridWrites_succ, Buf.writeAll_append, State.putPln, dqiAfter, Chan3.get_set_self, Chan3.set_set]
  rfl

/-! ## The loop -/

/-- `t` is `s` after DQIPLANE's work on the first `n` tiles, wherever the counter stands. -/
def DqiDone (s : State) (ch : Channel) (n : Nat) (t : State) : Prop :=
  ∃ r c last, t = (dqiAfter s ch n).withCounter r c last

theorem DqiDone.tiles {t : State} (h : DqiDone s ch n t) : t.tiles = s.tiles := by
  obtain ⟨r, c, last, rfl⟩ := h
  rfl

section
variable (hs : LegalTiling hw s)
include hs

/-- One round of DQIPLANE after the work of `n` tiles, with the counter at the next one. -/
theorem dqiBody_dqiAfter {r c : Word32} {last : Bool} (hwritten : QPlaneWritten s ch (s.nRows * s.nCols))
    (hat : AtTile ((dqiAfter s ch n).withCounter r c last) n) :
    dqiBody hw ch ((dqiAfter s ch n).withCounter r c last) =
      .ok (nextTile ((dqiAfter s ch (n + 1)).withCounter r c last)) := by
  obtain ⟨htr, htc⟩ := hat.nTile
  obtain ⟨hrow, hcol⟩ := div_lt_of_lt_tiles hat.1
  rw [dqiBody_ok (hat.legal hs), dqiWork, htr, htc]
  · rw [dqiAfter_succ]
    rfl
  · intro i j
    rw [htr, htc]
    exact hwritten _ (hs.tileIdx_lt hrow hcol i j)

/-- One round of DQIPLANE leaves the counter at the next tile, or at the first with `LAST` set. -/
theorem DqiDone.round {t : State} (h : DqiDone s ch n t) (hwritten : QPlaneWritten s ch (s.nRows * s.nCols))
    (hat : AtTile t n) : ∃ u, dqiBody hw ch t = .ok u ∧ DqiDone s ch (n + 1) u ∧ AfterRound u (n + 1) := by
  obtain ⟨r, c, last, rfl⟩ := h
  have hat' : AtTile ((dqiAfter s ch (n + 1)).withCounter r c last) n := hat
  obtain ⟨r', c', last', hnext⟩ := exists_nextTile_eq ((dqiAfter s ch (n + 1)).withCounter r c last)
  exact ⟨_, dqiBody_dqiAfter hs hwritten hat, ⟨r', c', last', hnext⟩, hat'.next hs hw_capacity⟩

/-- The loop of DQIPLANE does the work of every tile and leaves the counter at the first, with `LAST` set. -/
theorem dqiTiles_ok (hwritten : QPlaneWritten s ch (s.nRows * s.nCols)) :
    dqiTiles hw ch s = .ok ((dqiAfter s ch s.tiles).withCounter 0#32 0#32 true) := by
  have hround (n : Nat) (t : State) (h : DqiDone s ch n t) (hat : AtTile t n) :
      (dqiBody hw ch t).Ends (fun u => DqiDone s ch (n + 1) u ∧ AfterRound u (n + 1)) (fun _ _ => False) False := by
    obtain ⟨u, hu, hdone⟩ := h.round hs hwritten hat
    rw [hu]
    exact hdone
  have hstart : DqiDone s ch 0 (s.withCounter 0#32 0#32 false) := ⟨_, _, _, by rw [dqiAfter_zero]⟩
  obtain ⟨_, hrun, ⟨r, c, last, rfl⟩, hr, hc, hlast⟩ :=
    Progress.ends_ok (untilLast_tiles (fun _ _ h => h.tiles) hround hstart (trst_atTile hs))
  obtain rfl : r = 0#32 := hr
  obtain rfl : c = 0#32 := hc
  obtain rfl : last = true := hlast
  rw [dqiTiles, runPrim_ok_iff.2 (trst_ok_iff.2 rfl), Progress.ok_andThen]
  exact hrun

end

/-! ## The rebuilt plane -/

theorem storedTile_eq {tc : Nat} (tr : Nat) (hc : tc < s.tileCols) :
    storedTile s ch (tr * s.tileCols + tc) = qblockAt (s.mem.qpl.get ch) s.nCols tr tc := by
  obtain ⟨hdiv, hmod⟩ := tile_div_mod (tr := tr) hc
  rw [storedTile, hdiv, hmod]

/-- After the work of every tile the plane is rebuilt from the quantized plane (R213). -/
theorem reconstructed_dqiAfter (hs : LegalTiling hw s) : Reconstructed (dqiAfter s ch s.tiles) ch := by
  intro tr (hr : tr < s.tileRows) tc (hc : tc < s.tileCols) i j
  have hread := read_gridWrites (tile := tileSamples s ch) hs (s.mem.pln.get ch) (tile_lt hr hc) le_rfl i j
  obtain ⟨hdiv, hmod⟩ := tile_div_mod (tr := tr) hc
  rw [hdiv, hmod, tileSamples, storedTile_eq tr hc] at hread
  rw [dqiAfter, Chan3.get_set_self]
  exact hread

/-- DQIPLANE is the work of every tile when the shape is legal and the quantized plane is written. -/
theorem exec_dqiplane_of_written (hs : LegalTiling hw s) (hwritten : QPlaneWritten s ch (s.nRows * s.nCols)) :
    exec (.dqiplane ch) s = .next ((dqiAfter s ch s.tiles).withCounter 0#32 0#32 true).complete := by
  refine finish_ok ?_
  rw [dqiplane, upfront_of_ok (pshape_true_ok_iff.2 hs), dqiTiles_ok hs hwritten]

/-- Settles O52: each tile of the plane is read back, and the block registers hold the last tile. -/
theorem dqiplaneCompletes : Obligations.DqiplaneCompletes := by
  intro s ch hs hwritten
  obtain ⟨-, hcols, -⟩ := hs.counts
  have hqblk : (dqiAfter s ch s.tiles).qblk = qblockAt (s.mem.qpl.get ch) s.nCols (s.tileRows - 1) (s.tileCols - 1) :=
    (lastTile_tiles hs _ _).trans (storedTile_eq _ (Nat.sub_one_lt hcols.ne'))
  have hblk : (dqiAfter s ch s.tiles).blk = inverseTile ch (dqiAfter s ch s.tiles).qblk := by
    rw [dqiAfter, lastTile_tiles hs, lastTile_tiles hs, tileSamples]
  refine ⟨_, exec_dqiplane_of_written hs hwritten, rfl, rfl, rfl, reconstructed_dqiAfter hs, hqblk, hblk, fun a ha => ?_,
    fun ch' hne => Chan3.get_set_ne _ _ hne, rfl⟩
  exact (congrArg (Buf.read · a) (Chan3.get_set_self ..)).trans (read_gridWrites_beyond hs _ ha)

end Sys2Proof.Machine
end

section
/-! What a statement about one channel sees of a state, and the work of a command on one channel after another (R215, R218). -/

namespace Sys2Proof.Machine

variable {s t : State} {ch : Channel} {n : Nat}

/-! ## The part of a channel -/

/-- What belongs to one channel: its buffers and lengths, with the shape, `CTRL` and the quantizer parameters; the rest of the
state stands at its reset value. -/
def State.part (s : State) (ch : Channel) : State :=
  { State.reset with
    ctrl := s.ctrl
    threshold := s.threshold
    bandCutoff := s.bandCutoff
    rows := s.rows
    cols := s.cols
    vallen := Chan3.all (s.vallen.get ch)
    collen := Chan3.all (s.collen.get ch)
    rptrlen := Chan3.all (s.rptrlen.get ch)
    mem := { Memory.empty with
      pln := Chan3.all (s.mem.pln.get ch)
      qpl := Chan3.all (s.mem.qpl.get ch)
      val := Chan3.all (s.mem.val.get ch)
      coli := Chan3.all (s.mem.coli.get ch)
      rptr := Chan3.all (s.mem.rptr.get ch) } }

theorem planeWritten_part : PlaneWritten (s.part ch) ch n ↔ PlaneWritten s ch n := by cases ch <;> rfl

theorem qplaneWritten_part : QPlaneWritten (s.part ch) ch n ↔ QPlaneWritten s ch n := by cases ch <;> rfl

theorem csrReady_part : CsrReady (s.part ch) ch ↔ CsrReady s ch := by cases ch <;> rfl

theorem csrOfPlane_part : CsrOfPlane (s.part ch) ch ↔ CsrOfPlane s ch := by cases ch <;> rfl

theorem quantized_part : Quantized (s.part ch) ch ↔ Quantized s ch := by cases ch <;> rfl

theorem reconstructed_part : Reconstructed (s.part ch) ch ↔ Reconstructed s ch := by cases ch <;> rfl

theorem denseOfCsr_part : DenseOfCsr (s.part ch) (t.part ch) ch ↔ DenseOfCsr s t ch := by cases ch <;> rfl

theorem tileCoefficients_part (m : Nat) : tileCoefficients (s.part ch) ch m = tileCoefficients s ch m := by cases ch <;> rfl

/-- Channels of the same part have the same buffers and lengths. -/
theorem get_eq_of_part_eq (h : t.part ch = s.part ch) :
    t.mem.pln.get ch = s.mem.pln.get ch ∧ t.mem.qpl.get ch = s.mem.qpl.get ch ∧ t.mem.val.get ch = s.mem.val.get ch ∧
      t.mem.coli.get ch = s.mem.coli.get ch ∧ t.mem.rptr.get ch = s.mem.rptr.get ch ∧
      t.vallen.get ch = s.vallen.get ch ∧ t.collen.get ch = s.collen.get ch ∧ t.rptrlen.get ch = s.rptrlen.get ch :=
  ⟨congrArg (fun u => u.mem.pln.y) h, congrArg (fun u => u.mem.qpl.y) h, congrArg (fun u => u.mem.val.y) h,
    congrArg (fun u => u.mem.coli.y) h, congrArg (fun u => u.mem.rptr.y) h, congrArg (fun u => u.vallen.y) h,
    congrArg (fun u => u.collen.y) h, congrArg (fun u => u.rptrlen.y) h⟩

/-! ## One channel after another -/

/-- Work on a channel whose part meets `Pre` completes: its new part meets `Post`, the parts of the other channels stay, and
the whole state changes as the transitive `Step` says. -/
structure ChannelWork (g : Channel → State → Progress) (Pre : State → Channel → Prop)
    (Post : State → State → Channel → Prop) (Step : State → State → Prop) : Prop where
  run : ∀ s ch, Pre (s.part ch) ch → ∃ t, g ch s = .ok t ∧ Post (s.part ch) (t.part ch) ch ∧
    (∀ ch', ch' ≠ ch → t.part ch' = s.part ch') ∧ Step s t
  trans : ∀ s t u, Step s t → Step t u → Step s u

variable {g : Channel → State → Progress} {Pre : State → Channel → Prop} {Post : State → State → Channel → Prop}
  {Step : State → State → Prop}

/-- The work on each channel of a list sees only the part it finds, which no other channel has changed. -/
theorem ChannelWork.eachChannel (h : ChannelWork g Pre Post Step) {l : List Channel} (hl : l.Nodup)
    (hpre : ∀ ch ∈ l, Pre (s.part ch) ch) :
    ∃ t, eachChannel g l s = .ok t ∧ (∀ ch ∈ l, Post (s.part ch) (t.part ch) ch) ∧
      (∀ ch, ch ∉ l → t.part ch = s.part ch) ∧ (l = [] ∧ t = s ∨ Step s t) := by
  induction l generalizing s with
  | nil => exact ⟨s, rfl, by simp, fun _ _ => rfl, .inl ⟨rfl, rfl⟩⟩
  | cons ch l ih =>
    obtain ⟨hch, hl⟩ := List.nodup_cons.1 hl
    obtain ⟨u, hu, hpost, hothers, hstep⟩ := h.run s ch (hpre ch (by simp))
    have hrest {c : Channel} (hc : c ∈ l) : u.part c = s.part c := hothers c fun heq => hch (heq ▸ hc)
    obtain ⟨t, ht, hposts, hkept, hend⟩ := ih hl fun c hc => hrest hc ▸ hpre c (by simp [hc])
    refine ⟨t, Progress.andThen_ok_iff.2 ⟨u, hu, ht⟩, fun c hc => ?_, fun c hc => ?_, .inr ?_⟩
    · rcases List.mem_cons.1 hc with rfl | hc
      · exact hkept c hch ▸ hpost
      · exact hrest hc ▸ hposts c hc
    · obtain ⟨hne, hnot⟩ := not_or.1 (mt List.mem_cons.2 hc)
      exact (hkept c hnot).trans (hothers c hne)
    · rcases hend with ⟨-, rfl⟩ | hend
      · exact hstep
      · exact h.trans s u t hstep hend

theorem sparseChannels_nodup (s : State) : (sparseChannels s).Nodup := by
  unfold sparseChannels
  split <;> decide

theorem sparseChannels_ne_nil (s : State) : sparseChannels s ≠ [] := by
  unfold sparseChannels
  split <;> exact List.cons_ne_nil _ _

/-- The work on the sparse channels of a state. -/
theorem ChannelWork.sparseChannels (h : ChannelWork g Pre Post Step) {c : State}
    (hpre : ∀ ch ∈ sparseChannels c, Pre (s.part ch) ch) :
    ∃ t, Machine.eachChannel g (Machine.sparseChannels c) s = .ok t ∧
      (∀ ch ∈ Machine.sparseChannels c, Post (s.part ch) (t.part ch) ch) ∧
      (∀ ch, ch ∉ Machine.sparseChannels c → t.part ch = s.part ch) ∧ Step s t := by
  obtain ⟨t, ht, hpost, hkept, hend⟩ := h.eachChannel (sparseChannels_nodup c) hpre
  exact ⟨t, ht, hpost, hkept, hend.resolve_left fun hnil => sparseChannels_ne_nil c hnil.1⟩

/-! ## Planes made of tiles -/

/-- Every element of a plane made of whole tiles is an element of a tile. -/
theorem LegalTiling.exists_tileIdx (hs : LegalTiling hw s) {a : Nat} (ha : a < s.nRows * s.nCols) :
    ∃ tr < s.tileRows, ∃ tc < s.tileCols, ∃ i j : Fin 8, tileIdx s.nCols tr tc i j = a := by
  obtain ⟨-, -, hrows, hcols, -⟩ := hs.counts
  obtain ⟨r, hr, c, hc, rfl⟩ := exists_plnIdx ha
  refine ⟨r / 8, by omega, c / 8, by omega, ⟨r % 8, Nat.mod_lt _ (by decide)⟩, ⟨c % 8, Nat.mod_lt _ (by decide)⟩, ?_⟩
  rw [tileIdx, plnIdx, Nat.div_add_mod, Nat.div_add_mod]

theorem Quantized.written (h : Quantized s ch) (hs : LegalTiling hw s) : QPlaneWritten s ch (s.nRows * s.nCols) := by
  intro a ha
  obtain ⟨tr, hr, tc, hc, i, j, rfl⟩ := hs.exists_tileIdx ha
  exact Option.isSome_iff_exists.2 ⟨_, h tr hr tc hc i j⟩

theorem Reconstructed.written (h : Reconstructed s ch) (hs : LegalTiling hw s) : PlaneWritten s ch (s.nRows * s.nCols) := by
  intro a ha
  obtain ⟨tr, hr, tc, hc, i, j, rfl⟩ := hs.exists_tileIdx ha
  exact Option.isSome_iff_exists.2 ⟨_, h tr hr tc hc i j⟩

end Sys2Proof.Machine
end

section
/-! ENCODE (R215): the converted planes, and each sparse channel quantized and packed. -/

namespace Sys2Proof.Machine

variable {s t u : State} {ch : Channel}

/-! ## The converted planes -/

/-- The state RGB2YCC answers on a legal, written input. -/
def converted (s : State) : State := storeYcc s (convertedPixels s)

/-- RGB2YCC writes the shape and the planes, and nothing else. -/
theorem exists_converted_eq (s : State) : ∃ p, converted s = { cropShape s with mem := { s.mem with pln := p } } :=
  ⟨_, storeYcc_eq s _⟩

theorem nRows_converted (s : State) : (converted s).nRows = cropRows s := nRows_cropShape s

theorem nCols_converted (s : State) : (converted s).nCols = cropCols s := nCols_cropShape s

/-- The planes of the cropped shape hold the converted samples. -/
theorem read_converted {r c : Nat} (hr : r < cropRows s) (hc : c < cropCols s) :
    Buf.read ((converted s).mem.pln.get ch) (plnIdx (cropCols s) r c) = some (convertedSample s ch r c) := by
  rw [converted, pln_storeYcc, read_convertWrites _ hr hc]

theorem planeWritten_converted : PlaneWritten (converted s) ch ((converted s).nRows * (converted s).nCols) := by
  rw [nRows_converted, nCols_converted]
  intro a ha
  obtain ⟨r, hr, c, hc, rfl⟩ := exists_plnIdx ha
  exact Option.isSome_iff_exists.2 ⟨_, read_converted hr hc⟩

/-- A tile of a converted plane is the block of its converted samples. -/
theorem blockAt_converted {tr tc : Nat} (hr : tr < cropRows s / 8) (hc : tc < cropCols s / 8) :
    blockAt ((converted s).mem.pln.get ch) (cropCols s) tr tc = convertedBlock s ch tr tc := by
  refine Block.ext_at fun i j => ?_
  have hread := read_converted (s := s) (ch := ch) (r := 8 * tr + i.val) (c := 8 * tc + j.val) (by omega) (by omega)
  rw [blockAt, convertedBlock, Block.at_ofFn, Block.at_ofFn, tileIdx, ← plnIdx, hread, Option.getD_some]

/-- The quotients of the converted planes fit when those of the converted blocks do. -/
theorem fits_converted (hfits : ∀ tr < cropRows s / 8, ∀ tc < cropCols s / 8,
    BlockFits s (forwardTile ch (convertedBlock s ch tr tc))) {m : Nat} (hm : m < (converted s).tiles) :
    BlockFits (converted s) (tileCoefficients (converted s) ch m) := by
  obtain ⟨hr, hc⟩ := div_lt_of_lt_tiles hm
  rw [State.tileRows, nRows_converted] at hr
  rw [State.tileCols, nCols_converted] at hr hc
  rw [tileCoefficients, State.tileCols, nCols_converted, blockAt_converted hr hc]
  exact hfits _ hr _ hc

/-! ## The work on a channel -/

/-- `t` with everything ENCODE may write taken from `s`. -/
def restoreEncode (s t : State) : State :=
  { t with
    status := s.status, rows := s.rows, cols := s.cols, tileR := s.tileR, tileC := s.tileC
    vallen := s.vallen, collen := s.collen, rptrlen := s.rptrlen, blk := s.blk, qblk := s.qblk
    mem := { t.mem with
      pln := s.mem.pln, qpl := s.mem.qpl, val := s.mem.val, coli := s.mem.coli, rptr := s.mem.rptr } }

theorem restoreEncode_complete (h : restoreEncode u t = u) (hu : restoreEncode s u = s) : restoreEncode s t.complete = s :=
  (congrArg (restoreEncode s) h).trans hu

theorem restoreEncode_converted (s : State) : restoreEncode s (converted s) = s := by
  obtain ⟨p, hp⟩ := exists_converted_eq s
  rw [hp]
  rfl

/-- The work on channels leaves shape, planes and what ENCODE never writes alone, the counter at the first tile and `LAST`
set. -/
structure ChannelsEncoded (s t : State) : Prop where
  frame : restoreEncode s t = s
  rows : t.rows = s.rows
  cols : t.cols = s.cols
  pln : t.mem.pln = s.mem.pln
  tileR : t.tileR = 0#32
  tileC : t.tileC = 0#32
  status : t.status = { s.status with last := true }

theorem ChannelsEncoded.trans (h : ChannelsEncoded s t) (h' : ChannelsEncoded t u) : ChannelsEncoded s u where
  frame := (congrArg (restoreEncode s) h'.frame).trans h.frame
  rows := h'.rows.trans h.rows
  cols := h'.cols.trans h.cols
  pln := h'.pln.trans h.pln
  tileR := h'.tileR
  tileC := h'.tileC
  status := by rw [h'.status, h.status]

/-- The state after the loop of FQPLANE has done every tile. -/
def fqDone (s : State) (ch : Channel) : State := (fqAfter s ch s.tiles).withCounter 0#32 0#32 true

theorem pack_of_written (hs : LegalShape hw s) (hq : QPlaneWritten s ch (s.nRows * s.nCols)) :
    pack hw ch s = .ok (packed s ch) := by
  refine pack_ok_iff.2 ⟨hs, _, ?_, rfl⟩
  refine listM_map fun r hr => listM_map fun c hc => qplAt_ok_iff.2 (hq.read ?_)
  exact plnIdx_lt (List.mem_range.1 hr) (List.mem_range.1 hc)

/-- The plane of a channel can be quantized: its tiles are whole and written, and every quotient fits. -/
structure Quantizable (s : State) (ch : Channel) : Prop where
  tiling : LegalTiling hw s
  params : LegalParams s
  written : PlaneWritten s ch (s.nRows * s.nCols)
  fits : ∀ m < s.tiles, BlockFits s (tileCoefficients s ch m)

theorem quantizable_part : Quantizable (s.part ch) ch ↔ Quantizable s ch := by
  have htiles (m : Nat) : BlockFits (s.part ch) (tileCoefficients (s.part ch) ch m) ↔
      BlockFits s (tileCoefficients s ch m) := by
    rw [tileCoefficients_part]
    rfl
  exact ⟨fun ⟨hs, hp, hwritten, hfits⟩ => ⟨hs, hp, planeWritten_part.1 hwritten, fun m hm => (htiles m).1 (hfits m hm)⟩,
    fun ⟨hs, hp, hwritten, hfits⟩ => ⟨hs, hp, planeWritten_part.2 hwritten, fun m hm => (htiles m).2 (hfits m hm)⟩⟩

theorem Quantizable.encodeChannel_ok (h : Quantizable s ch) :
    encodeChannel hw ch s = .ok (packed (fqDone s ch) ch) := by
  have hq : Quantized (fqDone s ch) ch := quantized_fqAfter h.tiling
  rw [encodeChannel, fqTiles_ok h.tiling h.params h.written h.fits, Progress.ok_andThen, runPrim_ok_iff]
  exact pack_of_written (s := fqDone s ch) h.tiling.1 (hq.written h.tiling)

/-- Neither FQPLANE nor PACK reaches another channel. -/
theorem part_encoded_of_ne {ch' : Channel} (hne : ch' ≠ ch) : (packed (fqDone s ch) ch).part ch' = s.part ch' := by
  simp only [State.part, packed, storeCsr, fqDone, fqAfter, State.withCounter, Chan3.get_set_ne _ _ hne]

/-- ENCODE's work on a channel: the plane is quantized and packed. -/
theorem channelWork_encodeChannel : ChannelWork (encodeChannel hw) Quantizable
    (fun _ t ch => Quantized t ch ∧ CsrOfPlane t ch) ChannelsEncoded where
  run s ch hpre := by
    have h := quantizable_part.1 hpre
    have hq : Quantized (fqDone s ch) ch := quantized_fqAfter h.tiling
    have hcsr := csrOfPlane_packed (s := fqDone s ch) h.tiling.1 (hq.written h.tiling)
    exact ⟨_, h.encodeChannel_ok, ⟨quantized_part.2 hq, csrOfPlane_part.2 hcsr⟩,
      fun _ hne => part_encoded_of_ne hne, ⟨rfl, rfl, rfl, rfl, rfl, rfl, rfl⟩⟩
  trans _ _ _ h h' := h.trans h'

/-! ## The whole command -/

/-- ENCODE as its stages. -/
theorem exec_encode_of_stages (hs : LegalInput hw s) (hp : LegalParams s) (hu : rgb2ycc hw s = .ok u)
    (ht : eachChannel (encodeChannel hw) (sparseChannels s) u = .ok t) : exec .encode s = .next t.complete := by
  refine finish_ok ?_
  rw [encodeAll, upfront_of_ok (inshape_ok_iff.2 hs), upfront_of_ok (qparam_ok_iff.2 hp), runPrim_ok_iff.2 hu,
    Progress.ok_andThen, ht]

theorem Converted.of_pln_eq (h : Converted s t) (hpln : u.mem.pln = t.mem.pln) : Converted s u := by
  unfold Converted at *
  rwa [hpln]

/-- Settles O53: the work on a sparse channel sees only its converted plane, and leaves every plane as it was. -/
theorem encodeCompletes : Obligations.EncodeCompletes := by
  intro s hs hwritten hp hfits
  have hinput := hs
  obtain ⟨-, hheight, -, hwidth, -⟩ := hinput
  obtain ⟨t, hrun, hsparse, hkept, h⟩ := channelWork_encodeChannel.sparseChannels (c := s) (s := converted s)
    fun ch hch => quantizable_part.2
      ⟨hs.tilingOf_cropShape.1, hp, planeWritten_converted, fun _ hm => fits_converted (hfits ch hch) hm⟩
  refine ⟨_, exec_encode_of_stages hs hp (rgb2ycc_of_written hs hwritten) hrun, ?_, ?_, ?_, h.tileR, h.tileC,
    (converted_storeYcc s).of_pln_eq h.pln, fun ch hch => ⟨?_, ?_⟩, fun ch hch => ?_, ?_⟩
  · exact congrArg (fun st : Status => { st with busy := false, done := true }) h.status
  · exact (congrArg BitVec.toInt h.rows).trans (toInt_crop (by omega) rfl)
  · exact (congrArg BitVec.toInt h.cols).trans (toInt_crop (by omega) rfl)
  · exact quantized_part.1 (hsparse ch hch).1
  · exact csrOfPlane_part.1 (hsparse ch hch).2
  · obtain ⟨-, hkept⟩ := get_eq_of_part_eq (hkept ch hch)
    obtain ⟨p, hp⟩ := exists_converted_eq s
    rw [hp] at hkept
    exact hkept
  · exact restoreEncode_complete h.frame (restoreEncode_converted s)

end Sys2Proof.Machine
end

section
/-! DECODE (R218): the sparse channels unpacked, their planes rebuilt, and all planes displayed. -/

namespace Sys2Proof.Machine

variable {s t u : State} {ch : Channel} {start column : Nat → Nat}

/-! ## UNPACK of the sparse channels -/

/-- The writes of a row of a CSR with written values (R175). -/
theorem CsrShape.scatterRow_ok (h : CsrShape s ch start column) (hs : LegalShape hw s)
    (hval : ValuesWritten s ch (start s.nRows)) {r : Nat} (hr : r < s.nRows) :
    scatterRow s ch r = .ok (rowWrites s ch start column r) := by
  refine scatterRow_ok_iff.2 ⟨_, _, h.rptr r hr.le, h.rptr (r + 1) hr, ?_⟩
  rw [toNat_toInt_ofNat (h.start_lt hs hr.le), toNat_toInt_ofNat (h.start_lt hs (r := r + 1) hr)]
  refine listM_map fun k hk => ?_
  have hk : k < start s.nRows := h.lt_of_mem_row hr (mem_positions.1 hk).2
  obtain ⟨v, hv⟩ := Option.isSome_iff_exists.1 (hval k hk)
  refine scatterAt_ok_iff.2 ⟨_, v, h.coli k hk, hv, ?_⟩
  rw [toNat_toInt_ofNat (h.column_small hs hk), entryValue_eq hv]

theorem CsrShape.unpack_ok (h : CsrShape s ch start column) (hs : LegalShape hw s)
    (hval : ValuesWritten s ch (start s.nRows)) : unpack hw ch s = .ok (unpacked s ch start column) :=
  unpack_ok_iff.2 ⟨hs, h.csrCheck hs, _,
    listM_map fun _ hr => h.scatterRow_ok hs hval (List.mem_range.1 hr), rfl⟩

/-- UNPACK reaches no other channel. -/
theorem part_putQpl_of_ne (l : List (Nat × I16)) {ch' : Channel} (hne : ch' ≠ ch) :
    (s.putQpl ch l).part ch' = s.part ch' := by
  rw [State.part, State.putQpl_mem, Chan3.get_set_ne _ _ hne]
  rfl

/-- The state with other quantized planes. -/
def State.withQpl (q : Chan3 (Buf 16)) (s : State) : State := { s with mem := { s.mem with qpl := q } }

/-- UNPACK as work on a channel: a ready CSR becomes its dense form. -/
theorem channelWork_unpack : ChannelWork (fun ch => runPrim (unpack hw ch))
    (fun s ch => LegalShape hw s ∧ CsrReady s ch)
    (fun s t ch => DenseOfCsr s t ch ∧ QPlaneWritten t ch (s.nRows * s.nCols))
    (fun s t => ∃ q, t = s.withQpl q) where
  run s ch := by
    rintro ⟨hs, hready⟩
    have hs : LegalShape hw s := hs
    obtain ⟨start, column, h, hval⟩ := (csrReady_part.1 hready).exists_shape hs
    exact ⟨_, runPrim_ok_iff.2 (h.unpack_ok hs hval),
      ⟨denseOfCsr_part.2 (h.denseOfCsr hs), qplaneWritten_part.2 h.unpacked_written⟩,
      fun ch' hne => part_putQpl_of_ne _ hne, ⟨_, rfl⟩⟩
  trans := by
    rintro s _ _ ⟨q, rfl⟩ ⟨q', rfl⟩
    exact ⟨q', rfl⟩

/-! ## DQIPLANE of the sparse channels -/

/-- The state with other planes and block registers, the counter at the first tile and `LAST` set. -/
def State.withRebuilt (p : Chan3 (Buf 64)) (b : Block F64) (n : Block I16) (s : State) : State :=
  { s.withCounter 0#32 0#32 true with blk := b, qblk := n, mem := { s.mem with pln := p } }

/-- DQIPLANE reaches no other channel. -/
theorem part_dqiAfter_of_ne {n : Nat} {r c : Word32} {last : Bool} {ch' : Channel} (hne : ch' ≠ ch) :
    ((dqiAfter s ch n).withCounter r c last).part ch' = s.part ch' := by
  rw [State.part, State.withCounter, dqiAfter, Chan3.get_set_ne _ _ hne]
  rfl

/-- The loop of DQIPLANE as work on a channel: a written quantized plane becomes its reconstruction. -/
theorem channelWork_dqiTiles : ChannelWork (dqiTiles hw)
    (fun s ch => LegalTiling hw s ∧ QPlaneWritten s ch (s.nRows * s.nCols))
    (fun s t ch => Reconstructed t ch ∧ t.mem.qpl.get ch = s.mem.qpl.get ch)
    (fun s t => ∃ p b n, t = s.withRebuilt p b n) where
  run s ch := by
    rintro ⟨hs, hwritten⟩
    have hs : LegalTiling hw s := hs
    have hwritten : QPlaneWritten s ch (s.nRows * s.nCols) := qplaneWritten_part.1 hwritten
    exact ⟨_, dqiTiles_ok hs hwritten, ⟨reconstructed_part.2 (reconstructed_dqiAfter hs), rfl⟩,
      fun ch' hne => part_dqiAfter_of_ne hne, ⟨_, _, _, rfl⟩⟩
  trans := by
    rintro s _ _ ⟨p, b, q, rfl⟩ ⟨p', b', q', rfl⟩
    exact ⟨p', b', q', rfl⟩

/-! ## The whole command -/

theorem DenseOfCsr.of_qpl_eq (h : DenseOfCsr s t ch) (hq : u.mem.qpl.get ch = t.mem.qpl.get ch) : DenseOfCsr s u ch := by
  unfold DenseOfCsr at *
  rwa [hq]

/-- The planes of a state have been written if the listed ones are reconstructions and the others written. -/
theorem planeWritten_of_reconstructed {l : List Channel} (hs : LegalTiling hw t)
    (hrebuilt : ∀ ch ∈ l, Reconstructed (t.part ch) ch)
    (hwritten : ∀ ch, ch ∉ l → PlaneWritten (t.part ch) ch (t.nRows * t.nCols)) (ch : Channel) :
    PlaneWritten t ch (t.nRows * t.nCols) := by
  by_cases hch : ch ∈ l
  · exact (reconstructed_part.1 (hrebuilt ch hch)).written hs
  · exact planeWritten_part.1 (hwritten ch hch)

/-- DECODE as its three stages. -/
theorem exec_decode_of_stages {w : State} (hs : LegalTiling hw s)
    (hu : eachChannel (fun ch => runPrim (unpack hw ch)) (sparseChannels s) s = .ok u)
    (ht : eachChannel (dqiTiles hw) (sparseChannels s) u = .ok t) (hcolour : ycc2rgb hw t = .ok w) :
    exec .decode s = .next w.complete := by
  refine finish_ok ?_
  rw [decodeAll, upfront_of_ok (pshape_true_ok_iff.2 hs), hu, Progress.ok_andThen, ht, Progress.ok_andThen,
    runPrim_ok_iff.2 hcolour]

/-- Settles O54: UNPACK and DQIPLANE each work on one channel and see no other, so the planes YCC2RGB displays are the
reconstructions of the dense forms, and for a channel that is not sparse the plane that was there. -/
theorem decodeCompletes : Obligations.DecodeCompletes := by
  intro s hs hready hwritten
  obtain ⟨_, hunpack, hdense, hkept, q, rfl⟩ := channelWork_unpack.sparseChannels (c := s) (s := s)
    fun ch hch => ⟨hs.1, csrReady_part.2 (hready ch hch)⟩
  obtain ⟨t, hdqi, hrebuilt, hkept', p, b, n, ht⟩ := channelWork_dqiTiles.sparseChannels (c := s) (s := s.withQpl q)
    fun ch hch => ⟨hs, (hdense ch hch).2⟩
  have hpart (ch : Channel) (hch : ch ∉ sparseChannels s) : t.part ch = s.part ch := (hkept' ch hch).trans (hkept ch hch)
  have hst : LegalTiling hw t := by
    rw [ht]
    exact hs
  have hplanes := planeWritten_of_reconstructed hst (fun ch hch => (hrebuilt ch hch).1) fun ch hch => by
    rw [hpart ch hch, planeWritten_part, ht]
    exact hwritten ch hch
  subst ht
  refine ⟨_, exec_decode_of_stages hs hunpack hdqi (ycc2rgb_of_written hst.1 hplanes), rfl, rfl, rfl,
    fun ch hch => ⟨?_, ?_⟩, fun ch hch => ?_, displayed_putOpix _, rfl⟩
  · exact denseOfCsr_part.1 ((hdense ch hch).1.of_qpl_eq (hrebuilt ch hch).2)
  · exact reconstructed_part.1 (hrebuilt ch hch).1
  · obtain ⟨hpln, hqpl, -⟩ := get_eq_of_part_eq (hpart ch hch)
    exact ⟨hqpl, hpln⟩

end Sys2Proof.Machine
end

section
/-! DECODE after ENCODE (R218): whatever state ENCODE succeeds from, it leaves whole tiles, written planes and a ready CSR in
each sparse channel. -/

namespace Sys2Proof.Machine

variable {s t u : State} {ch : Channel} {d l : List Channel}

/-! ## What success says of the elements that were read -/

/-- Every entry of a loop that ends has a result. -/
theorem exists_of_listM_ok {ε α β : Type} {f : α → Except ε β} {as : List α} {bs : List β} (h : listM f as = .ok bs)
    {a : α} (ha : a ∈ as) : ∃ b, f a = .ok b := by
  induction as generalizing bs with
  | nil => cases ha
  | cons a' as ih =>
    obtain ⟨b, bs, hb, hbs, rfl⟩ := listM_cons_ok_iff.1 h
    rcases List.mem_cons.1 ha with rfl | ha
    · exact ⟨b, hb⟩
    · exact ih hbs ha

/-- RGB2YCC succeeds on written inputs only. -/
theorem inputWritten_of_rgb2ycc (h : rgb2ycc hw s = .ok t) : InputWritten s := by
  obtain ⟨-, px, hpx, -⟩ := rgb2ycc_ok_iff.1 h
  intro r hr c hc k hk
  obtain ⟨x, hx⟩ := exists_of_listM_ok hpx (a := (r, c)) (mem_grid.2 ⟨hr, hc⟩)
  obtain ⟨v, hv, -⟩ := yccEntry_ok_iff.1 hx
  obtain ⟨red, green, blue, hred, hgreen, hblue, -⟩ := yccAt_ok_iff.1 hv
  interval_cases k
  · exact Option.isSome_iff_exists.2 ⟨red, hred⟩
  · exact Option.isSome_iff_exists.2 ⟨green, hgreen⟩
  · exact Option.isSome_iff_exists.2 ⟨blue, hblue⟩

/-- What RGB2YCC answers is the conversion of its input. -/
theorem eq_converted_of_rgb2ycc (h : rgb2ycc hw s = .ok t) : t = converted s := by
  have hinput := (rgb2ycc_ok_iff.1 h).1
  rw [rgb2ycc_of_written hinput (inputWritten_of_rgb2ycc h)] at h
  exact (Except.ok.inj h).symm

/-- PACK succeeds on written quantized planes only. -/
theorem qplaneWritten_of_pack (h : pack hw ch s = .ok t) : QPlaneWritten s ch (s.nRows * s.nCols) := by
  obtain ⟨-, rows, hrows, -⟩ := pack_ok_iff.1 h
  intro a ha
  obtain ⟨r, hr, c, hc, rfl⟩ := exists_plnIdx ha
  obtain ⟨row, hrow⟩ := exists_of_listM_ok hrows (List.mem_range.2 hr)
  obtain ⟨v, hv⟩ := exists_of_listM_ok hrow (List.mem_range.2 hc)
  exact Option.isSome_iff_exists.2 ⟨v, qplAt_ok_iff.1 hv⟩

theorem eq_packed_of_pack (h : pack hw ch s = .ok t) : t = packed s ch := by
  have hshape := (pack_ok_iff.1 h).1
  rw [pack_of_written hshape (qplaneWritten_of_pack h)] at h
  exact (Except.ok.inj h).symm

/-! ## What ENCODE leaves -/

/-- The CSR that PACK stores is ready for UNPACK. -/
theorem csrReady_packed (hs : LegalShape hw s) : CsrReady (packed s ch) ch := by
  have h := csrShape_packedOver (ch := ch) hs (packed s ch).mem.qpl
  have hready : CsrReady (packedOver s ch (packed s ch).mem.qpl) ch := by
    refine ⟨h.csrCheck hs, fun k hk => ?_⟩
    rw [h.vallen_toInt hs, Int.toNat_natCast] at hk
    obtain ⟨a, ha, hv, rfl⟩ := exists_of_lt_rank hk
    exact Option.isSome_iff_exists.2 ⟨_, read_val_packed ha hv⟩
  exact hready

/-- What DECODE needs of a state whose sparse channels are those of `d` (R218). -/
structure Decodable (d : List Channel) (s : State) : Prop where
  tiling : LegalTiling hw s
  written : ∀ ch, PlaneWritten s ch (s.nRows * s.nCols)
  csr : ∀ ch ∈ d, CsrReady s ch

/-- No primitive of FQPLANE reaches a plane or a CSR. -/
theorem keeps_decodable_fqPrims : ∀ p ∈ fqPrims hw ch, Keeps (Decodable d) p := by
  intro p hp s t hs ht
  simp only [fqPrims, List.mem_cons, List.not_mem_nil, or_false] at hp
  rcases hp with rfl | rfl | rfl | rfl | rfl | rfl | rfl
  · obtain rfl := trst_ok_iff.1 ht
    exact ⟨hs.tiling, hs.written, hs.csr⟩
  · obtain ⟨-, b, -, rfl⟩ := ldblk_ok_iff.1 ht
    exact ⟨hs.tiling, hs.written, hs.csr⟩
  · obtain rfl := center_ok_iff.1 ht
    exact ⟨hs.tiling, hs.written, hs.csr⟩
  · obtain rfl := fdct8_ok_iff.1 ht
    exact ⟨hs.tiling, hs.written, hs.csr⟩
  · obtain ⟨-, q, -, rfl⟩ := quant_ok_iff.1 ht
    exact ⟨hs.tiling, hs.written, hs.csr⟩
  · obtain ⟨-, rfl⟩ := stqblk_ok_iff.1 ht
    exact ⟨hs.tiling, hs.written, hs.csr⟩
  · obtain ⟨-, rfl⟩ := tnext_ok_iff.1 ht
    obtain ⟨r, c, last, hnext⟩ := exists_nextTile_eq s
    rw [hnext]
    exact ⟨hs.tiling, hs.written, hs.csr⟩

/-- PACK reaches no other channel. -/
theorem part_packed_of_ne {ch' : Channel} (hne : ch' ≠ ch) : (packed s ch).part ch' = s.part ch' := by
  simp only [State.part, packed, storeCsr, Chan3.get_set_ne _ _ hne]

/-- PACK makes one more channel ready. -/
theorem Decodable.pack (h : Decodable d s) (ht : pack hw ch s = .ok t) : Decodable (ch :: d) t := by
  obtain rfl := eq_packed_of_pack ht
  refine ⟨h.tiling, h.written, fun ch' hch' => ?_⟩
  by_cases hne : ch' = ch
  · subst hne
    exact csrReady_packed h.tiling.1
  · rw [← csrReady_part, part_packed_of_ne hne, csrReady_part]
    exact h.csr ch' ((List.mem_cons.1 hch').resolve_left hne)

/-- ENCODE's work on channels makes each of them ready. -/
theorem Decodable.encodeChannels (h : Decodable d s) (ht : eachChannel (encodeChannel hw) l s = .ok t) :
    Decodable (l.reverse ++ d) t := by
  induction l generalizing s d with
  | nil =>
    cases ht
    exact h
  | cons ch l ih =>
    obtain ⟨u, hu, ht⟩ := Progress.andThen_ok_iff.1 ht
    obtain ⟨v, hv, hpack⟩ := Progress.andThen_ok_iff.1 hu
    have hfq : Decodable d v := (keeps_fqTiles keeps_decodable_fqPrims h).of_ok hv
    rw [List.reverse_cons, List.append_assoc]
    exact ih (hfq.pack (runPrim_ok_iff.1 hpack)) ht

theorem decodable_converted (hs : LegalInput hw s) : Decodable [] (converted s) :=
  ⟨hs.tilingOf_cropShape.1, fun _ => planeWritten_converted, by simp⟩

/-- A command that ends without a fault has run through. -/
theorem ok_of_finish {p : Progress} (h : finish p = .next t) (herr : t.status.err = false) :
    ∃ u, p = .ok u ∧ t = u.complete := by
  rcases finish_next_iff.1 h with hok | ⟨u, f, -, rfl⟩
  · exact hok
  · cases herr

/-- ENCODE that ends without a fault leaves what DECODE needs. -/
theorem decodable_of_encode (h : exec .encode s = .next t) (herr : t.status.err = false) : Decodable (sparseChannels s) t := by
  obtain ⟨u, hu, rfl⟩ := ok_of_finish h herr
  obtain ⟨hinput, hu⟩ := upfront_ok_iff.1 hu
  obtain ⟨-, hu⟩ := upfront_ok_iff.1 hu
  obtain ⟨v, hv, hu⟩ := Progress.andThen_ok_iff.1 hu
  obtain rfl := eq_converted_of_rgb2ycc (runPrim_ok_iff.1 hv)
  have hend := (decodable_converted (inshape_ok_iff.1 hinput)).encodeChannels hu
  exact ⟨hend.tiling, hend.written, fun ch hch => hend.csr ch (by simpa using hch)⟩

/-- ENCODE does not write `CTRL` (R41). -/
theorem ctrl_of_encode (h : exec .encode s = .next t) : t.ctrl = s.ctrl := by
  obtain ⟨-, hregs, -⟩ := (exec_endsWithin (by simp) (by simp) h).frameKept
  exact hregs .ctrl (ctrl_notMem_regsOf (by simp)) (by simp) (by simp)

theorem sparseChannels_of_encode (h : exec .encode s = .next t) : sparseChannels t = sparseChannels s := by
  rw [sparseChannels, State.chroma, ctrl_of_encode h, ← State.chroma, ← sparseChannels]

/-- Settles O55: what ENCODE leaves meets the conditions under which DECODE completes. -/
theorem decodeAfterEncodeSucceeds : Obligations.DecodeAfterEncodeSucceeds := by
  intro s t h herr
  obtain ⟨htiling, hwritten, hcsr⟩ := decodable_of_encode h herr
  rw [← sparseChannels_of_encode h] at hcsr
  obtain ⟨u, hu, hstatus, -, -, -, -, hdisplayed, hframe⟩ := decodeCompletes t htiling hcsr fun ch _ => hwritten ch
  have hrows := congrArg State.rows hframe
  have hcols := congrArg State.cols hframe
  exact ⟨u, hu, hstatus, hrows, hcols, hdisplayed⟩

end Sys2Proof.Machine
end

section
/-! The encode parameters: DECODE reads none of them (R218, R225). -/

namespace Sys2Proof.Machine

/-! ## DECODE under a change of one state -/

/-- DECODE (R218) from a state in which its upfront check and the choice of channels do not see the change. -/
theorem decodeAll_map {f : State → State} {cfg : Config} {s : State} (hlast : ∀ s, (f s).status.last = s.status.last)
    (htiles : ∀ s, (f s).tiles = s.tiles) (hshape : pshape cfg true (f s) = pshape cfg true s)
    (hsparse : sparseChannels (f s) = sparseChannels s) (hunpack : ∀ ch, Commutes f (unpack cfg ch))
    (hdqi : ∀ ch, ∀ p ∈ dqiPrims cfg ch, Commutes f p) (hcolour : Commutes f (ycc2rgb cfg)) :
    decodeAll cfg (f s) = (decodeAll cfg s).map f := by
  refine upfront_map hshape ?_
  rw [hsparse]
  exact andThen_map (andThen_map (commutesSeq_eachChannel (fun ch => (hunpack ch).runPrim) s)
    (commutesSeq_eachChannel fun ch => commutesSeq_dqiTiles hlast htiles (hdqi ch))) hcolour.runPrim

/-! ## The encode parameters -/

/-- Values for the registers that only ENCODE and its primitives read, and for `CTRL`. -/
structure EncodeParams where
  height : Word32
  width : Word32
  channels : Word32
  threshold : Word32
  bandCutoff : Word32
  ctrl : Word32

/-- The state with other encode parameters. -/
def State.withParams (q : EncodeParams) (s : State) : State :=
  { s with
    height := q.height
    width := q.width
    channels := q.channels
    threshold := q.threshold
    bandCutoff := q.bandCutoff
    ctrl := q.ctrl }

variable {cfg : Config} {ch : Channel} {s : State} {q : EncodeParams}

/-- TNEXT moves the counter by the shape and the counter alone (R204). -/
theorem nextTile_withParams : nextTile (s.withParams q) = (nextTile s).withParams q := by
  simp only [nextTile, apply_ite (State.withParams q)]
  rfl

theorem commutes_withParams_dqiPrims : ∀ p ∈ dqiPrims cfg ch, Commutes (.withParams q) p := by
  simp only [dqiPrims, List.forall_mem_cons, List.not_mem_nil, false_implies, implies_true, and_true]
  have htrst : Commutes (.withParams q) trst := fun _ => rfl
  have hldqblk : Commutes (.withParams q) (ldqblk cfg ch) := fun _ => bind_map rfl fun _ => bind_map rfl fun _ => rfl
  have hdequant : Commutes (.withParams q) (dequant cfg) := fun _ => rfl
  have hidct8 : Commutes (.withParams q) (idct8 cfg) := fun _ => rfl
  have huncenter : Commutes (.withParams q) (uncenter cfg) := fun _ => rfl
  have hstblk : Commutes (.withParams q) (stblk cfg ch) := fun _ => bind_map rfl fun _ => rfl
  have htnext : Commutes (.withParams q) (tnext cfg) := fun _ =>
    bind_map rfl fun _ => congrArg Except.ok nextTile_withParams
  exact ⟨htrst, hldqblk, hdequant, hidct8, huncenter, hstblk, htnext⟩

theorem commutes_withParams_unpack : Commutes (.withParams q) (unpack cfg ch) := fun _ =>
  bind_map rfl fun _ => bind_map rfl fun _ => bind_map rfl fun _ => rfl

theorem commutes_withParams_ycc2rgb : Commutes (.withParams q) (ycc2rgb cfg) := fun _ =>
  bind_map rfl fun _ => bind_map rfl fun _ => rfl

/-- Of `CTRL` only `CHROMA` chooses the sparse channels (R215, R218). -/
theorem sparseChannels_withParams (h : q.ctrl.getLsbD 2 = s.ctrl.getLsbD 2) :
    sparseChannels (s.withParams q) = sparseChannels s := by
  have hchroma : (s.withParams q).chroma = s.chroma := h
  rw [sparseChannels, hchroma, sparseChannels]

theorem exec_decode_withParams (h : q.ctrl.getLsbD 2 = s.ctrl.getLsbD 2) :
    exec .decode (s.withParams q) = mapNext (.withParams q) (exec .decode s) :=
  (congrArg finish (decodeAll_map (f := .withParams q) (fun _ => rfl) (fun _ => rfl) rfl (sparseChannels_withParams h)
    (fun _ => commutes_withParams_unpack) (fun _ => commutes_withParams_dqiPrims) commutes_withParams_ycc2rgb)).trans
    (finish_map (f := .withParams q) (fun _ => rfl) (fun _ _ => rfl) _)

/-- Settles O57: a change of the encode parameters that keeps `CHROMA` commutes with every primitive of DECODE. -/
theorem decodeIgnoresEncodeParameters : Obligations.DecodeIgnoresEncodeParameters :=
  fun _ h w n t k ctrl hchroma => exec_decode_withParams (q := ⟨h, w, n, t, k, ctrl⟩) hchroma

end Sys2Proof.Machine
end

section
/-! The system commands without a check: NOP (R230) and CLRERR (R231). -/

namespace Sys2Proof.Machine

theorem exec_nop (s : State) : exec .nop s = .next s.complete :=
  finish_ok (runPrim_ok_iff.2 (nop_ok_iff.2 rfl))

theorem exec_clrerr (s : State) : exec .clrerr s = .next (clearFault s).complete :=
  finish_ok (runPrim_ok_iff.2 (clrerr_ok_iff.2 rfl))

/-- Settles O13: neither command checks anything; what completes is the state itself, or the state without its fault. -/
theorem nopAndClrerrComplete : Obligations.NopAndClrerrComplete := fun s => ⟨exec_nop s, exec_clrerr s⟩

end Sys2Proof.Machine
end

section
/-! SRST (R232, R271), the code of every cause (R241), and the fault of a primitive (R244 a). -/

namespace Sys2Proof.Machine

variable {s t u : State} {i : Instr}

/-! ## SRST -/

/-- The two resets leave the same registers (R270, R271). -/
theorem readReg_softReset (s : State) (off : Nat) : readReg (softReset s) off = readReg (hardReset s) off := rfl

theorem irq_softReset (s : State) : (softReset s).irq = (hardReset s).irq := rfl

/-- Settles O14: the registers are those after a hardware reset, and everything else is kept. -/
theorem srstCompletes : Obligations.SrstCompletes := fun s =>
  ⟨softReset s, rfl, fun off => (readReg_softReset s off).trans (readReg_hardReset s off), rfl,
    (irq_softReset s).trans (irq_hardReset s), rfl, rfl, rfl, rfl, rfl, rfl⟩

/-! ## Fault codes -/

/-- Settles O15: each code is that of its class and sub-code. -/
theorem faultCodes : Obligations.FaultCodes := by
  unfold Obligations.FaultCodes
  decide

/-! ## A command as a sequence of primitives that can stop -/

/-- How the work of a command ends (R210, R244). SRST has none; NOP stands for it. -/
def progressOf : Instr → State → Progress
  | .fqplane ch => fqplane hw ch
  | .dqiplane ch => dqiplane hw ch
  | .encode => encodeAll hw
  | .decode => decodeAll hw
  | i => runPrim (primOf i)

theorem exec_eq_finish_progressOf (hsrst : i ≠ .srst) (s : State) : exec i s = finish (progressOf i s) := by
  cases i with
  | srst => exact absurd rfl hsrst
  | _ => rfl

theorem progressOf_of_primitive (hi : isComposite i = false) : progressOf i = runPrim (primOf i) := by
  cases i with
  | fqplane ch => cases hi
  | dqiplane ch => cases hi
  | encode => cases hi
  | decode => cases hi
  | _ => rfl

/-- Every primitive but CLRERR has a frame. -/
theorem exists_frame_primOf (hclrerr : i ≠ .clrerr) : ∃ W R, Frame W R (primOf i) := by
  cases i with
  | clrerr => exact absurd rfl hclrerr
  | rgb2ycc => exact ⟨_, _, frame_rgb2ycc⟩
  | ycc2rgb => exact ⟨_, _, frame_ycc2rgb⟩
  | fdct8 => exact ⟨_, _, frame_fdct8⟩
  | idct8 => exact ⟨_, _, frame_idct8⟩
  | quant => exact ⟨_, _, frame_quant⟩
  | dequant => exact ⟨_, _, frame_dequant⟩
  | pack ch => exact ⟨_, _, frame_pack⟩
  | unpack ch => exact ⟨_, _, frame_unpack⟩
  | ldblk ch => exact ⟨_, _, frame_ldblk⟩
  | stblk ch => exact ⟨_, _, frame_stblk⟩
  | ldqblk ch => exact ⟨_, _, frame_ldqblk⟩
  | stqblk ch => exact ⟨_, _, frame_stqblk⟩
  | center => exact ⟨_, _, frame_center⟩
  | uncenter => exact ⟨_, _, frame_uncenter⟩
  | trst => exact ⟨_, _, frame_trst⟩
  | tnext => exact ⟨_, _, frame_tnext⟩
  | _ => exact ⟨_, _, frame_nop⟩

theorem err_of_primOf (herr : s.status.err = false) (h : primOf i s = .ok u) : u.status.err = false := by
  by_cases hclrerr : i = .clrerr
  · subst hclrerr
    rw [clrerr_ok_iff.1 h, clearFault_status]
  · obtain ⟨W, R, hframe⟩ := exists_frame_primOf hclrerr
    have hsince : Since W R s u := hframe s u h
    exact hsince.flags.2.2.trans herr

/-- A command that runs through has raised no fault. -/
theorem err_of_progressOf (herr : s.status.err = false) (h : progressOf i s = .ok u) : u.status.err = false := by
  cases hi : isComposite i with
  | false =>
    rw [progressOf_of_primitive hi] at h
    exact err_of_primOf herr (runPrim_ok_iff.1 h)
  | true =>
    cases i with
    | fqplane ch => exact ((fqplane_since hw ch s).of_ok h).flags.2.2.trans herr
    | dqiplane ch => exact ((dqiplane_since hw ch s).of_ok h).flags.2.2.trans herr
    | encode => exact ((encodeAll_since hw s).of_ok h).flags.2.2.trans herr
    | decode => exact ((decodeAll_since hw s).of_ok h).flags.2.2.trans herr
    | _ => cases hi

/-- `ERR` newly set at the end of a command is the fault its work stopped in (R243). -/
theorem exec_newly_faulted (herr : s.status.err = false) (h : exec i s = .next t) (hterr : t.status.err = true) :
    ∃ u f, progressOf i s = .raised u f ∧ t = takeFault f u := by
  by_cases hsrst : i = .srst
  · subst hsrst
    rw [exec_srst_next h] at hterr
    cases hterr
  rw [exec_eq_finish_progressOf hsrst] at h
  rcases finish_next_iff.1 h with ⟨u, hu, rfl⟩ | hraised
  · have huerr : u.status.err = true := hterr
    rw [err_of_progressOf herr hu] at huerr
    cases huerr
  · exact hraised

/-- Settles O16: a primitive that stops in a fault stops in the state it began in. -/
theorem primitivesFaultPrecisely : Obligations.PrimitivesFaultPrecisely := by
  intro i s t hi herr h hterr
  obtain ⟨u, f, hraised, rfl⟩ := exec_newly_faulted herr h hterr
  rw [progressOf_of_primitive hi] at hraised
  obtain ⟨-, rfl⟩ := runPrim_raised_iff.1 hraised
  rfl

end Sys2Proof.Machine
end

section
/-! The faults each command can raise (R248). Inside a composite no tile check fails, because the counter stands at a tile of a
legal tiling in every round (R205); what is left are the causes of its upfront checks and of its other primitives. -/

namespace Sys2Proof.Machine

variable {s t u : State} {i : Instr} {f : Raised} {C : List Cause} {ch : Channel} {p : Prim} {n : Nat}
  {I : State → Prop} {k : State → Progress}

/-! ## Primitives -/

theorem only_primOf (hi : isComposite i = false) (s : State) : Only (causesOf i) (primOf i s) := by
  cases i with
  | fqplane ch => cases hi
  | dqiplane ch => cases hi
  | encode => cases hi
  | decode => cases hi
  | rgb2ycc => exact only_rgb2ycc
  | ycc2rgb => exact only_ycc2rgb
  | quant => exact only_quant
  | pack ch => exact only_pack
  | unpack ch => exact only_unpack
  | ldblk ch => exact only_ldblk
  | stblk ch => exact only_stblk
  | ldqblk ch => exact only_ldqblk
  | stqblk ch => exact only_stqblk
  | tnext => exact only_tnext
  | _ => exact only_ok _

/-! ## Primitives at a tile of the grid -/

section
variable (ht : LegalTile hw s)
include ht

theorem LegalTile.only_tileCheck : Only C (tileCheck hw s) := by
  rw [tileCheck_ok_iff.2 ht]
  exact only_ok _

theorem LegalTile.only_ldblk : Only C (ldblk hw ch s) :=
  only_bind ht.only_tileCheck fun _ => only_bind (only_blockM fun _ _ => only_need) fun _ => only_ok _

theorem LegalTile.only_ldqblk : Only C (ldqblk hw ch s) :=
  only_bind ht.only_tileCheck fun _ => only_bind (only_blockM fun _ _ => only_need) fun _ => only_ok _

theorem LegalTile.only_stblk : Only C (stblk hw ch s) := only_bind ht.only_tileCheck fun _ => only_ok _

theorem LegalTile.only_stqblk : Only C (stqblk hw ch s) := only_bind ht.only_tileCheck fun _ => only_ok _

theorem LegalTile.only_tnext : Only C (tnext hw s) := only_bind ht.only_tileCheck fun _ => only_ok _

/-- At a tile FQPLANE's work on it raises the faults of QUANT only (R211). -/
theorem LegalTile.only_fqWorkPrims (hp : p ∈ fqWorkPrims ch) : Only (causesOf .quant) (p s) := by
  have hp : p ∈ [ldblk hw ch, center hw, fdct8 hw, quant hw, stqblk hw ch] := by
    cases ch <;> simp [fqWorkPrims, lumaOnly] at hp ⊢ <;> tauto
  simp only [List.mem_cons, List.not_mem_nil, or_false] at hp
  rcases hp with rfl | rfl | rfl | rfl | rfl
  exacts [ht.only_ldblk, only_ok _, only_ok _, only_quant, ht.only_stqblk]

/-- At a tile DQIPLANE's work on it raises no fault (R213). -/
theorem LegalTile.only_dqiWorkPrims (hp : p ∈ dqiWorkPrims ch) : Only C (p s) := by
  have hp : p ∈ [ldqblk hw ch, dequant hw, idct8 hw, uncenter hw, stblk hw ch] := by
    cases ch <;> simp [dqiWorkPrims, lumaOnly] at hp ⊢ <;> tauto
  simp only [List.mem_cons, List.not_mem_nil, or_false] at hp
  rcases hp with rfl | rfl | rfl | rfl | rfl
  exacts [ht.only_ldqblk, only_ok _, only_ok _, only_ok _, ht.only_stblk]

end

/-! ## Sequences -/

/-- From a state with the property `I` the sequence keeps it, or stops in a fault whose cause is listed. -/
def RaisesOnly (I : State → Prop) (C : List Cause) (k : State → Progress) : Prop :=
  ∀ s, I s → (k s).Ends I (fun _ f => f.cause ∈ C) True

theorem runPrim_ends_only {R : State → Prop} (hok : ∀ t, p s = .ok t → R t) (hC : Only C (p s)) :
    (runPrim p s).Ends R (fun _ f => f.cause ∈ C) True :=
  runPrim_ends hok hC fun _ _ => trivial

theorem upfront_ends_only {c : State → Except Stop Unit} {R : State → Prop} (hC : Only C (c s))
    (hok : c s = .ok () → (k s).Ends R (fun _ f => f.cause ∈ C) True) :
    (upfront c k s).Ends R (fun _ f => f.cause ∈ C) True :=
  upfront_ends hok hC fun _ _ => trivial

theorem raisesOnly_sequence {l : List Prim} (hkeeps : ∀ p ∈ l, Keeps I p) (hC : ∀ p ∈ l, ∀ s, I s → Only C (p s)) :
    RaisesOnly I C (sequence l) := by
  induction l with
  | nil => exact fun _ hs => hs
  | cons p l ih =>
    rw [List.forall_mem_cons] at hkeeps hC
    exact fun s hs => andThen_ends (runPrim_ends_only (fun t => hkeeps.1 s t hs) (hC.1 s hs)) (ih hkeeps.2 hC.2)

theorem raisesOnly_eachChannel {g : Channel → State → Progress} (h : ∀ ch, RaisesOnly I C (g ch)) :
    ∀ l, RaisesOnly I C (eachChannel g l)
  | [] => fun _ hs => hs
  | ch :: l => fun s hs => andThen_ends (h ch s hs) (raisesOnly_eachChannel h l)

/-! ## The tile loops -/

/-- A round that begins at a tile raises what its work raises there (R204, R205). -/
theorem round_ends {l : List Prim} (hframe : ∀ p ∈ l, ∃ W, Frame W [] p)
    (hC : ∀ p ∈ l, ∀ s, LegalTile hw s → Only C (p s)) {k : Nat} (hs : TilingAt n k s) :
    (sequence (l ++ [tnext hw]) s).Ends (fun t => TilingOf n t ∧ AfterRound t (k + 1)) (fun _ f => f.cause ∈ C) True := by
  have hlegal {u : State} (hu : TilingAt n k u) : LegalTile hw u := hu.2.legal hu.1.1
  rw [sequence_append]
  refine andThen_ends (raisesOnly_sequence (fun p hp => ?_) (fun p hp u hu => hC p hp u (hlegal hu)) s hs) fun u hu => ?_
  · obtain ⟨W, hp⟩ := hframe p hp
    exact hp.keeps_tilingAt
  · rw [sequence_singleton]
    refine runPrim_ends_only (fun t ht => ?_) (hlegal hu).only_tnext
    exact tilingAt_round (l := []) (by simp) hu ((sequence_singleton _ u).trans (runPrim_ok_iff.2 ht))

/-- TRST and then the rounds raise what the work of a round raises at a tile. -/
theorem raisesOnly_trst_untilLast {l : List Prim} (hframe : ∀ p ∈ l, ∃ W, Frame W [] p)
    (hC : ∀ p ∈ l, ∀ s, LegalTile hw s → Only C (p s)) :
    RaisesOnly (TilingOf n) C
      fun s => (runPrim trst s).andThen fun t => untilLast (sequence (l ++ [tnext hw])) t.tiles t := by
  intro s hs
  refine andThen_ends (Q := fun t => TilingOf n t ∧ AtTile t 0) (runPrim_ends_only (fun t ht => ?_) (only_ok _))
    fun t ⟨htiling, hat⟩ => ?_
  · obtain rfl := trst_ok_iff.1 ht
    exact ⟨hs, trst_atTile hs.1⟩
  · rw [htiling.2]
    exact Progress.ends_of_imp (untilLast_tiles (J := fun _ => TilingOf n) (fun _ _ h => h.2)
      (fun k u hu hat => round_ends hframe hC ⟨hu, hat⟩) htiling hat) (fun _ h => h.1) fun _ _ h => h

theorem raisesOnly_fqTiles (hC : ∀ c ∈ causesOf .quant, c ∈ C) : RaisesOnly (TilingOf n) C (fqTiles hw ch) := by
  intro s hs
  rw [fqTiles, fqBody_eq]
  exact raisesOnly_trst_untilLast (frame_fqWorkPrims ch) (fun p hp u hu => (hu.only_fqWorkPrims hp).mono hC) s hs

theorem raisesOnly_dqiTiles : RaisesOnly (TilingOf n) C (dqiTiles hw ch) := by
  intro s hs
  rw [dqiTiles, dqiBody_eq]
  exact raisesOnly_trst_untilLast (frame_dqiWorkPrims ch) (fun p hp u hu => hu.only_dqiWorkPrims hp) s hs

/-! ## The composites -/

theorem fqplane_ends_only (ch : Channel) (s : State) :
    (fqplane hw ch s).Ends (TilingOf s.tiles) (fun _ f => f.cause ∈ causesOf (.fqplane ch)) True :=
  upfront_ends_only (only_pshape_true.mono (by simp [causesOf])) fun hshape =>
    upfront_ends_only (only_qparam.mono (by simp [causesOf])) fun _ =>
      raisesOnly_fqTiles (by simp [causesOf]) s ⟨pshape_true_ok_iff.1 hshape, rfl⟩

theorem dqiplane_ends_only (ch : Channel) (s : State) :
    (dqiplane hw ch s).Ends (TilingOf s.tiles) (fun _ f => f.cause ∈ causesOf (.dqiplane ch)) True :=
  upfront_ends_only (only_pshape_true.mono (by simp [causesOf])) fun hshape =>
    raisesOnly_dqiTiles s ⟨pshape_true_ok_iff.1 hshape, rfl⟩

/-- ENCODE's work on a channel raises what QUANT and PACK raise (R215). -/
theorem raisesOnly_encodeChannel : RaisesOnly (TilingOf n) (causesOf .encode) (encodeChannel hw ch) := fun s hs =>
  andThen_ends (raisesOnly_fqTiles (by simp [causesOf]) s hs) fun t ht =>
    runPrim_ends_only (fun u => shapeKeeping_pack.keeps_tilingOf t u ht) (only_pack.mono (by simp [causesOf]))

theorem encodeAll_ends_only (s : State) :
    (encodeAll hw s).Ends (TilingOf (cropRows s / 8 * (cropCols s / 8))) (fun _ f => f.cause ∈ causesOf .encode) True :=
  upfront_ends_only (only_inshape.mono (by simp [causesOf])) fun _ =>
    upfront_ends_only (only_qparam.mono (by simp [causesOf])) fun _ =>
      andThen_ends (runPrim_ends_only (fun _ => rgb2ycc_tilingOf) (only_rgb2ycc.mono (by simp [causesOf])))
        (raisesOnly_eachChannel (fun _ => raisesOnly_encodeChannel) _)

theorem raisesOnly_unpack : RaisesOnly (TilingOf n) (causesOf .decode) (runPrim (unpack hw ch)) := fun s hs =>
  runPrim_ends_only (fun t => shapeKeeping_unpack.keeps_tilingOf s t hs) (only_unpack.mono (by simp [causesOf]))

theorem decodeAll_ends_only (s : State) :
    (decodeAll hw s).Ends (fun _ => True) (fun _ f => f.cause ∈ causesOf .decode) True :=
  upfront_ends_only (only_pshape_true.mono (by simp [causesOf])) fun hshape =>
    andThen_ends
      (andThen_ends (raisesOnly_eachChannel (fun _ => raisesOnly_unpack) _ s ⟨pshape_true_ok_iff.1 hshape, rfl⟩)
        (raisesOnly_eachChannel (fun _ => raisesOnly_dqiTiles) _))
      fun _ _ => runPrim_ends_only (fun _ _ => trivial) (only_ycc2rgb.mono (by simp [causesOf]))

theorem Progress.Ends.of_raised {R : State → Prop} {F : State → Raised → Prop} {G : Prop} {q : Progress}
    (h : q.Ends R F G) (hq : q = .raised u f) : F u f := by
  rw [hq] at h
  exact h

/-- The fault a command stops in has a cause of its row (R248). -/
theorem cause_mem_causesOf (h : progressOf i s = .raised u f) : f.cause ∈ causesOf i := by
  cases hi : isComposite i with
  | false =>
    rw [progressOf_of_primitive hi] at h
    exact only_primOf hi s f (runPrim_raised_iff.1 h).1
  | true =>
    cases i with
    | fqplane ch => exact (fqplane_ends_only ch s).of_raised h
    | dqiplane ch => exact (dqiplane_ends_only ch s).of_raised h
    | encode => exact (encodeAll_ends_only s).of_raised h
    | decode => exact (decodeAll_ends_only s).of_raised h
    | _ => cases hi

/-- Settles O17: `ERRCODE` is the code of the cause that the command stopped in. -/
theorem faultsOfEachCommand : Obligations.FaultsOfEachCommand := by
  intro i s t herr h hterr
  obtain ⟨u, f, hraised, rfl⟩ := exec_newly_faulted herr h hterr
  exact ⟨f.cause, cause_mem_causesOf hraised, takeFault_errcode u f⟩

end Sys2Proof.Machine
end

section
/-! The inputs of the composites (R245): the registers by the frame of the command, the buffers by what each of its primitives
does to the memory as a whole. -/

namespace Sys2Proof.Machine

variable {s t : State} {i : Instr} {cfg : Config} {ch : Channel} {p : Prim} {P : Memory → Prop}

/-! ## Registers -/

/-- A control register that a command does not write keeps its word, completed or faulted (R41). -/
theorem reg_of_exec (h : exec i s = .next t) (r : Reg) (hr : r ∉ regsOf s i) (hfault : r ∉ [.status, .errcode, .errinfo]) :
    t.reg r = s.reg r := by
  simp only [List.mem_cons, List.not_mem_nil, or_false, not_or] at hfault
  obtain ⟨hstatus, hcode, hinfo⟩ := hfault
  obtain ⟨-, hregs, -⟩ := frameOfEveryCommand i s t h
  simpa only [readReg_offset] using hregs r hr hstatus fun hx => (hx.elim hcode hinfo).elim

/-! ## Memory -/

/-- What the primitives of FQPLANE do to the memory: only STQBLK writes, to the quantized planes. -/
theorem fqPrims_mem (hp : p ∈ fqPrims cfg ch) (h : p s = .ok t) : ∃ q, t.mem = { s.mem with qpl := q } := by
  simp only [fqPrims, List.mem_cons, List.not_mem_nil, or_false] at hp
  rcases hp with rfl | rfl | rfl | rfl | rfl | rfl | rfl
  · exact ⟨_, by rw [trst_ok_iff.1 h, State.setLast_mem]⟩
  · obtain ⟨-, b, -, rfl⟩ := ldblk_ok_iff.1 h
    exact ⟨_, rfl⟩
  · exact ⟨_, by rw [center_ok_iff.1 h]⟩
  · exact ⟨_, by rw [fdct8_ok_iff.1 h]⟩
  · obtain ⟨-, q, -, rfl⟩ := quant_ok_iff.1 h
    exact ⟨_, rfl⟩
  · exact ⟨_, by rw [(stqblk_ok_iff.1 h).2, State.putQpl_mem]⟩
  · exact ⟨_, by rw [(tnext_ok_iff.1 h).2, nextTile_mem]⟩

/-- What the primitives of DQIPLANE do to the memory: only STBLK writes, to the plane of the channel. -/
theorem dqiPrims_mem (hp : p ∈ dqiPrims cfg ch) (h : p s = .ok t) :
    ∃ b, t.mem = { s.mem with pln := s.mem.pln.set ch b } := by
  have hsame : s.mem = { s.mem with pln := s.mem.pln.set ch (s.mem.pln.get ch) } := by rw [Chan3.set_get_self]
  simp only [dqiPrims, List.mem_cons, List.not_mem_nil, or_false] at hp
  rcases hp with rfl | rfl | rfl | rfl | rfl | rfl | rfl
  · exact ⟨_, by rw [trst_ok_iff.1 h, State.setLast_mem]; exact hsame⟩
  · obtain ⟨-, b, -, rfl⟩ := ldqblk_ok_iff.1 h
    exact ⟨_, hsame⟩
  · exact ⟨_, by rw [dequant_ok_iff.1 h]; exact hsame⟩
  · exact ⟨_, by rw [idct8_ok_iff.1 h]; exact hsame⟩
  · exact ⟨_, by rw [uncenter_ok_iff.1 h]; exact hsame⟩
  · exact ⟨_, by rw [(stblk_ok_iff.1 h).2, State.putPln_mem]⟩
  · exact ⟨_, by rw [(tnext_ok_iff.1 h).2, nextTile_mem]; exact hsame⟩

theorem unpack_mem (h : unpack cfg ch s = .ok t) : ∃ q, t.mem = { s.mem with qpl := q } := by
  obtain ⟨-, -, rows, -, rfl⟩ := unpack_ok_iff.1 h
  exact ⟨_, State.putQpl_mem s ch _⟩

theorem ycc2rgb_mem (h : ycc2rgb cfg s = .ok t) : ∃ b, t.mem = { s.mem with opix := b } := by
  obtain ⟨-, px, -, rfl⟩ := ycc2rgb_ok_iff.1 h
  exact ⟨_, State.putOpix_mem s _⟩

/-- A property of the memory that the work of a command keeps holds at its end, completed or faulted (R80, R243). -/
theorem Progress.Ends.of_mem {q : Progress} (hq : q.Ends (fun u => P u.mem) (fun u _ => P u.mem) True)
    (ht : finish q = .next t) : P t.mem := by
  rcases Progress.ends_next hq ht with ⟨u, hu, rfl⟩ | ⟨u, f, hu, rfl⟩
  · exact hu
  · exact hu

/-! ## The composites -/

/-- Exchanging the pixels for themselves changes nothing, and commutes with ENCODE. -/
theorem encode_pix (h : exec .encode s = .next t) : t.mem.pix = s.mem.pix := by
  have hsame : exec .encode s = mapNext (.withPix s.mem.pix) (exec .encode s) :=
    exec_encode_withPix (pix := s.mem.pix) fun _ _ _ _ _ _ => rfl
  rw [h] at hsame
  have htarget : t = t.withPix s.mem.pix := Host.Outcome.next.inj hsame
  rw [htarget]
  rfl

theorem fqplane_pln (h : exec (.fqplane ch) s = .next t) : t.mem.pln = s.mem.pln := by
  refine Progress.Ends.of_mem (P := fun m => m.pln = s.mem.pln) (keeps_fqplane (fun p hp u v hu hv => ?_) rfl) h
  obtain ⟨q, hmem⟩ := fqPrims_mem hp hv
  rwa [hmem]

theorem dqiplane_qpl (h : exec (.dqiplane ch) s = .next t) : t.mem.qpl = s.mem.qpl := by
  refine Progress.Ends.of_mem (P := fun m => m.qpl = s.mem.qpl) (keeps_dqiplane (fun p hp u v hu hv => ?_) rfl) h
  obtain ⟨b, hmem⟩ := dqiPrims_mem hp hv
  rwa [hmem]

/-- The buffers of the Artifact (R216): the sparse arrays, and the planes of the channels outside `l`, which are dense. -/
def ArtifactKept (l : List Channel) (m m' : Memory) : Prop :=
  m'.val = m.val ∧ m'.coli = m.coli ∧ m'.rptr = m.rptr ∧ ∀ ch, ch ∉ l → m'.pln.get ch = m.pln.get ch

theorem decode_artifactKept (h : exec .decode s = .next t) : ArtifactKept (sparseChannels s) s.mem t.mem := by
  have hstart : ArtifactKept (sparseChannels s) s.mem s.mem := ⟨rfl, rfl, rfl, fun _ _ => rfl⟩
  refine Progress.Ends.of_mem
    (keeps_decodeAll (fun u v hu hv => ?_) (fun ch hch => ⟨fun p hp u v hu hv => ?_, fun u v hu hv => ?_⟩) hstart) h
  · obtain ⟨b, hmem⟩ := ycc2rgb_mem hv
    rwa [hmem]
  · obtain ⟨hval, hcoli, hrptr, hpln⟩ := hu
    obtain ⟨b, hmem⟩ := dqiPrims_mem hp hv
    rw [hmem]
    refine ⟨hval, hcoli, hrptr, fun ch' hch' => ?_⟩
    have hne : ch' ≠ ch := fun heq => hch' (heq ▸ hch)
    exact (Chan3.get_set_ne _ _ hne).trans (hpln ch' hch')
  · obtain ⟨q, hmem⟩ := unpack_mem hv
    rwa [hmem]

/-- Settles O18: the registers by the frame, the buffers by what each primitive does to the memory. -/
theorem compositesKeepTheirInputs : Obligations.CompositesKeepTheirInputs := by
  intro s t
  refine ⟨fun h => ?_, fun h => ?_, fun ch => fqplane_pln, fun ch => dqiplane_qpl⟩
  · have kept (r : Reg) := reg_of_exec h r
    exact ⟨encode_pix h, kept .height (by simp [regsOf]) (by decide), kept .width (by simp [regsOf]) (by decide),
      kept .channels (by simp [regsOf]) (by decide), kept .threshold (by simp [regsOf]) (by decide),
      kept .bandCutoff (by simp [regsOf]) (by decide), kept .ctrl (by simp [regsOf]) (by decide)⟩
  · have kept (r : Reg) := reg_of_exec h r
    obtain ⟨hval, hcoli, hrptr, hpln⟩ := decode_artifactKept h
    refine ⟨kept .rows (by simp [regsOf]) (by decide), kept .cols (by simp [regsOf]) (by decide),
      kept .ctrl (by simp [regsOf]) (by decide),
      Chan3.ext_get fun ch => kept (.vallen ch) (by simp [regsOf]) (by simp),
      Chan3.ext_get fun ch => kept (.collen ch) (by simp [regsOf]) (by simp),
      Chan3.ext_get fun ch => kept (.rptrlen ch) (by simp [regsOf]) (by simp), hval, hcoli, hrptr, fun hchroma => ?_⟩
    have hsparse : sparseChannels s = [.y] := if_neg (by simp [hchroma])
    rw [hsparse] at hpln
    exact ⟨hpln .cb (by decide), hpln .cr (by decide)⟩

end Sys2Proof.Machine
end
